-- ==== Sys2Proof/Word.lean ====
section
/-!
DEFINITION. The engine's two word types (00_scope.md R10): bus and bitmap bytes are 8 bits, host registers,
addresses and timestamps are 32 bits. Coordinates are mathematical integers (D14) and so have no type here.
-/
namespace Sys2Proof

/-- A bus byte or a bitmap byte (R10). -/
abbrev Byte := BitVec 8

/-- A host register, a bitmap address or a timestamp (R10, R15, R63). -/
abbrev Word := BitVec 32

end Sys2Proof
end

