-- ==== Sys2Proof/Syntax.lean ====
section
/-!
DEFINITION. The requests (30_encoding.md R72), one constructor per row of the opcode table, each with the fields R71
says it reads, and the descriptor of eight words that carries them (R66). Coordinates are the integers the fields decode
to (R68).
-/
namespace Sys2Proof

/-- The request descriptor REQ[0..7] (R66). -/
structure Desc where
  w0 : Word
  w1 : Word
  w2 : Word
  w3 : Word
  w4 : Word
  w5 : Word
  w6 : Word
  w7 : Word
deriving DecidableEq, Repr

/-- The reset style that INIT's PULLDOWN bit selects (R67, R91). -/
inductive ResetStyle where
  | pulse
  | pulldown
deriving DecidableEq, Repr

/-- Target position and size, X, Y, W, H (R68). -/
structure Rect where
  x : Int
  y : Int
  w : Int
  h : Int
deriving DecidableEq, Repr

/-- Sub-origin and bitmap size of a "part" request, XPART, YPART, WBMP, HBMP (R68). -/
structure SubImage where
  xPart : Int
  yPart : Int
  wBmp  : Int
  hBmp  : Int
deriving DecidableEq, Repr

/-- The two bitmap memories, selected by SRC (R39, R67). -/
inductive Space where
  | direct
  | readThrough
deriving DecidableEq, Repr

/-- The image flags INV, MIRY and SRC (R67). -/
structure ImageFlags where
  inv   : Bool
  mir   : Bool
  space : Space
deriving DecidableEq, Repr

/-- The requests (R72) with the fields each reads (R71). -/
inductive Instr where
  | init (style : ResetStyle)
  | powerOn
  | powerOff
  | hibernate
  | waitBusy
  | writeScreenBuffer (fill : Byte)
  | writeImage (base : Word) (r : Rect) (f : ImageFlags)
  | writeImageAgain (base : Word) (r : Rect) (f : ImageFlags)
  | writeImagePart (base : Word) (sub : SubImage) (r : Rect) (f : ImageFlags)
  | writeImagePartAgain (base : Word) (sub : SubImage) (r : Rect) (f : ImageFlags)
  | writeImageDual (base0 base1 : Word) (r : Rect) (f : ImageFlags)
  | writeImagePartDual (base0 base1 : Word) (sub : SubImage) (r : Rect) (f : ImageFlags)
  | refresh (isPartial : Bool)
  | refreshRect (r : Rect)
  | drawImage (base : Word) (r : Rect) (f : ImageFlags)
  | drawImagePart (base : Word) (sub : SubImage) (r : Rect) (f : ImageFlags)
  | drawImageDual (base0 base1 : Word) (r : Rect) (f : ImageFlags)
  | drawImagePartDual (base0 base1 : Word) (sub : SubImage) (r : Rect) (f : ImageFlags)
deriving DecidableEq, Repr

end Sys2Proof
end

