-- ==== Sys2Proof/Decode.lean ====
section
/-!
DEFINITION. Decoding of a latched descriptor (30_encoding.md R66–R75, the first two checks of R80) and, after it, the
encoder (R67–R70, R76: a field the request does not read is 0). Decoding is total on eight words and rejects by name.
-/
namespace Sys2Proof

/-- Why a descriptor is no request: the two dispatch checks that read the descriptor alone (R169, R170). -/
inductive DecodeError where
  | illegalOpcode
  | reservedBits
deriving DecidableEq, Repr

/-- OP = REQ0[7:0] (R67). -/
def Desc.op (d : Desc) : Byte := d.w0.extractLsb' 0 8

/-- Bits [15:0] of a word read as a signed integer (R68). -/
def lowS16 (w : Word) : Int := (w.extractLsb' 0 16).toInt

/-- Bits [31:16] of a word read as a signed integer (R68). -/
def highS16 (w : Word) : Int := (w.extractLsb' 16 16).toInt

/-- X, Y, W, H from words 1 and 2 (R68). -/
def Desc.rect (d : Desc) : Rect :=
  { x := lowS16 d.w1, y := highS16 d.w1, w := lowS16 d.w2, h := highS16 d.w2 }

/-- XPART, YPART, WBMP, HBMP from words 3 and 4 (R68). -/
def Desc.sub (d : Desc) : SubImage :=
  { xPart := lowS16 d.w3, yPart := highS16 d.w3, wBmp := lowS16 d.w4, hBmp := highS16 d.w4 }

/-- INV = REQ0[8], MIRY = REQ0[9], SRC = REQ0[10] (R67). -/
def Desc.imageFlags (d : Desc) : ImageFlags :=
  { inv := d.w0.getLsbD 8, mir := d.w0.getLsbD 9,
    space := if d.w0.getLsbD 10 then .readThrough else .direct }

/-- PULLDOWN = REQ0[11]: 0 is PULSE, 1 is PULLDOWN (R67). -/
def Desc.resetStyle (d : Desc) : ResetStyle := if d.w0.getLsbD 11 then .pulldown else .pulse

/-- PARTIAL = REQ0[12] (R67). -/
def Desc.isPartial (d : Desc) : Bool := d.w0.getLsbD 12

/-- FILL = REQ7[7:0] (R70). -/
def Desc.fill (d : Desc) : Byte := d.w7.extractLsb' 0 8

/-- REQ0[31:13] = 0 and REQ7[31:8] = 0 (R67, R70, R73(b)). -/
def Desc.reservedClear (d : Desc) : Bool :=
  decide (d.w0.extractLsb' 13 19 = 0) && decide (d.w7.extractLsb' 8 24 = 0)

/-- The request of an opcode with its fields, or none for the illegal opcodes of R73(a) (R71, R72). -/
def Desc.request (d : Desc) : Option Instr :=
  match d.op.toNat with
  | 0x01 => some (.init d.resetStyle)
  | 0x02 => some .powerOn
  | 0x03 => some .powerOff
  | 0x04 => some .hibernate
  | 0x05 => some .waitBusy
  | 0x10 => some (.writeScreenBuffer d.fill)
  | 0x11 => some (.writeImage d.w5 d.rect d.imageFlags)
  | 0x12 => some (.writeImageAgain d.w5 d.rect d.imageFlags)
  | 0x13 => some (.writeImagePart d.w5 d.sub d.rect d.imageFlags)
  | 0x14 => some (.writeImagePartAgain d.w5 d.sub d.rect d.imageFlags)
  | 0x15 => some (.writeImageDual d.w5 d.w6 d.rect d.imageFlags)
  | 0x16 => some (.writeImagePartDual d.w5 d.w6 d.sub d.rect d.imageFlags)
  | 0x20 => some (.refresh d.isPartial)
  | 0x21 => some (.refreshRect d.rect)
  | 0x30 => some (.drawImage d.w5 d.rect d.imageFlags)
  | 0x31 => some (.drawImagePart d.w5 d.sub d.rect d.imageFlags)
  | 0x32 => some (.drawImageDual d.w5 d.w6 d.rect d.imageFlags)
  | 0x33 => some (.drawImagePartDual d.w5 d.w6 d.sub d.rect d.imageFlags)
  | _ => none

/-- Decoding with the first two checks of Dispatch, in their order: an illegal opcode is reported before reserved bits
(R80, R172). -/
def decode (d : Desc) : Except DecodeError Instr :=
  match d.request with
  | none => .error .illegalOpcode
  | some i => if d.reservedClear then .ok i else .error .reservedBits

/-! ## The encoder -/

/-- Two coordinates in one word, the first in [15:0] (R68). -/
def packS16 (lo hi : Int) : Word := BitVec.ofInt 16 hi ++ BitVec.ofInt 16 lo

/-- A flag at bit n of REQ0 (R67). -/
def flagBit (n : Nat) (b : Bool) : Word := if b then BitVec.ofNat 32 (2 ^ n) else 0

/-- REQ0 of an image form: OP, INV, MIRY, SRC (R67). -/
def imageWord (op : Byte) (f : ImageFlags) : Word :=
  op.setWidth 32 ||| flagBit 8 f.inv ||| flagBit 9 f.mir ||| flagBit 10 (decide (f.space = .readThrough))

/-- A descriptor whose words 1 to 7 are 0 (R76). -/
def bareDesc (w0 : Word) : Desc := { w0 := w0, w1 := 0, w2 := 0, w3 := 0, w4 := 0, w5 := 0, w6 := 0, w7 := 0 }

/-- A descriptor of an image, part, dual or dual part form (R68, R69); what a form lacks is 0. -/
def imageDesc (op : Byte) (base0 base1 : Word) (p : SubImage) (r : Rect) (f : ImageFlags) : Desc :=
  { w0 := imageWord op f, w1 := packS16 r.x r.y, w2 := packS16 r.w r.h,
    w3 := packS16 p.xPart p.yPart, w4 := packS16 p.wBmp p.hBmp, w5 := base0, w6 := base1, w7 := 0 }

/-- The sub-image fields of a form that has none (R76). -/
def noSub : SubImage := { xPart := 0, yPart := 0, wBmp := 0, hBmp := 0 }

/-- The descriptor of a request (R67–R70, R72); a field the request does not read is 0 (R76). -/
def encode : Instr → Desc
  | .init style => bareDesc (0x01 ||| flagBit 11 (decide (style = .pulldown)))
  | .powerOn => bareDesc 0x02
  | .powerOff => bareDesc 0x03
  | .hibernate => bareDesc 0x04
  | .waitBusy => bareDesc 0x05
  | .writeScreenBuffer fill => { bareDesc 0x10 with w7 := fill.setWidth 32 }
  | .writeImage base r f => imageDesc 0x11 base 0 noSub r f
  | .writeImageAgain base r f => imageDesc 0x12 base 0 noSub r f
  | .writeImagePart base p r f => imageDesc 0x13 base 0 p r f
  | .writeImagePartAgain base p r f => imageDesc 0x14 base 0 p r f
  | .writeImageDual base0 base1 r f => imageDesc 0x15 base0 base1 noSub r f
  | .writeImagePartDual base0 base1 p r f => imageDesc 0x16 base0 base1 p r f
  | .refresh isPartial => bareDesc (0x20 ||| flagBit 12 isPartial)
  | .refreshRect r => { bareDesc 0x21 with w1 := packS16 r.x r.y, w2 := packS16 r.w r.h }
  | .drawImage base r f => imageDesc 0x30 base 0 noSub r f
  | .drawImagePart base p r f => imageDesc 0x31 base 0 p r f
  | .drawImageDual base0 base1 r f => imageDesc 0x32 base0 base1 noSub r f
  | .drawImagePartDual base0 base1 p r f => imageDesc 0x33 base0 base1 p r f

/-! ## Pseudo-requests -/

/-- CLEAR is WRITE_SCREEN_BUFFER 0xFF (R77). -/
def pseudoClear : Instr := .writeScreenBuffer 0xFF

/-- REFRESH_FULL is REFRESH.full (R77). -/
def pseudoRefreshFull : Instr := .refresh false

/-- REFRESH_PARTIAL is REFRESH.partial (R77). -/
def pseudoRefreshPartial : Instr := .refresh true

/-! ## The opcode table's numbering -/

/-- Word k of a descriptor numbered as the opcode table numbers bits: bit 0 is bit 0 of REQ0, bit 32 is bit 0 of REQ1
(98_reader.md). -/
def tableWord (w k : Nat) : Word := BitVec.ofNat 32 (w / 2 ^ (32 * k))

/-- The descriptor whose low nbits bits are w's and whose other bits are 0. A descriptor is stored as words, so no byte
order enters (R44(d)). -/
def descOfTable (nbits w : Nat) : Desc :=
  let v := w % 2 ^ nbits
  { w0 := tableWord v 0, w1 := tableWord v 1, w2 := tableWord v 2, w3 := tableWord v 3,
    w4 := tableWord v 4, w5 := tableWord v 5, w6 := tableWord v 6, w7 := tableWord v 7 }

/-- What the decoder reads from a descriptor given as one number in the opcode table's bit numbering. -/
def decodeTableWord (nbits w : Nat) : Option Instr :=
  match decode (descOfTable nbits w) with
  | .ok i => some i
  | .error _ => none

end Sys2Proof
end

