-- ==== Sys2Proof/Config.lean ====
section
/-!
DEFINITION. The configuration record CFG (00_scope.md R7) and the protocol description PD (R8) as plain data, and the
free values: opaque constants without a body, one per oracle of the spec, which nothing in Lean can evaluate (log 6).
The values of the test configuration and the well-formedness check of R9 are in Machine/Defaults.lean.
-/
namespace Sys2Proof

/-- One step of a PD sequence: a command byte and its data bytes (R8). -/
structure SeqStep where
  cmd  : Byte
  args : List Byte
deriving DecidableEq, Repr

/-- The protocol description PD (R8). Its bytes are bytes by type, which is condition (d) of R9. -/
structure Pd where
  opDataEntry        : Byte
  entryXyInc         : Byte
  opRamXWindow       : Byte
  opRamYWindow       : Byte
  opRamXCounter      : Byte
  opRamYCounter      : Byte
  opWriteRamCurrent  : Byte
  opWriteRamPrevious : Byte
  initPre            : List SeqStep
  initPost           : List SeqStep
  seqPowerOn         : List SeqStep
  seqPowerOff        : List SeqStep
  seqFullUpdate      : List SeqStep
  seqPartialUpdate   : List SeqStep
  seqDeepSleep       : List SeqStep
deriving DecidableEq, Repr

/-- The configuration record CFG (R7). BUSY_LEVEL is a bit and so meets R9(c) by type. -/
structure Cfg where
  width                  : Nat
  height                 : Nat
  hasColor               : Bool
  hasPartial             : Bool
  hasFastPartial         : Bool
  hasCs                  : Bool
  hasDc                  : Bool
  hasRst                 : Bool
  hasBusy                : Bool
  busyLevel              : Bool
  busyTimeoutUs          : Word
  spiClockHz             : Nat
  spiMode                : Nat
  tResetPulseMs          : Nat
  tResetSettleMs         : Nat
  tPowerOnMs             : Nat
  tPowerOffMs            : Nat
  tFullRefreshMs         : Nat
  tPartialRefreshMs      : Nat
  tYieldMs               : Nat
  initialClearValue      : Byte
  waitAfterPartialUpdate : Bool
  pd                     : Pd
deriving DecidableEq, Repr

/-- FREE VALUE (R65): whether the n-th bus transfer fails, where the environment's script says nothing. -/
opaque Config.freeBusFailure : Nat → Bool

/-- FREE VALUE (R41): whether the n-th bitmap read reports an error, where the script says nothing. -/
opaque Config.freeSourceError : Nat → Bool

/-- FREE VALUE (R64): the level of the n-th busy-line sample, where the script says nothing. -/
opaque Config.freeBusyLevel : Nat → Bool

/-- FREE VALUE (R63): the microseconds behind the n-th advance of the time source, where the script says nothing. -/
opaque Config.freeElapsed : Nat → Nat

/-- FREE VALUE (R53): whether the n-th raced bitmap byte is seen new, where the script says nothing. -/
opaque Config.freeRace : Nat → Bool

end Sys2Proof
end

