-- ==== Sys2Proof/Machine/Defaults.lean ====
section
/-!
DEFINITION. Values of the configuration record: the default PD (00_scope.md R8, general knowledge G1, log 18), the
test configuration CFG_T (95_test_vectors.md section 0, log 1), and the well-formedness check of R9.
-/
namespace Sys2Proof.Machine

/-- The default PD of R8's table, for a panel of height h. -/
def pdDefault (h : Nat) : Pd where
  opDataEntry        := 0x11
  entryXyInc         := 0x03
  opRamXWindow       := 0x44
  opRamYWindow       := 0x45
  opRamXCounter      := 0x4E
  opRamYCounter      := 0x4F
  opWriteRamCurrent  := 0x24
  opWriteRamPrevious := 0x26
  initPre            := [⟨0x01, [BitVec.ofNat 8 ((h - 1) % 256), BitVec.ofNat 8 ((h - 1) / 256), 0x00]⟩, ⟨0x11, [0x03]⟩]
  initPost           := [⟨0x3C, [0x05]⟩, ⟨0x18, [0x80]⟩, ⟨0x21, [0x00, 0x80]⟩]
  seqPowerOn         := [⟨0x22, [0xE0]⟩, ⟨0x20, []⟩]
  seqPowerOff        := [⟨0x22, [0x83]⟩, ⟨0x20, []⟩]
  seqFullUpdate      := [⟨0x22, [0xF7]⟩, ⟨0x20, []⟩]
  seqPartialUpdate   := [⟨0x22, [0xFC]⟩, ⟨0x20, []⟩]
  seqDeepSleep       := [⟨0x10, [0x01]⟩]

/-- CFG_T, the test configuration (95_test_vectors.md section 0). -/
def cfgTest : Cfg where
  width                  := 16
  height                 := 4
  hasColor               := false
  hasPartial             := true
  hasFastPartial         := false
  hasCs                  := true
  hasDc                  := true
  hasRst                 := true
  hasBusy                := true
  busyLevel              := true
  busyTimeoutUs          := 10000000
  spiClockHz             := 4000000
  spiMode                := 0
  tResetPulseMs          := 10
  tResetSettleMs         := 10
  tPowerOnMs             := 100
  tPowerOffMs            := 120
  tFullRefreshMs         := 2000
  tPartialRefreshMs      := 500
  tYieldMs               := 0
  initialClearValue      := 0xFF
  waitAfterPartialUpdate := false
  pd                     := pdDefault 4

/-- A well-formed configuration (R9): W a multiple of 8 in 8..2048, H in 1..32767, SPI_MODE in 0..3. BUSY_LEVEL and the
bytes of PD are in range by their types. -/
def cfgWf (c : Cfg) : Bool :=
  decide (c.width % 8 = 0) && decide (8 ≤ c.width) && decide (c.width ≤ 2048)
    && decide (1 ≤ c.height) && decide (c.height ≤ 32767) && decide (c.spiMode ≤ 3)

end Sys2Proof.Machine
end

