-- ==== Sys2Proof/Machine/State.lean ====
section
/-!
DEFINITION. The machine's state as plain data (10_state.md), the reasons a step can stop, and the state after reset
(R38). What the spec names and what the model adds is listed in INVENTORY.md under State.
-/
namespace Sys2Proof.Machine

/-- An output line: driven low, driven high, or released, which is not driven (R33). -/
inductive LineLevel where
  | low
  | high
  | released
deriving DecidableEq, Repr

/-- The line state (R33). -/
structure Lines where
  configured : Bool
  cs  : LineLevel
  dc  : LineLevel
  rst : LineLevel
deriving DecidableEq, Repr

/-- The fields of STATUS (R19). The 32-bit word is `statusWord`. -/
structure Status where
  ready           : Bool
  fault           : Bool
  waiting         : Bool
  faultCode       : BitVec 4
  timeout         : Bool
  lastWaitTimeout : Bool
  drop            : Bool
  faultOp         : Byte
deriving DecidableEq, Repr

/-- The controller-state flags S (R21 to R26). The 32-bit word STATE is `stateWord`. -/
structure Flags where
  powerOn          : Bool
  usingPartialMode : Bool
  initialWrite     : Bool
  initialRefresh   : Bool
  hibernating      : Bool
  initDone         : Bool
deriving DecidableEq, Repr

/-- The names of the controller-state flags (R21 to R26). -/
inductive FlagName where
  | powerOn
  | usingPartialMode
  | initialWrite
  | initialRefresh
  | hibernating
  | initDone
deriving DecidableEq, Repr

/-- The sequencer's phase (R31). -/
inductive Phase where
  | idle
  | run
  | wait
deriving DecidableEq, Repr

/-- The engine's fault codes (R167). An engine fault is a next state, not a stop of the model. -/
inductive FaultKind where
  | illegalOpcode
  | reservedBits
  | notInitialized
  | unsupported
  | hibernatingAccess
  | busError
  | sourceError
deriving DecidableEq, Repr

/-- One entry of the launch-wide fault record (R168): the fault and the opcode of the request that raised it. -/
structure FaultEntry where
  kind : FaultKind
  op   : Byte
deriving DecidableEq, Repr

/-- Command byte or data byte (R49, R86). -/
inductive ByteKind where
  | cmd
  | data
deriving DecidableEq, Repr

/-- The caller of a busy wait (R95). -/
inductive WaitLabel where
  | powerOn
  | powerOff
  | fullUpdate
  | partialUpdate
  | explicit
deriving DecidableEq, Repr

/-- How a busy wait ended (R50, R95). -/
inductive WaitOutcome where
  | released
  | timeout
deriving DecidableEq, Repr

/-- An event of the bus log (R50). -/
inductive Event where
  | lineSetup
  | resetPulse (style : ResetStyle)
  | busSetup
  | cmd (b : Byte)
  | data (b : Byte)
  | delay (ms : Nat)
  | busy (label : WaitLabel) (outcome : WaitOutcome)
deriving DecidableEq, Repr

/-- One step of the engine inside a request (R6): a bus event, a bitmap read with the byte it sends, a busy poll, a delay,
or a flag or status write of the pseudocode (R54). -/
inductive Act where
  /-- Transfer (R86). -/
  | send (b : ByteKind × Byte)
  /-- BusData(SrcByte): the read (R131, R41), then the transfer. -/
  | stream (space : Space) (inv : Bool) (a : Word)
  /-- S.f <- v. -/
  | setFlag (f : FlagName) (v : Bool)
  /-- INIT's first step: the sticky fields of STATUS cleared (R107, D46) and S.initDone set (R26). -/
  | initBegin
  /-- STATUS.LAST_WAIT_TIMEOUT <- 0 without a busy line (R95). -/
  | clearLastWait
  /-- LineSetup (R92). -/
  | lineSetup
  /-- BusSetup (R92). -/
  | busSetup
  /-- RST_LEVEL <- 0 (R91). -/
  | resetLow
  /-- The wait of T_RESET_PULSE_MS, the release of the line and the event (R91). -/
  | resetPulse (style : ResetStyle) (ms : Nat)
  /-- STATUS.WAITING <- 1 of a Delay (R93). -/
  | delayBegin
  /-- The blocking, the event and WAITING <- 0 of a Delay (R93). -/
  | delayEnd (ms : Nat)
  /-- STATUS.WAITING <- 1 and T0 <- Now() of a busy wait (R95). -/
  | waitBegin
  /-- One sample of the busy line, with n passes of the loop left (R95, R96). -/
  | sample (label : WaitLabel) (n : Nat)
  /-- The wait of 1 ms and the comparison of the times, with n passes left after it (R95). -/
  | interval (label : WaitLabel) (n : Nat)
  /-- A fault of Dispatch (R80, R168). -/
  | raise (k : FaultKind)
  /-- STATUS.READY <- 1 at the end of Dispatch (R80). -/
  | complete
deriving DecidableEq, Repr

/-- A request's pseudocode as the steps it takes, and what remains of it while it runs (R31). Its only conditions that the
configuration and the descriptor leave open are on flags (R200). -/
inductive Prog where
  | skip
  | act (a : Act)
  | seq (p q : Prog)
  | ifFlag (f : FlagName) (p q : Prog)
deriving DecidableEq, Repr

/-- What one transfer drove: the levels of CS and DC while the byte was shifted out, and its bits in the order sent
(R78, R86). The model's own record (log 12). -/
structure WireFrame where
  cs   : LineLevel
  dc   : LineLevel
  bits : List Bool
deriving DecidableEq, Repr

/-- A bitmap memory as a list of (address, byte) cells in canonical form (`memWf`). -/
abbrev Memory := List Host.Cell

/-- What the running request reads at an address that the host has written during it, the byte the latest write replaced or the
one it wrote (R53); it stays so until the host writes there again (R46(a), log 7). -/
structure SeenByte where
  space : Space
  addr  : Word
  byte  : Byte
deriving DecidableEq, Repr

/-- A move of the host (R201), consumed in order (log 5). `pass` lets the engine take one step; `hold` ends the machine's step
there, with the request in flight; `awaitReady` is the host reading STATUS until READY = 1 (R187, R191); `engineReset`
asserts the engine's reset input (R38). -/
inductive HostMove where
  | write (offset width : Nat) (value : Word)
  | read (offset width : Nat)
  | poke (space : Space) (addr : Word) (b : Byte)
  | engineReset
  | pass
  | hold
  | awaitReady
deriving DecidableEq, Repr

/-- An oracle of the spec: the answers the environment will give next, then free values; `drawn` counts the draws made
(log 6). -/
structure Oracle (α : Type) where
  script : List α
  drawn  : Nat
deriving DecidableEq, Repr

/-- The environment: bus failure (R65), source error (R41), busy level (R64), advance of the time source (R63), race
outcome (R53: true is the new byte), the time source's count, and whether it runs (R203). -/
structure Env where
  bus      : Oracle Bool
  source   : Oracle Bool
  busy     : Oracle Bool
  elapsed  : Oracle Nat
  race     : Oracle Bool
  clock    : Word
  timeRuns : Bool
deriving DecidableEq, Repr

/-- The whole state. Every field is named in INVENTORY.md. `todo` is the sequencer's position: the steps the running request
has still to take, and `skip` while none runs (R31). -/
structure State where
  cfg         : Cfg
  req         : Desc
  shadow      : Desc
  status      : Status
  flags       : Flags
  todo        : Prog
  t0          : Word
  lines       : Lines
  log         : List Event
  wire        : List WireFrame
  direct      : Memory
  readThrough : Memory
  seen        : List SeenByte
  faultRecord : List FaultEntry
  inbox       : List HostMove
  replies     : List Word
  env         : Env
deriving DecidableEq, Repr

/-- Why the model stops. -/
inductive Fault where
  /-- Raised by a step of a request in flight whose delay, reset pulse or poll interval cannot end because the time source
  has stopped, when the host makes no move either: the engine hangs (R203, B-1). Safe: the hardware has no next state. -/
  | timeSourceStopped
deriving DecidableEq, Repr

/-- What the model gives no meaning to. -/
inductive Refusal where
  /-- An instruction without a meaning, by its mnemonic. Raised by no arm of this model. Safe. -/
  | notModelled (mnemonic : String)
  /-- Raised by every step and request under a configuration that R9 refuses. Safe. -/
  | illFormedConfig
  /-- Raised by a host access at an offset of 0x40 or above (R30). Safe. -/
  | outsideBlock
  /-- Raised by a host access that is narrower than 32 bits or not at a multiple of 4 (R30). Safe. -/
  | unalignedAccess
deriving DecidableEq, Repr

/-- A descriptor of zeros (R38). -/
def descZero : Desc := { w0 := 0, w1 := 0, w2 := 0, w3 := 0, w4 := 0, w5 := 0, w6 := 0, w7 := 0 }

/-- STATUS after reset, 0x00000001 (R38). -/
def statusReset : Status :=
  { ready := true, fault := false, waiting := false, faultCode := 0, timeout := false, lastWaitTimeout := false,
    drop := false, faultOp := 0 }

/-- The flags after reset, STATE = 0x0000000C (R38). -/
def flagsReset : Flags :=
  { powerOn := false, usingPartialMode := false, initialWrite := true, initialRefresh := true, hibernating := false,
    initDone := false }

/-- The lines after reset: not configured, none driven (R33, R38; log 3). -/
def linesReset : Lines := { configured := false, cs := .released, dc := .released, rst := .released }

/-- The environment before anything is drawn: every draw is a free value (log 6), and the time source runs (log 9). -/
def envReset : Env :=
  { bus := ⟨[], 0⟩, source := ⟨[], 0⟩, busy := ⟨[], 0⟩, elapsed := ⟨[], 0⟩, race := ⟨[], 0⟩, clock := 0, timeRuns := true }

/-- The machine right after reset, for a configuration (R38, R204 clean entry). -/
def State.resetOf (c : Cfg) : State where
  cfg         := c
  req         := descZero
  shadow      := descZero
  status      := statusReset
  flags       := flagsReset
  todo        := .skip
  t0          := 0
  lines       := linesReset
  log         := []
  wire        := []
  direct      := []
  readThrough := []
  seen        := []
  faultRecord := []
  inbox       := []
  replies     := []
  env         := envReset

/-- The machine right after reset, configured as CFG_T (log 1). -/
def State.reset : State := State.resetOf cfgTest

end Sys2Proof.Machine
end

