-- ==== Sys2Proof/Machine/Flags.lean ====
section
/-!
DEFINITION. The controller-state flags, the STATUS fields and every computation over them: the register words STATUS,
STATE, GEOM, CAPS and BUSYTO (10_state.md R19, R20, R29), the fault codes (60_exceptions.md R167), taking a fault (R168),
the phase (R31) and the flag and status writes of the rules.
-/
namespace Sys2Proof.Machine

/-- One bit of a word at a bit number. -/
def bitAt (n : Nat) (b : Bool) : Word := if b then BitVec.ofNat 32 (2 ^ n) else 0

/-- The STATUS register (R19). -/
def statusWord (st : Status) : Word :=
  bitAt 0 st.ready ||| bitAt 1 st.fault ||| bitAt 2 st.waiting ||| (st.faultCode.setWidth 32 <<< 4)
    ||| bitAt 8 st.timeout ||| bitAt 9 st.lastWaitTimeout ||| bitAt 10 st.drop ||| (st.faultOp.setWidth 32 <<< 16)

/-- The STATE register (R20). -/
def stateWord (f : Flags) : Word :=
  bitAt 0 f.powerOn ||| bitAt 1 f.usingPartialMode ||| bitAt 2 f.initialWrite ||| bitAt 3 f.initialRefresh
    ||| bitAt 4 f.hibernating ||| bitAt 5 f.initDone

/-- The GEOM register: W in [15:0], H in [31:16] (R29). -/
def geomWord (c : Cfg) : Word := BitVec.ofNat 16 c.height ++ BitVec.ofNat 16 c.width

/-- The CAPS register (R29). -/
def capsWord (c : Cfg) : Word :=
  bitAt 0 c.hasColor ||| bitAt 1 c.hasPartial ||| bitAt 2 c.hasFastPartial ||| bitAt 3 c.hasCs ||| bitAt 4 c.hasDc
    ||| bitAt 5 c.hasRst ||| bitAt 6 c.hasBusy ||| bitAt 7 c.busyLevel ||| bitAt 8 c.waitAfterPartialUpdate

/-- The sequencer's phase: IDLE exactly when READY = 1, WAIT exactly when WAITING = 1 (R31). -/
def State.phase (s : State) : Phase :=
  if s.status.ready then .idle else if s.status.waiting then .wait else .run

/-- The code of a fault (R167). -/
def faultCodeOf : FaultKind → BitVec 4
  | .illegalOpcode => 0x1
  | .reservedBits => 0x2
  | .notInitialized => 0x3
  | .unsupported => 0x4
  | .hibernatingAccess => 0x5
  | .busError => 0x6
  | .sourceError => 0x7

/-! ## Flag reads and writes (R21 to R26) -/

/-- A flag by its name. -/
def Flags.get (f : Flags) : FlagName → Bool
  | .powerOn => f.powerOn
  | .usingPartialMode => f.usingPartialMode
  | .initialWrite => f.initialWrite
  | .initialRefresh => f.initialRefresh
  | .hibernating => f.hibernating
  | .initDone => f.initDone

/-- The flags with one of them written. -/
def Flags.set (f : Flags) (n : FlagName) (v : Bool) : Flags :=
  match n with
  | .powerOn => { f with powerOn := v }
  | .usingPartialMode => { f with usingPartialMode := v }
  | .initialWrite => { f with initialWrite := v }
  | .initialRefresh => { f with initialRefresh := v }
  | .hibernating => { f with hibernating := v }
  | .initDone => { f with initDone := v }

/-- S.f <- v. -/
def setFlag (n : FlagName) (v : Bool) (s : State) : State := { s with flags := s.flags.set n v }

/-! ## Status writes (R19) -/

/-- STATUS.WAITING <- v (R93, R95). -/
def setWaiting (v : Bool) (s : State) : State := { s with status := { s.status with waiting := v } }

/-- STATUS.DROP <- 1 (R17). -/
def setDrop (s : State) : State := { s with status := { s.status with drop := true } }

/-- STATUS.LAST_WAIT_TIMEOUT <- 0, the end of a wait without a busy line (R95). -/
def clearLastWait (s : State) : State := { s with status := { s.status with lastWaitTimeout := false } }

/-- The status writes at the end of a busy poll (R95). -/
def recordWait (o : WaitOutcome) (s : State) : State :=
  match o with
  | .released => { s with status := { s.status with lastWaitTimeout := false } }
  | .timeout => { s with status := { s.status with lastWaitTimeout := true, timeout := true } }

/-- The status writes of INIT's first step (R107, R19, D46). -/
def clearSticky (s : State) : State :=
  { s with status := { s.status with fault := false, faultCode := 0, faultOp := 0, timeout := false,
                                     lastWaitTimeout := false, drop := false } }

/-- INIT's first step: the sticky fields cleared (R107, D46), and S.initDone 1 once it has run (R26; log 24). -/
def initBegin (s : State) : State := setFlag .initDone true (clearSticky s)

/-! ## The end of a request -/

/-- raise Fault(code): the status writes of R168 with FAULT_OP from the latched descriptor, and the entry in the
launch-wide record. The request has ended, so what remained of it and its raced bytes are dropped (R31, R53). Nothing else is
undone (R166). -/
def raiseFault (k : FaultKind) (s : State) : State :=
  { s with
    status := { s.status with ready := true, fault := true, waiting := false, faultCode := faultCodeOf k,
                              faultOp := s.shadow.op }
    todo := .skip
    seen := []
    faultRecord := s.faultRecord ++ [{ kind := k, op := s.shadow.op }] }

/-- The end of Dispatch: STATUS.READY <- 1 (R80). -/
def completed (s : State) : State :=
  { s with status := { s.status with ready := true }, todo := .skip, seen := [] }

end Sys2Proof.Machine
end

