-- ==== Sys2Proof/Machine/Memory.lean ====
section
/-!
DEFINITION. Bitmap memory (20_memory.md R39–R41): two spaces of 2^32 bytes, each a list of cells in one canonical form.
An unlisted address reads as `unlistedByte` (log 4). That the two spaces are two memories is the model's choice: R40 leaves
open which physical memory backs each (log 23).
-/
namespace Sys2Proof.Machine

/-- What an address that no cell lists reads as. DESIGN CHOICE (log 4): the spec gives the bitmap memories no contents. -/
def unlistedByte : Byte := 0x00

/-- The byte at an address (R40). -/
def memRead : Memory → Nat → Byte
  | [], _ => unlistedByte
  | (a, b) :: rest, n => if n = a then b else memRead rest n

/-- Put a cell in front of a memory whose addresses are all greater, unless the cell lists nothing. -/
def memCons (n : Nat) (b : Byte) (m : Memory) : Memory := if b = unlistedByte then m else (n, b) :: m

/-- Write one byte, keeping the canonical form: cells rise, and a byte that reads as unlisted is not listed. -/
def memWrite : Memory → Nat → Byte → Memory
  | [], n, b => memCons n b []
  | (a, c) :: rest, n, b =>
    if n < a then memCons n b ((a, c) :: rest)
    else if n = a then memCons n b rest
    else (a, c) :: memWrite rest n b

/-- Every address of a memory is at least n and they rise strictly, no cell lists the unlisted byte, and every address
is a 32-bit one. -/
def memWfFrom : Nat → Memory → Bool
  | _, [] => true
  | n, (a, b) :: rest => decide (n ≤ a) && decide (a < 2 ^ 32) && decide (b ≠ unlistedByte) && memWfFrom (a + 1) rest

/-- The canonical form of a memory. -/
def memWf (m : Memory) : Bool := memWfFrom 0 m

/-- The memory behind a space (R39). DESIGN CHOICE (log 23): a memory of its own for each space, where the platform may back
both with one (R40, D37). -/
def memOf (space : Space) (s : State) : Memory :=
  match space with
  | .direct => s.direct
  | .readThrough => s.readThrough

/-- The byte a space holds at a 32-bit address. -/
def byteAt (space : Space) (a : Word) (s : State) : Byte := memRead (memOf space s) a.toNat

/-- The state with one byte of a space written by the host (R201, bitmap supply). DESIGN CHOICE (log 23): the other space keeps
its bytes, since the model gives each space a memory of its own. -/
def setByte (space : Space) (a : Word) (b : Byte) (s : State) : State :=
  match space with
  | .direct => { s with direct := memWrite s.direct a.toNat b }
  | .readThrough => { s with readThrough := memWrite s.readThrough a.toNat b }

end Sys2Proof.Machine
end

