-- ==== Sys2Proof/Machine/Operands.lean ====
section
/-!
DEFINITION. The partial-window address calculator (42_window_address.md): AlignClip, PartClamp, SrcIndex, the window's
bytes, and the plane descriptor with the region it resolves to (43_write.md R132, R136). All on mathematical integers;
Lean's / and % on Int are floor division and its remainder for a positive divisor (R10, D15).
-/
namespace Sys2Proof.Machine

/-- ceil8(w) = (w + 7) div 8 (R10). -/
def ceil8 (w : Int) : Int := (w + 7) / 8

/-- The low byte of an integer; for the values of R122 it is the value itself. -/
def byteOf (n : Int) : Byte := BitVec.ofInt 8 n

/-- A non-empty result of AlignClip (R120). -/
structure Clipped where
  x1 : Int
  y1 : Int
  w1 : Int
  h1 : Int
  dx : Int
  dy : Int
  wb : Int
deriving DecidableEq, Repr

/-- AlignClip(x, y, w, h); none is EMPTY (R120). -/
def alignClip (c : Cfg) (x y w h : Int) : Option Clipped :=
  let wb := ceil8 w
  let xa := x - x % 8
  let wa := 8 * wb
  let x1 := max xa 0
  let y1 := max y 0
  let w1 := min (xa + wa) c.width - x1
  let h1 := min (y + h) c.height - y1
  if w1 ≤ 0 ∨ h1 ≤ 0 then none
  else some { x1 := x1, y1 := y1, w1 := w1, h1 := h1, dx := x1 - xa, dy := y1 - y, wb := wb }

/-- The result of PartClamp (R124). -/
structure PartWindow where
  xPa : Int
  w'  : Int
  h'  : Int
deriving DecidableEq, Repr

/-- PartClamp(xPart, yPart, wBmp, hBmp, w, h); none is REJECT (R124). -/
def partClamp (p : SubImage) (w h : Int) : Option PartWindow :=
  if p.wBmp < 0 ∨ p.hBmp < 0 ∨ w < 0 ∨ h < 0 then none
  else if p.xPart < 0 ∨ p.xPart ≥ p.wBmp then none
  else if p.yPart < 0 ∨ p.yPart ≥ p.hBmp then none
  else
    let xPa := p.xPart - p.xPart % 8
    some { xPa := xPa, w' := min w (p.wBmp - xPa), h' := min h (p.hBmp - p.yPart) }

/-- The controller's two RAM buffers (R130). -/
inductive Buffer where
  | cur
  | prev
deriving DecidableEq, Repr

/-- The form of a region write (R132): the part form carries its sub-image. -/
inductive Form where
  | image
  | part (sub : SubImage)
deriving DecidableEq, Repr

/-- A plane descriptor (R132). -/
structure Plane where
  form  : Form
  space : Space
  base  : Word
  rect  : Rect
  inv   : Bool
  mir   : Bool
  sel   : Buffer
deriving DecidableEq, Repr

/-- The source parameters of a request form (R125). -/
structure Source where
  colBase : Int
  rowBase : Int
  wbSrc   : Int
  hSrc    : Int
deriving DecidableEq, Repr

/-- What steps 1 to 5 of WriteRegion resolve a plane to (R136): the clipped rectangle and the source parameters. -/
structure Region where
  clip : Clipped
  src  : Source
deriving DecidableEq, Repr

/-- Steps 1 to 5 of WriteRegion; none is a write that is rejected or empty, a no-op (R136). -/
def resolveRegion (c : Cfg) (p : Plane) : Option Region :=
  if p.rect.w < 0 ∨ p.rect.h < 0 then none
  else
    match p.form with
    | .image =>
      (alignClip c p.rect.x p.rect.y p.rect.w p.rect.h).map fun r =>
        { clip := r, src := { colBase := 0, rowBase := 0, wbSrc := ceil8 p.rect.w, hSrc := p.rect.h } }
    | .part sub =>
      (partClamp sub p.rect.w p.rect.h).bind fun q =>
        (alignClip c p.rect.x p.rect.y q.w' q.h').map fun r =>
          { clip := r,
            src := { colBase := q.xPa / 8, rowBase := sub.yPart, wbSrc := ceil8 sub.wBmp, hSrc := sub.hBmp } }

/-- The source row of a window row, reflected within the whole bitmap when mirrored (R125, R126). -/
def srcRow (mir : Bool) (g : Region) (i : Int) : Int :=
  let row := g.src.rowBase + i + g.clip.dy
  if mir then g.src.hSrc - 1 - row else row

/-- SrcIndex(i, j), or SrcIndexMirror(i, j) when mirrored (R125, R126). -/
def srcIndex (mir : Bool) (g : Region) (i j : Int) : Int :=
  g.src.colBase + j + g.clip.dx / 8 + srcRow mir g i * g.src.wbSrc

/-- The source indices of a region in the order they are streamed: rows top first, byte columns left first (R135). -/
def regionIndices (mir : Bool) (g : Region) : List Int :=
  (List.range g.clip.h1.toNat).flatMap fun (i : Nat) =>
    (List.range (g.clip.w1 / 8).toNat).map fun (j : Nat) => srcIndex mir g (i : Int) (j : Int)

/-- The address (base + idx) mod 2^32 (R41, R131). -/
def sourceAddr (base : Word) (idx : Int) : Word := base + BitVec.ofInt 32 idx

/-- A source byte with the invert flag applied: ~b = 255 - b (R131, R10). -/
def applyInvert (inv : Bool) (b : Byte) : Byte := if inv then ~~~b else b

/-- The bytes of a PD sequence in the order sent (R90). -/
def seqBytes (seq : List SeqStep) : List (ByteKind × Byte) :=
  seq.flatMap fun st => (.cmd, st.cmd) :: st.args.map fun b => (.data, b)

/-- The bytes of SetPartialRamArea(x, y, w, h): entry mode, X window, Y window, X counter, Y counter (R122). -/
def windowBytes (pd : Pd) (x y w h : Int) : List (ByteKind × Byte) :=
  let xs := x / 8
  let xe := (x + w - 1) / 8
  let ys := y
  let ye := y + h - 1
  [(.cmd, pd.opDataEntry), (.data, pd.entryXyInc),
   (.cmd, pd.opRamXWindow), (.data, byteOf xs), (.data, byteOf xe),
   (.cmd, pd.opRamYWindow), (.data, byteOf (ys % 256)), (.data, byteOf (ys / 256)),
     (.data, byteOf (ye % 256)), (.data, byteOf (ye / 256)),
   (.cmd, pd.opRamXCounter), (.data, byteOf xs),
   (.cmd, pd.opRamYCounter), (.data, byteOf (ys % 256)), (.data, byteOf (ys / 256))]

/-- The select command of a buffer (R130). -/
def selectByte (pd : Pd) : Buffer → Byte
  | .cur => pd.opWriteRamCurrent
  | .prev => pd.opWriteRamPrevious

/-- The window of a clipped rectangle and the buffer select that follows it at once (R123(a), R135). -/
def targetBytes (pd : Pd) (r : Clipped) (sel : Buffer) : List (ByteKind × Byte) :=
  windowBytes pd r.x1 r.y1 r.w1 r.h1 ++ [(.cmd, selectByte pd sel)]

/-- The full panel's window, a buffer select, and the panel's bytes all of one value (R137). -/
def fillBytes (c : Cfg) (sel : Buffer) (v : Byte) : List (ByteKind × Byte) :=
  windowBytes c.pd 0 0 c.width c.height ++ (.cmd, selectByte c.pd sel) :: List.replicate (c.width * c.height / 8) (.data, v)

/-- The controller init command sequence (R104). -/
def initControllerBytes (c : Cfg) : List (ByteKind × Byte) :=
  seqBytes c.pd.initPre ++ windowBytes c.pd 0 0 c.width c.height ++ seqBytes c.pd.initPost

/-- Pc(F): the plane of a plain or part write (43_write.md section 2). -/
def planeCur (form : Form) (base : Word) (r : Rect) (f : ImageFlags) : Plane :=
  { form := form, space := f.space, base := base, rect := r, inv := f.inv, mir := f.mir, sel := .cur }

/-- Pp(F): the plane of an "again" write. -/
def planePrev (form : Form) (base : Word) (r : Rect) (f : ImageFlags) : Plane :=
  { form := form, space := f.space, base := base, rect := r, inv := f.inv, mir := f.mir, sel := .prev }

/-- P1(F): the colour plane of a dual write, with the complement of INV (R139). -/
def planeColour (form : Form) (base1 : Word) (r : Rect) (f : ImageFlags) : Plane :=
  { form := form, space := f.space, base := base1, rect := r, inv := !f.inv, mir := f.mir, sel := .prev }

end Sys2Proof.Machine
end

