-- ==== Sys2Proof/Machine/Ops.lean ====
section
/-!
DEFINITION. The operations every request is made of: how a request's steps go on, the oracles, the host's accesses and where
they land, the transport primitives with the busy-poll controller (40_transport.md), each as what one step of the engine does
(R6), the run of the steps, and the transport's routines as steps; last what wraps every request: the dispatch checks that
read state, and the request's end (30_encoding.md R80).
-/
namespace Sys2Proof.Machine

/-! ## How a request goes on -/

/-- What steps lead to: the request goes on; it has ended, normally, by an engine fault (R168) or by the engine's reset; or
the machine's step ends with the request in flight, and `todo` holds what is left of it (R31, log 5). -/
inductive Progress where
  | going (s : State)
  | ended (s : State)
  | held (s : State)

/-- The state reached. -/
def Progress.state : Progress → State
  | .going s => s
  | .ended s => s
  | .held s => s

/-- Sequencing of the pseudocode: the rest runs only if the steps before it go on (R166), and is still to do if they are held. -/
def Progress.andThen (p : Progress) (rest : Prog) (k : State → Progress) : Progress :=
  match p with
  | .going s => k s
  | .ended s => .ended s
  | .held s => .held { s with todo := .seq s.todo rest }

/-! ## Oracles (log 6) -/

/-- The k-th answer still to come: the script's, else the free value. -/
def Oracle.peek {α : Type} (free : Nat → α) (o : Oracle α) (k : Nat) : α :=
  match o.script[k]? with
  | some a => a
  | none => free (o.drawn + k)

/-- The oracle after n draws. -/
def Oracle.skip {α : Type} (o : Oracle α) (n : Nat) : Oracle α :=
  { script := o.script.drop n, drawn := o.drawn + n }

/-- One bus failure answer (R65). -/
def drawBus (s : State) : Bool × State :=
  (s.env.bus.peek Config.freeBusFailure 0, { s with env := { s.env with bus := s.env.bus.skip 1 } })

/-- One source error answer (R41). -/
def drawSource (s : State) : Bool × State :=
  (s.env.source.peek Config.freeSourceError 0, { s with env := { s.env with source := s.env.source.skip 1 } })

/-- ReadBusy(): one sample of the busy line (R64, R94). -/
def readBusy (s : State) : Bool × State :=
  (s.env.busy.peek Config.freeBusyLevel 0, { s with env := { s.env with busy := s.env.busy.skip 1 } })

/-- Advance the time source's count by a number of microseconds computed from one answer (R63). -/
def advanceClock (us : Nat → Nat) (s : State) : State :=
  { s with env := { s.env with
      clock := s.env.clock + BitVec.ofNat 32 (us (s.env.elapsed.peek Config.freeElapsed 0))
      elapsed := s.env.elapsed.skip 1 } }

/-! ## Host accesses (10_state.md R15 to R17, R29, R30) -/

/-- Word k of a descriptor. -/
def descGet (d : Desc) : Nat → Word
  | 0 => d.w0
  | 1 => d.w1
  | 2 => d.w2
  | 3 => d.w3
  | 4 => d.w4
  | 5 => d.w5
  | 6 => d.w6
  | _ => d.w7

/-- A descriptor with word k written. -/
def descSet (d : Desc) (v : Word) : Nat → Desc
  | 0 => { d with w0 := v }
  | 1 => { d with w1 := v }
  | 2 => { d with w2 := v }
  | 3 => { d with w3 := v }
  | 4 => { d with w4 := v }
  | 5 => { d with w5 := v }
  | 6 => { d with w6 := v }
  | _ => { d with w7 := v }

/-- What R30 refuses: an offset outside the block, a width other than 32 bits (4 bytes), a misaligned offset. -/
def accessRefusal (offset width : Nat) : Option Refusal :=
  if 0x40 ≤ offset then some .outsideBlock
  else if width ≠ 4 ∨ offset % 4 ≠ 0 then some .unalignedAccess
  else none

/-- The value of the register at an aligned offset below 0x40 (R15 to R20, R29, R30). GO and the reserved offsets read 0. -/
def regRead (offset : Nat) (s : State) : Word :=
  if offset < 0x20 then descGet s.req (offset / 4)
  else match offset with
    | 0x24 => statusWord s.status
    | 0x28 => stateWord s.flags
    | 0x2C => geomWord s.cfg
    | 0x30 => capsWord s.cfg
    | 0x34 => s.cfg.busyTimeoutUs
    | _ => 0

/-- A start that is taken: READY = 1, and FAULT = 0 or the descriptor is an INIT (R17). -/
def startTaken (v : Word) (s : State) : Bool :=
  v.getLsbD 0 && s.status.ready && (!s.status.fault || decide (s.req.op = 0x01))

/-- The latch of a taken start: SHADOW <- REQ, READY <- 0 (R17, R18). -/
def latchStart (s : State) : State := { s with shadow := s.req, status := { s.status with ready := false } }

/-- OnGoWrite(v) up to Dispatch: nothing, a drop, or the latch (R17). -/
def onGoWrite (v : Word) (s : State) : State :=
  if v.getLsbD 0 then (if startTaken v s then latchStart s else setDrop s) else s

/-- A write to the register at an aligned offset below 0x40: REQ0 to REQ7 store (R16), GO may start (R17), writes to every
other register are ignored (R19, R20, R29, R30). -/
def regWrite (offset : Nat) (v : Word) (s : State) : State :=
  if offset < 0x20 then { s with req := descSet s.req v (offset / 4) }
  else if offset = 0x20 then onGoWrite v s
  else s

/-- The byte the engine reads at an address: the space's, or, where the host has written it during the request, what that
write's race left (R41, R53). -/
def engineByte (space : Space) (a : Word) (s : State) : Byte :=
  match s.seen.find? fun e => decide (e.space = space ∧ e.addr = a) with
  | some e => e.byte
  | none => byteAt space a s

/-- The race of R53 for a byte the host writes while a request runs: from now on the request sees the new byte, or the old one,
which is what the memory holds until this write. One draw per write, so that two reads with no write between give one byte (R46(a),
log 7). -/
def raceByte (space : Space) (a : Word) (b : Byte) (s : State) : State :=
  { s with
    seen := { space := space, addr := a
              byte := if s.env.race.peek Config.freeRace 0 then b else byteAt space a s } :: s.seen
    env := { s.env with race := s.env.race.skip 1 } }

/-- The host writes a bitmap byte (R201); while a request runs, it races with the request's reads (R53). -/
def hostPoke (space : Space) (a : Word) (b : Byte) (s : State) : State :=
  setByte space a b (if s.status.ready then s else raceByte space a b s)

/-- The engine's reset input (R38): every piece of the engine's state at its reset value. What is not the engine's stays:
the bitmap memories, the environment, the host's moves and what it has read, and the fault record (log 10, log 14). -/
def engineReset (s : State) : State :=
  { State.resetOf s.cfg with
    direct := s.direct, readThrough := s.readThrough, faultRecord := s.faultRecord, inbox := s.inbox,
    replies := s.replies, env := s.env }

/-- The accesses the host makes before the next step of a running request (R54): all its moves up to a `pass`, which is
consumed, or up to an `awaitReady`, which is not, since READY is 0. At a `hold`, and before an access that R30 refuses, the
machine's step ends with the request in flight (log 5). -/
def landMoves : List HostMove → State → Progress
  | [], s => .going { s with inbox := [] }
  | .pass :: rest, s => .going { s with inbox := rest }
  | .awaitReady :: rest, s => .going { s with inbox := .awaitReady :: rest }
  | .hold :: rest, s => .held { s with inbox := rest }
  | .engineReset :: rest, s => .ended (engineReset { s with inbox := rest })
  | .poke space a b :: rest, s => landMoves rest (hostPoke space a b s)
  | .write offset width v :: rest, s =>
    match accessRefusal offset width with
    | some _ => .held { s with inbox := .write offset width v :: rest }
    | none => landMoves rest (regWrite offset v s)
  | .read offset width :: rest, s =>
    match accessRefusal offset width with
    | some _ => .held { s with inbox := .read offset width :: rest }
    | none => landMoves rest { s with replies := s.replies ++ [regRead offset s] }

/-- The point before a step of the engine: the host's accesses land (R6, R54). -/
def hostTurn (s : State) : Progress := landMoves s.inbox s

/-- A step `a` of the engine that does `now`: first the host's turn; where the host holds the machine there, `a` is still to
do. -/
def takeStep (a : Act) (now : State → Progress) (s : State) : Progress :=
  match hostTurn s with
  | .going s => now s
  | .ended s => .ended s
  | .held s => .held { s with todo := .act a }

/-! ## Transfers (40_transport.md R86 to R90) -/

/-- The bits of a byte in the order shifted out, bit 7 first (R86, R78). -/
def shiftOut (b : Byte) : List Bool :=
  [b.getLsbD 7, b.getLsbD 6, b.getLsbD 5, b.getLsbD 4, b.getLsbD 3, b.getLsbD 2, b.getLsbD 1, b.getLsbD 0]

/-- A line's level when it is driven: unchanged if the line is absent (R98). -/
def driveIf (present : Bool) (level old : LineLevel) : LineLevel := if present then level else old

/-- What a transfer drives while the byte is shifted out: CS 0, DC 1 for data and 0 for a command (R86). -/
def wireFrame (k : ByteKind) (b : Byte) (s : State) : WireFrame :=
  { cs := driveIf s.cfg.hasCs .low s.lines.cs
    dc := driveIf s.cfg.hasDc (match k with | .cmd => .low | .data => .high) s.lines.dc
    bits := shiftOut b }

/-- The wire activity of a transfer: the frame, then CS and DC back at their idle level 1 (R86). -/
def driveByte (k : ByteKind) (b : Byte) (s : State) : State :=
  { s with
    wire := s.wire ++ [wireFrame k b s]
    lines := { s.lines with cs := driveIf s.cfg.hasCs .high s.lines.cs, dc := driveIf s.cfg.hasDc .high s.lines.dc } }

/-- The event of a byte (R50). -/
def byteEvent : ByteKind × Byte → Event
  | (.cmd, b) => .cmd b
  | (.data, b) => .data b

/-- Append an event to the bus log (R50). -/
def emit (e : Event) (s : State) : State := { s with log := s.log ++ [e] }

/-- Transfer(kind, b) once the host's accesses have landed: the hibernating check before any line moves, the byte driven,
then the failure check, which precedes the event (R86, R172). -/
def transferNow (b : ByteKind × Byte) (s : State) : Progress :=
  if s.flags.hibernating then .ended (raiseFault .hibernatingAccess s)
  else
    let (failed, s) := drawBus (driveByte b.1 b.2 s)
    if failed then .ended (raiseFault .busError s) else .going (emit (byteEvent b) s)

/-- Transfer(kind, b), BusCmd and BusData (R86 to R88). -/
def transfer (b : ByteKind × Byte) : State → Progress := takeStep (.send b) (transferNow b)

/-- BusData(SrcByte(space, base, idx, inv)) once the host's accesses have landed: the read, which may report an error, then
the transfer of the byte, which is a step of its own (R41, R131, R135). -/
def streamNow (space : Space) (inv : Bool) (a : Word) (s : State) : Progress :=
  let (err, s) := drawSource s
  if err then .ended (raiseFault .sourceError s) else transfer (.data, applyInvert inv (engineByte space a s)) s

/-! ## Waits (40_transport.md R93 to R97) -/

/-- A wait of the time source inside step `a`: it ends unless the source has stopped, and then the step is still to do
(R203, log 9). -/
def waitMs (ms : Nat) (a : Act) (now : State → Progress) (s : State) : Progress :=
  if ms = 0 ∨ s.env.timeRuns = true then now s else .held { s with todo := .act a }

/-- The blocking of Delay(ms), its event, and WAITING <- 0 (R93). -/
def delayNow (ms : Nat) : State → Progress :=
  waitMs ms (.delayEnd ms) fun s => .going (setWaiting false (emit (.delay ms) s))

/-- The microseconds a poll interval takes: at least 1000, and few enough not to wrap past the bound (R63(b), log 8). -/
def pollMicros (timeout : Word) (extra : Nat) : Nat := 1000 + extra % max 1 (2 ^ 32 - timeout.toNat - 1000)

/-- (Now() - T0) mod 2^32 > BUSY_TIMEOUT_US (R95). -/
def pollExpired (s : State) : Bool := decide (s.cfg.busyTimeoutUs < s.env.clock - s.t0)

/-- T0 <- Now(), after any time (R95, R63). -/
def startTimer (s : State) : State :=
  let s := advanceClock (fun us => us) s
  { s with t0 := s.env.clock }

/-- The end of a busy poll: the event, then the status writes (R95), in the step that ends the loop (R97, log 5). -/
def endWait (label : WaitLabel) (o : WaitOutcome) (s : State) : State :=
  setWaiting false (recordWait o (emit (.busy label o) s))

/-- The poll interval and the comparison after it (R95), then `next` if the loop goes on. -/
def pollInterval (label : WaitLabel) (n : Nat) (next : State → Progress) : State → Progress :=
  takeStep (.interval label n) (waitMs 1 (.interval label n) fun s =>
    let s := advanceClock (pollMicros s.cfg.busyTimeoutUs) s
    if pollExpired s then .going (endWait label .timeout s) else next s)

/-- The poll loop: sample, wait 1 ms, compare (R95). The count is R96's bound on the passes; a loop that reaches its end,
which R63 excludes, ends as TIMEOUT, which R97(b) allows at any call (log 8). -/
def pollLoop (label : WaitLabel) : Nat → State → Progress
  | 0, s => takeStep (.sample label 0) (fun s => .going (endWait label .timeout s)) s
  | n + 1, s => takeStep (.sample label (n + 1)) (fun s =>
    let (level, s) := readBusy s
    if level ≠ s.cfg.busyLevel then .going (endWait label .released s)
    else pollInterval label n (pollLoop label n) s) s

/-! ## Reset and set-up (40_transport.md R91, R92) -/

/-- LineSetup() (R92). -/
def configureLines (s : State) : State :=
  emit .lineSetup { s with
    lines := { configured := true, cs := driveIf s.cfg.hasCs .high s.lines.cs,
               dc := driveIf s.cfg.hasDc .high s.lines.dc, rst := driveIf s.cfg.hasRst .high s.lines.rst } }

/-- The reset line's level (R91); an absent line is never driven (R98). -/
def setRst (level : LineLevel) (s : State) : State :=
  { s with lines := { s.lines with rst := driveIf s.cfg.hasRst level s.lines.rst } }

/-- Where a reset style leaves the reset line (R91). -/
def rstAfter : ResetStyle → LineLevel
  | .pulse => .high
  | .pulldown => .released

/-- The wait of T_RESET_PULSE_MS, then the line released and the event (R91). -/
def resetPulseNow (style : ResetStyle) (ms : Nat) : State → Progress :=
  waitMs ms (.resetPulse style ms) fun s => .going (emit (.resetPulse style) (setRst (rstAfter style) s))

/-! ## The run of the steps (R6, R31) -/

/-- One step of the engine, after the host's turn; a stream's two steps and the poll loop are run as wholes, with a turn
before each of their steps. -/
def runAct : Act → State → Progress
  | .send b => transfer b
  | .stream space inv a => takeStep (.stream space inv a) (streamNow space inv a)
  | .setFlag f v => takeStep (.setFlag f v) fun s => .going (setFlag f v s)
  | .initBegin => takeStep .initBegin fun s => .going (initBegin s)
  | .clearLastWait => takeStep .clearLastWait fun s => .going (clearLastWait s)
  | .lineSetup => takeStep .lineSetup fun s => .going (configureLines s)
  | .busSetup => takeStep .busSetup fun s => .going (emit .busSetup s)
  | .resetLow => takeStep .resetLow fun s => .going (setRst .low s)
  | .resetPulse style ms => takeStep (.resetPulse style ms) (resetPulseNow style ms)
  | .delayBegin => takeStep .delayBegin fun s => .going (setWaiting true s)
  | .delayEnd ms => takeStep (.delayEnd ms) (delayNow ms)
  | .waitBegin => takeStep .waitBegin fun s => .going (startTimer (setWaiting true s))
  | .sample label n => pollLoop label n
  | .interval label n => pollInterval label n (pollLoop label n)
  | .raise k => takeStep (.raise k) fun s => .ended (raiseFault k s)
  | .complete => takeStep .complete fun s => .ended (completed s)

/-- The steps of a request's pseudocode, in order. -/
def Prog.run : Prog → State → Progress
  | .skip, s => .going s
  | .act a, s => runAct a s
  | .seq p q, s => (p.run s).andThen q q.run
  | .ifFlag f p q, s => if s.flags.get f then p.run s else q.run s

/-- Routines one after another. -/
def steps : List Prog → Prog
  | [] => .skip
  | p :: rest => .seq p (steps rest)

/-! ## The transport's routines (40_transport.md R89 to R95) -/

/-- Bytes sent one after another; bulk transfers are equal to this (R89, R90, R51). -/
def sendBytes (bs : List (ByteKind × Byte)) : Prog := steps (bs.map fun b => .act (.send b))

/-- SendSeq(seq) (R90). -/
def sendSeq (seq : List SeqStep) : Prog := sendBytes (seqBytes seq)

/-- SetPartialRamArea(x, y, w, h) (R122). -/
def setPartialRamArea (x y w h : Int) (c : Cfg) : Prog := sendBytes (windowBytes c.pd x y w h)

/-- The bytes at a list of addresses, each read just before it is sent (R135, R53). -/
def streamBytes (space : Space) (inv : Bool) (addrs : List Word) : Prog :=
  steps (addrs.map fun a => .act (.stream space inv a))

/-- Delay(ms) (R93). -/
def delay (ms : Nat) : Prog := if ms = 0 then .skip else steps [.act .delayBegin, .act (.delayEnd ms)]

/-- Yield() is Delay(CFG.T_YIELD_MS) (R133). -/
def yieldHost (c : Cfg) : Prog := delay c.tYieldMs

/-- R96's bound: BUSY_TIMEOUT_US div 1000 + 1 passes. -/
def pollBound (c : Cfg) : Nat := c.busyTimeoutUs.toNat / 1000 + 1

/-- WaitWhileBusy(label, ms), the busy-poll timeout controller (R95). -/
def waitWhileBusy (label : WaitLabel) (ms : Nat) (c : Cfg) : Prog :=
  if c.hasBusy then steps [.act .waitBegin, .act (.sample label (pollBound c))]
  else steps [delay ms, .act .clearLastWait]

/-- ResetPulse(style): a no-op on the line when there is none, but hibernation ends all the same (R91, C7). -/
def resetPulse (style : ResetStyle) (c : Cfg) : Prog :=
  steps [
    if c.hasRst then
      steps [.act .resetLow, .act (.resetPulse style c.tResetPulseMs), delay c.tResetSettleMs]
    else .skip,
    .act (.setFlag .hibernating false)]

/-! ## A whole request (30_encoding.md R80) -/

/-- What Dispatch asks of state before it runs a request: every request but INIT needs initDone, and a dual-plane request
needs HAS_COLOR. -/
structure Gate where
  needsInit  : Bool
  needsColor : Bool
deriving DecidableEq, Repr

/-- INIT's gate (R80). -/
def gateInit : Gate := { needsInit := false, needsColor := false }

/-- The gate of the other single-plane requests (R80, R171). -/
def gatePlain : Gate := { needsInit := true, needsColor := false }

/-- The gate of the dual-plane requests (R80, R173). -/
def gateDual : Gate := { needsInit := true, needsColor := true }

/-- The dispatch fault a gate gives, NOT_INITIALIZED before UNSUPPORTED (R172). -/
def gateFault (g : Gate) (s : State) : Option FaultKind :=
  if g.needsInit && !s.flags.initDone then some .notInitialized
  else if g.needsColor && !s.cfg.hasColor then some .unsupported
  else none

/-- The start of a request's own steps: READY is 0 and no byte is raced yet (R17, R53). -/
def beginRequest (s : State) : State := { s with status := { s.status with ready := false }, seen := [] }

/-- What Dispatch runs for a request whose routine is `body`: the fault of its checks, or the routine and READY <- 1 (R80). -/
def dispatched (g : Gate) (body : Cfg → Prog) (s : State) : Prog :=
  match gateFault g s with
  | some k => .act (.raise k)
  | none => .seq (body s.cfg) (.act .complete)

/-- The state in which steps taken from a state end: the request's end, or where it is held in flight. -/
def Prog.reach (p : Prog) (s : State) : State := (p.run { s with todo := .skip }).state

/-- A request from its dispatch checks to its end, or to where the host holds it. A configuration that R9 refuses has no
meaning. -/
def request (g : Gate) (body : Cfg → Prog) (s : State) : Host.Outcome State Fault Refusal :=
  if cfgWf s.cfg then .next ((dispatched g body s).reach (beginRequest s)) else .refused .illFormedConfig

end Sys2Proof.Machine
end

