-- ==== Sys2Proof/Machine/Power.lean ====
section
/-!
DEFINITION. The power-state machine (41_power_state.md): its routines as steps, and the requests INIT, POWER_ON, POWER_OFF,
HIBERNATE and WAIT_BUSY.
-/
namespace Sys2Proof.Machine

/-- InitController() (R104). -/
def initController (c : Cfg) : Prog := sendBytes (initControllerBytes c)

/-- PowerOn() (R102). -/
def powerOn (c : Cfg) : Prog :=
  .ifFlag .powerOn .skip
    (steps [sendSeq c.pd.seqPowerOn, waitWhileBusy .powerOn c.tPowerOnMs c, .act (.setFlag .powerOn true)])

/-- PowerOff() (R103). -/
def powerOff (c : Cfg) : Prog :=
  .ifFlag .powerOn
    (steps [sendSeq c.pd.seqPowerOff, waitWhileBusy .powerOff c.tPowerOffMs c, .act (.setFlag .powerOn false),
      .act (.setFlag .usingPartialMode false)])
    .skip

/-- EnterFull() (R100). -/
def enterFull (c : Cfg) : Prog := steps [initController c, powerOn c, .act (.setFlag .usingPartialMode false)]

/-- EnterPartial() (R101). -/
def enterPartial (c : Cfg) : Prog := steps [initController c, powerOn c, .act (.setFlag .usingPartialMode true)]

/-- EnsurePartial() (R106). -/
def ensurePartial (c : Cfg) : Prog := .ifFlag .usingPartialMode .skip (enterPartial c)

/-- INIT's flag writes after the reset (R107). S.initDone is 1 since the first step (R26); R107's own write of it stays in its
place (log 24). -/
def initFlags : Prog :=
  steps [.act (.setFlag .powerOn false), .act (.setFlag .usingPartialMode false), .act (.setFlag .initialWrite true),
    .act (.setFlag .initialRefresh true), .act (.setFlag .hibernating false), .act (.setFlag .initDone true)]

/-- INIT's steps (R107). -/
def initBody (style : ResetStyle) (c : Cfg) : Prog :=
  steps [.act .initBegin, .act .lineSetup, resetPulse style c, initFlags, .act .busSetup]

/-- HIBERNATE's steps (R110). -/
def hibernateBody (c : Cfg) : Prog :=
  steps [powerOff c,
    if c.hasRst then steps [sendSeq c.pd.seqDeepSleep, .act (.setFlag .hibernating true)] else .skip]

/-- WAIT_BUSY's steps (R111). -/
def waitBusyBody (c : Cfg) : Prog := waitWhileBusy .explicit c.tPartialRefreshMs c

/-- INIT (R107). -/
def execInit (style : ResetStyle) (s : State) : Host.Outcome State Fault Refusal :=
  request gateInit (initBody style) s

/-- POWER_ON (R108). -/
def execPowerOn (s : State) : Host.Outcome State Fault Refusal := request gatePlain powerOn s

/-- POWER_OFF (R109). -/
def execPowerOff (s : State) : Host.Outcome State Fault Refusal := request gatePlain powerOff s

/-- HIBERNATE (R110). -/
def execHibernate (s : State) : Host.Outcome State Fault Refusal := request gatePlain hibernateBody s

/-- WAIT_BUSY (R111). -/
def execWaitBusy (s : State) : Host.Outcome State Fault Refusal := request gatePlain waitBusyBody s

end Sys2Proof.Machine
end

