-- ==== Sys2Proof/Machine/Write.lean ====
section
/-!
DEFINITION. The write family (43_write.md): the region write, the full-buffer fill, the dual-plane write and the seven
write requests.
-/
namespace Sys2Proof.Machine

/-- One buffer of a fill: the full panel's window, the select, and the panel's bytes (R137). -/
def fillBuffer (sel : Buffer) (v : Byte) (c : Cfg) : Prog := sendBytes (fillBytes c sel v)

/-- ScreenBufferFill(v) (R137). -/
def screenBufferFill (v : Byte) (c : Cfg) : Prog :=
  steps [ensurePartial c, .ifFlag .initialRefresh (fillBuffer .prev (~~~v) c) .skip, fillBuffer .cur v c,
    .act (.setFlag .initialWrite false)]

/-- The addresses a plane streams from, in order (R135). -/
def planeAddrs (p : Plane) (g : Region) : List Word := (regionIndices p.mir g).map (sourceAddr p.base)

/-- StreamRect(P, r) (R135). -/
def streamRect (p : Plane) (g : Region) (c : Cfg) : Prog :=
  steps [sendBytes (targetBytes c.pd g.clip p.sel), streamBytes p.space p.inv (planeAddrs p g)]

/-- Step 6 of WriteRegion: the first write since INIT clears the panel first (R136). -/
def firstClear (c : Cfg) : Prog := .ifFlag .initialWrite (screenBufferFill c.initialClearValue c) .skip

/-- WriteRegion(P) for a region that is not empty: yield, first clear, mode, stream, yield (R136). -/
def writeResolved (p : Plane) (g : Region) (c : Cfg) : Prog :=
  steps [yieldHost c, firstClear c, ensurePartial c, streamRect p g c, yieldHost c]

/-- WriteRegion(P): a rejected or empty region is a no-op (R136). -/
def writeRegion (p : Plane) (c : Cfg) : Prog :=
  match resolveRegion c p with
  | none => .skip
  | some g => writeResolved p g c

/-- WriteDual(P0, P1) (R139). -/
def writeDual (p0 p1 : Plane) (c : Cfg) : Prog := .seq (writeRegion p0 c) (writeRegion p1 c)

/-- WRITE_SCREEN_BUFFER (R141). -/
def execWriteScreenBuffer (fill : Byte) (s : State) : Host.Outcome State Fault Refusal :=
  request gatePlain (screenBufferFill fill) s

/-- WRITE_IMAGE (R142). -/
def execWriteImage (base : Word) (r : Rect) (f : ImageFlags) (s : State) : Host.Outcome State Fault Refusal :=
  request gatePlain (writeRegion (planeCur .image base r f)) s

/-- WRITE_IMAGE_AGAIN (R143). -/
def execWriteImageAgain (base : Word) (r : Rect) (f : ImageFlags) (s : State) : Host.Outcome State Fault Refusal :=
  request gatePlain (writeRegion (planePrev .image base r f)) s

/-- WRITE_IMAGE_PART (R144). -/
def execWriteImagePart (base : Word) (sub : SubImage) (r : Rect) (f : ImageFlags) (s : State) :
    Host.Outcome State Fault Refusal :=
  request gatePlain (writeRegion (planeCur (.part sub) base r f)) s

/-- WRITE_IMAGE_PART_AGAIN (R145). -/
def execWriteImagePartAgain (base : Word) (sub : SubImage) (r : Rect) (f : ImageFlags) (s : State) :
    Host.Outcome State Fault Refusal :=
  request gatePlain (writeRegion (planePrev (.part sub) base r f)) s

/-- WRITE_IMAGE_DUAL (R146). -/
def execWriteImageDual (base0 base1 : Word) (r : Rect) (f : ImageFlags) (s : State) :
    Host.Outcome State Fault Refusal :=
  request gateDual (writeDual (planeCur .image base0 r f) (planeColour .image base1 r f)) s

/-- WRITE_IMAGE_PART_DUAL (R147). -/
def execWriteImagePartDual (base0 base1 : Word) (sub : SubImage) (r : Rect) (f : ImageFlags) (s : State) :
    Host.Outcome State Fault Refusal :=
  request gateDual (writeDual (planeCur (.part sub) base0 r f) (planeColour (.part sub) base1 r f)) s

end Sys2Proof.Machine
end

