-- ==== Sys2Proof/Machine/Refresh.lean ====
section
/-!
DEFINITION. The refresh and draw family (44_refresh_draw.md): the full and rectangle refresh, and the requests REFRESH,
REFRESH_RECT and the four DRAW requests.
-/
namespace Sys2Proof.Machine

/-- RefreshFull() (R151): Full mode is entered only from Partial mode (C2). -/
def refreshFull (c : Cfg) : Prog :=
  steps [.ifFlag .usingPartialMode (enterFull c) .skip, sendSeq c.pd.seqFullUpdate,
    waitWhileBusy .fullUpdate c.tFullRefreshMs c, .act (.setFlag .initialRefresh false)]

/-- The partial path of RefreshRect for a rectangle that is not empty (R152, R153). -/
def refreshPartial (r : Clipped) (c : Cfg) : Prog :=
  steps [ensurePartial c, setPartialRamArea r.x1 r.y1 r.w1 r.h1 c, sendSeq c.pd.seqPartialUpdate,
    if c.waitAfterPartialUpdate then waitWhileBusy .partialUpdate c.tPartialRefreshMs c else .skip]

/-- What RefreshRect does for a rectangle once no full refresh is due: nothing for a negative size or an empty clip (R152). -/
def refreshClipped (x y w h : Int) (c : Cfg) : Prog :=
  if w < 0 ∨ h < 0 then .skip
  else
    match alignClip c x y w h with
    | none => .skip
    | some r => refreshPartial r c

/-- RefreshRect(x, y, w, h), its checks in the order of D53 (R152). -/
def refreshRect (x y w h : Int) (c : Cfg) : Prog :=
  if c.hasPartial = false then refreshFull c
  else .ifFlag .initialRefresh (refreshFull c) (refreshClipped x y w h c)

/-- RefreshWhole(partial) (R154). -/
def refreshWhole (isPartial : Bool) (c : Cfg) : Prog :=
  if isPartial then refreshRect 0 0 c.width c.height c else refreshFull c

/-- A write, then the refresh of the request's own rectangle (R157). -/
def drawThenRefresh (write : Cfg → Prog) (r : Rect) (c : Cfg) : Prog :=
  .seq (write c) (refreshRect r.x r.y r.w r.h c)

/-- REFRESH (R155). -/
def execRefresh (isPartial : Bool) (s : State) : Host.Outcome State Fault Refusal :=
  request gatePlain (refreshWhole isPartial) s

/-- REFRESH_RECT (R156). -/
def execRefreshRect (r : Rect) (s : State) : Host.Outcome State Fault Refusal :=
  request gatePlain (refreshRect r.x r.y r.w r.h) s

/-- DRAW_IMAGE (R157). -/
def execDrawImage (base : Word) (r : Rect) (f : ImageFlags) (s : State) : Host.Outcome State Fault Refusal :=
  request gatePlain (drawThenRefresh (writeRegion (planeCur .image base r f)) r) s

/-- DRAW_IMAGE_PART (R158). -/
def execDrawImagePart (base : Word) (sub : SubImage) (r : Rect) (f : ImageFlags) (s : State) :
    Host.Outcome State Fault Refusal :=
  request gatePlain (drawThenRefresh (writeRegion (planeCur (.part sub) base r f)) r) s

/-- DRAW_IMAGE_DUAL (R159). -/
def execDrawImageDual (base0 base1 : Word) (r : Rect) (f : ImageFlags) (s : State) :
    Host.Outcome State Fault Refusal :=
  request gateDual
    (drawThenRefresh (writeDual (planeCur .image base0 r f) (planeColour .image base1 r f)) r) s

/-- DRAW_IMAGE_PART_DUAL (R160). -/
def execDrawImagePartDual (base0 base1 : Word) (sub : SubImage) (r : Rect) (f : ImageFlags) (s : State) :
    Host.Outcome State Fault Refusal :=
  request gateDual
    (drawThenRefresh (writeDual (planeCur (.part sub) base0 r f) (planeColour (.part sub) base1 r f)) r) s

end Sys2Proof.Machine
end

