-- ==== Sys2Proof/Machine/Dispatch.lean ====
section
/-!
DEFINITION. Dispatch (30_encoding.md R80): one arm per request, each one call of its meaning.
-/
namespace Sys2Proof.Machine

def exec (i : Instr) (s : State) : Host.Outcome State Fault Refusal :=
  match i with
  | .init style => Sys2Proof.Machine.execInit style s
  | .powerOn => Sys2Proof.Machine.execPowerOn s
  | .powerOff => Sys2Proof.Machine.execPowerOff s
  | .hibernate => Sys2Proof.Machine.execHibernate s
  | .waitBusy => Sys2Proof.Machine.execWaitBusy s
  | .writeScreenBuffer fill => Sys2Proof.Machine.execWriteScreenBuffer fill s
  | .writeImage base r f => Sys2Proof.Machine.execWriteImage base r f s
  | .writeImageAgain base r f => Sys2Proof.Machine.execWriteImageAgain base r f s
  | .writeImagePart base sub r f => Sys2Proof.Machine.execWriteImagePart base sub r f s
  | .writeImagePartAgain base sub r f => Sys2Proof.Machine.execWriteImagePartAgain base sub r f s
  | .writeImageDual base0 base1 r f => Sys2Proof.Machine.execWriteImageDual base0 base1 r f s
  | .writeImagePartDual base0 base1 sub r f => Sys2Proof.Machine.execWriteImagePartDual base0 base1 sub r f s
  | .refresh isPartial => Sys2Proof.Machine.execRefresh isPartial s
  | .refreshRect r => Sys2Proof.Machine.execRefreshRect r s
  | .drawImage base r f => Sys2Proof.Machine.execDrawImage base r f s
  | .drawImagePart base sub r f => Sys2Proof.Machine.execDrawImagePart base sub r f s
  | .drawImageDual base0 base1 r f => Sys2Proof.Machine.execDrawImageDual base0 base1 r f s
  | .drawImagePartDual base0 base1 sub r f => Sys2Proof.Machine.execDrawImagePartDual base0 base1 sub r f s

end Sys2Proof.Machine
end

