-- ==== Sys2Proof/Machine/Fetch.lean ====
section
/-!
DEFINITION. What a step of the machine takes up: the request in flight, where it stands, or, while none runs, the host's next
move, and when that is a start that is taken, the latched descriptor decoded (10_state.md R17, R31, 30_encoding.md R80). Also
how a descriptor is placed so that the next step starts it, and the host's moves for a list of requests
(70_reset_and_hazards.md R187).
-/
namespace Sys2Proof.Machine

/-- What a step takes up: a move of the host that is done with, a request to run from the latched state, the request in flight,
or nothing the model gives a meaning. -/
inductive Fetched where
  | settled (s : State)
  | run (i : Instr) (s : State)
  | resume (s : State)
  | refused (r : Refusal)

/-- Dispatch of a latched start as far as the descriptor decides it: ILLEGAL_OPCODE, RESERVED_BITS, or the request (R80). -/
def decodeStart (s : State) : Fetched :=
  match decode s.shadow with
  | .error .illegalOpcode => .settled ((Prog.act (.raise .illegalOpcode)).reach s)
  | .error .reservedBits => .settled ((Prog.act (.raise .reservedBits)).reach s)
  | .ok i => .run i s

/-- A register write between two requests; a start that is taken is dispatched (R17). -/
def fetchWrite (offset : Nat) (v : Word) (s : State) : Fetched :=
  if offset = 0x20 ∧ startTaken v s = true then decodeStart (latchStart s) else .settled (regWrite offset v s)

/-- One move of the host between two requests. `awaitReady` is over when READY = 1; there is nothing to hold. -/
def fetchMove (m : HostMove) (rest : List HostMove) (s : State) : Fetched :=
  match m with
  | .pass => .settled { s with inbox := rest }
  | .hold => .settled { s with inbox := rest }
  | .awaitReady => .settled (if s.status.ready then { s with inbox := rest } else s)
  | .engineReset => .settled (engineReset { s with inbox := rest })
  | .poke space a b => .settled (hostPoke space a b { s with inbox := rest })
  | .write offset width v =>
    match accessRefusal offset width with
    | some r => .refused r
    | none => fetchWrite offset v { s with inbox := rest }
  | .read offset width =>
    match accessRefusal offset width with
    | some r => .refused r
    | none => .settled { s with replies := s.replies ++ [regRead offset s], inbox := rest }

/-- What is next: the request in flight, else the next move of the host, else nothing: an idle engine waits (R31, R188). -/
def fetch (s : State) : Fetched :=
  if cfgWf s.cfg then
    if s.todo = .skip then
      match s.inbox with
      | [] => .settled s
      | m :: rest => fetchMove m rest s
    else .resume s
  else .refused .illFormedConfig

/-- The refusal of the host's next access, if R30 refuses it. -/
def nextRefusal : List HostMove → Option Refusal
  | .write offset width _ :: _ => accessRefusal offset width
  | .read offset width :: _ => accessRefusal offset width
  | .poke _ _ _ :: _ => none
  | .engineReset :: _ => none
  | .pass :: _ => none
  | .hold :: _ => none
  | .awaitReady :: _ => none
  | [] => none

/-- The request in flight goes on where it stands (R31). It hangs if the time source has stopped and neither the engine nor the
host has moved (R203). -/
def resume (s : State) : Host.Outcome State Fault Refusal :=
  match nextRefusal s.inbox with
  | some r => .refused r
  | none =>
    let t := s.todo.reach s
    if s.env.timeRuns = false ∧ t.todo = s.todo ∧ t.inbox = s.inbox then .fault .timeSourceStopped else .next t

/-- A write of 1 to GO (R17). -/
def goMove : HostMove := .write 0x20 4 1

/-- The state in which the host's next move starts a descriptor: no request is in flight, the descriptor stands in REQ0 to
REQ7, GO is about to be written, and the start is taken, since READY = 1 and no fault holds it back (R17; log 13). -/
def placeStart (d : Desc) (s : State) : State :=
  { s with
    req := d
    inbox := goMove :: s.inbox
    todo := .skip
    status := { s.status with ready := true, fault := s.status.fault && decide (d.op = 0x01) } }

/-- The host's moves for one request: eight descriptor words, GO, and the wait for READY = 1 (R187, R191). -/
def startMoves (i : Instr) : List HostMove :=
  let d := encode i
  [.write 0x00 4 d.w0, .write 0x04 4 d.w1, .write 0x08 4 d.w2, .write 0x0C 4 d.w3, .write 0x10 4 d.w4,
   .write 0x14 4 d.w5, .write 0x18 4 d.w6, .write 0x1C 4 d.w7, goMove, .awaitReady]

/-- The host's moves for a program, which is its sequence of starts (R200). -/
def programMoves (is : List Instr) : List HostMove := is.flatMap startMoves

end Sys2Proof.Machine
end

