-- ==== Sys2Proof/Machine/Step.lean ====
section
/-!
DEFINITION. One step of the machine: the host's next move, and with a start that is taken the request it starts, up to its end
or to where the host holds it; or the request in flight, from where it stands (log 5). Everything it does is in Fetch.lean and
the meanings.
-/
namespace Sys2Proof.Machine

/-- One step (R17, R31, R80). -/
def step (s : State) : Host.Outcome State Fault Refusal :=
  match fetch s with
  | .settled s' => .next s'
  | .run i s' => exec i s'
  | .resume s' => resume s'
  | .refused r => .refused r

/-- The state in which the next step starts the request whose descriptor has the low nbits bits of w, in the opcode
table's numbering (log 13). -/
def State.withFetchWord (s : State) (nbits w : Nat) : State := placeStart (descOfTable nbits w) s

end Sys2Proof.Machine
end

