-- ==== Sys2Proof/Machine/Observer.lean ====
section
/-!
DEFINITION. The reference model of the controller RAM (20_memory.md R59 to R62): not part of the engine, and read by no
rule of it. It is a function of the bus log (log 15).
-/
namespace Sys2Proof.Machine

/-- One known byte of a plane: byte column, row, value (R59); the type does not bound the place by W/8 and H (log 15). -/
structure RamCell where
  col : Nat
  row : Nat
  val : Byte
deriving DecidableEq, Repr

/-- The observer (R59). A plane lists the bytes that are known, the latest write first; `none` is unknown; a write target
of `none` is NONE. -/
structure Observer where
  cur    : List RamCell
  prev   : List RamCell
  xs     : Option Nat
  xe     : Option Nat
  ys     : Option Nat
  ye     : Option Nat
  xc     : Option Nat
  yc     : Option Nat
  target : Option Buffer
deriving DecidableEq, Repr

/-- Every field unknown, T = NONE (R59, R60 at a reset pulse). -/
def observerUnknown : Observer :=
  { cur := [], prev := [], xs := none, xe := none, ys := none, ye := none, xc := none, yc := none, target := none }

/-- What the observer reads from the bus log (R60): a command with its data bytes, or a reset pulse. -/
inductive ObsItem where
  | command (c : Byte) (args : List Byte)
  | reset
deriving DecidableEq, Repr

/-- The command that is complete when another begins. -/
def flushCommand : Option (Byte × List Byte) → List ObsItem
  | none => []
  | some (c, args) => [.command c args]

/-- The bus log command by command (R50): a Cmd and the Data events up to the next Cmd are one command. -/
def obsItems : List Event → Option (Byte × List Byte) → List ObsItem
  | [], open_ => flushCommand open_
  | .cmd b :: rest, open_ => flushCommand open_ ++ obsItems rest (some (b, []))
  | .data b :: rest, some (c, args) => obsItems rest (some (c, args ++ [b]))
  | .data _ :: rest, none => obsItems rest none
  | .resetPulse _ :: rest, open_ => flushCommand open_ ++ .reset :: obsItems rest none
  | .lineSetup :: rest, open_ => obsItems rest open_
  | .busSetup :: rest, open_ => obsItems rest open_
  | .delay _ :: rest, open_ => obsItems rest open_
  | .busy _ _ :: rest, open_ => obsItems rest open_

/-- The cell list of a plane with one byte written. -/
def putCell (sel : Buffer) (cell : RamCell) (o : Observer) : Observer :=
  match sel with
  | .cur => { o with cur := cell :: o.cur }
  | .prev => { o with prev := cell :: o.prev }

/-- A plane and the counters forgotten: a data byte that arrives while the window or a counter is unknown can land
anywhere (log 15). No request does this (R62). -/
def forgetPlane (sel : Buffer) (o : Observer) : Observer :=
  match sel with
  | .cur => { o with cur := [], xc := none, yc := none }
  | .prev => { o with prev := [], xc := none, yc := none }

/-- A data byte while T is CUR or PREV: the byte lands at the counters, X counts first, then Y, and both wrap to the
window's origin (R61, C9). DESIGN CHOICE (log 15): where the counters lie outside the W/8 byte columns by H rows of R59's map, which a
PD sequence that holds counter and select opcodes can bring about, the byte is kept as a cell at that place all the same, and the
counters go on as R61 says; R59 and R61 leave open what becomes of it. -/
def ramData (sel : Buffer) (o : Observer) (b : Byte) : Observer :=
  match o.xs, o.xe, o.ys, o.ye, o.xc, o.yc with
  | some xs, some xe, some ys, some ye, some xc, some yc =>
    let o := putCell sel { col := xc, row := yc, val := b } o
    let x := xc + 1
    let y := if xe < x then yc + 1 else yc
    { o with xc := some (if xe < x then xs else x), yc := some (if ye < y then ys else y) }
  | _, _, _, _, _, _ => forgetPlane sel o

/-- A two-byte field, low byte first (R44(b)). -/
def twoBytes (lo hi : Byte) : Nat := lo.toNat + 256 * hi.toNat

/-- One command (R60). A command with another number of data bytes is "any other command". -/
def obsCommand (pd : Pd) (o : Observer) (c : Byte) (args : List Byte) : Observer :=
  if c = pd.opRamXWindow ∧ args.length = 2 then
    { o with xs := some (args.getD 0 0).toNat, xe := some (args.getD 1 0).toNat, target := none }
  else if c = pd.opRamYWindow ∧ args.length = 4 then
    { o with ys := some (twoBytes (args.getD 0 0) (args.getD 1 0)), ye := some (twoBytes (args.getD 2 0) (args.getD 3 0)),
             target := none }
  else if c = pd.opRamXCounter ∧ args.length = 1 then { o with xc := some (args.getD 0 0).toNat, target := none }
  else if c = pd.opRamYCounter ∧ args.length = 2 then
    { o with yc := some (twoBytes (args.getD 0 0) (args.getD 1 0)), target := none }
  else if c = pd.opWriteRamCurrent then args.foldl (ramData .cur) { o with target := some .cur }
  else if c = pd.opWriteRamPrevious then args.foldl (ramData .prev) { o with target := some .prev }
  else { o with target := none }

/-- One item of the log (R60). -/
def obsStep (pd : Pd) (o : Observer) : ObsItem → Observer
  | .command c args => obsCommand pd o c args
  | .reset => observerUnknown

/-- The observer after a bus log (R60, R61). -/
def observeLog (pd : Pd) (log : List Event) : Observer := (obsItems log none).foldl (obsStep pd) observerUnknown

/-- The observer of a state's bus log; all unknown at a clean entry (R204). -/
def observe (s : State) : Observer := observeLog s.cfg.pd s.log

/-- The known bytes of a plane. -/
def planeOf (sel : Buffer) (o : Observer) : List RamCell :=
  match sel with
  | .cur => o.cur
  | .prev => o.prev

/-- What a plane holds at a byte column and row, none if unknown (R59); a place outside the panel is the model's own (log 15). -/
def ramAt (sel : Buffer) (o : Observer) (col row : Nat) : Option Byte :=
  ((planeOf sel o).find? fun e => decide (e.col = col ∧ e.row = row)).map fun e => e.val

end Sys2Proof.Machine
end

