-- ==== Sys2Proof/WellFormed.lean ====
section
/-!
DEFINITION. Well-formed requests: every coordinate is in the signed 16-bit range its field can hold (30_encoding.md
R68). Bases, fill byte and flags are bounded by their types.
-/
namespace Sys2Proof

/-- The range of a decoded coordinate, −32768..32767 (R68, R10). -/
def inS16 (n : Int) : Bool := decide (-32768 ≤ n) && decide (n ≤ 32767)

/-- All four fields of REQ1 and REQ2 are in range (R68). -/
def Rect.wf (r : Rect) : Bool := inS16 r.x && inS16 r.y && inS16 r.w && inS16 r.h

/-- All four fields of REQ3 and REQ4 are in range (R68). -/
def SubImage.wf (p : SubImage) : Bool := inS16 p.xPart && inS16 p.yPart && inS16 p.wBmp && inS16 p.hBmp

/-- A request whose fields fit their encoding (R68). -/
def Instr.wf : Instr → Bool
  | .init _ => true
  | .powerOn => true
  | .powerOff => true
  | .hibernate => true
  | .waitBusy => true
  | .writeScreenBuffer _ => true
  | .writeImage _ r _ => r.wf
  | .writeImageAgain _ r _ => r.wf
  | .writeImagePart _ p r _ => p.wf && r.wf
  | .writeImagePartAgain _ p r _ => p.wf && r.wf
  | .writeImageDual _ _ r _ => r.wf
  | .writeImagePartDual _ _ p r _ => p.wf && r.wf
  | .refresh _ => true
  | .refreshRect r => r.wf
  | .drawImage _ r _ => r.wf
  | .drawImagePart _ p r _ => p.wf && r.wf
  | .drawImageDual _ _ r _ => r.wf
  | .drawImagePartDual _ _ p r _ => p.wf && r.wf

end Sys2Proof
end

