-- ==== Sys2Proof/Safety.lean ====
section
/-!
DEFINITION. The terms in which claims speak of a run: what the host and the environment do while a request runs, the events
a routine leaves in the bus log, the invariant of the state between steps, launch premises and the end of a run
(70_reset_and_hazards.md R202, R204).
-/
namespace Sys2Proof.Machine

/-! ## The host and the environment -/

/-- The host makes no access while the next request runs: it has no move, or it waits for READY = 1 (R191). -/
def hostSilent (s : State) : Bool :=
  match s.inbox with
  | [] => true
  | .awaitReady :: _ => true
  | .pass :: _ => false
  | .hold :: _ => false
  | .engineReset :: _ => false
  | .poke _ _ _ :: _ => false
  | .write _ _ _ :: _ => false
  | .read _ _ :: _ => false

/-- A move that R30 does not refuse. -/
def moveLegal : HostMove → Bool
  | .write offset width _ => decide (accessRefusal offset width = none)
  | .read offset width => decide (accessRefusal offset width = none)
  | .poke _ _ _ => true
  | .engineReset => true
  | .pass => true
  | .hold => true
  | .awaitReady => true

/-- Every pending access of the host is an aligned 32-bit one inside the block (R30, R201). -/
def hostLegal (s : State) : Bool := s.inbox.all moveLegal

/-- The host does not assert the engine's reset. -/
def hostNoReset (s : State) : Bool := s.inbox.all fun m => decide (m ≠ .engineReset)

/-- The host does not hold the machine while a request is in flight. -/
def hostNoHold (s : State) : Bool := s.inbox.all fun m => decide (m ≠ .hold)

/-- The next n bus transfers do not fail (R65). -/
def busOk (n : Nat) (s : State) : Prop := ∀ k, k < n → s.env.bus.peek Config.freeBusFailure k = false

/-- The next n bitmap reads report no error (R41). -/
def sourceOk (n : Nat) (s : State) : Prop := ∀ k, k < n → s.env.source.peek Config.freeSourceError k = false

/-- The premises common to every request that is to run undisturbed: a well-formed configuration, a silent host, a running
time source, and no wait in progress. -/
def undisturbed (s : State) : Bool := cfgWf s.cfg && hostSilent s && s.env.timeRuns && !s.status.waiting

/-- A request other than INIT may drive the bus: INIT has been run and the controller is not hibernating (R80, R86). -/
def mayTransfer (s : State) : Bool := s.flags.initDone && !s.flags.hibernating

/-- The state of a step's outcome that is a next state. -/
def nextOf (o : Host.Outcome State Fault Refusal) : Option State :=
  match o with
  | .next s => some s
  | .fault _ => none
  | .refused _ => none

/-- A read of one of REQ0 to REQ7. -/
def readsRequest : HostMove → Bool
  | .read offset _ => decide (offset < 0x20)
  | .write _ _ _ => false
  | .poke _ _ _ => false
  | .engineReset => false
  | .pass => false
  | .hold => false
  | .awaitReady => false

/-- A move with the value of a write to REQ0 to REQ7 blotted out. -/
def maskRequest : HostMove → HostMove
  | .write offset width v => .write offset width (if offset < 0x20 then 0 else v)
  | .read offset width => .read offset width
  | .poke space a b => .poke space a b
  | .engineReset => .engineReset
  | .pass => .pass
  | .hold => .hold
  | .awaitReady => .awaitReady

/-- The host's moves with the values it writes to the request registers blotted out. -/
def State.maskRequests (s : State) : State := { s with inbox := s.inbox.map maskRequest }

/-! ## The descriptor -/

/-- sext_16 of a 16-bit number (R10). -/
def sext16 (n : Nat) : Int := if n < 32768 then n else (n : Int) - 65536

/-- The opcodes of R73(a). -/
def illegalOpcode (op : Byte) : Prop :=
  op.toNat = 0x00 ∨ (0x06 ≤ op.toNat ∧ op.toNat ≤ 0x0F) ∨ (0x17 ≤ op.toNat ∧ op.toNat ≤ 0x1F)
    ∨ (0x22 ≤ op.toNat ∧ op.toNat ≤ 0x2F) ∨ 0x34 ≤ op.toNat

/-- REQ0[31:13] or REQ7[31:8] is not 0 (R73(b)). -/
def reservedSet (d : Desc) : Prop := d.w0.toNat / 2 ^ 13 ≠ 0 ∨ d.w7.toNat / 2 ^ 8 ≠ 0

/-- Two descriptors have bit n of REQ0 in common. -/
def sameFlag (n : Nat) (d e : Desc) : Prop := d.w0.getLsbD n = e.w0.getLsbD n

/-- X, Y, W, H and INV, MIRY, SRC in common. -/
def sameImage (d e : Desc) : Prop :=
  d.w1 = e.w1 ∧ d.w2 = e.w2 ∧ sameFlag 8 d e ∧ sameFlag 9 d e ∧ sameFlag 10 d e

/-- XPART, YPART, WBMP, HBMP in common. -/
def samePart (d e : Desc) : Prop := d.w3 = e.w3 ∧ d.w4 = e.w4

/-- Two descriptors agree on every field that the request of an opcode reads, row by row (R71). -/
def sameFields (op : Byte) (d e : Desc) : Prop :=
  match op.toNat with
  | 0x01 => sameFlag 11 d e
  | 0x02 => True
  | 0x03 => True
  | 0x04 => True
  | 0x05 => True
  | 0x10 => d.w7.toNat % 256 = e.w7.toNat % 256
  | 0x11 => d.w5 = e.w5 ∧ sameImage d e
  | 0x12 => d.w5 = e.w5 ∧ sameImage d e
  | 0x13 => d.w5 = e.w5 ∧ samePart d e ∧ sameImage d e
  | 0x14 => d.w5 = e.w5 ∧ samePart d e ∧ sameImage d e
  | 0x15 => d.w5 = e.w5 ∧ d.w6 = e.w6 ∧ sameImage d e
  | 0x16 => d.w5 = e.w5 ∧ d.w6 = e.w6 ∧ samePart d e ∧ sameImage d e
  | 0x20 => sameFlag 12 d e
  | 0x21 => d.w1 = e.w1 ∧ d.w2 = e.w2
  | 0x30 => d.w5 = e.w5 ∧ sameImage d e
  | 0x31 => d.w5 = e.w5 ∧ samePart d e ∧ sameImage d e
  | 0x32 => d.w5 = e.w5 ∧ d.w6 = e.w6 ∧ sameImage d e
  | 0x33 => d.w5 = e.w5 ∧ d.w6 = e.w6 ∧ samePart d e ∧ sameImage d e
  | _ => True

/-! ## The events routines leave in the bus log -/

/-- The events of a list of bytes (R50). -/
def eventsOf (bs : List (ByteKind × Byte)) : List Event := bs.map byteEvent

/-- The events of Delay(ms) (R93). -/
def delayEvents (ms : Nat) : List Event := if ms = 0 then [] else [.delay ms]

/-- The events of WaitWhileBusy(label, ms) with an outcome (R95). -/
def waitEvents (c : Cfg) (label : WaitLabel) (ms : Nat) (o : WaitOutcome) : List Event :=
  if c.hasBusy then [.busy label o] else delayEvents ms

/-- STATUS after WaitWhileBusy with an outcome (R95): READY as given, WAITING 0. -/
def waitStatus (c : Cfg) (o : WaitOutcome) (st : Status) : Status :=
  match c.hasBusy, o with
  | true, .timeout => { st with waiting := false, lastWaitTimeout := true, timeout := true }
  | _, _ => { st with waiting := false, lastWaitTimeout := false }

/-- The microseconds behind T0 after each poll interval of a busy wait that starts now, where every interval is 1 ms and what the
script adds (R63, R95; log 8). The script's first value is spent before T0 is read. -/
def pollElapsed (s : State) : Nat → Nat
  | 0 => 0
  | j + 1 => pollElapsed s j + 1000 + s.env.elapsed.peek Config.freeElapsed (j + 1)

/-- The bytes a plane's region streams, from a state's bitmap memory (R135). -/
def planeBytes (p : Plane) (g : Region) (s : State) : List Byte :=
  (planeAddrs p g).map fun a => applyInvert p.inv (byteAt p.space a s)

/-- The events of a region write in Partial mode after the first clear: yield, window and select, data, yield (R135, R136);
none for a write that is rejected or empty. -/
def regionEvents (p : Plane) (s : State) : List Event :=
  match resolveRegion s.cfg p with
  | none => []
  | some g =>
    delayEvents s.cfg.tYieldMs ++ eventsOf (targetBytes s.cfg.pd g.clip p.sel)
      ++ (planeBytes p g s).map Event.data ++ delayEvents s.cfg.tYieldMs

/-- How many bitmap bytes a region write reads (R134). -/
def regionReads (p : Plane) (s : State) : Nat :=
  match resolveRegion s.cfg p with
  | none => 0
  | some g => (planeAddrs p g).length

/-- The planes a request writes, in order (R142 to R147, R157 to R160); none for a request that writes no image. -/
def planesOf : Instr → List Plane
  | .init _ => []
  | .powerOn => []
  | .powerOff => []
  | .hibernate => []
  | .waitBusy => []
  | .writeScreenBuffer _ => []
  | .writeImage b r f => [planeCur .image b r f]
  | .writeImageAgain b r f => [planePrev .image b r f]
  | .writeImagePart b p r f => [planeCur (.part p) b r f]
  | .writeImagePartAgain b p r f => [planePrev (.part p) b r f]
  | .writeImageDual b c r f => [planeCur .image b r f, planeColour .image c r f]
  | .writeImagePartDual b c p r f => [planeCur (.part p) b r f, planeColour (.part p) c r f]
  | .refresh _ => []
  | .refreshRect _ => []
  | .drawImage b r f => [planeCur .image b r f]
  | .drawImagePart b p r f => [planeCur (.part p) b r f]
  | .drawImageDual b c r f => [planeCur .image b r f, planeColour .image c r f]
  | .drawImagePartDual b c p r f => [planeCur (.part p) b r f, planeColour (.part p) c r f]

/-- One of the six WRITE_IMAGE requests (R178). -/
def isImageWrite : Instr → Bool
  | .init _ => false
  | .powerOn => false
  | .powerOff => false
  | .hibernate => false
  | .waitBusy => false
  | .writeScreenBuffer _ => false
  | .writeImage _ _ _ => true
  | .writeImageAgain _ _ _ => true
  | .writeImagePart _ _ _ _ => true
  | .writeImagePartAgain _ _ _ _ => true
  | .writeImageDual _ _ _ _ => true
  | .writeImagePartDual _ _ _ _ _ => true
  | .refresh _ => false
  | .refreshRect _ => false
  | .drawImage _ _ _ => false
  | .drawImagePart _ _ _ _ => false
  | .drawImageDual _ _ _ _ => false
  | .drawImagePartDual _ _ _ _ _ => false

/-- The rectangle a DRAW request refreshes after its write; none for any other request (R157 to R160). -/
def drawRect : Instr → Option Rect
  | .init _ => none
  | .powerOn => none
  | .powerOff => none
  | .hibernate => none
  | .waitBusy => none
  | .writeScreenBuffer _ => none
  | .writeImage _ _ _ => none
  | .writeImageAgain _ _ _ => none
  | .writeImagePart _ _ _ _ => none
  | .writeImagePartAgain _ _ _ _ => none
  | .writeImageDual _ _ _ _ => none
  | .writeImagePartDual _ _ _ _ _ => none
  | .refresh _ => none
  | .refreshRect _ => none
  | .drawImage _ r _ => some r
  | .drawImagePart _ _ r _ => some r
  | .drawImageDual _ _ r _ => some r
  | .drawImagePartDual _ _ _ r _ => some r

/-- One of the four dual-plane requests (R80, R173). -/
def isDual : Instr → Bool
  | .init _ => false
  | .powerOn => false
  | .powerOff => false
  | .hibernate => false
  | .waitBusy => false
  | .writeScreenBuffer _ => false
  | .writeImage _ _ _ => false
  | .writeImageAgain _ _ _ => false
  | .writeImagePart _ _ _ _ => false
  | .writeImagePartAgain _ _ _ _ => false
  | .writeImageDual _ _ _ _ => true
  | .writeImagePartDual _ _ _ _ _ => true
  | .refresh _ => false
  | .refreshRect _ => false
  | .drawImage _ _ _ => false
  | .drawImagePart _ _ _ _ => false
  | .drawImageDual _ _ _ _ => true
  | .drawImagePartDual _ _ _ _ _ => true

/-- A WRITE_SCREEN_BUFFER request. -/
def isFill : Instr → Bool
  | .init _ => false
  | .powerOn => false
  | .powerOff => false
  | .hibernate => false
  | .waitBusy => false
  | .writeScreenBuffer _ => true
  | .writeImage _ _ _ => false
  | .writeImageAgain _ _ _ => false
  | .writeImagePart _ _ _ _ => false
  | .writeImagePartAgain _ _ _ _ => false
  | .writeImageDual _ _ _ _ => false
  | .writeImagePartDual _ _ _ _ _ => false
  | .refresh _ => false
  | .refreshRect _ => false
  | .drawImage _ _ _ => false
  | .drawImagePart _ _ _ _ => false
  | .drawImageDual _ _ _ _ => false
  | .drawImagePartDual _ _ _ _ _ => false

/-- A REFRESH or REFRESH_RECT request. -/
def isRefresh : Instr → Bool
  | .init _ => false
  | .powerOn => false
  | .powerOff => false
  | .hibernate => false
  | .waitBusy => false
  | .writeScreenBuffer _ => false
  | .writeImage _ _ _ => false
  | .writeImageAgain _ _ _ => false
  | .writeImagePart _ _ _ _ => false
  | .writeImagePartAgain _ _ _ _ => false
  | .writeImageDual _ _ _ _ => false
  | .writeImagePartDual _ _ _ _ _ => false
  | .refresh _ => true
  | .refreshRect _ => true
  | .drawImage _ _ _ => false
  | .drawImagePart _ _ _ _ => false
  | .drawImageDual _ _ _ _ => false
  | .drawImagePartDual _ _ _ _ _ => false

/-- A request that reads bitmap bytes: the WRITE_IMAGE and DRAW_IMAGE requests (R178). -/
def readsBitmap (i : Instr) : Bool := isImageWrite i || (drawRect i).isSome

/-- A request that may fill or write the controller's RAM (R105). -/
def writesPixels (i : Instr) : Bool := isFill i || readsBitmap i

/-- A request that may refresh the controller (R105). -/
def refreshes (i : Instr) : Bool := isRefresh i || (drawRect i).isSome

/-- An INIT request (R72). -/
def isInit : Instr → Bool
  | .init _ => true
  | .powerOn => false
  | .powerOff => false
  | .hibernate => false
  | .waitBusy => false
  | .writeScreenBuffer _ => false
  | .writeImage _ _ _ => false
  | .writeImageAgain _ _ _ => false
  | .writeImagePart _ _ _ _ => false
  | .writeImagePartAgain _ _ _ _ => false
  | .writeImageDual _ _ _ _ => false
  | .writeImagePartDual _ _ _ _ _ => false
  | .refresh _ => false
  | .refreshRect _ => false
  | .drawImage _ _ _ => false
  | .drawImagePart _ _ _ _ => false
  | .drawImageDual _ _ _ _ => false
  | .drawImagePartDual _ _ _ _ _ => false

/-- A byte on the bus, as against a line, delay or wait event. -/
def isByteEvent : Event → Bool
  | .cmd _ => true
  | .data _ => true
  | .lineSetup => false
  | .resetPulse _ => false
  | .busSetup => false
  | .delay _ => false
  | .busy _ _ => false

/-- The bytes in a bus log, in order. -/
def busBytes (log : List Event) : List Event := log.filter isByteEvent

/-! ## The traffic of a request, as the tables of R112 and R163 name it -/

/-- PowerOn's traffic when it is not a no-op (R102). -/
def powerOnEvents (c : Cfg) (o : WaitOutcome) : List Event :=
  eventsOf (seqBytes c.pd.seqPowerOn) ++ waitEvents c .powerOn c.tPowerOnMs o

/-- PowerOff's traffic when it is not a no-op (R103). -/
def powerOffEvents (c : Cfg) (o : WaitOutcome) : List Event :=
  eventsOf (seqBytes c.pd.seqPowerOff) ++ waitEvents c .powerOff c.tPowerOffMs o

/-- A mode entry: the init sequence, and power-on if the controller is off (R100, R101). -/
def enterEvents (c : Cfg) (f : Flags) (o : WaitOutcome) : List Event :=
  eventsOf (initControllerBytes c) ++ (if f.powerOn then [] else powerOnEvents c o)

/-- STATUS after a mode entry: it waits only if it powers on (R102). -/
def enterStatus (c : Cfg) (f : Flags) (o : WaitOutcome) (st : Status) : Status :=
  if f.powerOn then st else waitStatus c o st

/-- EnsurePartial's traffic (R106). -/
def partialEvents (c : Cfg) (f : Flags) (o : WaitOutcome) : List Event :=
  if f.usingPartialMode then [] else enterEvents c f o

/-- The flags after EnsurePartial (R101, R106). -/
def partialFlags (f : Flags) : Flags :=
  if f.usingPartialMode then f else { f with powerOn := true, usingPartialMode := true }

/-- STATUS after EnsurePartial. -/
def partialStatus (c : Cfg) (f : Flags) (o : WaitOutcome) (st : Status) : Status :=
  if f.usingPartialMode then st else enterStatus c f o st

/-- The two fills of ScreenBufferFill(v), the previous buffer first and only until the first full refresh (R137). -/
def fillEvents (c : Cfg) (f : Flags) (v : Byte) : List Event :=
  (if f.initialRefresh then eventsOf (fillBytes c .prev (~~~v)) else []) ++ eventsOf (fillBytes c .cur v)

/-- A request's first region write that is not empty: yield, mode, the clear that is due since INIT, window, select and
data, yield (R136); none for a write that is rejected or empty. -/
def firstWriteEvents (p : Plane) (o : WaitOutcome) (s : State) : List Event :=
  match resolveRegion s.cfg p with
  | none => []
  | some g =>
    delayEvents s.cfg.tYieldMs ++ partialEvents s.cfg s.flags o
      ++ (if s.flags.initialWrite then fillEvents s.cfg s.flags s.cfg.initialClearValue else [])
      ++ eventsOf (targetBytes s.cfg.pd g.clip p.sel) ++ (planeBytes p g s).map Event.data
      ++ delayEvents s.cfg.tYieldMs

/-- The traffic of the planes a request writes: the first may enter the mode and clear, the others find both done (R139). -/
def writeEvents (ps : List Plane) (o : WaitOutcome) (s : State) : List Event :=
  match ps with
  | [] => []
  | p :: more => firstWriteEvents p o s ++ more.flatMap fun q => regionEvents q s

/-- The request writes a region that is neither rejected nor empty. The planes of a request share their geometry (R139). -/
def writesSomething (c : Cfg) (ps : List Plane) : Bool := ps.any fun p => (resolveRegion c p).isSome

/-- The flags after a request's region writes (R148). -/
def writeFlags (c : Cfg) (ps : List Plane) (f : Flags) : Flags :=
  if writesSomething c ps then { partialFlags f with initialWrite := false } else f

/-- STATUS after a request's region writes. -/
def writeStatus (c : Cfg) (ps : List Plane) (f : Flags) (o : WaitOutcome) (st : Status) : Status :=
  if writesSomething c ps then partialStatus c f o st else st

/-- How many bitmap bytes a request's region writes read. -/
def writeReads (ps : List Plane) (s : State) : Nat := (ps.map fun p => regionReads p s).sum

/-- RefreshFull's traffic: a mode entry only from Partial mode, the update, the wait (R151). -/
def fullEvents (c : Cfg) (f : Flags) (oOn o : WaitOutcome) : List Event :=
  (if f.usingPartialMode then enterEvents c f oOn else []) ++ eventsOf (seqBytes c.pd.seqFullUpdate)
    ++ waitEvents c .fullUpdate c.tFullRefreshMs o

/-- The flags after RefreshFull (R151). -/
def fullFlags (f : Flags) : Flags :=
  if f.usingPartialMode then { f with powerOn := true, usingPartialMode := false, initialRefresh := false }
  else { f with initialRefresh := false }

/-- STATUS after RefreshFull. -/
def fullStatus (c : Cfg) (f : Flags) (oOn o : WaitOutcome) (st : Status) : Status :=
  waitStatus c o (if f.usingPartialMode then enterStatus c f oOn st else st)

/-- The partial path's traffic for a clipped rectangle (R152, R153). -/
def partialUpdateEvents (c : Cfg) (f : Flags) (r : Clipped) (oOn o : WaitOutcome) : List Event :=
  partialEvents c f oOn ++ eventsOf (windowBytes c.pd r.x1 r.y1 r.w1 r.h1) ++ eventsOf (seqBytes c.pd.seqPartialUpdate)
    ++ (if c.waitAfterPartialUpdate then waitEvents c .partialUpdate c.tPartialRefreshMs o else [])

/-- RefreshRect takes the full path: no partial update on the panel, or no refresh yet (R152). -/
def takesFull (c : Cfg) (f : Flags) : Bool := !c.hasPartial || f.initialRefresh

/-- The clipped rectangle of RefreshRect's partial path; none if it is negative or empty (R152). -/
def refreshWindow (c : Cfg) (r : Rect) : Option Clipped :=
  if r.w < 0 ∨ r.h < 0 then none else alignClip c r.x r.y r.w r.h

/-- RefreshRect's traffic (R152). -/
def refreshEvents (c : Cfg) (f : Flags) (r : Rect) (oOn o : WaitOutcome) : List Event :=
  if takesFull c f then fullEvents c f oOn o
  else match refreshWindow c r with
    | none => []
    | some q => partialUpdateEvents c f q oOn o

/-- The flags after RefreshRect (R152, R163). -/
def refreshFlags (c : Cfg) (f : Flags) (r : Rect) : Flags :=
  if takesFull c f then fullFlags f
  else match refreshWindow c r with
    | none => f
    | some _ => partialFlags f

/-- STATUS after RefreshRect. -/
def refreshStatus (c : Cfg) (f : Flags) (r : Rect) (oOn o : WaitOutcome) (st : Status) : Status :=
  if takesFull c f then fullStatus c f oOn o st
  else match refreshWindow c r with
    | none => st
    | some _ =>
      let st1 := partialStatus c f oOn st
      if c.waitAfterPartialUpdate then waitStatus c o st1 else st1

/-- RefreshFull transfers a byte: a mode entry does, and the update command unless PD leaves it empty (R151). -/
def fullTransfers (c : Cfg) (f : Flags) : Bool := f.usingPartialMode || decide (seqBytes c.pd.seqFullUpdate ≠ [])

/-- RefreshRect transfers a byte (R152). -/
def refreshTransfers (c : Cfg) (f : Flags) (r : Rect) : Bool :=
  if takesFull c f then fullTransfers c f else (refreshWindow c r).isSome

/-- The whole panel as a rectangle (R154). -/
def wholePanel (c : Cfg) : Rect := { x := 0, y := 0, w := c.width, h := c.height }

/-! ## Frames -/

/-- What no request changes while the host is silent: the configuration, the request registers, the latched descriptor,
every byte of both bitmap memories, the host's moves and what the host has read. -/
def hostSideKept (s t : State) : Prop :=
  t.cfg = s.cfg ∧ t.req = s.req ∧ t.shadow = s.shadow ∧ t.inbox = s.inbox ∧ t.replies = s.replies
    ∧ ∀ space a, byteAt space a t = byteAt space a s

/-- The lines after the bus has been driven at least once since they were configured: each existing CS and DC line idles
high, and the reset line is untouched (R33, R86). -/
def linesIdle (s t : State) : Prop :=
  t.lines = { s.lines with cs := driveIf s.cfg.hasCs .high s.lines.cs, dc := driveIf s.cfg.hasDc .high s.lines.dc }

/-- What the wire carried for the bytes among some events (R78, R86). -/
def wireOf (evs : List Event) (s : State) : List WireFrame :=
  evs.filterMap fun e =>
    match e with
    | .cmd b => some (wireFrame .cmd b s)
    | .data b => some (wireFrame .data b s)
    | .lineSetup => none
    | .resetPulse _ => none
    | .busSetup => none
    | .delay _ => none
    | .busy _ _ => none

/-- What a request other than INIT leaves when it ends without a fault and the host is silent: the events it appended and
the bytes it drove for them, the flags and STATUS given (with READY 1), the lines idle, and everything else as it was. -/
def leaves (evs : List Event) (f : Flags) (st : Status) (s t : State) : Prop :=
  t.log = s.log ++ evs ∧ t.wire = s.wire ++ wireOf evs s ∧ t.flags = f ∧ t.status = { st with ready := true }
    ∧ hostSideKept s t ∧ t.faultRecord = s.faultRecord ∧ t.todo = .skip ∧ t.seen = []
    ∧ (t.lines = s.lines ∨ linesIdle s t)

/-- A state after a request that did nothing (R52, R80). -/
def untouched (s : State) : State := { s with status := { s.status with ready := true }, todo := .skip, seen := [] }

/-- What a request that has ended with a fault leaves in STATUS and in the launch-wide record (R168). -/
def faultTaken (k : FaultKind) (s t : State) : Prop :=
  t.status.ready = true ∧ t.status.fault = true ∧ t.status.waiting = false ∧ t.status.faultCode = faultCodeOf k
    ∧ t.status.faultOp = s.shadow.op ∧ t.status.timeout = s.status.timeout
    ∧ t.status.lastWaitTimeout = s.status.lastWaitTimeout ∧ t.status.drop = s.status.drop
    ∧ t.faultRecord = s.faultRecord ++ [{ kind := k, op := s.shadow.op }]

/-- A request that has ended with a fault, at whatever point: STATUS and the launch-wide record (R168). -/
def faultEnds (k : FaultKind) (s t : State) : Prop :=
  t.todo = .skip ∧ t.status.ready = true ∧ t.status.fault = true ∧ t.status.waiting = false
    ∧ t.status.faultCode = faultCodeOf k ∧ t.status.faultOp = s.shadow.op ∧ t.status.drop = s.status.drop
    ∧ t.faultRecord = s.faultRecord ++ [{ kind := k, op := s.shadow.op }]

/-- What Dispatch's faults leave alone: everything but STATUS and the record (R165, R170, R171, R173). -/
def dispatchKept (s t : State) : Prop :=
  hostSideKept s t ∧ t.flags = s.flags ∧ t.lines = s.lines ∧ t.log = s.log ∧ t.wire = s.wire ∧ t.t0 = s.t0 ∧ t.env = s.env
    ∧ t.direct = s.direct ∧ t.readThrough = s.readThrough ∧ t.todo = .skip ∧ t.seen = []

/-- While the host acts between a start and the fault that Dispatch gives it: no flag, line or event is touched, and once
READY is 1 the fault stands in STATUS (R54, R165, R168). -/
def dispatchFaults (k : FaultKind) (op : Byte) (s t : State) : Prop :=
  t.flags = s.flags ∧ t.lines = s.lines ∧ t.log = s.log ∧ t.wire = s.wire ∧ t.t0 = s.t0
    ∧ (t.status.ready = true → t.status.fault = true ∧ t.status.waiting = false ∧ t.status.faultCode = faultCodeOf k
        ∧ t.status.faultOp = op ∧ t.faultRecord = s.faultRecord ++ [{ kind := k, op := op }])

/-! ## A request in flight -/

/-- The step of the engine that comes first when the steps run from these flags; none if there is none left. -/
def Prog.first (f : Flags) : Prog → Option Act
  | .skip => none
  | .act a => some a
  | .seq p q =>
    match p.first f with
    | some a => some a
    | none => q.first f
  | .ifFlag n p q => if f.get n then p.first f else q.first f

/-- The state with the bus about to answer n transfers without a failure. -/
def State.spareBus (n : Nat) (s : State) : State :=
  { s with env := { s.env with bus := { s.env.bus with script := List.replicate n false } } }

/-- The state with the bitmap memories about to answer n reads without an error. -/
def State.spareSource (n : Nat) (s : State) : State :=
  { s with env := { s.env with source := { s.env.source with script := List.replicate n false } } }

/-- The host's access m leaves the machine as t, whether it is made between two requests or while one is in flight; in flight it
lands before the engine's next step, which stays the next. -/
def accessLeaves (m : HostMove) (s t : State) : Prop :=
  ∀ rest : List HostMove,
    (s.todo = .skip → step { s with inbox := m :: rest } = .next { t with inbox := rest }) ∧
    ((s.todo.first s.flags).isSome = true →
      ∃ todo, todo.first s.flags = s.todo.first s.flags ∧
        step { s with inbox := m :: .hold :: rest } = .next { t with inbox := rest, todo := todo })

/-! ## The invariant of the state -/

/-- The three relations between flags (R27(a) to (c)). -/
def flagsInv (f : Flags) : Bool :=
  (!f.usingPartialMode || f.powerOn) && (!f.hibernating || (!f.powerOn && !f.usingPartialMode))
    && (f.initDone || decide (f = flagsReset))

/-- STATUS at any point: FAULT is set exactly when FAULT_CODE is one of 1 to 7; the last wait's timeout is also in the sticky
bit (R19, R95, R167, R168). -/
def statusInv (st : Status) : Bool :=
  (st.fault == decide (st.faultCode ≠ 0)) && decide (st.faultCode.toNat ≤ 7) && (st.fault || decide (st.faultOp = 0))
    && (!st.lastWaitTimeout || st.timeout)

/-- A line that the configuration lacks is never driven (R33, R98). -/
def linesInv (c : Cfg) (l : Lines) : Bool :=
  (c.hasCs || decide (l.cs = .released)) && (c.hasDc || decide (l.dc = .released))
    && (c.hasRst || decide (l.rst = .released))

/-- Where steps lead from given flags and WAITING: to the request's end with the relations of R27 in force and no wait open,
wherever a fault can end it too (`over`); to flags and a WAITING with which the request goes on; or to an end that breaks
them. -/
inductive Lead where
  | over
  | on (f : Flags) (waiting : Bool)
  | broken
deriving DecidableEq, Repr

/-- An end of the request at these flags. -/
def leadEnd (f : Flags) (waiting : Bool) : Lead := if flagsInv f && !waiting then .over else .broken

/-- One transfer: it may fail, and while the controller hibernates it does. -/
def leadSend (f : Flags) (waiting : Bool) : Lead :=
  if flagsInv f then (if f.hibernating then .over else .on f waiting) else .broken

/-- One step of the engine. -/
def leadAct (f : Flags) (waiting : Bool) : Act → Lead
  | .send _ => leadSend f waiting
  | .stream _ _ _ => leadSend f waiting
  | .setFlag n v => .on (f.set n v) waiting
  | .initBegin => .on { f with initDone := true } waiting
  | .clearLastWait => .on f waiting
  | .lineSetup => .on f waiting
  | .busSetup => .on f waiting
  | .resetLow => .on f waiting
  | .resetPulse _ _ => .on f waiting
  | .delayBegin => .on f true
  | .delayEnd _ => .on f false
  | .waitBegin => .on f true
  | .sample _ _ => .on f false
  | .interval _ _ => .on f false
  | .raise _ => leadEnd f false
  | .complete => leadEnd f waiting

/-- The steps of a program. -/
def Prog.lead (f : Flags) (waiting : Bool) : Prog → Lead
  | .skip => .on f waiting
  | .act a => leadAct f waiting a
  | .seq p q =>
    match p.lead f waiting with
    | .over => .over
    | .on g w => q.lead g w
    | .broken => .broken
  | .ifFlag n p q => if f.get n then p.lead f waiting else q.lead f waiting

/-- Between requests READY is 1, no wait is open, no byte is raced and the relations between the flags hold; while a request is
in flight READY is 0 and its remaining steps lead there (R27, R31). -/
def State.phaseInv (s : State) : Bool :=
  if s.todo = .skip then s.status.ready && !s.status.waiting && flagsInv s.flags && decide (s.seen = [])
  else !s.status.ready && decide (s.todo.lead s.flags s.status.waiting = .over)

/-- The invariant of the state, for a PD whose power-on sequence sends a byte (log 19). -/
def State.Inv (s : State) : Bool :=
  s.phaseInv && statusInv s.status && linesInv s.cfg s.lines && memWf s.direct && memWf s.readThrough

/-! ## Launches and runs (R202, R204) -/

/-- The first launch form, a clean entry (R204): the reset state, whatever the host, its memory and the environment hold. -/
def cleanEntry (s : State) : Prop :=
  s = { State.resetOf s.cfg with
        direct := s.direct, readThrough := s.readThrough, inbox := s.inbox, env := s.env }

/-- The events INIT appends (R189). -/
def initEvents (c : Cfg) (style : ResetStyle) : List Event :=
  [.lineSetup] ++ (if c.hasRst then .resetPulse style :: delayEvents c.tResetSettleMs else []) ++ [.busSetup]

/-- The second launch form, after an INIT (R204): the state of R189's INIT column, with no fault and the log holding INIT's
events. The request registers, T0, the bitmap memories, the host and the environment are not INIT's. -/
def afterInit (style : ResetStyle) (s : State) : Prop :=
  decode s.shadow = .ok (.init style) ∧
  s = { State.resetOf s.cfg with
        req := s.req, shadow := s.shadow, t0 := s.t0
        flags := { flagsReset with initDone := true }
        lines := { configured := true, cs := if s.cfg.hasCs then .high else .released
                   dc := if s.cfg.hasDc then .high else .released
                   rst := if s.cfg.hasRst then (if style = .pulldown then .released else .high) else .released }
        log := initEvents s.cfg style
        direct := s.direct, readThrough := s.readThrough, inbox := s.inbox, replies := s.replies, env := s.env }

/-- A launch, in either form (R204). -/
def launch (s : State) : Prop := cleanEntry s ∨ ∃ style, afterInit style s

/-- A start, taken or dropped: a write of 1 to GO's bit 0 (R17). -/
def isStart : HostMove → Bool
  | .write offset _ v => decide (offset = 0x20) && v.getLsbD 0
  | .read _ _ => false
  | .poke _ _ _ => false
  | .engineReset => false
  | .pass => false
  | .hold => false
  | .awaitReady => false

/-- A point at which the run has ended (R202): the host has made its last start, READY = 1 and WAITING = 0; what the host does
after that, short of a start, is not of the run. -/
def runEnded (s : State) : Bool := !s.inbox.any isStart && s.status.ready && !s.status.waiting

/-- The end of a run: the first point, of those at most k steps on, at which it has ended (R202). -/
def endOfRun : Nat → State → Option State
  | 0, s => if runEnded s then some s else none
  | k + 1, s =>
    if runEnded s then some s
    else match step s with
      | .next t => endOfRun k t
      | .fault _ => none
      | .refused _ => none

/-- What is observed at the end of a run (R202). -/
structure Observation where
  log    : List Event
  status : Word
  state  : Word
  ram    : Observer
deriving DecidableEq, Repr

/-- The observation of a state (R202). -/
def observation (s : State) : Observation :=
  { log := s.log, status := statusWord s.status, state := stateWord s.flags, ram := observe s }

/-- No fault was raised in the launch, whether or not an INIT has cleared STATUS since (R168). -/
def noFaultRecorded (s : State) : Bool := decide (s.faultRecord = [])

end Sys2Proof.Machine
end

