-- ==== Sys2Proof/Certificates/Slice0/Obligations.lean ====
section
/-!
DEFINITION. The statements for the provers, from the spec's numbered rules: encoding, the step and the registers, whole-machine
rules and invariants, the result and frame of every request, faults, the address calculator, and the environment. The terms
they use (`undisturbed`, `leaves`, `writeEvents`, `faultTaken`, …) are in Safety.lean.
-/
open Sys2Proof Sys2Proof.Machine

/-! ## Encoding (30_encoding.md) -/

/-- R66 to R75: no field of a request is lost between its descriptor and its decoding. -/
def Obligations.DecodeOfEncode : Prop := ∀ i : Instr, i.wf = true → decode (encode i) = .ok i

/-- R68: a decoded request's coordinates are in the signed 16-bit range, whatever the descriptor. -/
def Obligations.DecodedIsWellFormed : Prop := ∀ (d : Desc) (i : Instr), decode d = .ok i → i.wf = true

/-- R72, R73: an opcode of R73(a) is illegal, else a reserved bit of R73(b) is reported, else the descriptor is exactly one
request: that of its opcode's row in R72, with the fields R71 lists for it, each from its place in R67 to R70. -/
def Obligations.DecodeCases : Prop :=
  ∀ d : Desc,
    (illegalOpcode d.op → decode d = .error .illegalOpcode) ∧
    (¬ illegalOpcode d.op → reservedSet d → decode d = .error .reservedBits) ∧
    (¬ illegalOpcode d.op → ¬ reservedSet d → ∃ i, decode d = .ok i) ∧
    (¬ reservedSet d →
      let style : ResetStyle := if d.w0.getLsbD 11 then .pulldown else .pulse
      let f : ImageFlags :=
        { inv := d.w0.getLsbD 8, mir := d.w0.getLsbD 9, space := if d.w0.getLsbD 10 then .readThrough else .direct }
      ∀ row ∈
        [(0x01, Instr.init style), (0x02, .powerOn), (0x03, .powerOff), (0x04, .hibernate), (0x05, .waitBusy),
         (0x10, .writeScreenBuffer (BitVec.ofNat 8 (d.w7.toNat % 256))),
         (0x11, .writeImage d.w5 d.rect f), (0x12, .writeImageAgain d.w5 d.rect f),
         (0x13, .writeImagePart d.w5 d.sub d.rect f), (0x14, .writeImagePartAgain d.w5 d.sub d.rect f),
         (0x15, .writeImageDual d.w5 d.w6 d.rect f), (0x16, .writeImagePartDual d.w5 d.w6 d.sub d.rect f),
         (0x20, .refresh (d.w0.getLsbD 12)), (0x21, .refreshRect d.rect),
         (0x30, .drawImage d.w5 d.rect f), (0x31, .drawImagePart d.w5 d.sub d.rect f),
         (0x32, .drawImageDual d.w5 d.w6 d.rect f), (0x33, .drawImagePartDual d.w5 d.w6 d.sub d.rect f)],
        d.w0.toNat % 256 = row.1 → decode d = .ok row.2)

/-- R68: X, Y, W, H, XPART, YPART, WBMP, HBMP are the sign extensions of the halves of words 1 to 4, in −32768..32767. -/
def Obligations.CoordinatesSignExtended : Prop :=
  ∀ d : Desc,
    d.rect = { x := sext16 (d.w1.toNat % 65536), y := sext16 (d.w1.toNat / 65536),
               w := sext16 (d.w2.toNat % 65536), h := sext16 (d.w2.toNat / 65536) } ∧
    d.sub = { xPart := sext16 (d.w3.toNat % 65536), yPart := sext16 (d.w3.toNat / 65536),
              wBmp := sext16 (d.w4.toNat % 65536), hBmp := sext16 (d.w4.toNat / 65536) } ∧
    d.rect.wf = true ∧ d.sub.wf = true

/-- R71: descriptors of one opcode without reserved bits that agree on the fields its row lists are one request. -/
def Obligations.UnlistedFieldsIgnored : Prop :=
  ∀ d e : Desc, d.op = e.op → ¬ reservedSet d → ¬ reservedSet e → sameFields d.op d e → decode d = decode e

/-- R81: each worked encoding is the request's descriptor and decodes to the request; and the two that fault. -/
def Obligations.WorkedEncodings : Prop :=
  (∀ di ∈
    [((⟨0x00000001, 0, 0, 0, 0, 0, 0, 0⟩ : Desc), (.init .pulse : Instr)),
     (⟨0x00000801, 0, 0, 0, 0, 0, 0, 0⟩, .init .pulldown),
     (⟨0x00000010, 0, 0, 0, 0, 0, 0, 0x000000FF⟩, .writeScreenBuffer 0xFF),
     (⟨0x00000011, 0, 0x00080080, 0, 0, 0x00001000, 0, 0⟩,
       .writeImage 0x1000 ⟨0, 0, 128, 8⟩ ⟨false, false, .direct⟩),
     (⟨0x00000311, 0x0005FFFD, 0x00020010, 0, 0, 0x00002000, 0, 0⟩,
       .writeImage 0x2000 ⟨-3, 5, 16, 2⟩ ⟨true, true, .direct⟩),
     (⟨0x00000413, 0, 0x00020010, 0x00010008, 0x00040020, 0x00003000, 0, 0⟩,
       .writeImagePart 0x3000 ⟨8, 1, 32, 4⟩ ⟨0, 0, 16, 2⟩ ⟨false, false, .readThrough⟩),
     (⟨0x00001020, 0, 0, 0, 0, 0, 0, 0⟩, .refresh true),
     (⟨0x00000021, 0x00000008, 0x00040008, 0, 0, 0, 0, 0⟩, .refreshRect ⟨8, 0, 8, 4⟩)],
    encode di.2 = di.1 ∧ decode di.1 = .ok di.2) ∧
  decode ⟨0x00002011, 0, 0, 0, 0, 0, 0, 0⟩ = .error .reservedBits ∧
  decode ⟨0x00000006, 0, 0, 0, 0, 0, 0, 0⟩ = .error .illegalOpcode

/-! ## The step and the register block (10_state.md) -/

/-- R17, R18, R31, R80: while no request is in flight, a step at a start that is taken and decodes is exec of the decoded
request, from the state with the descriptor latched, READY 0 and the host's move consumed; a step while one is in flight goes
on with what is left of it. Nothing else is around it. -/
def Obligations.StepRunsDecoded : Prop :=
  (∀ (s : State) (v : Word) (rest : List HostMove) (i : Instr),
    cfgWf s.cfg = true → s.todo = .skip → s.inbox = .write 0x20 4 v :: rest → startTaken v s = true →
    decode s.req = .ok i →
    step s = exec i { s with shadow := s.req, status := { s.status with ready := false }, inbox := rest }) ∧
  ∀ s : State, cfgWf s.cfg = true → s.todo ≠ .skip → s.env.timeRuns = true → nextRefusal s.inbox = none →
    step s = .next (s.todo.run { s with todo := .skip }).state

/-- R17: which starts are taken: bit 0 set, READY 1, and FAULT 0 or an INIT descriptor. -/
def Obligations.StartTakenWhen : Prop :=
  ∀ (v : Word) (s : State),
    startTaken v s = true ↔
      v.toNat % 2 = 1 ∧ s.status.ready = true ∧ (s.status.fault = false ∨ s.req.w0.toNat % 256 = 0x01)

/-- R17: a start is dropped, setting DROP and nothing else, between requests when FAULT holds it back, and while a request
runs always; a write to GO with bit 0 clear does nothing. -/
def Obligations.DroppedStarts : Prop :=
  ∀ (s : State) (v : Word) (rest : List HostMove), cfgWf s.cfg = true → s.inbox = .write 0x20 4 v :: rest →
    (s.todo = .skip → v.toNat % 2 = 1 → s.status.ready = true → s.status.fault = true → s.req.w0.toNat % 256 ≠ 0x01 →
      step s = .next { s with status := { s.status with drop := true }, inbox := rest }) ∧
    (s.todo = .skip → v.toNat % 2 = 0 → step s = .next { s with inbox := rest }) ∧
    (v.toNat % 2 = 1 → s.status.ready = false → hostSilent { s with inbox := rest } = true →
      hostTurn s = .going { s with status := { s.status with drop := true }, inbox := rest }) ∧
    (v.toNat % 2 = 0 → hostSilent { s with inbox := rest } = true → hostTurn s = .going { s with inbox := rest })

/-- R165(a), R169, R170: a start whose descriptor does not decode ends in its dispatch fault; the fault is recorded with
the descriptor's opcode, no flag of S changes, no line moves, nothing is logged, whatever the host does before the fault is
seen short of a reset; with a silent host nothing else changes. -/
def Obligations.DescriptorFaults : Prop :=
  ∀ (s : State) (v : Word) (rest : List HostMove),
    cfgWf s.cfg = true → s.todo = .skip → s.inbox = .write 0x20 4 v :: rest → startTaken v s = true →
    illegalOpcode s.req.op ∨ reservedSet s.req →
    let k : FaultKind := if s.req.op.toNat ∈ [0x01, 0x02, 0x03, 0x04, 0x05, 0x10, 0x11, 0x12, 0x13, 0x14, 0x15, 0x16, 0x20,
      0x21, 0x30, 0x31, 0x32, 0x33] then .reservedBits else .illegalOpcode
    (hostSilent { s with inbox := rest } = true →
      ∃ t, step s = .next t ∧ faultTaken k { s with shadow := s.req } t ∧
        dispatchKept { s with shadow := s.req, inbox := rest } t) ∧
    (hostNoReset { s with inbox := rest } = true → ∃ t, step s = .next t ∧ dispatchFaults k s.req.op s t)

/-- R16, R54: a write to REQk stores all 32 bits and nothing else happens; a read of REQk gives them back; between requests and
while one is in flight. -/
def Obligations.RequestRegisters : Prop :=
  ∀ (s : State) (k : Nat), k < 8 → cfgWf s.cfg = true →
    (∀ v, ∃ d, accessLeaves (.write (4 * k) 4 v) s { s with req := d } ∧ descGet d k = v ∧
      ∀ j, j < 8 → j ≠ k → descGet d j = descGet s.req j) ∧
    accessLeaves (.read (4 * k) 4) s { s with replies := s.replies ++ [descGet s.req k] }

/-- R15, R17, R30, R46(c), R54: what every other offset of the block reads as, between requests and while one is in flight; a
read has no side effect. -/
def Obligations.RegisterReads : Prop :=
  ∀ s : State, cfgWf s.cfg = true →
    ∀ r ∈ [(0x20, (0 : Word)), (0x24, statusWord s.status), (0x28, stateWord s.flags), (0x2C, geomWord s.cfg),
      (0x30, capsWord s.cfg), (0x34, s.cfg.busyTimeoutUs), (0x38, 0), (0x3C, 0)],
    accessLeaves (.read r.1 4) s { s with replies := s.replies ++ [r.2] }

/-- R19: the bits of the STATUS register, how it reads, and the writes it ignores. -/
def Obligations.StatusRegister : Prop :=
  (∀ (st : Status) (n : Nat), (statusWord st).getLsbD n =
    if n = 0 then st.ready else if n = 1 then st.fault else if n = 2 then st.waiting
    else if 4 ≤ n ∧ n ≤ 7 then st.faultCode.getLsbD (n - 4)
    else if n = 8 then st.timeout else if n = 9 then st.lastWaitTimeout else if n = 10 then st.drop
    else if 16 ≤ n ∧ n ≤ 23 then st.faultOp.getLsbD (n - 16) else false) ∧
  ∀ s : State, cfgWf s.cfg = true →
    accessLeaves (.read 0x24 4) s { s with replies := s.replies ++ [statusWord s.status] } ∧
    ∀ v, accessLeaves (.write 0x24 4 v) s s

/-- R20: the bits of the STATE register, how it reads, and the writes it ignores. -/
def Obligations.StateRegister : Prop :=
  (∀ (f : Flags) (n : Nat), (stateWord f).getLsbD n =
    if n = 0 then f.powerOn else if n = 1 then f.usingPartialMode else if n = 2 then f.initialWrite
    else if n = 3 then f.initialRefresh else if n = 4 then f.hibernating else if n = 5 then f.initDone else false) ∧
  ∀ s : State, cfgWf s.cfg = true →
    accessLeaves (.read 0x28 4) s { s with replies := s.replies ++ [stateWord s.flags] } ∧
    ∀ v, accessLeaves (.write 0x28 4 v) s s

/-- R29: GEOM, CAPS and BUSYTO read the configuration, ignore writes, and never change. -/
def Obligations.ConfigurationRegisters : Prop :=
  (∀ c : Cfg, cfgWf c = true → (geomWord c).toNat = c.width + 65536 * c.height) ∧
  (∀ (c : Cfg) (n : Nat), (capsWord c).getLsbD n =
    if n = 0 then c.hasColor else if n = 1 then c.hasPartial else if n = 2 then c.hasFastPartial
    else if n = 3 then c.hasCs else if n = 4 then c.hasDc else if n = 5 then c.hasRst else if n = 6 then c.hasBusy
    else if n = 7 then c.busyLevel else if n = 8 then c.waitAfterPartialUpdate else false) ∧
  (∀ s : State, cfgWf s.cfg = true →
    accessLeaves (.read 0x2C 4) s { s with replies := s.replies ++ [geomWord s.cfg] } ∧
    accessLeaves (.read 0x30 4) s { s with replies := s.replies ++ [capsWord s.cfg] } ∧
    accessLeaves (.read 0x34 4) s { s with replies := s.replies ++ [s.cfg.busyTimeoutUs] } ∧
    ∀ v, ∀ offset ∈ [0x2C, 0x30, 0x34], accessLeaves (.write offset 4 v) s s) ∧
  ∀ s t : State, step s = .next t → t.cfg = s.cfg

/-- R30, R45: the reserved offsets read 0 and ignore writes; an access outside the block, of another width than 32 bits or
misaligned is refused, also while a request is in flight. -/
def Obligations.ReservedAndRefusedAccesses : Prop :=
  ∀ (s : State) (offset width : Nat) (v : Word) (rest : List HostMove), cfgWf s.cfg = true →
    (offset = 0x38 ∨ offset = 0x3C →
      accessLeaves (.read offset 4) s { s with replies := s.replies ++ [0] } ∧ accessLeaves (.write offset 4 v) s s) ∧
    (0x40 ≤ offset → s.inbox = .read offset width :: rest ∨ s.inbox = .write offset width v :: rest →
      step s = .refused .outsideBlock) ∧
    (offset < 0x40 → width ≠ 4 ∨ offset % 4 ≠ 0 →
      s.inbox = .read offset width :: rest ∨ s.inbox = .write offset width v :: rest →
      step s = .refused .unalignedAccess)

/-- R38: what the engine's own reset leaves, at power-up and whenever its reset input is asserted, between requests or while
one is in flight; it leaves the bitmap memories alone. T0 and the levels of lines that are not driven are open (log 2, log 3),
so nothing is said of T0 and of the lines only that none is driven; that it ends a request in flight is log 14. -/
def Obligations.ResetValues : Prop :=
  (∀ c : Cfg,
    let r := State.resetOf c
    r.req = ⟨0, 0, 0, 0, 0, 0, 0, 0⟩ ∧ r.shadow = ⟨0, 0, 0, 0, 0, 0, 0, 0⟩ ∧ statusWord r.status = 0x00000001 ∧
      stateWord r.flags = 0x0000000C ∧ r.phase = .idle ∧ r.lines.configured = false ∧ r.lines.cs = .released ∧
      r.lines.dc = .released ∧ r.lines.rst = .released ∧ r.log = [] ∧ r.cfg = c ∧ r.todo = .skip) ∧
  ∀ (s : State) (rest : List HostMove), cfgWf s.cfg = true → s.inbox = .engineReset :: rest →
    s.todo = .skip ∨ (s.todo.first s.flags).isSome = true →
    ∃ t, step s = .next t ∧ t.req = ⟨0, 0, 0, 0, 0, 0, 0, 0⟩ ∧ t.shadow = ⟨0, 0, 0, 0, 0, 0, 0, 0⟩ ∧
      statusWord t.status = 0x00000001 ∧ stateWord t.flags = 0x0000000C ∧ t.phase = .idle ∧ t.lines.configured = false ∧
      t.lines.cs = .released ∧ t.lines.dc = .released ∧ t.lines.rst = .released ∧ t.log = [] ∧ t.cfg = s.cfg ∧
      t.direct = s.direct ∧ t.readThrough = s.readThrough ∧ t.todo = .skip ∧ t.inbox = rest

/-! ## Rules over every request and every step -/

/-- The invariant holds after reset, for every configuration. -/
def Obligations.InvariantAtReset : Prop := ∀ c : Cfg, (State.resetOf c).Inv = true

/-- R27(a) to (c), R19, R31, R33, R98: every step keeps the relations between the flags (between requests, and wherever what is
left of a request in flight can end), the consistency of STATUS, absent lines undriven, and the memories' canonical form; for a
PD whose power-on sequence sends a byte (log 19). -/
def Obligations.InvariantKept : Prop :=
  ∀ s t : State, s.Inv = true → s.cfg.pd.seqPowerOn ≠ [] → step s = .next t → t.Inv = true

/-- R6, R50: but for the engine's reset, a step only appends to the bus log; a step in which the host lets a request in flight
take one step of the engine appends at most one event. -/
def Obligations.BusLogOnlyGrows : Prop :=
  (∀ s t : State, hostNoReset s = true → step s = .next t → ∃ evs, t.log = s.log ++ evs) ∧
  ∀ (s t : State) (rest : List HostMove), s.todo ≠ .skip → s.inbox = .pass :: .hold :: rest → step s = .next t →
    t.log = s.log ∨ ∃ e, t.log = s.log ++ [e]

/-- R21 to R26: which requests can set and which can clear each flag of S; initDone is 1 wherever an INIT is past its first step,
also while the host holds it in flight (holds are log 5, the write in the first step beside R107's own is log 24). -/
def Obligations.FlagWriters : Prop :=
  ∀ (i : Instr) (s t : State), hostNoReset s = true → exec i s = .next t →
    (s.flags.powerOn = false → t.flags.powerOn = true → i = .powerOn ∨ writesPixels i = true ∨ refreshes i = true) ∧
    (s.flags.powerOn = true → t.flags.powerOn = false → i = .powerOff ∨ i = .hibernate ∨ isInit i = true) ∧
    (s.flags.usingPartialMode = false → t.flags.usingPartialMode = true → writesPixels i = true ∨ refreshes i = true) ∧
    (s.flags.usingPartialMode = true → t.flags.usingPartialMode = false →
      i = .powerOff ∨ i = .hibernate ∨ isInit i = true ∨ refreshes i = true) ∧
    (s.flags.initialWrite = true → t.flags.initialWrite = false → writesPixels i = true) ∧
    (s.flags.initialWrite = false → t.flags.initialWrite = true → isInit i = true) ∧
    (s.flags.initialRefresh = true → t.flags.initialRefresh = false → refreshes i = true) ∧
    (s.flags.initialRefresh = false → t.flags.initialRefresh = true → isInit i = true) ∧
    (s.flags.hibernating = false → t.flags.hibernating = true → i = .hibernate ∧ s.cfg.hasRst = true) ∧
    (s.flags.hibernating = true → t.flags.hibernating = false → isInit i = true) ∧
    (s.flags.initDone = false → t.flags.initDone = true → isInit i = true) ∧
    (s.flags.initDone = true → t.flags.initDone = true) ∧
    (isInit i = true → t.flags.initDone = true ∨ t.todo.first t.flags = some .initBegin)

/-- R202, R203: every request that the host does not hold ends, by completion or by a fault, if the time source advances, and
one that it held ends once it no longer does; a run ends there if no start is left. If the time source has stopped, a Delay
never ends and a busy wait that samples the active level never times out: the request stays in flight. -/
def Obligations.EveryRequestEnds : Prop :=
  (∀ (i : Instr) (s : State), cfgWf s.cfg = true → s.env.timeRuns = true → hostLegal s = true → hostNoHold s = true →
    ∃ t, exec i s = .next t ∧ t.todo = .skip ∧ t.status.ready = true) ∧
  (∀ (i : Instr) (s t : State) (ms : List HostMove), s.env.timeRuns = true → exec i s = .next t → t.todo ≠ .skip →
    hostLegal { t with inbox := ms } = true → hostNoHold { t with inbox := ms } = true →
    ∃ u, step { t with inbox := ms } = .next u ∧ u.todo = .skip ∧ u.status.ready = true) ∧
  (∀ (s t : State) (k : Nat), runEnded s = false → step s = .next t → runEnded t = true →
    endOfRun (k + 1) s = some t) ∧
  ∀ s : State, cfgWf s.cfg = true → s.env.timeRuns = false → hostSilent s = true → s.flags.initDone = true →
    (s.cfg.hasBusy = false ∧ s.cfg.tPartialRefreshMs ≠ 0) ∨
      (s.cfg.hasBusy = true ∧ s.env.busy.peek Config.freeBusyLevel 0 = s.cfg.busyLevel) →
    ∃ t, exec .waitBusy s = .next t ∧ t.status.ready = false ∧ t.status.waiting = true ∧ t.log = s.log ∧
      step t = .fault .timeSourceStopped

/-- R31, R55(a), R80: whatever the host does during a request that starts with no wait open, when it has ended READY is 1
and no wait is open, and while it is in flight READY is 0. Where the host holds it does not matter to it: from there the
next step ends where the request ends without the hold. -/
def Obligations.ReadyAfterRequest : Prop :=
  (∀ (i : Instr) (s t : State), s.status.waiting = false → exec i s = .next t →
    (t.todo = .skip → t.status.ready = true ∧ t.status.waiting = false ∧ t.seen = []) ∧
    (t.todo ≠ .skip → t.status.ready = false)) ∧
  ∀ (i : Instr) (s t : State) (ms rest : List HostMove), s.env.timeRuns = true →
    hostLegal { s with inbox := ms ++ rest } = true → hostNoHold { s with inbox := ms } = true →
    exec i { s with inbox := ms ++ .hold :: rest } = .next t → t.todo ≠ .skip →
    step t = exec i { s with inbox := ms ++ rest }

/-- R16, R192: what the host writes to the request registers while a request runs has no influence on the request: with
those values blotted out, the run differs in the request registers alone. -/
def Obligations.RequestRegistersNotSeen : Prop :=
  ∀ (i : Instr) (s t : State), s.inbox.any readsRequest = false → exec i s = .next t →
    ∃ u, exec i s.maskRequests = .next u ∧ u = { t.maskRequests with req := u.req }

/-- R113, R174, R86: while the controller hibernates, no request but INIT puts a byte on the bus or moves a line, and none
ends the hibernation. -/
def Obligations.NoTransferWhileHibernating : Prop :=
  ∀ (i : Instr) (s t : State), isInit i = false → s.flags.hibernating = true → hostNoReset s = true → exec i s = .next t →
    busBytes t.log = busBytes s.log ∧ t.wire = s.wire ∧ t.lines = s.lines ∧ t.flags.hibernating = true

/-- R18, R39, R46, R179: with a silent host, no request changes the configuration, the request registers, the latched
descriptor, a byte of either bitmap memory, or what the host holds; also where it ends in a fault. -/
def Obligations.HostSideFrame : Prop :=
  ∀ (i : Instr) (s t : State), hostSilent s = true → exec i s = .next t → hostSideKept s t

/-- R32, R95: a request that changes T0 is polling the busy line or has logged a Busy event; without a busy line, and in INIT,
T0 does not change. -/
def Obligations.TimerFrame : Prop :=
  ∀ (i : Instr) (s t : State), hostNoReset s = true → exec i s = .next t →
    (t.t0 = s.t0 ∨ t.status.waiting = true ∨ ∃ label o, Event.busy label o ∈ t.log.drop s.log.length) ∧
    (s.cfg.hasBusy = false ∨ isInit i = true → t.t0 = s.t0)

/-- R167, R168, R180: a request that faults leaves the fault in STATUS and in the record, with the code of R167 and the latched
opcode; one that ends without a fault leaves FAULT, FAULT_CODE and FAULT_OP as they were, and INIT leaves them clear; one in
flight has recorded none. -/
def Obligations.FaultIsRecorded : Prop :=
  (∀ (i : Instr) (s t : State), hostNoReset s = true → exec i s = .next t →
    (t.todo ≠ .skip ∧ t.status.ready = false ∧ t.faultRecord = s.faultRecord ∧
      (isInit i = false → t.status.fault = s.status.fault ∧ t.status.faultCode = s.status.faultCode ∧
        t.status.faultOp = s.status.faultOp)) ∨
    (t.todo = .skip ∧ t.status.ready = true ∧ t.faultRecord = s.faultRecord ∧
      t.status.fault = (!isInit i && s.status.fault) ∧
      t.status.faultCode = (if isInit i then 0 else s.status.faultCode) ∧
      t.status.faultOp = (if isInit i then 0 else s.status.faultOp)) ∨
    ∃ k, t.todo = .skip ∧ t.faultRecord = s.faultRecord ++ [{ kind := k, op := s.shadow.op }] ∧ t.status.ready = true ∧
      t.status.fault = true ∧ t.status.waiting = false ∧ t.status.faultCode = faultCodeOf k ∧
      t.status.faultOp = s.shadow.op) ∧
  ∀ p ∈ [(FaultKind.illegalOpcode, 1), (.reservedBits, 2), (.notInitialized, 3), (.unsupported, 4), (.hibernatingAccess, 5),
      (.busError, 6), (.sourceError, 7)], (faultCodeOf p.1).toNat = p.2

/-- R178, R171, R173: which requests can raise which fault. -/
def Obligations.FaultsOfEachRequest : Prop :=
  ∀ (i : Instr) (s t : State) (k : FaultKind) (op : Byte), hostNoReset s = true → exec i s = .next t →
    t.faultRecord = s.faultRecord ++ [{ kind := k, op := op }] →
    k ≠ .illegalOpcode ∧ k ≠ .reservedBits ∧
    (k = .notInitialized → isInit i = false ∧ s.flags.initDone = false) ∧
    (k = .unsupported → isDual i = true ∧ s.cfg.hasColor = false) ∧
    (k = .hibernatingAccess → s.flags.hibernating = true ∧ isInit i = false ∧ i ≠ .waitBusy ∧
      (i = .powerOff → s.flags.powerOn = true) ∧ (i = .hibernate → s.flags.powerOn = true ∨ s.cfg.hasRst = true)) ∧
    (k = .busError → isInit i = false ∧ i ≠ .waitBusy) ∧
    (k = .sourceError → readsBitmap i = true)

/-! ## Power requests (41_power_state.md) -/

/-- R107, R91, R92, R189, R204: INIT's log, flags, STATUS and lines, from any state; it transfers no byte. Started from a clean
entry it leaves the second launch form, whose controller RAM observer knows nothing (R60). R26, R19, D46: held after its first step
(log 5), it has cleared the sticky fields of STATUS and set initDone, and nothing else (both writes in that step: log 24). -/
def Obligations.InitResult : Prop :=
  (∀ (style : ResetStyle) (s : State), undisturbed s = true →
    ∃ t, exec (.init style) s = .next t ∧
      t.log = s.log ++ [.lineSetup]
        ++ (if s.cfg.hasRst then .resetPulse style :: delayEvents s.cfg.tResetSettleMs else []) ++ [.busSetup] ∧
      t.flags = { powerOn := false, usingPartialMode := false, initialWrite := true, initialRefresh := true,
                  hibernating := false, initDone := true } ∧
      t.status = { ready := true, fault := false, waiting := false, faultCode := 0, timeout := false,
                   lastWaitTimeout := false, drop := false, faultOp := 0 } ∧
      t.lines = { configured := true
                  cs := if s.cfg.hasCs then .high else s.lines.cs
                  dc := if s.cfg.hasDc then .high else s.lines.dc
                  rst := if s.cfg.hasRst then (if style = .pulldown then .released else .high) else s.lines.rst } ∧
      t.t0 = s.t0 ∧ t.wire = s.wire ∧ hostSideKept s t ∧ t.faultRecord = s.faultRecord ∧ t.todo = .skip ∧ t.seen = []) ∧
  (∀ (style : ResetStyle) (s : State) (rest : List HostMove), cfgWf s.cfg = true → s.inbox = .pass :: .hold :: rest →
    ∃ todo : Prog, todo.first { s.flags with initDone := true } = some .lineSetup ∧
      exec (.init style) s = .next { s with
        status := { ready := false, fault := false, waiting := s.status.waiting, faultCode := 0, timeout := false,
                    lastWaitTimeout := false, drop := false, faultOp := 0 }
        flags := { s.flags with initDone := true }, inbox := rest, todo := todo, seen := [] }) ∧
  ∀ (e : State) (d : Desc) (style : ResetStyle), cleanEntry e → undisturbed e = true → decode d = .ok (.init style) →
    ∃ t, step (placeStart d e) = .next t ∧ afterInit style t ∧ observe t = observerUnknown ∧
      (e.inbox.any isStart = false → runEnded t = true)

/-- R102, R108, R112: POWER_ON sends its sequence and waits when the controller is off, and sends nothing when it is on. -/
def Obligations.PowerOnResult : Prop :=
  ∀ s : State, undisturbed s = true → s.flags.initDone = true →
    (s.flags.powerOn = true → exec .powerOn s = .next (untouched s)) ∧
    (s.flags.powerOn = false → s.flags.hibernating = false → busOk (seqBytes s.cfg.pd.seqPowerOn).length s →
      ∃ o t, exec .powerOn s = .next t ∧
        leaves (powerOnEvents s.cfg o) { s.flags with powerOn := true } (waitStatus s.cfg o s.status) s t)

/-- R103, R109, R112: POWER_OFF sends its sequence, waits and clears both flags when the controller is on, and sends
nothing when it is off, hibernating or not. -/
def Obligations.PowerOffResult : Prop :=
  ∀ s : State, undisturbed s = true → s.flags.initDone = true →
    (s.flags.powerOn = false → exec .powerOff s = .next (untouched s)) ∧
    (s.flags.powerOn = true → s.flags.hibernating = false → busOk (seqBytes s.cfg.pd.seqPowerOff).length s →
      ∃ o t, exec .powerOff s = .next t ∧
        leaves (powerOffEvents s.cfg o) { s.flags with powerOn := false, usingPartialMode := false }
          (waitStatus s.cfg o s.status) s t)

/-- R110, R112: HIBERNATE powers off if the controller is on, then sends the deep-sleep sequence and sets the flag if there
is a reset line; without one it is POWER_OFF. -/
def Obligations.HibernateResult : Prop :=
  ∀ s : State, undisturbed s = true → mayTransfer s = true →
    (s.flags.powerOn = true →
      busOk ((seqBytes s.cfg.pd.seqPowerOff).length + (seqBytes s.cfg.pd.seqDeepSleep).length) s →
      ∃ o t, exec .hibernate s = .next t ∧
        leaves (powerOffEvents s.cfg o ++ (if s.cfg.hasRst then eventsOf (seqBytes s.cfg.pd.seqDeepSleep) else []))
          { s.flags with powerOn := false, usingPartialMode := false, hibernating := s.cfg.hasRst }
          (waitStatus s.cfg o s.status) s t) ∧
    (s.flags.powerOn = false → busOk (seqBytes s.cfg.pd.seqDeepSleep).length s →
      ∃ t, exec .hibernate s = .next t ∧
        leaves (if s.cfg.hasRst then eventsOf (seqBytes s.cfg.pd.seqDeepSleep) else [])
          { s.flags with hibernating := s.cfg.hasRst } s.status s t)

/-- R111: WAIT_BUSY waits, whatever the mode, hibernation included; it writes no flag. -/
def Obligations.WaitBusyResult : Prop :=
  ∀ s : State, undisturbed s = true → s.flags.initDone = true →
    ∃ o t, exec .waitBusy s = .next t ∧
      leaves (waitEvents s.cfg .explicit s.cfg.tPartialRefreshMs o) s.flags (waitStatus s.cfg o s.status) s t

/-! ## Write requests (43_write.md) -/

/-- R137, R141: WRITE_SCREEN_BUFFER enters Partial mode if it must, fills the previous buffer with the complement until the
first full refresh, fills the current buffer, and clears initialWrite. -/
def Obligations.FillResult : Prop :=
  ∀ (v : Byte) (s : State), undisturbed s = true → mayTransfer s = true →
    busOk (busBytes (partialEvents s.cfg s.flags .released ++ fillEvents s.cfg s.flags v)).length s →
    ∃ o t, exec (.writeScreenBuffer v) s = .next t ∧
      leaves (partialEvents s.cfg s.flags o ++ fillEvents s.cfg s.flags v)
        { partialFlags s.flags with initialWrite := false } (partialStatus s.cfg s.flags o s.status) s t

/-- R130, R132, R136, R139, R142 to R147: each of the six WRITE_IMAGE requests yields, enters Partial mode and clears the panel
where that is due, programs the window, selects the buffer and streams its plane or planes. The planes of each request: the
plain and part forms write the current buffer, the "again" forms the previous one, and a dual form writes its second bitmap
to the previous buffer with the complement of INV. -/
def Obligations.WriteImageResult : Prop :=
  (∀ (i : Instr) (s : State), isImageWrite i = true → undisturbed s = true → mayTransfer s = true →
    (isDual i = true → s.cfg.hasColor = true) → sourceOk (writeReads (planesOf i) s) s →
    busOk (busBytes (writeEvents (planesOf i) .released s)).length s →
    ∃ o t, exec i s = .next t ∧
      leaves (writeEvents (planesOf i) o s) (writeFlags s.cfg (planesOf i) s.flags)
        (writeStatus s.cfg (planesOf i) s.flags o s.status) s t) ∧
  ∀ (b c : Word) (p : SubImage) (r : Rect) (f : ImageFlags),
    let plane (form : Form) (base : Word) (inv : Bool) (sel : Buffer) : Plane :=
      { form := form, space := f.space, base := base, rect := r, inv := inv, mir := f.mir, sel := sel }
    planesOf (.writeImage b r f) = [plane .image b f.inv .cur] ∧
    planesOf (.writeImageAgain b r f) = [plane .image b f.inv .prev] ∧
    planesOf (.writeImagePart b p r f) = [plane (.part p) b f.inv .cur] ∧
    planesOf (.writeImagePartAgain b p r f) = [plane (.part p) b f.inv .prev] ∧
    planesOf (.writeImageDual b c r f) = [plane .image b f.inv .cur, plane .image c (!f.inv) .prev] ∧
    planesOf (.writeImagePartDual b c p r f) = [plane (.part p) b f.inv .cur, plane (.part p) c (!f.inv) .prev]

/-- R140: a part write whose sub-origin is outside its bitmap appends no event and does not change S, also where dispatch
faults it; unless the engine is reset meanwhile. -/
def Obligations.PartOutsideBitmap : Prop :=
  ∀ (b c : Word) (p : SubImage) (r : Rect) (f : ImageFlags) (i : Instr) (s t : State),
    p.xPart < 0 ∨ p.xPart ≥ p.wBmp ∨ p.yPart < 0 ∨ p.yPart ≥ p.hBmp →
    i = .writeImagePart b p r f ∨ i = .writeImagePartAgain b p r f ∨ i = .writeImagePartDual b c p r f →
    hostNoReset s = true → exec i s = .next t → t.log = s.log ∧ t.flags = s.flags

/-- R113, R136(c), R140, R152(c), R177(a): a write or partial refresh that is rejected or empty does nothing and does not
fault, hibernating or not. -/
def Obligations.NoOpRequests : Prop :=
  ∀ (i : Instr) (s : State), undisturbed s = true → s.flags.initDone = true →
    (isDual i = true → s.cfg.hasColor = true) → writesSomething s.cfg (planesOf i) = false →
    isImageWrite i = true ∨
      (∃ r, (i = .refreshRect r ∨ drawRect i = some r) ∧ takesFull s.cfg s.flags = false ∧ refreshWindow s.cfg r = none) →
    exec i s = .next (untouched s)

/-- R148: after a fill or a write request that ends without a fault and streams a byte, the flags show Partial mode, power on
and the first clear done; in states where Partial mode implies power (R27(a), part of the invariant). -/
def Obligations.ModeAfterWrite : Prop :=
  ∀ (i : Instr) (s t : State), hostNoReset s = true → (s.flags.usingPartialMode = true → s.flags.powerOn = true) →
    isFill i = true ∨ (isImageWrite i = true ∧ writesSomething s.cfg (planesOf i) = true) →
    exec i s = .next t → t.todo = .skip → t.faultRecord = s.faultRecord →
    t.flags.usingPartialMode = true ∧ t.flags.powerOn = true ∧ t.flags.initialWrite = false

/-! ## Refresh and draw requests (44_refresh_draw.md) -/

/-- R151, R154, R155: REFRESH.full re-enters Full mode only from Partial mode, updates, waits and clears initialRefresh;
REFRESH.partial is the rectangle refresh of the whole panel. -/
def Obligations.RefreshResult : Prop :=
  ∀ s : State, undisturbed s = true → mayTransfer s = true →
    (busOk (busBytes (fullEvents s.cfg s.flags .released .released)).length s →
      ∃ oOn o t, exec (.refresh false) s = .next t ∧
        leaves (fullEvents s.cfg s.flags oOn o) (fullFlags s.flags) (fullStatus s.cfg s.flags oOn o s.status) s t) ∧
    (busOk (busBytes (refreshEvents s.cfg s.flags (wholePanel s.cfg) .released .released)).length s →
      ∃ oOn o t, exec (.refresh true) s = .next t ∧
        leaves (refreshEvents s.cfg s.flags (wholePanel s.cfg) oOn o) (refreshFlags s.cfg s.flags (wholePanel s.cfg))
          (refreshStatus s.cfg s.flags (wholePanel s.cfg) oOn o s.status) s t)

/-- R152, R156, R163: REFRESH_RECT is a full refresh until the first one or without partial update, nothing on an empty
rectangle, else window and partial update in Partial mode. -/
def Obligations.RefreshRectResult : Prop :=
  ∀ (r : Rect) (s : State), undisturbed s = true → mayTransfer s = true →
    busOk (busBytes (refreshEvents s.cfg s.flags r .released .released)).length s →
    ∃ oOn o t, exec (.refreshRect r) s = .next t ∧
      leaves (refreshEvents s.cfg s.flags r oOn o) (refreshFlags s.cfg s.flags r)
        (refreshStatus s.cfg s.flags r oOn o s.status) s t

/-- R139, R157 to R160: each DRAW request is its write, then the refresh of its own rectangle from the flags the write left;
its planes are those of the write request of the same form. -/
def Obligations.DrawImageResult : Prop :=
  (∀ (i : Instr) (r : Rect) (s : State), drawRect i = some r → undisturbed s = true → mayTransfer s = true →
    (isDual i = true → s.cfg.hasColor = true) → sourceOk (writeReads (planesOf i) s) s →
    busOk (busBytes (writeEvents (planesOf i) .released s
      ++ refreshEvents s.cfg (writeFlags s.cfg (planesOf i) s.flags) r .released .released)).length s →
    ∃ oW oOn o t, exec i s = .next t ∧
      leaves (writeEvents (planesOf i) oW s
          ++ refreshEvents s.cfg (writeFlags s.cfg (planesOf i) s.flags) r oOn o)
        (refreshFlags s.cfg (writeFlags s.cfg (planesOf i) s.flags) r)
        (refreshStatus s.cfg (writeFlags s.cfg (planesOf i) s.flags) r oOn o
          (writeStatus s.cfg (planesOf i) s.flags oW s.status)) s t) ∧
  ∀ (b c : Word) (p : SubImage) (r : Rect) (f : ImageFlags),
    planesOf (.drawImage b r f) = planesOf (.writeImage b r f) ∧ drawRect (.drawImage b r f) = some r ∧
    planesOf (.drawImagePart b p r f) = planesOf (.writeImagePart b p r f) ∧ drawRect (.drawImagePart b p r f) = some r ∧
    planesOf (.drawImageDual b c r f) = planesOf (.writeImageDual b c r f) ∧ drawRect (.drawImageDual b c r f) = some r ∧
    planesOf (.drawImagePartDual b c p r f) = planesOf (.writeImagePartDual b c p r f) ∧
      drawRect (.drawImagePartDual b c p r f) = some r

/-- R24, R152, R161(a): while initialRefresh is 1, a REFRESH, REFRESH_RECT or DRAW request that ends without a fault has
sent the full update, whatever its rectangle, and leaves initialRefresh 0. -/
def Obligations.FirstRefreshIsFull : Prop :=
  ∀ (i : Instr) (s t : State), refreshes i = true → hostNoReset s = true → s.flags.initialRefresh = true →
    exec i s = .next t → t.todo = .skip → t.faultRecord = s.faultRecord →
    t.flags.initialRefresh = false ∧
      ∃ before after, t.log = s.log ++ before ++ eventsOf (seqBytes s.cfg.pd.seqFullUpdate) ++ after

/-! ## Faults (60_exceptions.md) -/

/-- R171: before the first INIT, every other request ends at dispatch with NOT_INITIALIZED: no flag, line or event is touched,
whatever the host does before the fault is seen short of a reset, and with a silent host nothing else changes. -/
def Obligations.NotInitialized : Prop :=
  (∀ (i : Instr) (s : State), cfgWf s.cfg = true → s.flags.initDone = false → isInit i = false →
    (hostSilent s = true → ∃ t, exec i s = .next t ∧ faultTaken .notInitialized s t ∧ dispatchKept s t) ∧
    (hostNoReset s = true → ∃ t, exec i s = .next t ∧ dispatchFaults .notInitialized s.shadow.op s t)) ∧
  ∀ c : Cfg, cfgWf c = true →
    ∃ t, exec .powerOn (State.resetOf c) = .next t ∧ t.status.faultCode = 3 ∧ stateWord t.flags = 0x0000000C

/-- R173: the four dual-plane requests, and no other, end at dispatch with UNSUPPORTED on a panel without colour: no flag, line
or event is touched, whatever the host does before the fault is seen short of a reset, and with a silent host nothing else
changes. -/
def Obligations.DualNeedsColour : Prop :=
  (∀ (i : Instr) (s : State), cfgWf s.cfg = true → s.flags.initDone = true → isDual i = true → s.cfg.hasColor = false →
    (hostSilent s = true → ∃ t, exec i s = .next t ∧ faultTaken .unsupported s t ∧ dispatchKept s t) ∧
    (hostNoReset s = true → ∃ t, exec i s = .next t ∧ dispatchFaults .unsupported s.shadow.op s t)) ∧
  ∀ (i : Instr) (s t : State) (op : Byte), hostNoReset s = true → isDual i = false → exec i s = .next t →
    t.faultRecord ≠ s.faultRecord ++ [{ kind := .unsupported, op := op }]

/-- R112, R113, R174, R178: while the controller hibernates, every request that would transfer ends with HIBERNATING_ACCESS at
its first byte, before it is driven; a region write has logged its yield by then (R136(e)). So does a transfer that is the next
step of a request in flight. -/
def Obligations.HibernatingAccess : Prop :=
  (∀ (i : Instr) (s : State), undisturbed s = true → s.flags.initDone = true → s.flags.hibernating = true →
    (isDual i = true → s.cfg.hasColor = true) →
    (i = .powerOn ∧ s.flags.powerOn = false ∧ seqBytes s.cfg.pd.seqPowerOn ≠ []) ∨
      (i = .powerOff ∧ s.flags.powerOn = true ∧ seqBytes s.cfg.pd.seqPowerOff ≠ []) ∨
      (i = .hibernate ∧ s.flags.powerOn = true ∧ seqBytes s.cfg.pd.seqPowerOff ≠ []) ∨
      (i = .hibernate ∧ s.flags.powerOn = false ∧ s.cfg.hasRst = true ∧ seqBytes s.cfg.pd.seqDeepSleep ≠ []) ∨
      isFill i = true ∨ (i = .refresh false ∧ fullTransfers s.cfg s.flags = true) ∨
      (i = .refresh true ∧ refreshTransfers s.cfg s.flags (wholePanel s.cfg) = true) ∨
      (∃ r, i = .refreshRect r ∧ refreshTransfers s.cfg s.flags r = true) ∨
      (readsBitmap i = true ∧ writesSomething s.cfg (planesOf i) = true) ∨
      (∃ r, drawRect i = some r ∧ writesSomething s.cfg (planesOf i) = false ∧
        refreshTransfers s.cfg s.flags r = true) →
    ∃ t, exec i s = .next t ∧ faultTaken .hibernatingAccess s t ∧ t.flags = s.flags ∧ t.lines = s.lines ∧
      t.wire = s.wire ∧ hostSideKept s t ∧
      t.log = s.log ++ (if writesSomething s.cfg (planesOf i) = true then delayEvents s.cfg.tYieldMs else [])) ∧
  ∀ (s : State) (b : ByteKind × Byte), cfgWf s.cfg = true → hostSilent s = true → s.flags.hibernating = true →
    s.todo.first s.flags = some (.send b) →
    ∃ t, step s = .next t ∧ faultTaken .hibernatingAccess s t ∧ t.flags = s.flags ∧ t.lines = s.lines ∧
      t.wire = s.wire ∧ t.log = s.log ∧ hostSideKept s t

/-- R86, R89, R166, R175: a failed transfer ends any request at that byte: the byte was driven but is not logged, the events
before it stay, and no later event or flag write happens. The first clause says so of every request, against the run of the same
request whose bus does not fail; the second of the transfer that is the next step of any request in flight, with its flags; the
third gives flags, log and wire for POWER_ON, POWER_OFF, REFRESH.full from Full mode and a one-buffer WRITE_SCREEN_BUFFER. -/
def Obligations.BusErrorKeepsPrefix : Prop :=
  (∀ (i : Instr) (n m : Nat) (s u : State), undisturbed s = true → busOk n s →
    s.env.bus.peek Config.freeBusFailure n = true → exec i (s.spareBus m) = .next u →
    n < (busBytes (u.log.drop s.log.length)).length → (busBytes (u.log.drop s.log.length)).length ≤ m →
    ∃ t evs e tail, exec i s = .next t ∧ faultEnds .busError s t ∧ t.log = s.log ++ evs ∧
      u.log = s.log ++ evs ++ e :: tail ∧ isByteEvent e = true ∧ (busBytes evs).length = n ∧ t.wire = s.wire ++ wireOf (evs ++ [e]) s ∧ hostSideKept s t) ∧
  (∀ (s : State) (b : ByteKind × Byte), cfgWf s.cfg = true → hostSilent s = true → s.flags.hibernating = false →
    s.todo.first s.flags = some (.send b) → s.env.bus.peek Config.freeBusFailure 0 = true →
    ∃ t, step s = .next t ∧ faultTaken .busError s t ∧ t.flags = s.flags ∧ hostSideKept s t ∧ t.log = s.log ∧
      t.wire = s.wire ++ [wireFrame b.1 b.2 s] ∧ linesIdle s t) ∧
  ∀ (i : Instr) (bs : List (ByteKind × Byte)) (n : Nat) (s : State), undisturbed s = true → mayTransfer s = true →
    (i = .powerOn ∧ s.flags.powerOn = false ∧ bs = seqBytes s.cfg.pd.seqPowerOn) ∨
      (i = .powerOff ∧ s.flags.powerOn = true ∧ bs = seqBytes s.cfg.pd.seqPowerOff) ∨
      (i = .refresh false ∧ s.flags.usingPartialMode = false ∧ bs = seqBytes s.cfg.pd.seqFullUpdate) ∨
      (∃ v, i = .writeScreenBuffer v ∧ s.flags.usingPartialMode = true ∧ s.flags.initialRefresh = false ∧
        bs = fillBytes s.cfg .cur v) →
    n < bs.length → busOk n s → s.env.bus.peek Config.freeBusFailure n = true →
    ∃ t, exec i s = .next t ∧ faultTaken .busError s t ∧ t.flags = s.flags ∧ hostSideKept s t ∧
      t.log = s.log ++ eventsOf (bs.take n) ∧ t.wire = s.wire ++ wireOf (eventsOf (bs.take (n + 1))) s

/-- R41, R135, R166, R176: a failed bitmap read ends any request that reads bitmap bytes before its byte is sent; the events
before it stay in the log and no later event or flag write happens. The first clause says so of every such request, against the
run of the same request whose reads do not fail; the second of the read that is the next step of any request in flight, with its
flags; the third gives flags and log for a one-plane WRITE_IMAGE request in Partial mode. -/
def Obligations.SourceErrorKeepsPrefix : Prop :=
  (∀ (i : Instr) (n m : Nat) (s u : State), undisturbed s = true → sourceOk n s →
    s.env.source.peek Config.freeSourceError n = true → exec i (s.spareSource m) = .next u → u.faultRecord = s.faultRecord →
    n + s.env.source.drawn < u.env.source.drawn → u.env.source.drawn ≤ m + s.env.source.drawn →
    ∃ t evs b tail, exec i s = .next t ∧ faultEnds .sourceError s t ∧ t.log = s.log ++ evs ∧
      u.log = s.log ++ evs ++ .data b :: tail ∧ t.env.source.drawn = s.env.source.drawn + n + 1 ∧
      t.wire = s.wire ++ wireOf evs s ∧ hostSideKept s t) ∧
  (∀ (s : State) (space : Space) (inv : Bool) (a : Word), cfgWf s.cfg = true → hostSilent s = true →
    s.todo.first s.flags = some (.stream space inv a) → s.env.source.peek Config.freeSourceError 0 = true →
    ∃ t, step s = .next t ∧ faultTaken .sourceError s t ∧ t.flags = s.flags ∧ hostSideKept s t ∧ t.log = s.log ∧
      t.wire = s.wire ∧ t.lines = s.lines) ∧
  ∀ (i : Instr) (p : Plane) (g : Region) (n : Nat) (s : State), undisturbed s = true → mayTransfer s = true →
    isImageWrite i = true → planesOf i = [p] → resolveRegion s.cfg p = some g →
    s.flags.usingPartialMode = true → s.flags.initialWrite = false → n < (planeAddrs p g).length →
    busOk (16 + n) s → sourceOk n s → s.env.source.peek Config.freeSourceError n = true →
    ∃ t, exec i s = .next t ∧ faultTaken .sourceError s t ∧ t.flags = s.flags ∧ hostSideKept s t ∧
      t.log = s.log ++ delayEvents s.cfg.tYieldMs ++ eventsOf (targetBytes s.cfg.pd g.clip p.sel)
        ++ ((planeBytes p g s).take n).map Event.data

/-! ## The address calculator (42_window_address.md) -/

/-- R120: AlignClip is EMPTY exactly when the size is 0 or the aligned rectangle misses the panel; the values of every other
result, for any origin, negative included; a rectangle that starts on the panel is not offset. -/
def Obligations.AlignClipEmpty : Prop :=
  ∀ (c : Cfg) (x y w h : Int), cfgWf c = true → 0 ≤ w → 0 ≤ h →
    (alignClip c x y w h = none ↔
      w = 0 ∨ h = 0 ∨ 8 * (x / 8) + 8 * ((w + 7) / 8) ≤ 0 ∨ (c.width : Int) ≤ 8 * (x / 8) ∨ y + h ≤ 0 ∨ (c.height : Int) ≤ y) ∧
    ∀ r, alignClip c x y w h = some r →
      (r.wb = (w + 7) / 8 ∧ r.x1 = max (8 * (x / 8)) 0 ∧ r.y1 = max y 0 ∧
        r.w1 = min (8 * (x / 8) + 8 * ((w + 7) / 8)) c.width - max (8 * (x / 8)) 0 ∧
        r.h1 = min (y + h) c.height - max y 0 ∧ r.dx = max (8 * (x / 8)) 0 - 8 * (x / 8) ∧ r.dy = max y 0 - y) ∧
      (0 ≤ x → 0 ≤ y → r.dx = 0 ∧ r.dy = 0 ∧ r.x1 = x - x % 8 ∧ r.y1 = y)

/-- R121: the bounds of every non-empty result of AlignClip. -/
def Obligations.AlignClipBounds : Prop :=
  ∀ (c : Cfg) (x y w h : Int) (r : Clipped), cfgWf c = true → 0 ≤ w → 0 ≤ h → alignClip c x y w h = some r →
    (r.x1 % 8 = 0 ∧ r.w1 % 8 = 0 ∧ 8 ≤ r.w1 ∧ 1 ≤ r.h1) ∧
    (0 ≤ r.x1 ∧ r.x1 + r.w1 ≤ c.width ∧ 0 ≤ r.y1 ∧ r.y1 + r.h1 ≤ c.height) ∧
    (r.dx % 8 = 0 ∧ 0 ≤ r.dx ∧ 0 ≤ r.dy) ∧
    (r.dx + r.w1 ≤ 8 * ceil8 w ∧ r.dy + r.h1 ≤ h)

/-- R124: what PartClamp rejects, and the aligned origin and clamped size it gives. -/
def Obligations.PartClampCases : Prop :=
  ∀ (p : SubImage) (w h : Int),
    (partClamp p w h = none ↔
      p.wBmp < 0 ∨ p.hBmp < 0 ∨ w < 0 ∨ h < 0 ∨ p.xPart < 0 ∨ p.wBmp ≤ p.xPart ∨ p.yPart < 0 ∨ p.hBmp ≤ p.yPart) ∧
    ∀ q, partClamp p w h = some q →
      q.xPa % 8 = 0 ∧ q.xPa ≤ p.xPart ∧ p.xPart < q.xPa + 8 ∧ 0 ≤ q.xPa ∧ q.w' = min w (p.wBmp - q.xPa) ∧ 0 ≤ q.w' ∧
      q.h' = min h (p.hBmp - p.yPart) ∧ (1 ≤ h → 1 ≤ q.h')

/-- R43, R125, R126, R127, R136: a plane's clip and source parameters in the plain and in the part form; SrcIndex, and
SrcIndexMirror with the row reflected in the whole bitmap; and every index a region streams from lies in the bitmap: byte
column, source row, and index. -/
def Obligations.SourceIndexInBitmap : Prop :=
  (∀ (c : Cfg) (p : Plane) (g : Region) (i j : Int), cfgWf c = true → resolveRegion c p = some g →
    0 ≤ i → i < g.clip.h1 → 0 ≤ j → j < g.clip.w1 / 8 →
    (0 ≤ g.src.colBase + j + g.clip.dx / 8 ∧ g.src.colBase + j + g.clip.dx / 8 < g.src.wbSrc) ∧
    (0 ≤ srcRow p.mir g i ∧ srcRow p.mir g i < g.src.hSrc) ∧
    (0 ≤ srcIndex p.mir g i j ∧ srcIndex p.mir g i j < g.src.wbSrc * g.src.hSrc)) ∧
  (∀ (g : Region) (i j : Int),
    srcIndex false g i j = g.src.colBase + j + g.clip.dx / 8 + (g.src.rowBase + i + g.clip.dy) * g.src.wbSrc ∧
    srcIndex true g i j
      = g.src.colBase + j + g.clip.dx / 8 + (g.src.hSrc - 1 - (g.src.rowBase + i + g.clip.dy)) * g.src.wbSrc) ∧
  ∀ (c : Cfg) (p : Plane) (g : Region), resolveRegion c p = some g → 0 ≤ p.rect.w ∧ 0 ≤ p.rect.h ∧
    (p.form = .image →
      alignClip c p.rect.x p.rect.y p.rect.w p.rect.h = some g.clip ∧
      g.src.colBase = 0 ∧ g.src.rowBase = 0 ∧ g.src.wbSrc = (p.rect.w + 7) / 8 ∧ g.src.hSrc = p.rect.h) ∧
    ∀ sub : SubImage, p.form = .part sub →
      ∃ q, partClamp sub p.rect.w p.rect.h = some q ∧ alignClip c p.rect.x p.rect.y q.w' q.h' = some g.clip ∧
        g.src.colBase = sub.xPart / 8 ∧ g.src.rowBase = sub.yPart ∧ g.src.wbSrc = (sub.wBmp + 7) / 8 ∧
        g.src.hSrc = sub.hBmp

/-- R128: a mirrored plane on a bitmap and the unmirrored plane on its row-reversed copy read the same bytes in the same
order and append the same events. -/
def Obligations.MirrorReadsReversed : Prop :=
  ∀ (s : State) (p q : Plane) (g : Region), cfgWf s.cfg = true → p.mir = true →
    q = { p with mir := false, base := q.base } → resolveRegion s.cfg p = some g →
    (∀ r c : Int, 0 ≤ r → r < g.src.hSrc → 0 ≤ c → c < g.src.wbSrc →
      byteAt p.space (sourceAddr q.base (c + r * g.src.wbSrc)) s
        = byteAt p.space (sourceAddr p.base (c + (g.src.hSrc - 1 - r) * g.src.wbSrc)) s) →
    planeBytes p g s = planeBytes q g s ∧ regionEvents p s = regionEvents q s ∧
      ∀ o, firstWriteEvents p o s = firstWriteEvents q o s

/-- R90, R104, R122: the bytes SetPartialRamArea sends for a clipped rectangle are its byte columns and rows, and none is cut;
the bytes of a PD sequence are each command followed by its data, in order; the controller init sequence is INIT_PRE, the full
panel's window, INIT_POST. -/
def Obligations.WindowBytesFit : Prop :=
  (∀ (c : Cfg) (x y w h : Int) (r : Clipped), cfgWf c = true → 0 ≤ w → 0 ≤ h → alignClip c x y w h = some r →
    ∃ xs xe y0 y1 y2 y3 : Byte,
      windowBytes c.pd r.x1 r.y1 r.w1 r.h1 =
        [(.cmd, c.pd.opDataEntry), (.data, c.pd.entryXyInc), (.cmd, c.pd.opRamXWindow), (.data, xs), (.data, xe),
         (.cmd, c.pd.opRamYWindow), (.data, y0), (.data, y1), (.data, y2), (.data, y3),
         (.cmd, c.pd.opRamXCounter), (.data, xs), (.cmd, c.pd.opRamYCounter), (.data, y0), (.data, y1)] ∧
      8 * (xs.toNat : Int) = r.x1 ∧ 8 * (xe.toNat : Int) + 8 = r.x1 + r.w1 ∧
      (y0.toNat : Int) + 256 * y1.toNat = r.y1 ∧ (y2.toNat : Int) + 256 * y3.toNat = r.y1 + r.h1 - 1) ∧
  (seqBytes [] = [] ∧ ∀ (cmd : Byte) (args : List Byte) (rest : List SeqStep),
    seqBytes (⟨cmd, args⟩ :: rest) = (.cmd, cmd) :: args.map (fun b => (.data, b)) ++ seqBytes rest) ∧
  ∀ c : Cfg, initControllerBytes c = seqBytes c.pd.initPre
    ++ [(.cmd, c.pd.opDataEntry), (.data, c.pd.entryXyInc),
        (.cmd, c.pd.opRamXWindow), (.data, 0), (.data, BitVec.ofInt 8 (((c.width : Int) - 1) / 8)),
        (.cmd, c.pd.opRamYWindow), (.data, 0), (.data, 0), (.data, BitVec.ofInt 8 (((c.height : Int) - 1) % 256)),
          (.data, BitVec.ofInt 8 (((c.height : Int) - 1) / 256)),
        (.cmd, c.pd.opRamXCounter), (.data, 0), (.cmd, c.pd.opRamYCounter), (.data, 0), (.data, 0)]
    ++ seqBytes c.pd.initPost

/-- R41, R131, R134, R135: how many data bytes a region write streams after its select, and which: the byte of row i and byte
column j is read at (base + index) mod 2^32 and complemented to 255 - b under INV; the window and select before them; how many a
fill streams for each buffer; and that a rejected or empty write has no event. -/
def Obligations.ByteCounts : Prop :=
  (∀ (s : State) (p : Plane) (g : Region), cfgWf s.cfg = true → resolveRegion s.cfg p = some g →
    ((planeBytes p g s).length : Int) = g.clip.w1 / 8 * g.clip.h1 ∧
    ∀ i j : Nat, (i : Int) < g.clip.h1 → (j : Int) < g.clip.w1 / 8 →
      ∃ (a : Word) (b : Byte), (a.toNat : Int) = ((p.base.toNat : Int) + srcIndex p.mir g i j) % 4294967296 ∧
        (planeBytes p g s)[j + i * (g.clip.w1 / 8).toNat]? = some b ∧
        b.toNat = if p.inv then 255 - (byteAt p.space a s).toNat else (byteAt p.space a s).toNat) ∧
  (∀ (pd : Pd) (r : Clipped) (sel : Buffer), targetBytes pd r sel
    = windowBytes pd r.x1 r.y1 r.w1 r.h1
      ++ [(.cmd, match sel with | .cur => pd.opWriteRamCurrent | .prev => pd.opWriteRamPrevious)]) ∧
  (∀ (c : Cfg) (f : Flags) (v : Byte),
    fillEvents c f v =
      (if f.initialRefresh then
        eventsOf (windowBytes c.pd 0 0 c.width c.height) ++ .cmd c.pd.opWriteRamPrevious
          :: (List.replicate (c.width * c.height / 8) (Event.data (255 - v)))
      else []) ++
      eventsOf (windowBytes c.pd 0 0 c.width c.height) ++ .cmd c.pd.opWriteRamCurrent
        :: (List.replicate (c.width * c.height / 8) (Event.data v))) ∧
  ∀ (s : State) (p : Plane) (o : WaitOutcome), resolveRegion s.cfg p = none →
    firstWriteEvents p o s = [] ∧ regionEvents p s = []

/-! ## Bus, waits, memory and the controller RAM (20_memory.md, 40_transport.md) -/

/-- R86, R78: one transfer: refused while hibernating before a line moves, else driven with CS low, DC by kind and bit 7
first and the lines idle again; logged unless the bus reports a failure. -/
def Obligations.TransferOnTheWire : Prop :=
  ∀ (k : ByteKind) (b : Byte) (s : State), hostSilent s = true →
    let frame : WireFrame :=
      { cs := if s.cfg.hasCs then .low else s.lines.cs
        dc := if s.cfg.hasDc then (if k = .data then .high else .low) else s.lines.dc
        bits := (List.range 8).map fun n => b.getLsbD (7 - n) }
    (s.flags.hibernating = true →
      ∃ t, transfer (k, b) s = .ended t ∧ faultTaken .hibernatingAccess s t ∧ t.log = s.log ∧ t.wire = s.wire ∧
        t.lines = s.lines ∧ t.flags = s.flags) ∧
    (s.flags.hibernating = false → s.env.bus.peek Config.freeBusFailure 0 = false →
      ∃ t, transfer (k, b) s = .going t ∧ t.log = s.log ++ [if k = .cmd then .cmd b else .data b] ∧
        t.wire = s.wire ++ [frame] ∧ linesIdle s t ∧ t.flags = s.flags ∧ t.status = s.status) ∧
    (s.flags.hibernating = false → s.env.bus.peek Config.freeBusFailure 0 = true →
      ∃ t, transfer (k, b) s = .ended t ∧ faultTaken .busError s t ∧ t.log = s.log ∧ t.wire = s.wire ++ [frame] ∧
        linesIdle s t ∧ t.flags = s.flags)

/-- R95(a) to (c), R63, R96: T0 is the count at the wait's start; a sample that shows the line released ends the wait RELEASED,
one that shows it active leads to a poll interval; the interval ends the wait TIMEOUT exactly when (Now - T0) mod 2^32 is greater
than BUSY_TIMEOUT_US, and else goes on to the next sample. So a wait released at its m-th sample while the elapsed time has not
passed BUSY_TIMEOUT_US ends RELEASED after m intervals, one whose m-th interval passes it ends TIMEOUT there, and one whose samples
all show the line active ends TIMEOUT; without a busy line the wait is the fallback delay. The count's free start, the script the
intervals are drawn from and the bound n on the samples left are the model's form of R63 (log 6, log 8, the model's choices). -/
def Obligations.BusyWaitOutcome : Prop :=
  (∀ (label : WaitLabel) (n : Nat) (s : State), hostSilent s = true →
    (let start := s.env.clock + BitVec.ofNat 32 (s.env.elapsed.peek Config.freeElapsed 0)
     (Prog.act .waitBegin).run s = .going { s with
       status := { s.status with waiting := true }, t0 := start
       env := { s.env with clock := start, elapsed := s.env.elapsed.skip 1 } }) ∧
    (let u : State := { s with env := { s.env with busy := s.env.busy.skip 1 } }
     (s.env.busy.peek Config.freeBusyLevel 0 ≠ s.cfg.busyLevel →
       (Prog.act (.sample label (n + 1))).run s = .going { u with
         log := s.log ++ [.busy label .released], status := { s.status with waiting := false, lastWaitTimeout := false } }) ∧
     (s.env.busy.peek Config.freeBusyLevel 0 = s.cfg.busyLevel →
       (Prog.act (.sample label (n + 1))).run s = (Prog.act (.interval label n)).run u)) ∧
    (s.env.timeRuns = true →
      ∃ us : Nat, 1000 ≤ us ∧ (s.cfg.busyTimeoutUs.toNat + 1000 < 2 ^ 32 → us < 2 ^ 32 - s.cfg.busyTimeoutUs.toNat) ∧
        (1000 + s.env.elapsed.peek Config.freeElapsed 0 < 2 ^ 32 - s.cfg.busyTimeoutUs.toNat →
          us = 1000 + s.env.elapsed.peek Config.freeElapsed 0) ∧
        let now := s.env.clock + BitVec.ofNat 32 us
        let u : State := { s with env := { s.env with clock := now, elapsed := s.env.elapsed.skip 1 } }
        let elapsed : Int := ((now.toNat : Int) - s.t0.toNat) % 2 ^ 32
        (elapsed ≤ s.cfg.busyTimeoutUs.toNat →
          (Prog.act (.interval label n)).run s = (Prog.act (.sample label n)).run u) ∧
        (s.cfg.busyTimeoutUs.toNat < elapsed →
          (Prog.act (.interval label n)).run s = .going { u with
            log := s.log ++ [.busy label .timeout]
            status := { s.status with waiting := false, lastWaitTimeout := true, timeout := true } }))) ∧
  ∀ (label : WaitLabel) (ms : Nat) (s : State), hostSilent s = true → s.env.timeRuns = true → s.status.waiting = false →
    let start := s.env.clock + BitVec.ofNat 32 (s.env.elapsed.peek Config.freeElapsed 0)
    (s.cfg.hasBusy = true → s.env.busy.peek Config.freeBusyLevel 0 ≠ s.cfg.busyLevel →
      ∃ t, (waitWhileBusy label ms s.cfg).run s = .going t ∧ t.log = s.log ++ [.busy label .released] ∧
        t.status = { s.status with lastWaitTimeout := false } ∧ t.t0 = start ∧ t.env.busy.drawn = s.env.busy.drawn + 1 ∧
        t.env.elapsed.drawn = s.env.elapsed.drawn + 1) ∧
    (∀ m : Nat, s.cfg.hasBusy = true → (∀ j, j < m → s.env.busy.peek Config.freeBusyLevel j = s.cfg.busyLevel) →
      (∀ j, j < m → 1000 + s.env.elapsed.peek Config.freeElapsed (j + 1) < 2 ^ 32 - s.cfg.busyTimeoutUs.toNat) →
      (∀ j, j < m → pollElapsed s j ≤ s.cfg.busyTimeoutUs.toNat) →
      (s.env.busy.peek Config.freeBusyLevel m ≠ s.cfg.busyLevel → pollElapsed s m ≤ s.cfg.busyTimeoutUs.toNat →
        ∃ t, (waitWhileBusy label ms s.cfg).run s = .going t ∧ t.log = s.log ++ [.busy label .released] ∧
          t.status = { s.status with lastWaitTimeout := false } ∧ t.t0 = start ∧
          t.env.clock = start + BitVec.ofNat 32 (pollElapsed s m) ∧ t.env.busy.drawn = s.env.busy.drawn + m + 1 ∧
          t.env.elapsed.drawn = s.env.elapsed.drawn + m + 1) ∧
      (s.cfg.busyTimeoutUs.toNat < pollElapsed s m →
        ∃ t, (waitWhileBusy label ms s.cfg).run s = .going t ∧ t.log = s.log ++ [.busy label .timeout] ∧
          t.status = { s.status with lastWaitTimeout := true, timeout := true } ∧ t.t0 = start ∧
          t.env.clock = start + BitVec.ofNat 32 (pollElapsed s m) ∧ t.env.busy.drawn = s.env.busy.drawn + m ∧
          t.env.elapsed.drawn = s.env.elapsed.drawn + m + 1)) ∧
    (s.cfg.hasBusy = true →
      (∀ k, k ≤ s.cfg.busyTimeoutUs.toNat / 1000 → s.env.busy.peek Config.freeBusyLevel k = s.cfg.busyLevel) →
      ∃ t, (waitWhileBusy label ms s.cfg).run s = .going t ∧ t.log = s.log ++ [.busy label .timeout] ∧
        t.status = { s.status with lastWaitTimeout := true, timeout := true } ∧ t.t0 = start) ∧
    (s.cfg.hasBusy = false →
      ∃ t, (waitWhileBusy label ms s.cfg).run s = .going t ∧ t.log = s.log ++ delayEvents ms ∧
        t.status = { s.status with lastWaitTimeout := false })

/-- R39, R40, R201: a byte the host supplies is what the space then holds at that address; every other byte of that space, and
the rest of the machine, is unchanged. That the other space is unchanged too is the model's choice (log 23): R40 leaves open
whether one memory backs both. -/
def Obligations.BitmapSupply : Prop :=
  ∀ (s : State) (space : Space) (a : Word) (b : Byte) (rest : List HostMove), cfgWf s.cfg = true →
    memWf (memOf space s) = true → s.status.ready = true → s.todo = .skip → s.inbox = .poke space a b :: rest →
    ∃ t, step s = .next t ∧ byteAt space a t = b ∧ memWf (memOf space t) = true ∧
      (∀ space' a', space' ≠ space ∨ a' ≠ a → byteAt space' a' t = byteAt space' a' s) ∧
      t = { s with direct := t.direct, readThrough := t.readThrough, inbox := rest }

/-- R46(a), R53: once the host has overwritten a bitmap byte while a request runs, the request reads there the old byte, which the
memory held until that write, or the new one, as the race is drawn, and every other byte as before; a read sends that byte, and changes none that a later read returns; a
byte the host has not touched during the request is the memory's. Two things here are the model's
choice and not the words of R46(a) or R53: that a byte of the other space is among the bytes read as before (log 23: two disjoint
memories; R40 leaves open whether one memory backs both), and that each host write is one draw, after which the request sees that
one byte there until the next write, however often it reads (log 7). -/
def Obligations.RacedByteOldOrNew : Prop :=
  (∀ (s : State) (space space' : Space) (a a' : Word) (b : Byte), s.status.ready = false →
    memWf (memOf space s) = true →
    let t := hostPoke space a b s
    byteAt space a t = b ∧
    (engineByte space a t = byteAt space a s ∨ engineByte space a t = b) ∧
    engineByte space a t = (if s.env.race.peek Config.freeRace 0 then b else byteAt space a s) ∧
    t.env.race.drawn = s.env.race.drawn + 1 ∧
    (space' ≠ space ∨ a' ≠ a → engineByte space' a' t = engineByte space' a' s)) ∧
  (∀ (s : State) (space space' : Space) (a a' : Word) (inv : Bool), hostSilent s = true → mayTransfer s = true →
    busOk 1 s → sourceOk 1 s →
    ∃ t, (Prog.act (.stream space inv a)).run s = .going t ∧
      t.log = s.log ++ [.data (applyInvert inv (engineByte space a s))] ∧
      engineByte space' a' t = engineByte space' a' s) ∧
  ∀ (s : State) (space : Space) (a : Word), s.seen = [] → engineByte space a s = byteAt space a s

/-- R59 to R62: after the events of a region write in Partial mode the observer's plane holds the k-th streamed byte at its row
and byte column of the window, and no byte lands elsewhere; for a PD whose window, counter, select and entry-mode opcodes differ. A place outside the panel, which
the observer keeps as it was too, is the model's own (log 15). -/
def Obligations.ObserverHoldsRegion : Prop :=
  ∀ (s : State) (p : Plane) (g : Region) (before : List Event), cfgWf s.cfg = true → resolveRegion s.cfg p = some g →
    [s.cfg.pd.opDataEntry, s.cfg.pd.opRamXWindow, s.cfg.pd.opRamYWindow, s.cfg.pd.opRamXCounter, s.cfg.pd.opRamYCounter,
      s.cfg.pd.opWriteRamCurrent, s.cfg.pd.opWriteRamPrevious].Nodup →
    let o := observeLog s.cfg.pd (before ++ regionEvents p s)
    (∀ i j : Nat, (i : Int) < g.clip.h1 → (j : Int) < g.clip.w1 / 8 →
      ramAt p.sel o ((g.clip.x1 / 8).toNat + j) (g.clip.y1.toNat + i)
        = some (applyInvert p.inv (byteAt p.space (sourceAddr p.base (srcIndex p.mir g i j)) s))) ∧
    ∀ (sel : Buffer) (col row : Nat),
      sel ≠ p.sel ∨ (col : Int) < g.clip.x1 / 8 ∨ (g.clip.x1 + g.clip.w1) / 8 ≤ col ∨ (row : Int) < g.clip.y1 ∨
        g.clip.y1 + g.clip.h1 ≤ row →
      ramAt sel o col row = ramAt sel (observeLog s.cfg.pd before) col row
end

