-- ==== Sys2Proof/Laws/Address.lean ====
section
/-!
SUPPORT. The address calculator's case lemmas: when AlignClip, PartClamp and the resolution of a plane answer, and with what.
-/
namespace Sys2Proof.Machine

theorem cfgWf_iff {c : Cfg} :
    cfgWf c = true ↔
      c.width % 8 = 0 ∧ 8 ≤ c.width ∧ c.width ≤ 2048 ∧ 1 ≤ c.height ∧ c.height ≤ 32767 ∧ c.spiMode ≤ 3 := by
  simp [cfgWf, and_assoc]

/-- The values AlignClip computes, before it looks whether they are empty (R120). -/
def clipOf (c : Cfg) (x y w h : Int) : Clipped :=
  { x1 := max (x - x % 8) 0
    y1 := max y 0
    w1 := min (x - x % 8 + 8 * ceil8 w) c.width - max (x - x % 8) 0
    h1 := min (y + h) c.height - max y 0
    dx := max (x - x % 8) 0 - (x - x % 8)
    dy := max y 0 - y
    wb := ceil8 w }

theorem alignClip_none {c : Cfg} {x y w h : Int} :
    alignClip c x y w h = none ↔ (clipOf c x y w h).w1 ≤ 0 ∨ (clipOf c x y w h).h1 ≤ 0 := by
  have e : alignClip c x y w h
      = if (clipOf c x y w h).w1 ≤ 0 ∨ (clipOf c x y w h).h1 ≤ 0 then none else some (clipOf c x y w h) := rfl
  rw [e]
  by_cases hc : (clipOf c x y w h).w1 ≤ 0 ∨ (clipOf c x y w h).h1 ≤ 0
  · simp [hc]
  · simp [hc]

theorem alignClip_some {c : Cfg} {x y w h : Int} {r : Clipped} :
    alignClip c x y w h = some r ↔ r = clipOf c x y w h ∧ 0 < r.w1 ∧ 0 < r.h1 := by
  have e : alignClip c x y w h
      = if (clipOf c x y w h).w1 ≤ 0 ∨ (clipOf c x y w h).h1 ≤ 0 then none else some (clipOf c x y w h) := rfl
  rw [e]
  by_cases hc : (clipOf c x y w h).w1 ≤ 0 ∨ (clipOf c x y w h).h1 ≤ 0
  · simp only [hc, if_true, reduceCtorEq, false_iff]
    rintro ⟨rfl, h1, h2⟩
    omega
  · simp only [hc, if_false, Option.some.injEq]
    constructor
    · rintro rfl
      exact ⟨rfl, by omega, by omega⟩
    · rintro ⟨rfl, -, -⟩
      rfl

/-- A sub-image's origin and sizes are ones PartClamp accepts (R124). -/
def partAccepted (p : SubImage) (w h : Int) : Prop :=
  0 ≤ w ∧ 0 ≤ h ∧ 0 ≤ p.xPart ∧ p.xPart < p.wBmp ∧ 0 ≤ p.yPart ∧ p.yPart < p.hBmp

theorem partClamp_some {p : SubImage} {w h : Int} {q : PartWindow} :
    partClamp p w h = some q ↔
      partAccepted p w h ∧ q = { xPa := p.xPart - p.xPart % 8, w' := min w (p.wBmp - (p.xPart - p.xPart % 8)),
                                 h' := min h (p.hBmp - p.yPart) } := by
  unfold partClamp partAccepted
  constructor
  · intro hq
    split at hq
    · cases hq
    · split at hq
      · cases hq
      · split at hq
        · cases hq
        · exact ⟨by omega, (Option.some.inj hq).symm⟩
  · rintro ⟨ha, rfl⟩
    rw [if_neg (by omega), if_neg (by omega), if_neg (by omega)]

theorem partClamp_none {p : SubImage} {w h : Int} : partClamp p w h = none ↔ ¬ partAccepted p w h := by
  cases hq : partClamp p w h with
  | none =>
    simp only [true_iff]
    intro ha
    rw [partClamp_some.2 ⟨ha, rfl⟩] at hq
    cases hq
  | some q =>
    simp only [reduceCtorEq, false_iff, Classical.not_not]
    exact (partClamp_some.1 hq).1

/-- What a plane that resolves gives: a clipped rectangle of a size that fits the source from its first column and row. -/
theorem resolveRegion_some {c : Cfg} {p : Plane} {g : Region} (h : resolveRegion c p = some g) :
    ∃ w h', 0 ≤ w ∧ 0 ≤ h' ∧ alignClip c p.rect.x p.rect.y w h' = some g.clip ∧ 0 ≤ g.src.colBase
      ∧ g.src.colBase + ceil8 w ≤ g.src.wbSrc ∧ 0 ≤ g.src.rowBase ∧ g.src.rowBase + h' ≤ g.src.hSrc := by
  unfold resolveRegion at h
  split at h
  · cases h
  · split at h
    · obtain ⟨r, hr, rfl⟩ := Option.map_eq_some_iff.1 h
      exact ⟨_, _, by omega, by omega, hr, by simp, by simp, by simp, by simp⟩
    · obtain ⟨q, hq, h⟩ := Option.bind_eq_some_iff.1 h
      obtain ⟨r, hr, rfl⟩ := Option.map_eq_some_iff.1 h
      obtain ⟨ha, rfl⟩ := partClamp_some.1 hq
      unfold partAccepted at ha
      refine ⟨_, _, ?_, ?_, hr, ?_, ?_, ha.2.2.2.2.1, ?_⟩ <;> simp only [ceil8] <;> omega

end Sys2Proof.Machine
end

