-- ==== Sys2Proof/Laws/State.lean ====
section
/-!
SUPPORT. What each update of the state does to each field, so that no proof unfolds a record update; and the same for one flag
among the flags.
-/
namespace Sys2Proof.Machine

/-! ### A flag among the flags -/

@[simp] theorem Flags.get_set_self (f : Flags) (n : FlagName) (v : Bool) : (f.set n v).get n = v := by cases n <;> rfl

theorem Flags.get_set_ne (f : Flags) {n m : FlagName} (v : Bool) (h : m ≠ n) : (f.set n v).get m = f.get m := by
  cases n <;> cases m <;> first | rfl | exact absurd rfl h

@[simp] theorem Flags.get_powerOn (f : Flags) : f.get .powerOn = f.powerOn := rfl
@[simp] theorem Flags.get_usingPartialMode (f : Flags) : f.get .usingPartialMode = f.usingPartialMode := rfl
@[simp] theorem Flags.get_initialWrite (f : Flags) : f.get .initialWrite = f.initialWrite := rfl
@[simp] theorem Flags.get_initialRefresh (f : Flags) : f.get .initialRefresh = f.initialRefresh := rfl
@[simp] theorem Flags.get_hibernating (f : Flags) : f.get .hibernating = f.hibernating := rfl
@[simp] theorem Flags.get_initDone (f : Flags) : f.get .initDone = f.initDone := rfl
@[simp] theorem Flags.set_powerOn (f : Flags) (v : Bool) : f.set .powerOn v = { f with powerOn := v } := rfl
@[simp] theorem Flags.set_usingPartialMode (f : Flags) (v : Bool) : f.set .usingPartialMode v = { f with usingPartialMode := v } := rfl
@[simp] theorem Flags.set_initialWrite (f : Flags) (v : Bool) : f.set .initialWrite v = { f with initialWrite := v } := rfl
@[simp] theorem Flags.set_initialRefresh (f : Flags) (v : Bool) : f.set .initialRefresh v = { f with initialRefresh := v } := rfl
@[simp] theorem Flags.set_hibernating (f : Flags) (v : Bool) : f.set .hibernating v = { f with hibernating := v } := rfl
@[simp] theorem Flags.set_initDone (f : Flags) (v : Bool) : f.set .initDone v = { f with initDone := v } := rfl

/-! ### setFlag -/

@[simp] theorem setFlag_cfg (n : FlagName) (v : Bool) (s : State) : (setFlag n v s).cfg = s.cfg := rfl
@[simp] theorem setFlag_req (n : FlagName) (v : Bool) (s : State) : (setFlag n v s).req = s.req := rfl
@[simp] theorem setFlag_shadow (n : FlagName) (v : Bool) (s : State) : (setFlag n v s).shadow = s.shadow := rfl
@[simp] theorem setFlag_status (n : FlagName) (v : Bool) (s : State) : (setFlag n v s).status = s.status := rfl
@[simp] theorem setFlag_flags (n : FlagName) (v : Bool) (s : State) : (setFlag n v s).flags = s.flags.set n v := rfl
@[simp] theorem setFlag_todo (n : FlagName) (v : Bool) (s : State) : (setFlag n v s).todo = s.todo := rfl
@[simp] theorem setFlag_t0 (n : FlagName) (v : Bool) (s : State) : (setFlag n v s).t0 = s.t0 := rfl
@[simp] theorem setFlag_lines (n : FlagName) (v : Bool) (s : State) : (setFlag n v s).lines = s.lines := rfl
@[simp] theorem setFlag_log (n : FlagName) (v : Bool) (s : State) : (setFlag n v s).log = s.log := rfl
@[simp] theorem setFlag_wire (n : FlagName) (v : Bool) (s : State) : (setFlag n v s).wire = s.wire := rfl
@[simp] theorem setFlag_direct (n : FlagName) (v : Bool) (s : State) : (setFlag n v s).direct = s.direct := rfl
@[simp] theorem setFlag_readThrough (n : FlagName) (v : Bool) (s : State) :
    (setFlag n v s).readThrough = s.readThrough := rfl
@[simp] theorem setFlag_seen (n : FlagName) (v : Bool) (s : State) : (setFlag n v s).seen = s.seen := rfl
@[simp] theorem setFlag_faultRecord (n : FlagName) (v : Bool) (s : State) :
    (setFlag n v s).faultRecord = s.faultRecord := rfl
@[simp] theorem setFlag_inbox (n : FlagName) (v : Bool) (s : State) : (setFlag n v s).inbox = s.inbox := rfl
@[simp] theorem setFlag_replies (n : FlagName) (v : Bool) (s : State) : (setFlag n v s).replies = s.replies := rfl
@[simp] theorem setFlag_env (n : FlagName) (v : Bool) (s : State) : (setFlag n v s).env = s.env := rfl

/-! ### setWaiting -/

@[simp] theorem setWaiting_cfg (v : Bool) (s : State) : (setWaiting v s).cfg = s.cfg := rfl
@[simp] theorem setWaiting_req (v : Bool) (s : State) : (setWaiting v s).req = s.req := rfl
@[simp] theorem setWaiting_shadow (v : Bool) (s : State) : (setWaiting v s).shadow = s.shadow := rfl
@[simp] theorem setWaiting_status (v : Bool) (s : State) :
    (setWaiting v s).status = { s.status with waiting := v } := rfl
@[simp] theorem setWaiting_flags (v : Bool) (s : State) : (setWaiting v s).flags = s.flags := rfl
@[simp] theorem setWaiting_todo (v : Bool) (s : State) : (setWaiting v s).todo = s.todo := rfl
@[simp] theorem setWaiting_t0 (v : Bool) (s : State) : (setWaiting v s).t0 = s.t0 := rfl
@[simp] theorem setWaiting_lines (v : Bool) (s : State) : (setWaiting v s).lines = s.lines := rfl
@[simp] theorem setWaiting_log (v : Bool) (s : State) : (setWaiting v s).log = s.log := rfl
@[simp] theorem setWaiting_wire (v : Bool) (s : State) : (setWaiting v s).wire = s.wire := rfl
@[simp] theorem setWaiting_direct (v : Bool) (s : State) : (setWaiting v s).direct = s.direct := rfl
@[simp] theorem setWaiting_readThrough (v : Bool) (s : State) : (setWaiting v s).readThrough = s.readThrough := rfl
@[simp] theorem setWaiting_seen (v : Bool) (s : State) : (setWaiting v s).seen = s.seen := rfl
@[simp] theorem setWaiting_faultRecord (v : Bool) (s : State) : (setWaiting v s).faultRecord = s.faultRecord := rfl
@[simp] theorem setWaiting_inbox (v : Bool) (s : State) : (setWaiting v s).inbox = s.inbox := rfl
@[simp] theorem setWaiting_replies (v : Bool) (s : State) : (setWaiting v s).replies = s.replies := rfl
@[simp] theorem setWaiting_env (v : Bool) (s : State) : (setWaiting v s).env = s.env := rfl

/-! ### setDrop -/

@[simp] theorem setDrop_cfg (s : State) : (setDrop s).cfg = s.cfg := rfl
@[simp] theorem setDrop_req (s : State) : (setDrop s).req = s.req := rfl
@[simp] theorem setDrop_shadow (s : State) : (setDrop s).shadow = s.shadow := rfl
@[simp] theorem setDrop_status (s : State) : (setDrop s).status = { s.status with drop := true } := rfl
@[simp] theorem setDrop_flags (s : State) : (setDrop s).flags = s.flags := rfl
@[simp] theorem setDrop_todo (s : State) : (setDrop s).todo = s.todo := rfl
@[simp] theorem setDrop_t0 (s : State) : (setDrop s).t0 = s.t0 := rfl
@[simp] theorem setDrop_lines (s : State) : (setDrop s).lines = s.lines := rfl
@[simp] theorem setDrop_log (s : State) : (setDrop s).log = s.log := rfl
@[simp] theorem setDrop_wire (s : State) : (setDrop s).wire = s.wire := rfl
@[simp] theorem setDrop_direct (s : State) : (setDrop s).direct = s.direct := rfl
@[simp] theorem setDrop_readThrough (s : State) : (setDrop s).readThrough = s.readThrough := rfl
@[simp] theorem setDrop_seen (s : State) : (setDrop s).seen = s.seen := rfl
@[simp] theorem setDrop_faultRecord (s : State) : (setDrop s).faultRecord = s.faultRecord := rfl
@[simp] theorem setDrop_inbox (s : State) : (setDrop s).inbox = s.inbox := rfl
@[simp] theorem setDrop_replies (s : State) : (setDrop s).replies = s.replies := rfl
@[simp] theorem setDrop_env (s : State) : (setDrop s).env = s.env := rfl

/-! ### clearLastWait -/

@[simp] theorem clearLastWait_cfg (s : State) : (clearLastWait s).cfg = s.cfg := rfl
@[simp] theorem clearLastWait_req (s : State) : (clearLastWait s).req = s.req := rfl
@[simp] theorem clearLastWait_shadow (s : State) : (clearLastWait s).shadow = s.shadow := rfl
@[simp] theorem clearLastWait_status (s : State) :
    (clearLastWait s).status = { s.status with lastWaitTimeout := false } := rfl
@[simp] theorem clearLastWait_flags (s : State) : (clearLastWait s).flags = s.flags := rfl
@[simp] theorem clearLastWait_todo (s : State) : (clearLastWait s).todo = s.todo := rfl
@[simp] theorem clearLastWait_t0 (s : State) : (clearLastWait s).t0 = s.t0 := rfl
@[simp] theorem clearLastWait_lines (s : State) : (clearLastWait s).lines = s.lines := rfl
@[simp] theorem clearLastWait_log (s : State) : (clearLastWait s).log = s.log := rfl
@[simp] theorem clearLastWait_wire (s : State) : (clearLastWait s).wire = s.wire := rfl
@[simp] theorem clearLastWait_direct (s : State) : (clearLastWait s).direct = s.direct := rfl
@[simp] theorem clearLastWait_readThrough (s : State) : (clearLastWait s).readThrough = s.readThrough := rfl
@[simp] theorem clearLastWait_seen (s : State) : (clearLastWait s).seen = s.seen := rfl
@[simp] theorem clearLastWait_faultRecord (s : State) : (clearLastWait s).faultRecord = s.faultRecord := rfl
@[simp] theorem clearLastWait_inbox (s : State) : (clearLastWait s).inbox = s.inbox := rfl
@[simp] theorem clearLastWait_replies (s : State) : (clearLastWait s).replies = s.replies := rfl
@[simp] theorem clearLastWait_env (s : State) : (clearLastWait s).env = s.env := rfl

/-! ### clearSticky -/

@[simp] theorem clearSticky_cfg (s : State) : (clearSticky s).cfg = s.cfg := rfl
@[simp] theorem clearSticky_req (s : State) : (clearSticky s).req = s.req := rfl
@[simp] theorem clearSticky_shadow (s : State) : (clearSticky s).shadow = s.shadow := rfl
@[simp] theorem clearSticky_status (s : State) :
    (clearSticky s).status = { s.status with fault := false, faultCode := 0, faultOp := 0, timeout := false, lastWaitTimeout := false, drop := false } := rfl
@[simp] theorem clearSticky_flags (s : State) : (clearSticky s).flags = s.flags := rfl
@[simp] theorem clearSticky_todo (s : State) : (clearSticky s).todo = s.todo := rfl
@[simp] theorem clearSticky_t0 (s : State) : (clearSticky s).t0 = s.t0 := rfl
@[simp] theorem clearSticky_lines (s : State) : (clearSticky s).lines = s.lines := rfl
@[simp] theorem clearSticky_log (s : State) : (clearSticky s).log = s.log := rfl
@[simp] theorem clearSticky_wire (s : State) : (clearSticky s).wire = s.wire := rfl
@[simp] theorem clearSticky_direct (s : State) : (clearSticky s).direct = s.direct := rfl
@[simp] theorem clearSticky_readThrough (s : State) : (clearSticky s).readThrough = s.readThrough := rfl
@[simp] theorem clearSticky_seen (s : State) : (clearSticky s).seen = s.seen := rfl
@[simp] theorem clearSticky_faultRecord (s : State) : (clearSticky s).faultRecord = s.faultRecord := rfl
@[simp] theorem clearSticky_inbox (s : State) : (clearSticky s).inbox = s.inbox := rfl
@[simp] theorem clearSticky_replies (s : State) : (clearSticky s).replies = s.replies := rfl
@[simp] theorem clearSticky_env (s : State) : (clearSticky s).env = s.env := rfl

/-! ### initBegin -/

@[simp] theorem initBegin_cfg (s : State) : (initBegin s).cfg = s.cfg := rfl
@[simp] theorem initBegin_req (s : State) : (initBegin s).req = s.req := rfl
@[simp] theorem initBegin_shadow (s : State) : (initBegin s).shadow = s.shadow := rfl
@[simp] theorem initBegin_status (s : State) : (initBegin s).status = (clearSticky s).status := rfl
@[simp] theorem initBegin_flags (s : State) : (initBegin s).flags = { s.flags with initDone := true } := rfl
@[simp] theorem initBegin_todo (s : State) : (initBegin s).todo = s.todo := rfl
@[simp] theorem initBegin_t0 (s : State) : (initBegin s).t0 = s.t0 := rfl
@[simp] theorem initBegin_lines (s : State) : (initBegin s).lines = s.lines := rfl
@[simp] theorem initBegin_log (s : State) : (initBegin s).log = s.log := rfl
@[simp] theorem initBegin_wire (s : State) : (initBegin s).wire = s.wire := rfl
@[simp] theorem initBegin_direct (s : State) : (initBegin s).direct = s.direct := rfl
@[simp] theorem initBegin_readThrough (s : State) : (initBegin s).readThrough = s.readThrough := rfl
@[simp] theorem initBegin_seen (s : State) : (initBegin s).seen = s.seen := rfl
@[simp] theorem initBegin_faultRecord (s : State) : (initBegin s).faultRecord = s.faultRecord := rfl
@[simp] theorem initBegin_inbox (s : State) : (initBegin s).inbox = s.inbox := rfl
@[simp] theorem initBegin_replies (s : State) : (initBegin s).replies = s.replies := rfl
@[simp] theorem initBegin_env (s : State) : (initBegin s).env = s.env := rfl

/-! ### raiseFault -/

@[simp] theorem raiseFault_cfg (k : FaultKind) (s : State) : (raiseFault k s).cfg = s.cfg := rfl
@[simp] theorem raiseFault_req (k : FaultKind) (s : State) : (raiseFault k s).req = s.req := rfl
@[simp] theorem raiseFault_shadow (k : FaultKind) (s : State) : (raiseFault k s).shadow = s.shadow := rfl
@[simp] theorem raiseFault_status (k : FaultKind) (s : State) :
    (raiseFault k s).status = { s.status with ready := true, fault := true, waiting := false, faultCode := faultCodeOf k, faultOp := s.shadow.op } := rfl
@[simp] theorem raiseFault_flags (k : FaultKind) (s : State) : (raiseFault k s).flags = s.flags := rfl
@[simp] theorem raiseFault_todo (k : FaultKind) (s : State) : (raiseFault k s).todo = .skip := rfl
@[simp] theorem raiseFault_t0 (k : FaultKind) (s : State) : (raiseFault k s).t0 = s.t0 := rfl
@[simp] theorem raiseFault_lines (k : FaultKind) (s : State) : (raiseFault k s).lines = s.lines := rfl
@[simp] theorem raiseFault_log (k : FaultKind) (s : State) : (raiseFault k s).log = s.log := rfl
@[simp] theorem raiseFault_wire (k : FaultKind) (s : State) : (raiseFault k s).wire = s.wire := rfl
@[simp] theorem raiseFault_direct (k : FaultKind) (s : State) : (raiseFault k s).direct = s.direct := rfl
@[simp] theorem raiseFault_readThrough (k : FaultKind) (s : State) : (raiseFault k s).readThrough = s.readThrough := rfl
@[simp] theorem raiseFault_seen (k : FaultKind) (s : State) : (raiseFault k s).seen = [] := rfl
@[simp] theorem raiseFault_faultRecord (k : FaultKind) (s : State) :
    (raiseFault k s).faultRecord = s.faultRecord ++ [{ kind := k, op := s.shadow.op }] := rfl
@[simp] theorem raiseFault_inbox (k : FaultKind) (s : State) : (raiseFault k s).inbox = s.inbox := rfl
@[simp] theorem raiseFault_replies (k : FaultKind) (s : State) : (raiseFault k s).replies = s.replies := rfl
@[simp] theorem raiseFault_env (k : FaultKind) (s : State) : (raiseFault k s).env = s.env := rfl

/-! ### completed -/

@[simp] theorem completed_cfg (s : State) : (completed s).cfg = s.cfg := rfl
@[simp] theorem completed_req (s : State) : (completed s).req = s.req := rfl
@[simp] theorem completed_shadow (s : State) : (completed s).shadow = s.shadow := rfl
@[simp] theorem completed_status (s : State) : (completed s).status = { s.status with ready := true } := rfl
@[simp] theorem completed_flags (s : State) : (completed s).flags = s.flags := rfl
@[simp] theorem completed_todo (s : State) : (completed s).todo = .skip := rfl
@[simp] theorem completed_t0 (s : State) : (completed s).t0 = s.t0 := rfl
@[simp] theorem completed_lines (s : State) : (completed s).lines = s.lines := rfl
@[simp] theorem completed_log (s : State) : (completed s).log = s.log := rfl
@[simp] theorem completed_wire (s : State) : (completed s).wire = s.wire := rfl
@[simp] theorem completed_direct (s : State) : (completed s).direct = s.direct := rfl
@[simp] theorem completed_readThrough (s : State) : (completed s).readThrough = s.readThrough := rfl
@[simp] theorem completed_seen (s : State) : (completed s).seen = [] := rfl
@[simp] theorem completed_faultRecord (s : State) : (completed s).faultRecord = s.faultRecord := rfl
@[simp] theorem completed_inbox (s : State) : (completed s).inbox = s.inbox := rfl
@[simp] theorem completed_replies (s : State) : (completed s).replies = s.replies := rfl
@[simp] theorem completed_env (s : State) : (completed s).env = s.env := rfl

/-! ### beginRequest -/

@[simp] theorem beginRequest_cfg (s : State) : (beginRequest s).cfg = s.cfg := rfl
@[simp] theorem beginRequest_req (s : State) : (beginRequest s).req = s.req := rfl
@[simp] theorem beginRequest_shadow (s : State) : (beginRequest s).shadow = s.shadow := rfl
@[simp] theorem beginRequest_status (s : State) : (beginRequest s).status = { s.status with ready := false } := rfl
@[simp] theorem beginRequest_flags (s : State) : (beginRequest s).flags = s.flags := rfl
@[simp] theorem beginRequest_todo (s : State) : (beginRequest s).todo = s.todo := rfl
@[simp] theorem beginRequest_t0 (s : State) : (beginRequest s).t0 = s.t0 := rfl
@[simp] theorem beginRequest_lines (s : State) : (beginRequest s).lines = s.lines := rfl
@[simp] theorem beginRequest_log (s : State) : (beginRequest s).log = s.log := rfl
@[simp] theorem beginRequest_wire (s : State) : (beginRequest s).wire = s.wire := rfl
@[simp] theorem beginRequest_direct (s : State) : (beginRequest s).direct = s.direct := rfl
@[simp] theorem beginRequest_readThrough (s : State) : (beginRequest s).readThrough = s.readThrough := rfl
@[simp] theorem beginRequest_seen (s : State) : (beginRequest s).seen = [] := rfl
@[simp] theorem beginRequest_faultRecord (s : State) : (beginRequest s).faultRecord = s.faultRecord := rfl
@[simp] theorem beginRequest_inbox (s : State) : (beginRequest s).inbox = s.inbox := rfl
@[simp] theorem beginRequest_replies (s : State) : (beginRequest s).replies = s.replies := rfl
@[simp] theorem beginRequest_env (s : State) : (beginRequest s).env = s.env := rfl

/-! ### latchStart -/

@[simp] theorem latchStart_cfg (s : State) : (latchStart s).cfg = s.cfg := rfl
@[simp] theorem latchStart_req (s : State) : (latchStart s).req = s.req := rfl
@[simp] theorem latchStart_shadow (s : State) : (latchStart s).shadow = s.req := rfl
@[simp] theorem latchStart_status (s : State) : (latchStart s).status = { s.status with ready := false } := rfl
@[simp] theorem latchStart_flags (s : State) : (latchStart s).flags = s.flags := rfl
@[simp] theorem latchStart_todo (s : State) : (latchStart s).todo = s.todo := rfl
@[simp] theorem latchStart_t0 (s : State) : (latchStart s).t0 = s.t0 := rfl
@[simp] theorem latchStart_lines (s : State) : (latchStart s).lines = s.lines := rfl
@[simp] theorem latchStart_log (s : State) : (latchStart s).log = s.log := rfl
@[simp] theorem latchStart_wire (s : State) : (latchStart s).wire = s.wire := rfl
@[simp] theorem latchStart_direct (s : State) : (latchStart s).direct = s.direct := rfl
@[simp] theorem latchStart_readThrough (s : State) : (latchStart s).readThrough = s.readThrough := rfl
@[simp] theorem latchStart_seen (s : State) : (latchStart s).seen = s.seen := rfl
@[simp] theorem latchStart_faultRecord (s : State) : (latchStart s).faultRecord = s.faultRecord := rfl
@[simp] theorem latchStart_inbox (s : State) : (latchStart s).inbox = s.inbox := rfl
@[simp] theorem latchStart_replies (s : State) : (latchStart s).replies = s.replies := rfl
@[simp] theorem latchStart_env (s : State) : (latchStart s).env = s.env := rfl

/-! ### emit -/

@[simp] theorem emit_cfg (e : Event) (s : State) : (emit e s).cfg = s.cfg := rfl
@[simp] theorem emit_req (e : Event) (s : State) : (emit e s).req = s.req := rfl
@[simp] theorem emit_shadow (e : Event) (s : State) : (emit e s).shadow = s.shadow := rfl
@[simp] theorem emit_status (e : Event) (s : State) : (emit e s).status = s.status := rfl
@[simp] theorem emit_flags (e : Event) (s : State) : (emit e s).flags = s.flags := rfl
@[simp] theorem emit_todo (e : Event) (s : State) : (emit e s).todo = s.todo := rfl
@[simp] theorem emit_t0 (e : Event) (s : State) : (emit e s).t0 = s.t0 := rfl
@[simp] theorem emit_lines (e : Event) (s : State) : (emit e s).lines = s.lines := rfl
@[simp] theorem emit_log (e : Event) (s : State) : (emit e s).log = s.log ++ [e] := rfl
@[simp] theorem emit_wire (e : Event) (s : State) : (emit e s).wire = s.wire := rfl
@[simp] theorem emit_direct (e : Event) (s : State) : (emit e s).direct = s.direct := rfl
@[simp] theorem emit_readThrough (e : Event) (s : State) : (emit e s).readThrough = s.readThrough := rfl
@[simp] theorem emit_seen (e : Event) (s : State) : (emit e s).seen = s.seen := rfl
@[simp] theorem emit_faultRecord (e : Event) (s : State) : (emit e s).faultRecord = s.faultRecord := rfl
@[simp] theorem emit_inbox (e : Event) (s : State) : (emit e s).inbox = s.inbox := rfl
@[simp] theorem emit_replies (e : Event) (s : State) : (emit e s).replies = s.replies := rfl
@[simp] theorem emit_env (e : Event) (s : State) : (emit e s).env = s.env := rfl

/-! ### configureLines -/

@[simp] theorem configureLines_cfg (s : State) : (configureLines s).cfg = s.cfg := rfl
@[simp] theorem configureLines_req (s : State) : (configureLines s).req = s.req := rfl
@[simp] theorem configureLines_shadow (s : State) : (configureLines s).shadow = s.shadow := rfl
@[simp] theorem configureLines_status (s : State) : (configureLines s).status = s.status := rfl
@[simp] theorem configureLines_flags (s : State) : (configureLines s).flags = s.flags := rfl
@[simp] theorem configureLines_todo (s : State) : (configureLines s).todo = s.todo := rfl
@[simp] theorem configureLines_t0 (s : State) : (configureLines s).t0 = s.t0 := rfl
@[simp] theorem configureLines_lines (s : State) :
    (configureLines s).lines = { configured := true, cs := driveIf s.cfg.hasCs .high s.lines.cs, dc := driveIf s.cfg.hasDc .high s.lines.dc, rst := driveIf s.cfg.hasRst .high s.lines.rst } := rfl
@[simp] theorem configureLines_log (s : State) : (configureLines s).log = s.log ++ [.lineSetup] := rfl
@[simp] theorem configureLines_wire (s : State) : (configureLines s).wire = s.wire := rfl
@[simp] theorem configureLines_direct (s : State) : (configureLines s).direct = s.direct := rfl
@[simp] theorem configureLines_readThrough (s : State) : (configureLines s).readThrough = s.readThrough := rfl
@[simp] theorem configureLines_seen (s : State) : (configureLines s).seen = s.seen := rfl
@[simp] theorem configureLines_faultRecord (s : State) : (configureLines s).faultRecord = s.faultRecord := rfl
@[simp] theorem configureLines_inbox (s : State) : (configureLines s).inbox = s.inbox := rfl
@[simp] theorem configureLines_replies (s : State) : (configureLines s).replies = s.replies := rfl
@[simp] theorem configureLines_env (s : State) : (configureLines s).env = s.env := rfl

/-! ### driveByte -/

@[simp] theorem driveByte_cfg (k : ByteKind) (b : Byte) (s : State) : (driveByte k b s).cfg = s.cfg := rfl
@[simp] theorem driveByte_req (k : ByteKind) (b : Byte) (s : State) : (driveByte k b s).req = s.req := rfl
@[simp] theorem driveByte_shadow (k : ByteKind) (b : Byte) (s : State) : (driveByte k b s).shadow = s.shadow := rfl
@[simp] theorem driveByte_status (k : ByteKind) (b : Byte) (s : State) : (driveByte k b s).status = s.status := rfl
@[simp] theorem driveByte_flags (k : ByteKind) (b : Byte) (s : State) : (driveByte k b s).flags = s.flags := rfl
@[simp] theorem driveByte_todo (k : ByteKind) (b : Byte) (s : State) : (driveByte k b s).todo = s.todo := rfl
@[simp] theorem driveByte_t0 (k : ByteKind) (b : Byte) (s : State) : (driveByte k b s).t0 = s.t0 := rfl
@[simp] theorem driveByte_lines (k : ByteKind) (b : Byte) (s : State) :
    (driveByte k b s).lines = { s.lines with cs := driveIf s.cfg.hasCs .high s.lines.cs, dc := driveIf s.cfg.hasDc .high s.lines.dc } := rfl
@[simp] theorem driveByte_log (k : ByteKind) (b : Byte) (s : State) : (driveByte k b s).log = s.log := rfl
@[simp] theorem driveByte_wire (k : ByteKind) (b : Byte) (s : State) :
    (driveByte k b s).wire = s.wire ++ [wireFrame k b s] := rfl
@[simp] theorem driveByte_direct (k : ByteKind) (b : Byte) (s : State) : (driveByte k b s).direct = s.direct := rfl
@[simp] theorem driveByte_readThrough (k : ByteKind) (b : Byte) (s : State) :
    (driveByte k b s).readThrough = s.readThrough := rfl
@[simp] theorem driveByte_seen (k : ByteKind) (b : Byte) (s : State) : (driveByte k b s).seen = s.seen := rfl
@[simp] theorem driveByte_faultRecord (k : ByteKind) (b : Byte) (s : State) :
    (driveByte k b s).faultRecord = s.faultRecord := rfl
@[simp] theorem driveByte_inbox (k : ByteKind) (b : Byte) (s : State) : (driveByte k b s).inbox = s.inbox := rfl
@[simp] theorem driveByte_replies (k : ByteKind) (b : Byte) (s : State) : (driveByte k b s).replies = s.replies := rfl
@[simp] theorem driveByte_env (k : ByteKind) (b : Byte) (s : State) : (driveByte k b s).env = s.env := rfl

/-! ### setRst -/

@[simp] theorem setRst_cfg (l : LineLevel) (s : State) : (setRst l s).cfg = s.cfg := rfl
@[simp] theorem setRst_req (l : LineLevel) (s : State) : (setRst l s).req = s.req := rfl
@[simp] theorem setRst_shadow (l : LineLevel) (s : State) : (setRst l s).shadow = s.shadow := rfl
@[simp] theorem setRst_status (l : LineLevel) (s : State) : (setRst l s).status = s.status := rfl
@[simp] theorem setRst_flags (l : LineLevel) (s : State) : (setRst l s).flags = s.flags := rfl
@[simp] theorem setRst_todo (l : LineLevel) (s : State) : (setRst l s).todo = s.todo := rfl
@[simp] theorem setRst_t0 (l : LineLevel) (s : State) : (setRst l s).t0 = s.t0 := rfl
@[simp] theorem setRst_lines (l : LineLevel) (s : State) :
    (setRst l s).lines = { s.lines with rst := driveIf s.cfg.hasRst l s.lines.rst } := rfl
@[simp] theorem setRst_log (l : LineLevel) (s : State) : (setRst l s).log = s.log := rfl
@[simp] theorem setRst_wire (l : LineLevel) (s : State) : (setRst l s).wire = s.wire := rfl
@[simp] theorem setRst_direct (l : LineLevel) (s : State) : (setRst l s).direct = s.direct := rfl
@[simp] theorem setRst_readThrough (l : LineLevel) (s : State) : (setRst l s).readThrough = s.readThrough := rfl
@[simp] theorem setRst_seen (l : LineLevel) (s : State) : (setRst l s).seen = s.seen := rfl
@[simp] theorem setRst_faultRecord (l : LineLevel) (s : State) : (setRst l s).faultRecord = s.faultRecord := rfl
@[simp] theorem setRst_inbox (l : LineLevel) (s : State) : (setRst l s).inbox = s.inbox := rfl
@[simp] theorem setRst_replies (l : LineLevel) (s : State) : (setRst l s).replies = s.replies := rfl
@[simp] theorem setRst_env (l : LineLevel) (s : State) : (setRst l s).env = s.env := rfl

/-! ### advanceClock -/

@[simp] theorem advanceClock_cfg (us : Nat → Nat) (s : State) : (advanceClock us s).cfg = s.cfg := rfl
@[simp] theorem advanceClock_req (us : Nat → Nat) (s : State) : (advanceClock us s).req = s.req := rfl
@[simp] theorem advanceClock_shadow (us : Nat → Nat) (s : State) : (advanceClock us s).shadow = s.shadow := rfl
@[simp] theorem advanceClock_status (us : Nat → Nat) (s : State) : (advanceClock us s).status = s.status := rfl
@[simp] theorem advanceClock_flags (us : Nat → Nat) (s : State) : (advanceClock us s).flags = s.flags := rfl
@[simp] theorem advanceClock_todo (us : Nat → Nat) (s : State) : (advanceClock us s).todo = s.todo := rfl
@[simp] theorem advanceClock_t0 (us : Nat → Nat) (s : State) : (advanceClock us s).t0 = s.t0 := rfl
@[simp] theorem advanceClock_lines (us : Nat → Nat) (s : State) : (advanceClock us s).lines = s.lines := rfl
@[simp] theorem advanceClock_log (us : Nat → Nat) (s : State) : (advanceClock us s).log = s.log := rfl
@[simp] theorem advanceClock_wire (us : Nat → Nat) (s : State) : (advanceClock us s).wire = s.wire := rfl
@[simp] theorem advanceClock_direct (us : Nat → Nat) (s : State) : (advanceClock us s).direct = s.direct := rfl
@[simp] theorem advanceClock_readThrough (us : Nat → Nat) (s : State) :
    (advanceClock us s).readThrough = s.readThrough := rfl
@[simp] theorem advanceClock_seen (us : Nat → Nat) (s : State) : (advanceClock us s).seen = s.seen := rfl
@[simp] theorem advanceClock_faultRecord (us : Nat → Nat) (s : State) :
    (advanceClock us s).faultRecord = s.faultRecord := rfl
@[simp] theorem advanceClock_inbox (us : Nat → Nat) (s : State) : (advanceClock us s).inbox = s.inbox := rfl
@[simp] theorem advanceClock_replies (us : Nat → Nat) (s : State) : (advanceClock us s).replies = s.replies := rfl
@[simp] theorem advanceClock_env_bus (us : Nat → Nat) (s : State) : (advanceClock us s).env.bus = s.env.bus := rfl
@[simp] theorem advanceClock_env_source (us : Nat → Nat) (s : State) : (advanceClock us s).env.source = s.env.source := rfl
@[simp] theorem advanceClock_env_busy (us : Nat → Nat) (s : State) : (advanceClock us s).env.busy = s.env.busy := rfl
@[simp] theorem advanceClock_env_race (us : Nat → Nat) (s : State) : (advanceClock us s).env.race = s.env.race := rfl
@[simp] theorem advanceClock_env_timeRuns (us : Nat → Nat) (s : State) : (advanceClock us s).env.timeRuns = s.env.timeRuns := rfl

/-! ### startTimer -/

@[simp] theorem startTimer_cfg (s : State) : (startTimer s).cfg = s.cfg := rfl
@[simp] theorem startTimer_req (s : State) : (startTimer s).req = s.req := rfl
@[simp] theorem startTimer_shadow (s : State) : (startTimer s).shadow = s.shadow := rfl
@[simp] theorem startTimer_status (s : State) : (startTimer s).status = s.status := rfl
@[simp] theorem startTimer_flags (s : State) : (startTimer s).flags = s.flags := rfl
@[simp] theorem startTimer_todo (s : State) : (startTimer s).todo = s.todo := rfl
@[simp] theorem startTimer_t0 (s : State) : (startTimer s).t0 = (startTimer s).env.clock := rfl
@[simp] theorem startTimer_lines (s : State) : (startTimer s).lines = s.lines := rfl
@[simp] theorem startTimer_log (s : State) : (startTimer s).log = s.log := rfl
@[simp] theorem startTimer_wire (s : State) : (startTimer s).wire = s.wire := rfl
@[simp] theorem startTimer_direct (s : State) : (startTimer s).direct = s.direct := rfl
@[simp] theorem startTimer_readThrough (s : State) : (startTimer s).readThrough = s.readThrough := rfl
@[simp] theorem startTimer_seen (s : State) : (startTimer s).seen = s.seen := rfl
@[simp] theorem startTimer_faultRecord (s : State) : (startTimer s).faultRecord = s.faultRecord := rfl
@[simp] theorem startTimer_inbox (s : State) : (startTimer s).inbox = s.inbox := rfl
@[simp] theorem startTimer_replies (s : State) : (startTimer s).replies = s.replies := rfl
@[simp] theorem startTimer_env_bus (s : State) : (startTimer s).env.bus = s.env.bus := rfl
@[simp] theorem startTimer_env_source (s : State) : (startTimer s).env.source = s.env.source := rfl
@[simp] theorem startTimer_env_busy (s : State) : (startTimer s).env.busy = s.env.busy := rfl
@[simp] theorem startTimer_env_race (s : State) : (startTimer s).env.race = s.env.race := rfl
@[simp] theorem startTimer_env_timeRuns (s : State) : (startTimer s).env.timeRuns = s.env.timeRuns := rfl

/-! ### recordWait -/

@[simp] theorem recordWait_cfg (o : WaitOutcome) (s : State) : (recordWait o s).cfg = s.cfg := by cases o <;> rfl
@[simp] theorem recordWait_req (o : WaitOutcome) (s : State) : (recordWait o s).req = s.req := by cases o <;> rfl
@[simp] theorem recordWait_shadow (o : WaitOutcome) (s : State) :
    (recordWait o s).shadow = s.shadow := by cases o <;> rfl
@[simp] theorem recordWait_flags (o : WaitOutcome) (s : State) : (recordWait o s).flags = s.flags := by cases o <;> rfl
@[simp] theorem recordWait_todo (o : WaitOutcome) (s : State) : (recordWait o s).todo = s.todo := by cases o <;> rfl
@[simp] theorem recordWait_t0 (o : WaitOutcome) (s : State) : (recordWait o s).t0 = s.t0 := by cases o <;> rfl
@[simp] theorem recordWait_lines (o : WaitOutcome) (s : State) : (recordWait o s).lines = s.lines := by cases o <;> rfl
@[simp] theorem recordWait_log (o : WaitOutcome) (s : State) : (recordWait o s).log = s.log := by cases o <;> rfl
@[simp] theorem recordWait_wire (o : WaitOutcome) (s : State) : (recordWait o s).wire = s.wire := by cases o <;> rfl
@[simp] theorem recordWait_direct (o : WaitOutcome) (s : State) :
    (recordWait o s).direct = s.direct := by cases o <;> rfl
@[simp] theorem recordWait_readThrough (o : WaitOutcome) (s : State) :
    (recordWait o s).readThrough = s.readThrough := by cases o <;> rfl
@[simp] theorem recordWait_seen (o : WaitOutcome) (s : State) : (recordWait o s).seen = s.seen := by cases o <;> rfl
@[simp] theorem recordWait_faultRecord (o : WaitOutcome) (s : State) :
    (recordWait o s).faultRecord = s.faultRecord := by cases o <;> rfl
@[simp] theorem recordWait_inbox (o : WaitOutcome) (s : State) : (recordWait o s).inbox = s.inbox := by cases o <;> rfl
@[simp] theorem recordWait_replies (o : WaitOutcome) (s : State) :
    (recordWait o s).replies = s.replies := by cases o <;> rfl
@[simp] theorem recordWait_env (o : WaitOutcome) (s : State) : (recordWait o s).env = s.env := by cases o <;> rfl
@[simp] theorem recordWait_released (s : State) : (recordWait .released s).status = { s.status with lastWaitTimeout := false } := rfl
@[simp] theorem recordWait_timeout (s : State) :
    (recordWait .timeout s).status = { s.status with lastWaitTimeout := true, timeout := true } := rfl
@[simp] theorem recordWait_ready (o : WaitOutcome) (s : State) : (recordWait o s).status.ready = s.status.ready := by
  cases o <;> rfl

/-! ### endWait -/

@[simp] theorem endWait_cfg (label : WaitLabel) (o : WaitOutcome) (s : State) :
    (endWait label o s).cfg = s.cfg := by cases o <;> rfl
@[simp] theorem endWait_req (label : WaitLabel) (o : WaitOutcome) (s : State) :
    (endWait label o s).req = s.req := by cases o <;> rfl
@[simp] theorem endWait_shadow (label : WaitLabel) (o : WaitOutcome) (s : State) :
    (endWait label o s).shadow = s.shadow := by cases o <;> rfl
@[simp] theorem endWait_flags (label : WaitLabel) (o : WaitOutcome) (s : State) :
    (endWait label o s).flags = s.flags := by cases o <;> rfl
@[simp] theorem endWait_todo (label : WaitLabel) (o : WaitOutcome) (s : State) :
    (endWait label o s).todo = s.todo := by cases o <;> rfl
@[simp] theorem endWait_t0 (label : WaitLabel) (o : WaitOutcome) (s : State) :
    (endWait label o s).t0 = s.t0 := by cases o <;> rfl
@[simp] theorem endWait_lines (label : WaitLabel) (o : WaitOutcome) (s : State) :
    (endWait label o s).lines = s.lines := by cases o <;> rfl
@[simp] theorem endWait_log (label : WaitLabel) (o : WaitOutcome) (s : State) :
    (endWait label o s).log = s.log ++ [.busy label o] := by cases o <;> rfl
@[simp] theorem endWait_wire (label : WaitLabel) (o : WaitOutcome) (s : State) :
    (endWait label o s).wire = s.wire := by cases o <;> rfl
@[simp] theorem endWait_direct (label : WaitLabel) (o : WaitOutcome) (s : State) :
    (endWait label o s).direct = s.direct := by cases o <;> rfl
@[simp] theorem endWait_readThrough (label : WaitLabel) (o : WaitOutcome) (s : State) :
    (endWait label o s).readThrough = s.readThrough := by cases o <;> rfl
@[simp] theorem endWait_seen (label : WaitLabel) (o : WaitOutcome) (s : State) :
    (endWait label o s).seen = s.seen := by cases o <;> rfl
@[simp] theorem endWait_faultRecord (label : WaitLabel) (o : WaitOutcome) (s : State) :
    (endWait label o s).faultRecord = s.faultRecord := by cases o <;> rfl
@[simp] theorem endWait_inbox (label : WaitLabel) (o : WaitOutcome) (s : State) :
    (endWait label o s).inbox = s.inbox := by cases o <;> rfl
@[simp] theorem endWait_replies (label : WaitLabel) (o : WaitOutcome) (s : State) :
    (endWait label o s).replies = s.replies := by cases o <;> rfl
@[simp] theorem endWait_env (label : WaitLabel) (o : WaitOutcome) (s : State) :
    (endWait label o s).env = s.env := by cases o <;> rfl
@[simp] theorem endWait_waiting (label : WaitLabel) (o : WaitOutcome) (s : State) :
    (endWait label o s).status.waiting = false := by cases o <;> rfl
@[simp] theorem endWait_ready (label : WaitLabel) (o : WaitOutcome) (s : State) :
    (endWait label o s).status.ready = s.status.ready := by cases o <;> rfl

/-! ### raceByte -/

@[simp] theorem raceByte_cfg (space : Space) (a : Word) (b : Byte) (s : State) :
    (raceByte space a b s).cfg = s.cfg := rfl
@[simp] theorem raceByte_req (space : Space) (a : Word) (b : Byte) (s : State) :
    (raceByte space a b s).req = s.req := rfl
@[simp] theorem raceByte_shadow (space : Space) (a : Word) (b : Byte) (s : State) :
    (raceByte space a b s).shadow = s.shadow := rfl
@[simp] theorem raceByte_status (space : Space) (a : Word) (b : Byte) (s : State) :
    (raceByte space a b s).status = s.status := rfl
@[simp] theorem raceByte_flags (space : Space) (a : Word) (b : Byte) (s : State) :
    (raceByte space a b s).flags = s.flags := rfl
@[simp] theorem raceByte_todo (space : Space) (a : Word) (b : Byte) (s : State) :
    (raceByte space a b s).todo = s.todo := rfl
@[simp] theorem raceByte_t0 (space : Space) (a : Word) (b : Byte) (s : State) : (raceByte space a b s).t0 = s.t0 := rfl
@[simp] theorem raceByte_lines (space : Space) (a : Word) (b : Byte) (s : State) :
    (raceByte space a b s).lines = s.lines := rfl
@[simp] theorem raceByte_log (space : Space) (a : Word) (b : Byte) (s : State) :
    (raceByte space a b s).log = s.log := rfl
@[simp] theorem raceByte_wire (space : Space) (a : Word) (b : Byte) (s : State) :
    (raceByte space a b s).wire = s.wire := rfl
@[simp] theorem raceByte_direct (space : Space) (a : Word) (b : Byte) (s : State) :
    (raceByte space a b s).direct = s.direct := rfl
@[simp] theorem raceByte_readThrough (space : Space) (a : Word) (b : Byte) (s : State) :
    (raceByte space a b s).readThrough = s.readThrough := rfl
@[simp] theorem raceByte_faultRecord (space : Space) (a : Word) (b : Byte) (s : State) :
    (raceByte space a b s).faultRecord = s.faultRecord := rfl
@[simp] theorem raceByte_inbox (space : Space) (a : Word) (b : Byte) (s : State) :
    (raceByte space a b s).inbox = s.inbox := rfl
@[simp] theorem raceByte_replies (space : Space) (a : Word) (b : Byte) (s : State) :
    (raceByte space a b s).replies = s.replies := rfl
@[simp] theorem raceByte_env (space : Space) (a : Word) (b : Byte) (s : State) :
    (raceByte space a b s).env = { s.env with race := s.env.race.skip 1 } := rfl
@[simp] theorem raceByte_seen (space : Space) (a : Word) (b : Byte) (s : State) : (raceByte space a b s).seen
    = ⟨space, a, if s.env.race.peek Config.freeRace 0 then b else byteAt space a s⟩ :: s.seen := rfl

/-! ### setByte -/

@[simp] theorem setByte_cfg (space : Space) (a : Word) (b : Byte) (s : State) :
    (setByte space a b s).cfg = s.cfg := by cases space <;> rfl
@[simp] theorem setByte_req (space : Space) (a : Word) (b : Byte) (s : State) :
    (setByte space a b s).req = s.req := by cases space <;> rfl
@[simp] theorem setByte_shadow (space : Space) (a : Word) (b : Byte) (s : State) :
    (setByte space a b s).shadow = s.shadow := by cases space <;> rfl
@[simp] theorem setByte_status (space : Space) (a : Word) (b : Byte) (s : State) :
    (setByte space a b s).status = s.status := by cases space <;> rfl
@[simp] theorem setByte_flags (space : Space) (a : Word) (b : Byte) (s : State) :
    (setByte space a b s).flags = s.flags := by cases space <;> rfl
@[simp] theorem setByte_todo (space : Space) (a : Word) (b : Byte) (s : State) :
    (setByte space a b s).todo = s.todo := by cases space <;> rfl
@[simp] theorem setByte_t0 (space : Space) (a : Word) (b : Byte) (s : State) :
    (setByte space a b s).t0 = s.t0 := by cases space <;> rfl
@[simp] theorem setByte_lines (space : Space) (a : Word) (b : Byte) (s : State) :
    (setByte space a b s).lines = s.lines := by cases space <;> rfl
@[simp] theorem setByte_log (space : Space) (a : Word) (b : Byte) (s : State) :
    (setByte space a b s).log = s.log := by cases space <;> rfl
@[simp] theorem setByte_wire (space : Space) (a : Word) (b : Byte) (s : State) :
    (setByte space a b s).wire = s.wire := by cases space <;> rfl
@[simp] theorem setByte_seen (space : Space) (a : Word) (b : Byte) (s : State) :
    (setByte space a b s).seen = s.seen := by cases space <;> rfl
@[simp] theorem setByte_faultRecord (space : Space) (a : Word) (b : Byte) (s : State) :
    (setByte space a b s).faultRecord = s.faultRecord := by cases space <;> rfl
@[simp] theorem setByte_inbox (space : Space) (a : Word) (b : Byte) (s : State) :
    (setByte space a b s).inbox = s.inbox := by cases space <;> rfl
@[simp] theorem setByte_replies (space : Space) (a : Word) (b : Byte) (s : State) :
    (setByte space a b s).replies = s.replies := by cases space <;> rfl
@[simp] theorem setByte_env (space : Space) (a : Word) (b : Byte) (s : State) :
    (setByte space a b s).env = s.env := by cases space <;> rfl

/-! ### drawBus -/

@[simp] theorem drawBus_cfg (s : State) : (drawBus s).2.cfg = s.cfg := rfl
@[simp] theorem drawBus_req (s : State) : (drawBus s).2.req = s.req := rfl
@[simp] theorem drawBus_shadow (s : State) : (drawBus s).2.shadow = s.shadow := rfl
@[simp] theorem drawBus_status (s : State) : (drawBus s).2.status = s.status := rfl
@[simp] theorem drawBus_flags (s : State) : (drawBus s).2.flags = s.flags := rfl
@[simp] theorem drawBus_todo (s : State) : (drawBus s).2.todo = s.todo := rfl
@[simp] theorem drawBus_t0 (s : State) : (drawBus s).2.t0 = s.t0 := rfl
@[simp] theorem drawBus_lines (s : State) : (drawBus s).2.lines = s.lines := rfl
@[simp] theorem drawBus_log (s : State) : (drawBus s).2.log = s.log := rfl
@[simp] theorem drawBus_wire (s : State) : (drawBus s).2.wire = s.wire := rfl
@[simp] theorem drawBus_direct (s : State) : (drawBus s).2.direct = s.direct := rfl
@[simp] theorem drawBus_readThrough (s : State) : (drawBus s).2.readThrough = s.readThrough := rfl
@[simp] theorem drawBus_seen (s : State) : (drawBus s).2.seen = s.seen := rfl
@[simp] theorem drawBus_faultRecord (s : State) : (drawBus s).2.faultRecord = s.faultRecord := rfl
@[simp] theorem drawBus_inbox (s : State) : (drawBus s).2.inbox = s.inbox := rfl
@[simp] theorem drawBus_replies (s : State) : (drawBus s).2.replies = s.replies := rfl
@[simp] theorem drawBus_env (s : State) : (drawBus s).2.env = { s.env with bus := s.env.bus.skip 1 } := rfl

/-! ### drawSource -/

@[simp] theorem drawSource_cfg (s : State) : (drawSource s).2.cfg = s.cfg := rfl
@[simp] theorem drawSource_req (s : State) : (drawSource s).2.req = s.req := rfl
@[simp] theorem drawSource_shadow (s : State) : (drawSource s).2.shadow = s.shadow := rfl
@[simp] theorem drawSource_status (s : State) : (drawSource s).2.status = s.status := rfl
@[simp] theorem drawSource_flags (s : State) : (drawSource s).2.flags = s.flags := rfl
@[simp] theorem drawSource_todo (s : State) : (drawSource s).2.todo = s.todo := rfl
@[simp] theorem drawSource_t0 (s : State) : (drawSource s).2.t0 = s.t0 := rfl
@[simp] theorem drawSource_lines (s : State) : (drawSource s).2.lines = s.lines := rfl
@[simp] theorem drawSource_log (s : State) : (drawSource s).2.log = s.log := rfl
@[simp] theorem drawSource_wire (s : State) : (drawSource s).2.wire = s.wire := rfl
@[simp] theorem drawSource_direct (s : State) : (drawSource s).2.direct = s.direct := rfl
@[simp] theorem drawSource_readThrough (s : State) : (drawSource s).2.readThrough = s.readThrough := rfl
@[simp] theorem drawSource_seen (s : State) : (drawSource s).2.seen = s.seen := rfl
@[simp] theorem drawSource_faultRecord (s : State) : (drawSource s).2.faultRecord = s.faultRecord := rfl
@[simp] theorem drawSource_inbox (s : State) : (drawSource s).2.inbox = s.inbox := rfl
@[simp] theorem drawSource_replies (s : State) : (drawSource s).2.replies = s.replies := rfl
@[simp] theorem drawSource_env (s : State) : (drawSource s).2.env = { s.env with source := s.env.source.skip 1 } := rfl

/-! ### readBusy -/

@[simp] theorem readBusy_cfg (s : State) : (readBusy s).2.cfg = s.cfg := rfl
@[simp] theorem readBusy_req (s : State) : (readBusy s).2.req = s.req := rfl
@[simp] theorem readBusy_shadow (s : State) : (readBusy s).2.shadow = s.shadow := rfl
@[simp] theorem readBusy_status (s : State) : (readBusy s).2.status = s.status := rfl
@[simp] theorem readBusy_flags (s : State) : (readBusy s).2.flags = s.flags := rfl
@[simp] theorem readBusy_todo (s : State) : (readBusy s).2.todo = s.todo := rfl
@[simp] theorem readBusy_t0 (s : State) : (readBusy s).2.t0 = s.t0 := rfl
@[simp] theorem readBusy_lines (s : State) : (readBusy s).2.lines = s.lines := rfl
@[simp] theorem readBusy_log (s : State) : (readBusy s).2.log = s.log := rfl
@[simp] theorem readBusy_wire (s : State) : (readBusy s).2.wire = s.wire := rfl
@[simp] theorem readBusy_direct (s : State) : (readBusy s).2.direct = s.direct := rfl
@[simp] theorem readBusy_readThrough (s : State) : (readBusy s).2.readThrough = s.readThrough := rfl
@[simp] theorem readBusy_seen (s : State) : (readBusy s).2.seen = s.seen := rfl
@[simp] theorem readBusy_faultRecord (s : State) : (readBusy s).2.faultRecord = s.faultRecord := rfl
@[simp] theorem readBusy_inbox (s : State) : (readBusy s).2.inbox = s.inbox := rfl
@[simp] theorem readBusy_replies (s : State) : (readBusy s).2.replies = s.replies := rfl
@[simp] theorem readBusy_env (s : State) : (readBusy s).2.env = { s.env with busy := s.env.busy.skip 1 } := rfl

/-! ### engineReset -/

@[simp] theorem engineReset_cfg (s : State) : (engineReset s).cfg = s.cfg := rfl
@[simp] theorem engineReset_req (s : State) : (engineReset s).req = descZero := rfl
@[simp] theorem engineReset_shadow (s : State) : (engineReset s).shadow = descZero := rfl
@[simp] theorem engineReset_status (s : State) : (engineReset s).status = statusReset := rfl
@[simp] theorem engineReset_flags (s : State) : (engineReset s).flags = flagsReset := rfl
@[simp] theorem engineReset_todo (s : State) : (engineReset s).todo = .skip := rfl
@[simp] theorem engineReset_t0 (s : State) : (engineReset s).t0 = 0 := rfl
@[simp] theorem engineReset_lines (s : State) : (engineReset s).lines = linesReset := rfl
@[simp] theorem engineReset_log (s : State) : (engineReset s).log = [] := rfl
@[simp] theorem engineReset_wire (s : State) : (engineReset s).wire = [] := rfl
@[simp] theorem engineReset_direct (s : State) : (engineReset s).direct = s.direct := rfl
@[simp] theorem engineReset_readThrough (s : State) : (engineReset s).readThrough = s.readThrough := rfl
@[simp] theorem engineReset_seen (s : State) : (engineReset s).seen = [] := rfl
@[simp] theorem engineReset_faultRecord (s : State) : (engineReset s).faultRecord = s.faultRecord := rfl
@[simp] theorem engineReset_inbox (s : State) : (engineReset s).inbox = s.inbox := rfl
@[simp] theorem engineReset_replies (s : State) : (engineReset s).replies = s.replies := rfl
@[simp] theorem engineReset_env (s : State) : (engineReset s).env = s.env := rfl

end Sys2Proof.Machine
end

