-- ==== Sys2Proof/Laws/Progress.lean ====
section
/-!
SUPPORT. The run of steps: its equations, what it leaves of `todo`, and `Sat`: what holds of the states it reaches. Last, what
the next state of a request can be.
-/
namespace Sys2Proof.Machine

/-! ## Equations -/

@[simp] theorem andThen_going (s : State) (q : Prog) (k : State → Progress) : (Progress.going s).andThen q k = k s := rfl
@[simp] theorem andThen_ended (s : State) (q : Prog) (k : State → Progress) : (Progress.ended s).andThen q k = .ended s := rfl
@[simp] theorem andThen_held (s : State) (q : Prog) (k : State → Progress) :
    (Progress.held s).andThen q k = .held { s with todo := .seq s.todo q } := rfl

@[simp] theorem state_going (s : State) : (Progress.going s).state = s := rfl
@[simp] theorem state_ended (s : State) : (Progress.ended s).state = s := rfl
@[simp] theorem state_held (s : State) : (Progress.held s).state = s := rfl

@[simp] theorem run_skip (s : State) : Prog.skip.run s = .going s := rfl
@[simp] theorem run_act (a : Act) (s : State) : (Prog.act a).run s = runAct a s := rfl
theorem run_seq (p q : Prog) (s : State) : (Prog.seq p q).run s = (p.run s).andThen q q.run := rfl
theorem run_ifFlag (f : FlagName) (p q : Prog) (s : State) :
    (Prog.ifFlag f p q).run s = if s.flags.get f then p.run s else q.run s := rfl

@[simp] theorem steps_nil : steps [] = .skip := rfl
@[simp] theorem steps_cons (p : Prog) (ps : List Prog) : steps (p :: ps) = .seq p (steps ps) := rfl

/-! ## What holds of the states reached -/

/-- A state the run goes on with has P, one in which it ended has Q, and one that is held has P but for its `todo`. -/
def Progress.Sat (P Q : State → Prop) : Progress → Prop
  | .going s => P s
  | .ended s => Q s
  | .held s => P { s with todo := .skip }

@[simp] theorem sat_going (P Q : State → Prop) (s : State) : (Progress.going s).Sat P Q ↔ P s := Iff.rfl
@[simp] theorem sat_ended (P Q : State → Prop) (s : State) : (Progress.ended s).Sat P Q ↔ Q s := Iff.rfl
@[simp] theorem sat_held (P Q : State → Prop) (s : State) : (Progress.held s).Sat P Q ↔ P { s with todo := .skip } := Iff.rfl

theorem Progress.Sat.andThen {P Q : State → Prop} {p : Progress} {q : Prog} {k : State → Progress}
    (h : p.Sat P Q) (hk : ∀ s, P s → (k s).Sat P Q) : (p.andThen q k).Sat P Q := by
  cases p with
  | going s => exact hk s h
  | ended s => exact h
  | held s => exact h

theorem Progress.Sat.mono {P P' Q Q' : State → Prop} {p : Progress} (h : p.Sat P Q) (hp : ∀ s, P s → P' s)
    (hq : ∀ s, Q s → Q' s) : p.Sat P' Q' := by
  cases p with
  | going s => exact hp s h
  | ended s => exact hq s h
  | held s => exact hp _ h

/-! ## The acts of a program -/

/-- Every step of the program has A. -/
def Prog.All (A : Act → Prop) : Prog → Prop
  | .skip => True
  | .act a => A a
  | .seq p q => p.All A ∧ q.All A
  | .ifFlag _ p q => p.All A ∧ q.All A

/-- What each of its steps keeps, a program keeps. -/
theorem run_kept {A : Act → Prop} {P Q : State → Prop} (H : ∀ a, A a → ∀ s, P s → (runAct a s).Sat P Q) {p : Prog}
    (hp : p.All A) {s : State} (h : P s) : (p.run s).Sat P Q := by
  induction p generalizing s with
  | skip => exact h
  | act a => exact H a hp s h
  | seq p q ihp ihq => exact (ihp hp.1 h).andThen fun _ hu => ihq hp.2 hu
  | ifFlag f p q ihp ihq =>
    rw [run_ifFlag]
    split
    · exact ihp hp.1 h
    · exact ihq hp.2 h

theorem Prog.All.mono {A B : Act → Prop} {p : Prog} (h : p.All A) (hab : ∀ a, A a → B a) : p.All B := by
  induction p with
  | skip => trivial
  | act a => exact hab a h
  | seq p q ihp ihq => exact ⟨ihp h.1, ihq h.2⟩
  | ifFlag f p q ihp ihq => exact ⟨ihp h.1, ihq h.2⟩

theorem steps_all {A : Act → Prop} {ps : List Prog} (h : ∀ p ∈ ps, p.All A) : (steps ps).All A := by
  induction ps with
  | nil => trivial
  | cons p rest ih => exact ⟨h p (by simp), ih fun q hq => h q (by simp [hq])⟩

/-! ## `todo` -/

/-- Steps leave no position behind where they go on or end, and one where they are held. -/
def Progress.Placed : Progress → Prop
  | .going s => s.todo = .skip
  | .ended s => s.todo = .skip
  | .held s => s.todo ≠ .skip

/-- The host's moves leave no position behind where the engine goes on or the request ends. -/
def Progress.Unplaced : Progress → Prop
  | .going s => s.todo = .skip
  | .ended s => s.todo = .skip
  | .held _ => True

theorem regWrite_todo (offset : Nat) (v : Word) (s : State) : (regWrite offset v s).todo = s.todo := by
  unfold regWrite onGoWrite
  split
  · rfl
  · split
    · split
      · split <;> rfl
      · rfl
    · rfl

theorem hostPoke_todo (space : Space) (a : Word) (b : Byte) (s : State) : (hostPoke space a b s).todo = s.todo := by
  unfold hostPoke
  split <;> simp

theorem landMoves_todo (ms : List HostMove) {s : State} (h : s.todo = .skip) : (landMoves ms s).Unplaced := by
  induction ms generalizing s with
  | nil => exact h
  | cons m rest ih =>
    cases m with
    | pass => exact h
    | hold => trivial
    | awaitReady => exact h
    | engineReset => rfl
    | poke space a b => exact ih ((hostPoke_todo space a b s).trans h)
    | write offset width v =>
      unfold landMoves
      cases accessRefusal offset width with
      | some r => trivial
      | none => exact ih ((regWrite_todo offset v s).trans h)
    | read offset width =>
      unfold landMoves
      cases accessRefusal offset width with
      | some r => trivial
      | none => exact ih h

theorem takeStep_placed {a : Act} {now : State → Progress} {s : State} (h : s.todo = .skip)
    (hn : ∀ u : State, u.todo = .skip → (now u).Placed) : (takeStep a now s).Placed := by
  have hl := landMoves_todo s.inbox h
  unfold takeStep hostTurn
  split
  · next e => rw [e] at hl; exact hn _ hl
  · next e => rw [e] at hl; exact hl
  · simp [Progress.Placed]

theorem waitMs_placed {ms : Nat} {a : Act} {now : State → Progress} {s : State} (h : s.todo = .skip)
    (hn : ∀ u : State, u.todo = .skip → (now u).Placed) : (waitMs ms a now s).Placed := by
  unfold waitMs
  split
  · exact hn s h
  · simp [Progress.Placed]

theorem transfer_placed {b : ByteKind × Byte} {s : State} (h : s.todo = .skip) : (transfer b s).Placed := by
  refine takeStep_placed h fun u hu => ?_
  unfold transferNow
  split
  · rfl
  · dsimp only
    split
    · rfl
    · exact hu

theorem pollInterval_placed {label : WaitLabel} {n : Nat} {next : State → Progress} {s : State} (h : s.todo = .skip)
    (hn : ∀ u : State, u.todo = .skip → (next u).Placed) : (pollInterval label n next s).Placed := by
  refine takeStep_placed h fun u hu => waitMs_placed hu fun v hv => ?_
  dsimp only
  split
  · simpa [Progress.Placed] using hv
  · exact hn _ hv

theorem pollLoop_placed (label : WaitLabel) (n : Nat) {s : State} (h : s.todo = .skip) : (pollLoop label n s).Placed := by
  induction n generalizing s with
  | zero => exact takeStep_placed h fun u hu => by simpa [Progress.Placed] using hu
  | succ n ih =>
    refine takeStep_placed h fun u hu => ?_
    dsimp only
    split
    · simpa [Progress.Placed] using hu
    · exact pollInterval_placed hu fun v hv => ih hv

theorem runAct_placed (a : Act) {s : State} (h : s.todo = .skip) : (runAct a s).Placed := by
  cases a with
  | send b => exact transfer_placed h
  | stream space inv a =>
    refine takeStep_placed h fun u hu => ?_
    unfold streamNow
    dsimp only
    split
    · rfl
    · exact transfer_placed hu
  | delayEnd ms => exact takeStep_placed h fun u hu => waitMs_placed hu fun v hv => hv
  | resetPulse style ms => exact takeStep_placed h fun u hu => waitMs_placed hu fun v hv => hv
  | sample label n => exact pollLoop_placed label n h
  | interval label n => exact pollInterval_placed h fun u hu => pollLoop_placed label n hu
  | raise k => exact takeStep_placed h fun u _ => rfl
  | complete => exact takeStep_placed h fun u _ => rfl
  | setFlag f v => exact takeStep_placed h fun u hu => hu
  | initBegin => exact takeStep_placed h fun u hu => hu
  | clearLastWait => exact takeStep_placed h fun u hu => hu
  | lineSetup => exact takeStep_placed h fun u hu => hu
  | busSetup => exact takeStep_placed h fun u hu => hu
  | resetLow => exact takeStep_placed h fun u hu => hu
  | delayBegin => exact takeStep_placed h fun u hu => hu
  | waitBegin => exact takeStep_placed h fun u hu => hu

/-- Steps that start with no position behind them leave one exactly where they are held. -/
theorem run_placed (p : Prog) {s : State} (h : s.todo = .skip) : (p.run s).Placed := by
  induction p generalizing s with
  | skip => exact h
  | act a => exact runAct_placed a h
  | seq p q ihp ihq =>
    have hp := ihp h
    rw [run_seq]
    cases e : p.run s with
    | going u => rw [e] at hp; exact ihq hp
    | ended u => rw [e] at hp; exact hp
    | held u => simp [Progress.Placed]
  | ifFlag f p q ihp ihq =>
    rw [run_ifFlag]
    split
    · exact ihp h
    · exact ihq h

/-! ## A request's next state -/

/-- The steps of a request never go on past its end. -/
theorem dispatched_not_going (g : Gate) (body : Cfg → Prog) (s u t : State) : (dispatched g body s).run u ≠ .going t := by
  have hk : ∀ a, (∃ k, a = .raise k) ∨ a = .complete → ∀ v w, runAct a v ≠ .going w := by
    intro a ha v w e
    obtain ⟨k, rfl⟩ | rfl := ha <;> simp only [runAct, takeStep] at e <;> split at e <;> cases e
  unfold dispatched
  intro e
  split at e
  · exact hk _ (.inl ⟨_, rfl⟩) u t e
  · rw [run_seq] at e
    cases h : (body s.cfg).run u with
    | going v => rw [h] at e; exact hk _ (.inr rfl) v t e
    | ended v => rw [h] at e; cases e
    | held v => rw [h] at e; cases e

/-- Everything a request's next state can be: the request has ended there, or it is in flight there. -/
theorem request_next {g : Gate} {body : Cfg → Prog} {s t : State} (h : request g body s = .next t) :
    cfgWf s.cfg = true ∧
      (((dispatched g body s).run { beginRequest s with todo := .skip } = .ended t ∧ t.todo = .skip) ∨
       ((dispatched g body s).run { beginRequest s with todo := .skip } = .held t ∧ t.todo ≠ .skip)) := by
  unfold request at h
  split at h
  · refine ⟨‹_›, ?_⟩
    replace h : ((dispatched g body s).run { beginRequest s with todo := .skip }).state = t := Host.Outcome.next.inj h
    have hp := run_placed (dispatched g body s) (s := { beginRequest s with todo := .skip }) rfl
    cases e : (dispatched g body s).run { beginRequest s with todo := .skip } with
    | going u => exact absurd e (dispatched_not_going g body s _ u)
    | ended u => rw [e] at h hp; subst h; exact .inl ⟨rfl, hp⟩
    | held u => rw [e] at h hp; subst h; exact .inr ⟨rfl, hp⟩
  · cases h

/-- A property of next states follows from what the request's steps satisfy. -/
theorem request_sat {g : Gate} {body : Cfg → Prog} {s t : State} {P Q R : State → Prop} (h : request g body s = .next t)
    (hs : ((dispatched g body s).run { beginRequest s with todo := .skip }).Sat P Q)
    (hend : ∀ u, u.todo = .skip → Q u → R u) (hheld : ∀ u : State, u.todo ≠ .skip → P { u with todo := .skip } → R u) : R t := by
  obtain ⟨-, ⟨e, ht⟩ | ⟨e, ht⟩⟩ := request_next h
  · rw [e] at hs
    exact hend t ht hs
  · rw [e] at hs
    exact hheld t ht hs

end Sys2Proof.Machine
end

