-- ==== Sys2Proof/Laws/Closure.lean ====
section
/-!
SUPPORT. Whole-machine rules, once for all: a property that the host's moves and the steps of the engine keep is kept by every
program made of those steps, and so by every request, whatever the host and the environment do. `P` is what holds while a
request runs or is in flight, `Q` what holds where it ended. Then, for every routine, which steps it is made of.
-/
namespace Sys2Proof.Machine

/-! ## The host's turn -/

/-- P is kept by what the host can do between two engine steps; the engine's reset leads to Q. -/
structure KeptByHost (P Q : State → Prop) : Prop where
  inbox : ∀ s l, P s → P { s with inbox := l }
  held : ∀ s, P s → P { s with todo := .skip }
  replies : ∀ s v, P s → P { s with replies := s.replies ++ [v] }
  poke : ∀ space a b s, P s → P (hostPoke space a b s)
  write : ∀ offset v s, accessRefusal offset 4 = none → P s → P (regWrite offset v s)
  reset : ∀ s, P s → Q (engineReset s)

theorem accessRefusal_width {offset width : Nat} (h : accessRefusal offset width = none) : accessRefusal offset 4 = none := by
  unfold accessRefusal at h ⊢
  split at h
  · cases h
  · next h0 =>
    split at h
    · cases h
    · next h1 =>
      have h2 : ¬ (4 ≠ 4 ∨ offset % 4 ≠ 0) := by
        intro hc
        rcases hc with hc | hc
        · exact hc rfl
        · exact h1 (.inr hc)
      rw [if_neg h0, if_neg h2]

theorem landMoves_kept {P Q : State → Prop} (H : KeptByHost P Q) (ms : List HostMove) {s : State} (h : P s) :
    (landMoves ms s).Sat P Q := by
  induction ms generalizing s with
  | nil => exact H.inbox s _ h
  | cons m rest ih =>
    cases m with
    | pass => exact H.inbox s _ h
    | hold => exact H.held _ (H.inbox s _ h)
    | awaitReady => exact H.inbox s _ h
    | engineReset => exact H.reset _ (H.inbox s _ h)
    | poke space a b => exact ih (H.poke space a b s h)
    | write offset width v =>
      unfold landMoves
      cases hr : accessRefusal offset width with
      | some r => exact H.held _ (H.inbox s _ h)
      | none => exact ih (H.write offset v s (accessRefusal_width hr) h)
    | read offset width =>
      unfold landMoves
      cases hr : accessRefusal offset width with
      | some r => exact H.held _ (H.inbox s _ h)
      | none => exact ih (H.replies s _ h)

/-- A step of the engine keeps P if what it does after the host's turn does. -/
theorem takeStep_kept {P Q : State → Prop} (H : KeptByHost P Q) {a : Act} {now : State → Progress} {s : State} (h : P s)
    (hn : ∀ u, P u → (now u).Sat P Q) : (takeStep a now s).Sat P Q := by
  have hl := landMoves_kept H s.inbox h
  unfold takeStep hostTurn
  split
  · next e => rw [e] at hl; exact hn _ hl
  · next e => rw [e] at hl; exact hl
  · next e => rw [e] at hl; exact hl

/-! ## The steps of the engine -/

/-- Some step among A transfers a byte. -/
def Transfers (A : Act → Prop) : Prop := (∃ b, A (.send b)) ∨ ∃ space inv a, A (.stream space inv a)

/-- Some step among A reads a bitmap byte. -/
def Streams (A : Act → Prop) : Prop := ∃ space inv a, A (.stream space inv a)

/-- Some step among A polls the busy line. -/
def Polls (A : Act → Prop) : Prop := ∃ label n, A (.sample label n) ∨ A (.interval label n)

/-- P is kept by the host and by every step of the engine among A, each given by the state changes it is made of. -/
structure KeptBySteps (A : Act → Prop) (P Q : State → Prop) : Prop extends KeptByHost P Q where
  sent : ∀ (b : ByteKind × Byte) s, Transfers A → P s → s.flags.hibernating = false →
    P (emit (byteEvent b) (drawBus (driveByte b.1 b.2 s)).2)
  busFault : ∀ (b : ByteKind × Byte) s, Transfers A → P s → s.flags.hibernating = false →
    Q (raiseFault .busError (drawBus (driveByte b.1 b.2 s)).2)
  sleepFault : ∀ s, Transfers A → P s → s.flags.hibernating = true → Q (raiseFault .hibernatingAccess s)
  source : ∀ s, Streams A → P s → P (drawSource s).2
  sourceFault : ∀ s, Streams A → P s → Q (raiseFault .sourceError (drawSource s).2)
  flag : ∀ n v s, A (.setFlag n v) → P s → P (setFlag n v s)
  initBegin : ∀ s, A .initBegin → P s → P (initBegin s)
  lastWait : ∀ s, A .clearLastWait → P s → P (clearLastWait s)
  lines : ∀ s, A .lineSetup → P s → P (configureLines s)
  bus : ∀ s, A .busSetup → P s → P (emit .busSetup s)
  rstLow : ∀ s, A .resetLow → P s → P (setRst .low s)
  pulse : ∀ style ms s, A (.resetPulse style ms) → P s → P (emit (.resetPulse style) (setRst (rstAfter style) s))
  delayBegin : ∀ s, A .delayBegin → P s → P (setWaiting true s)
  delayEnd : ∀ ms s, A (.delayEnd ms) → P s → P (setWaiting false (emit (.delay ms) s))
  waitBegin : ∀ s, A .waitBegin → P s → P (startTimer (setWaiting true s))
  busy : ∀ s, Polls A → P s → P (readBusy s).2
  clock : ∀ us s, Polls A → P s → P (advanceClock us s)
  waitEnd : ∀ label o s, Polls A → P s → P (endWait label o s)
  raised : ∀ k s, A (.raise k) → P s → Q (raiseFault k s)
  done : ∀ s, A .complete → P s → Q (completed s)

section Steps

variable {A : Act → Prop} {P Q : State → Prop}

theorem transfer_kept (H : KeptBySteps A P Q) (hA : Transfers A) {b : ByteKind × Byte} {s : State} (h : P s) :
    (transfer b s).Sat P Q := by
  refine takeStep_kept H.toKeptByHost h fun u hu => ?_
  unfold transferNow
  split
  · exact H.sleepFault u hA hu ‹_›
  · next hh =>
    have hh : u.flags.hibernating = false := by simpa using hh
    dsimp only
    split
    · exact H.busFault b u hA hu hh
    · exact H.sent b u hA hu hh

theorem waitMs_kept (H : KeptBySteps A P Q) {ms : Nat} {a : Act} {now : State → Progress} {s : State} (h : P s)
    (hn : ∀ u, P u → (now u).Sat P Q) : (waitMs ms a now s).Sat P Q := by
  unfold waitMs
  split
  · exact hn s h
  · exact H.held s h

theorem pollInterval_kept (H : KeptBySteps A P Q) (hA : Polls A) (label : WaitLabel) (n : Nat) {next : State → Progress}
    {s : State} (h : P s) (hn : ∀ u, P u → (next u).Sat P Q) : (pollInterval label n next s).Sat P Q := by
  refine takeStep_kept H.toKeptByHost h fun u hu => waitMs_kept H hu fun v hv => ?_
  dsimp only
  split
  · exact H.waitEnd label .timeout _ hA (H.clock _ v hA hv)
  · exact hn _ (H.clock _ v hA hv)

theorem pollLoop_kept (H : KeptBySteps A P Q) (hA : Polls A) (label : WaitLabel) (n : Nat) {s : State} (h : P s) :
    (pollLoop label n s).Sat P Q := by
  induction n generalizing s with
  | zero => exact takeStep_kept H.toKeptByHost h fun u hu => H.waitEnd label .timeout u hA hu
  | succ n ih =>
    refine takeStep_kept H.toKeptByHost h fun u hu => ?_
    dsimp only
    split
    · exact H.waitEnd label .released _ hA (H.busy u hA hu)
    · exact pollInterval_kept H hA label n (H.busy u hA hu) fun v hv => ih hv

/-- Every step among A keeps P, and ends a request only with Q. -/
theorem runAct_kept (H : KeptBySteps A P Q) (a : Act) (ha : A a) (s : State) (h : P s) : (runAct a s).Sat P Q := by
  have K := H.toKeptByHost
  cases a with
  | send b => exact transfer_kept H (.inl ⟨b, ha⟩) h
  | stream space inv a =>
    refine takeStep_kept K h fun u hu => ?_
    unfold streamNow
    dsimp only
    split
    · exact H.sourceFault u ⟨_, _, _, ha⟩ hu
    · exact transfer_kept H (.inr ⟨_, _, _, ha⟩) (H.source u ⟨_, _, _, ha⟩ hu)
  | setFlag n v => exact takeStep_kept K h fun u hu => H.flag n v u ha hu
  | initBegin => exact takeStep_kept K h fun u hu => H.initBegin u ha hu
  | clearLastWait => exact takeStep_kept K h fun u hu => H.lastWait u ha hu
  | lineSetup => exact takeStep_kept K h fun u hu => H.lines u ha hu
  | busSetup => exact takeStep_kept K h fun u hu => H.bus u ha hu
  | resetLow => exact takeStep_kept K h fun u hu => H.rstLow u ha hu
  | resetPulse style ms => exact takeStep_kept K h fun u hu => waitMs_kept H hu fun v hv => H.pulse style ms v ha hv
  | delayBegin => exact takeStep_kept K h fun u hu => H.delayBegin u ha hu
  | delayEnd ms => exact takeStep_kept K h fun u hu => waitMs_kept H hu fun v hv => H.delayEnd ms v ha hv
  | waitBegin => exact takeStep_kept K h fun u hu => H.waitBegin u ha hu
  | sample label n => exact pollLoop_kept H ⟨label, n, .inl ha⟩ label n h
  | interval label n =>
    exact pollInterval_kept H ⟨label, n, .inr ha⟩ label n h fun u hu => pollLoop_kept H ⟨label, n, .inr ha⟩ label n hu
  | raise k => exact takeStep_kept K h fun u hu => H.raised k u ha hu
  | complete => exact takeStep_kept K h fun u hu => H.done u ha hu

/-- A program of steps among A keeps P, and ends only with Q. -/
theorem prog_kept (H : KeptBySteps A P Q) {p : Prog} (hp : p.All A) {s : State} (h : P s) : (p.run s).Sat P Q :=
  run_kept (runAct_kept H) hp h

end Steps

/-! ## The requests -/

/-- The routine of a request, and its gate. -/
def bodyOf : Instr → Gate × (Cfg → Prog)
  | .init style => (gateInit, initBody style)
  | .powerOn => (gatePlain, powerOn)
  | .powerOff => (gatePlain, powerOff)
  | .hibernate => (gatePlain, hibernateBody)
  | .waitBusy => (gatePlain, waitBusyBody)
  | .writeScreenBuffer fill => (gatePlain, screenBufferFill fill)
  | .writeImage b r f => (gatePlain, writeRegion (planeCur .image b r f))
  | .writeImageAgain b r f => (gatePlain, writeRegion (planePrev .image b r f))
  | .writeImagePart b p r f => (gatePlain, writeRegion (planeCur (.part p) b r f))
  | .writeImagePartAgain b p r f => (gatePlain, writeRegion (planePrev (.part p) b r f))
  | .writeImageDual b c r f => (gateDual, writeDual (planeCur .image b r f) (planeColour .image c r f))
  | .writeImagePartDual b c p r f => (gateDual, writeDual (planeCur (.part p) b r f) (planeColour (.part p) c r f))
  | .refresh v => (gatePlain, refreshWhole v)
  | .refreshRect r => (gatePlain, refreshRect r.x r.y r.w r.h)
  | .drawImage b r f => (gatePlain, drawThenRefresh (writeRegion (planeCur .image b r f)) r)
  | .drawImagePart b p r f => (gatePlain, drawThenRefresh (writeRegion (planeCur (.part p) b r f)) r)
  | .drawImageDual b c r f =>
    (gateDual, drawThenRefresh (writeDual (planeCur .image b r f) (planeColour .image c r f)) r)
  | .drawImagePartDual b c p r f =>
    (gateDual, drawThenRefresh (writeDual (planeCur (.part p) b r f) (planeColour (.part p) c r f)) r)

/-- Every request is its gate and its own routine. -/
theorem exec_eq_request (i : Instr) (s : State) : exec i s = request (bodyOf i).1 (bodyOf i).2 s := by
  cases i <;> rfl

/-! ## Which steps a routine is made of -/

/-- A holds the steps of waits and transfers. -/
structure HasBasics (A : Act → Prop) : Prop where
  send : ∀ b, A (.send b)
  delayBegin : A .delayBegin
  delayEnd : ∀ ms, A (.delayEnd ms)
  waitBegin : A .waitBegin
  sample : ∀ label n, A (.sample label n)
  lastWait : A .clearLastWait

/-- A holds the steps of a mode entry for either mode. -/
structure HasEntry (A : Act → Prop) : Prop extends HasBasics A where
  on : A (.setFlag .powerOn true)
  mode : A (.setFlag .usingPartialMode true)

/-- A holds the steps of a region write. -/
structure HasWrite (A : Act → Prop) : Prop extends HasEntry A where
  stream : ∀ space inv a, A (.stream space inv a)
  cleared : A (.setFlag .initialWrite false)

/-- A holds the steps of a refresh. -/
structure HasRefresh (A : Act → Prop) : Prop extends HasEntry A where
  full : A (.setFlag .usingPartialMode false)
  refreshed : A (.setFlag .initialRefresh false)

section Parts

variable {A : Act → Prop}

theorem sendBytes_all (H : ∀ b, A (.send b)) (bs : List (ByteKind × Byte)) : (sendBytes bs).All A := by
  refine steps_all fun p hp => ?_
  obtain ⟨b, -, rfl⟩ := List.mem_map.1 hp
  exact H b

theorem streamBytes_all (H : ∀ space inv a, A (.stream space inv a)) (space : Space) (inv : Bool) (addrs : List Word) :
    (streamBytes space inv addrs).All A := by
  refine steps_all fun p hp => ?_
  obtain ⟨a, -, rfl⟩ := List.mem_map.1 hp
  exact H space inv a

theorem delay_all (hb : A .delayBegin) (he : ∀ ms, A (.delayEnd ms)) (ms : Nat) : (delay ms).All A := by
  unfold delay
  split
  · trivial
  · exact ⟨hb, he ms, trivial⟩

theorem waitWhileBusy_all (H : HasBasics A) (label : WaitLabel) (ms : Nat) (c : Cfg) : (waitWhileBusy label ms c).All A := by
  unfold waitWhileBusy
  split
  · exact ⟨H.waitBegin, H.sample _ _, trivial⟩
  · exact ⟨delay_all H.delayBegin H.delayEnd ms, H.lastWait, trivial⟩

theorem powerOn_all (H : HasBasics A) (hon : A (.setFlag .powerOn true)) (c : Cfg) : (powerOn c).All A :=
  ⟨trivial, sendBytes_all H.send _, waitWhileBusy_all H _ _ c, hon, trivial⟩

theorem powerOff_all (H : HasBasics A) (hoff : A (.setFlag .powerOn false)) (hfull : A (.setFlag .usingPartialMode false))
    (c : Cfg) : (powerOff c).All A :=
  ⟨⟨sendBytes_all H.send _, waitWhileBusy_all H _ _ c, hoff, hfull, trivial⟩, trivial⟩

theorem ensurePartial_all (H : HasEntry A) (c : Cfg) : (ensurePartial c).All A :=
  ⟨trivial, sendBytes_all H.send _, powerOn_all H.toHasBasics H.on c, H.mode, trivial⟩

theorem hibernateBody_all (H : HasBasics A) (hoff : A (.setFlag .powerOn false)) (hfull : A (.setFlag .usingPartialMode false))
    {c : Cfg} (hs : c.hasRst = true → A (.setFlag .hibernating true)) : (hibernateBody c).All A := by
  refine ⟨powerOff_all H hoff hfull c, ?_, trivial⟩
  split
  · exact ⟨sendBytes_all H.send _, hs ‹_›, trivial⟩
  · trivial

theorem screenBufferFill_all (H : HasEntry A) (hc : A (.setFlag .initialWrite false)) (v : Byte) (c : Cfg) :
    (screenBufferFill v c).All A :=
  ⟨ensurePartial_all H c, ⟨sendBytes_all H.send _, trivial⟩, sendBytes_all H.send _, hc, trivial⟩

theorem writeRegion_all (H : HasWrite A) (p : Plane) (c : Cfg) : (writeRegion p c).All A := by
  unfold writeRegion
  split
  · trivial
  · exact ⟨delay_all H.delayBegin H.delayEnd _, ⟨screenBufferFill_all H.toHasEntry H.cleared _ c, trivial⟩,
      ensurePartial_all H.toHasEntry c, ⟨sendBytes_all H.send _, streamBytes_all H.stream _ _ _, trivial⟩,
      delay_all H.delayBegin H.delayEnd _, trivial⟩

theorem writeDual_all (H : HasWrite A) (p q : Plane) (c : Cfg) : (writeDual p q c).All A :=
  ⟨writeRegion_all H p c, writeRegion_all H q c⟩

theorem refreshFull_all (H : HasRefresh A) (c : Cfg) : (refreshFull c).All A :=
  ⟨⟨⟨sendBytes_all H.send _, powerOn_all H.toHasBasics H.on c, H.full, trivial⟩, trivial⟩, sendBytes_all H.send _,
    waitWhileBusy_all H.toHasBasics _ _ c, H.refreshed, trivial⟩

theorem refreshPartial_all (H : HasRefresh A) (r : Clipped) (c : Cfg) : (refreshPartial r c).All A := by
  refine ⟨ensurePartial_all H.toHasEntry c, sendBytes_all H.send _, sendBytes_all H.send _, ?_, trivial⟩
  split
  · exact waitWhileBusy_all H.toHasBasics _ _ c
  · trivial

theorem refreshRect_all (H : HasRefresh A) (x y w h : Int) (c : Cfg) : (refreshRect x y w h c).All A := by
  unfold refreshRect
  split
  · exact refreshFull_all H c
  · refine ⟨refreshFull_all H c, ?_⟩
    unfold refreshClipped
    split
    · trivial
    · split
      · trivial
      · exact refreshPartial_all H _ c

theorem refreshWhole_all (H : HasRefresh A) (v : Bool) (c : Cfg) : (refreshWhole v c).All A := by
  unfold refreshWhole
  split
  · exact refreshRect_all H _ _ _ _ c
  · exact refreshFull_all H c

end Parts

/-- The steps that a request other than INIT can take, by the request. -/
structure HasSteps (A : Act → Prop) (i : Instr) (c : Cfg) : Prop extends HasBasics A where
  stream : readsBitmap i = true → ∀ space inv a, A (.stream space inv a)
  on : i = .powerOn ∨ writesPixels i = true ∨ refreshes i = true → A (.setFlag .powerOn true)
  off : i = .powerOff ∨ i = .hibernate → A (.setFlag .powerOn false)
  mode : writesPixels i = true ∨ refreshes i = true → A (.setFlag .usingPartialMode true)
  full : i = .powerOff ∨ i = .hibernate ∨ refreshes i = true → A (.setFlag .usingPartialMode false)
  cleared : writesPixels i = true → A (.setFlag .initialWrite false)
  refreshed : refreshes i = true → A (.setFlag .initialRefresh false)
  sleep : i = .hibernate → c.hasRst = true → A (.setFlag .hibernating true)

/-- Every request other than INIT is made of the steps `HasSteps` lists for it. -/
theorem bodyOf_all {A : Act → Prop} {i : Instr} {c : Cfg} (H : HasSteps A i c) (hi : isInit i = false) :
    ((bodyOf i).2 c).All A := by
  have hw (h : readsBitmap i = true) : HasWrite A :=
    have hp : writesPixels i = true := by simp [writesPixels, h]
    { H.toHasBasics with on := H.on (.inr (.inl hp)), mode := H.mode (.inl hp), stream := H.stream h, cleared := H.cleared hp }
  have hr (h : refreshes i = true) : HasRefresh A :=
    { H.toHasBasics with
      on := H.on (.inr (.inr h)), mode := H.mode (.inr h), full := H.full (.inr (.inr h)), refreshed := H.refreshed h }
  cases i with
  | init style => cases hi
  | powerOn => exact powerOn_all H.toHasBasics (H.on (.inl rfl)) c
  | powerOff => exact powerOff_all H.toHasBasics (H.off (.inl rfl)) (H.full (.inl rfl)) c
  | hibernate => exact hibernateBody_all H.toHasBasics (H.off (.inr rfl)) (H.full (.inr (.inl rfl))) (H.sleep rfl)
  | waitBusy => exact waitWhileBusy_all H.toHasBasics _ _ c
  | writeScreenBuffer fill =>
    exact screenBufferFill_all { H.toHasBasics with on := H.on (.inr (.inl rfl)), mode := H.mode (.inl rfl) } (H.cleared rfl) fill c
  | writeImage b r f => exact writeRegion_all (hw rfl) _ c
  | writeImageAgain b r f => exact writeRegion_all (hw rfl) _ c
  | writeImagePart b p r f => exact writeRegion_all (hw rfl) _ c
  | writeImagePartAgain b p r f => exact writeRegion_all (hw rfl) _ c
  | writeImageDual b d r f => exact writeDual_all (hw rfl) _ _ c
  | writeImagePartDual b d p r f => exact writeDual_all (hw rfl) _ _ c
  | refresh v => exact refreshWhole_all (hr rfl) v c
  | refreshRect r => exact refreshRect_all (hr rfl) _ _ _ _ c
  | drawImage b r f => exact ⟨writeRegion_all (hw rfl) _ c, refreshRect_all (hr rfl) _ _ _ _ c⟩
  | drawImagePart b p r f => exact ⟨writeRegion_all (hw rfl) _ c, refreshRect_all (hr rfl) _ _ _ _ c⟩
  | drawImageDual b d r f => exact ⟨writeDual_all (hw rfl) _ _ c, refreshRect_all (hr rfl) _ _ _ _ c⟩
  | drawImagePartDual b d p r f => exact ⟨writeDual_all (hw rfl) _ _ c, refreshRect_all (hr rfl) _ _ _ _ c⟩

/-- A holds the steps of INIT (R107). -/
structure HasInit (A : Act → Prop) (c : Cfg) : Prop where
  first : A .initBegin
  lines : A .lineSetup
  rstLow : c.hasRst = true → A .resetLow
  pulse : c.hasRst = true → ∀ style ms, A (.resetPulse style ms)
  delayBegin : c.hasRst = true → A .delayBegin
  delayEnd : c.hasRst = true → ∀ ms, A (.delayEnd ms)
  off : A (.setFlag .powerOn false)
  full : A (.setFlag .usingPartialMode false)
  write : A (.setFlag .initialWrite true)
  refresh : A (.setFlag .initialRefresh true)
  wake : A (.setFlag .hibernating false)
  done : A (.setFlag .initDone true)
  bus : A .busSetup

/-- INIT is made of the steps `HasInit` lists; it sends no byte and polls nothing (R107). -/
theorem initBody_all {A : Act → Prop} {c : Cfg} (H : HasInit A c) (style : ResetStyle) : (initBody style c).All A := by
  refine ⟨H.first, H.lines, ⟨?_, H.wake, trivial⟩, ⟨H.off, H.full, H.write, H.refresh, H.wake, H.done, trivial⟩, H.bus, trivial⟩
  split
  · next h => exact ⟨H.rstLow h, H.pulse h style _, delay_all (H.delayBegin h) (H.delayEnd h) _, trivial⟩
  · trivial

end Sys2Proof.Machine
end

