-- ==== Sys2Proof/Laws/Memory.lean ====
section
/-!
SUPPORT. The laws of bitmap memory: a read after a write, and that a write keeps the canonical form.
-/
namespace Sys2Proof.Machine

theorem memWfFrom_mono {n n' : Nat} {m : Memory} (hn : n' ≤ n) (h : memWfFrom n m = true) : memWfFrom n' m = true := by
  cases m with
  | nil => rfl
  | cons c rest =>
    simp only [memWfFrom, Bool.and_eq_true, decide_eq_true_eq] at h ⊢
    exact ⟨⟨⟨by omega, h.1.1.2⟩, h.1.2⟩, h.2⟩

/-- No cell of a memory that starts at n lies below n. -/
theorem memRead_below {n a : Nat} {m : Memory} (h : memWfFrom n m = true) (ha : a < n) : memRead m a = unlistedByte := by
  induction m generalizing n with
  | nil => rfl
  | cons c rest ih =>
    obtain ⟨k, b⟩ := c
    simp only [memWfFrom, Bool.and_eq_true, decide_eq_true_eq] at h
    have hk : a ≠ k := by omega
    simp only [memRead, hk, if_false]
    exact ih h.2 (by omega)

theorem memWfFrom_memCons {n a : Nat} {b : Byte} {m : Memory} (hn : n ≤ a) (ha : a < 2 ^ 32)
    (h : memWfFrom (a + 1) m = true) : memWfFrom n (memCons a b m) = true := by
  unfold memCons
  split
  · exact memWfFrom_mono (by omega) h
  · simp only [memWfFrom, Bool.and_eq_true, decide_eq_true_eq]
    exact ⟨⟨⟨hn, ha⟩, ‹_›⟩, h⟩

theorem memRead_memCons_self {a : Nat} {b : Byte} {m : Memory} (h : memWfFrom (a + 1) m = true) :
    memRead (memCons a b m) a = b := by
  unfold memCons
  split
  · rw [memRead_below h (by omega)]; exact (‹b = unlistedByte›).symm
  · simp [memRead]

theorem memRead_memCons_other {a k : Nat} {b : Byte} {m : Memory} (hk : k ≠ a) :
    memRead (memCons a b m) k = memRead m k := by
  unfold memCons
  split
  · rfl
  · simp [memRead, hk]

/-- A write keeps the canonical form. -/
theorem memWfFrom_memWrite {n a : Nat} {b : Byte} {m : Memory} (hn : n ≤ a) (ha : a < 2 ^ 32)
    (h : memWfFrom n m = true) : memWfFrom n (memWrite m a b) = true := by
  induction m generalizing n with
  | nil => exact memWfFrom_memCons hn ha rfl
  | cons c rest ih =>
    obtain ⟨k, v⟩ := c
    have h0 := h
    simp only [memWfFrom, Bool.and_eq_true, decide_eq_true_eq] at h
    unfold memWrite
    split
    · refine memWfFrom_memCons hn ha ?_
      simp only [memWfFrom, Bool.and_eq_true, decide_eq_true_eq]
      exact ⟨⟨⟨by omega, h.1.1.2⟩, h.1.2⟩, h.2⟩
    · split
      · subst_vars
        exact memWfFrom_memCons hn ha h.2
      · simp only [memWfFrom, Bool.and_eq_true, decide_eq_true_eq]
        exact ⟨⟨⟨h.1.1.1, h.1.1.2⟩, h.1.2⟩, ih (by omega) h.2⟩

/-- A memory in canonical form stays so when a byte is written at a 32-bit address. -/
theorem memWf_memWrite {m : Memory} {a : Word} {b : Byte} (h : memWf m = true) : memWf (memWrite m a.toNat b) = true :=
  memWfFrom_memWrite (Nat.zero_le _) a.isLt h

/-- A read of the address just written gives the byte written. -/
theorem memRead_memWrite_self {n a : Nat} {b : Byte} {m : Memory} (h : memWfFrom n m = true) :
    memRead (memWrite m a b) a = b := by
  induction m generalizing n with
  | nil => exact memRead_memCons_self rfl
  | cons c rest ih =>
    obtain ⟨k, v⟩ := c
    simp only [memWfFrom, Bool.and_eq_true, decide_eq_true_eq] at h
    unfold memWrite
    split
    · refine memRead_memCons_self ?_
      simp only [memWfFrom, Bool.and_eq_true, decide_eq_true_eq]
      exact ⟨⟨⟨by omega, h.1.1.2⟩, h.1.2⟩, h.2⟩
    · split
      · subst_vars
        exact memRead_memCons_self h.2
      · have hk : a ≠ k := by omega
        simp only [memRead, hk, if_false]
        exact ih h.2

/-- A write leaves every other address alone. -/
theorem memRead_memWrite_other {a k : Nat} {b : Byte} {m : Memory} (hk : k ≠ a) :
    memRead (memWrite m a b) k = memRead m k := by
  induction m with
  | nil => exact memRead_memCons_other hk
  | cons c rest ih =>
    obtain ⟨j, v⟩ := c
    unfold memWrite
    split
    · exact memRead_memCons_other hk
    · split
      · subst_vars
        rw [memRead_memCons_other hk]
        simp [memRead, hk]
      · simp only [memRead, ih]

/-- Two memories in canonical form that read the same everywhere are equal. -/
theorem memWfFrom_ext {n : Nat} {m m' : Memory} (h : memWfFrom n m = true) (h' : memWfFrom n m' = true)
    (hr : ∀ k, memRead m k = memRead m' k) : m = m' := by
  induction m generalizing n m' with
  | nil =>
    cases m' with
    | nil => rfl
    | cons c rest =>
      obtain ⟨k, v⟩ := c
      simp only [memWfFrom, Bool.and_eq_true, decide_eq_true_eq] at h'
      exact absurd (by simpa [memRead] using (hr k).symm) h'.1.2
  | cons c rest ih =>
    obtain ⟨k, v⟩ := c
    have hc := h
    simp only [memWfFrom, Bool.and_eq_true, decide_eq_true_eq] at h
    cases m' with
    | nil => exact absurd (by simpa [memRead] using hr k) h.1.2
    | cons c' rest' =>
      obtain ⟨k', v'⟩ := c'
      have hc' := h'
      simp only [memWfFrom, Bool.and_eq_true, decide_eq_true_eq] at h'
      have hkk : k = k' := by
        rcases Nat.lt_trichotomy k k' with hlt | heq | hgt
        · have e1 : memRead ((k, v) :: rest) k = v := by simp [memRead]
          have e2 : memRead ((k', v') :: rest') k = unlistedByte := by
            have : k ≠ k' := by omega
            simp only [memRead, this, if_false]
            exact memRead_below h'.2 (by omega)
          exact absurd (e1.symm.trans ((hr k).trans e2)) h.1.2
        · exact heq
        · have e1 : memRead ((k', v') :: rest') k' = v' := by simp [memRead]
          have e2 : memRead ((k, v) :: rest) k' = unlistedByte := by
            have : k' ≠ k := by omega
            simp only [memRead, this, if_false]
            exact memRead_below h.2 (by omega)
          exact absurd (e1.symm.trans ((hr k').symm.trans e2)) h'.1.2
      subst hkk
      have hv : v = v' := by simpa [memRead] using hr k
      subst hv
      have hrest : rest = rest' := by
        refine ih h.2 h'.2 fun j => ?_
        rcases Nat.lt_or_ge j (k + 1) with hj | hj
        · rw [memRead_below h.2 hj, memRead_below h'.2 hj]
        · have hjk : j ≠ k := by omega
          simpa [memRead, hjk] using hr j
      rw [hrest]

end Sys2Proof.Machine
end

