-- ==== Sys2Proof/Laws/Lead.lean ====
section
/-!
SUPPORT. `Prog.lead` says where steps lead; once for all, a program whose lead is not broken runs as the lead foretells
(`run_fits`). While it is in flight `Steady` holds, the part of the invariant that does not depend on the steps left; where it ends
`Settled` holds, the invariant between requests.
-/
namespace Sys2Proof.Machine

/-- What holds of a state while a request is in flight, whatever is left of it. -/
structure Steady (s : State) : Prop where
  ready : s.status.ready = false
  status : statusInv s.status = true
  lines : linesInv s.cfg s.lines = true
  direct : memWf s.direct = true
  readThrough : memWf s.readThrough = true

/-- The invariant of an ended request, but for the position. -/
structure Settled (s : State) : Prop where
  ready : s.status.ready = true
  waiting : s.status.waiting = false
  flags : flagsInv s.flags = true
  seen : s.seen = []
  status : statusInv s.status = true
  lines : linesInv s.cfg s.lines = true
  direct : memWf s.direct = true
  readThrough : memWf s.readThrough = true

theorem Settled.inv {s : State} (h : Settled s) (ht : s.todo = .skip) : s.Inv = true := by
  simp [State.Inv, State.phaseInv, ht, h.ready, h.waiting, h.flags, h.seen, h.status, h.lines, h.direct, h.readThrough]

theorem Steady.inv {s : State} (h : Steady s) (ht : s.todo ≠ .skip) (hl : s.todo.lead s.flags s.status.waiting = .over) :
    s.Inv = true := by
  simp [State.Inv, State.phaseInv, ht, h.ready, hl, h.status, h.lines, h.direct, h.readThrough]

/-- What the invariant says between requests. -/
theorem settled_of_inv {s : State} (h : s.Inv = true) (ht : s.todo = .skip) : Settled s := by
  simp only [State.Inv, State.phaseInv, ht, if_true, Bool.and_eq_true, Bool.not_eq_true', decide_eq_true_eq] at h
  obtain ⟨⟨⟨⟨⟨⟨⟨h1, h2⟩, h3⟩, h4⟩, h5⟩, h6⟩, h7⟩, h8⟩ := h
  exact ⟨h1, h2, h3, h4, h5, h6, h7, h8⟩

/-- What the invariant says of a request in flight. -/
theorem steady_of_inv {s : State} (h : s.Inv = true) (ht : s.todo ≠ .skip) :
    Steady s ∧ s.todo.lead s.flags s.status.waiting = .over := by
  simp only [State.Inv, State.phaseInv, ht, if_false, Bool.and_eq_true, Bool.not_eq_true', decide_eq_true_eq] at h
  obtain ⟨⟨⟨⟨⟨h1, h2⟩, h3⟩, h4⟩, h5⟩, h6⟩ := h
  exact ⟨⟨h1, h3, h4, h5, h6⟩, h2⟩

/-- A run that the lead foretells. -/
def Progress.Fits (l : Lead) : Progress → Prop
  | .going t => Steady t ∧ l = .on t.flags t.status.waiting
  | .ended t => Settled t
  | .held t => Steady t ∧ t.todo.lead t.flags t.status.waiting = l

/-! ## The host's turn -/

theorem linesInv_released (c : Cfg) : linesInv c linesReset = true := by
  simp [linesInv, linesReset]

theorem setByte_wf {space : Space} {a : Word} {b : Byte} {s : State} (hd : memWf s.direct = true)
    (hr : memWf s.readThrough = true) :
    memWf (setByte space a b s).direct = true ∧ memWf (setByte space a b s).readThrough = true := by
  cases space
  · exact ⟨memWf_memWrite hd, hr⟩
  · exact ⟨hd, memWf_memWrite hr⟩

/-- The host keeps `Steady`, the flags and WAITING; its engine reset leaves a settled state. -/
theorem steady_host (f : Flags) (w : Bool) :
    KeptByHost (fun s => Steady s ∧ s.flags = f ∧ s.status.waiting = w) Settled where
  inbox s l h := ⟨⟨h.1.ready, h.1.status, h.1.lines, h.1.direct, h.1.readThrough⟩, h.2⟩
  held s h := ⟨⟨h.1.ready, h.1.status, h.1.lines, h.1.direct, h.1.readThrough⟩, h.2⟩
  replies s v h := ⟨⟨h.1.ready, h.1.status, h.1.lines, h.1.direct, h.1.readThrough⟩, h.2⟩
  poke space a b s h := by
    unfold hostPoke
    rw [h.1.ready]
    have hm := setByte_wf (space := space) (a := a) (b := b) (s := raceByte space a b s) h.1.direct h.1.readThrough
    cases space <;> exact ⟨⟨h.1.ready, h.1.status, h.1.lines, hm.1, hm.2⟩, h.2⟩
  write offset v s _ h := by
    have hd : Steady (setDrop s) := ⟨h.1.ready, h.1.status, h.1.lines, h.1.direct, h.1.readThrough⟩
    unfold regWrite
    split
    · exact ⟨⟨h.1.ready, h.1.status, h.1.lines, h.1.direct, h.1.readThrough⟩, h.2⟩
    · split
      · unfold onGoWrite
        split
        · split
          · next hs => simp [startTaken, h.1.ready] at hs
          · exact ⟨hd, h.2⟩
        · exact h
      · exact h
  reset s h := ⟨rfl, rfl, rfl, rfl, rfl, linesInv_released _, h.1.direct, h.1.readThrough⟩

theorem takeStep_fits {a : Act} {now : State → Progress} {s : State} (h : Steady s)
    (hn : ∀ u, Steady u → u.flags = s.flags → u.status.waiting = s.status.waiting →
      (now u).Fits (leadAct s.flags s.status.waiting a)) :
    (takeStep a now s).Fits (leadAct s.flags s.status.waiting a) := by
  have hl := landMoves_kept (steady_host s.flags s.status.waiting) s.inbox ⟨h, rfl, rfl⟩
  unfold takeStep hostTurn
  split
  · next u e => rw [e] at hl; exact hn u hl.1 hl.2.1 hl.2.2
  · next u e => rw [e] at hl; exact hl
  · next u e =>
    rw [e] at hl
    have h1 := hl.1
    have h2 : u.flags = s.flags := hl.2.1
    have h3 : u.status.waiting = s.status.waiting := hl.2.2
    exact ⟨⟨h1.ready, h1.status, h1.lines, h1.direct, h1.readThrough⟩, by rw [← h2, ← h3]; rfl⟩

/-! ## The steps of the engine -/

/-- A step that changes neither the memories nor what `Steady` says keeps it. -/
theorem Steady.of_eq {s t : State} (h : Steady s) (hs : t.status.ready = false) (hi : statusInv t.status = true)
    (hl : linesInv t.cfg t.lines = true) (hd : t.direct = s.direct) (hr : t.readThrough = s.readThrough) : Steady t :=
  ⟨hs, hi, hl, by rw [hd]; exact h.direct, by rw [hr]; exact h.readThrough⟩

theorem Steady.raised {s : State} {k : FaultKind} (h : Steady s) (hf : flagsInv s.flags = true) : Settled (raiseFault k s) :=
  ⟨rfl, rfl, hf, rfl, by
    have := h.status
    simp only [statusInv, raiseFault_status, Bool.and_eq_true] at this ⊢
    exact ⟨⟨⟨by cases k <;> rfl, by cases k <;> rfl⟩, rfl⟩, this.2⟩, h.lines, h.direct, h.readThrough⟩

/-- An absent line is released (R98). -/
theorem linesInv_iff (c : Cfg) (l : Lines) : linesInv c l = true ↔
    (c.hasCs = false → l.cs = .released) ∧ (c.hasDc = false → l.dc = .released) ∧ (c.hasRst = false → l.rst = .released) := by
  unfold linesInv
  cases c.hasCs <;> cases c.hasDc <;> cases c.hasRst <;> simp [and_assoc]

theorem driveIf_released {present : Bool} {level old : LineLevel} (h : present = false → old = .released) :
    present = false → driveIf present level old = .released := by
  intro hp
  rw [driveIf, hp]
  exact h hp

theorem linesInv_driveByte {k : ByteKind} {b : Byte} {s : State} (h : linesInv s.cfg s.lines = true) :
    linesInv s.cfg (driveByte k b s).lines = true := by
  rw [linesInv_iff] at h ⊢
  exact ⟨driveIf_released h.1, driveIf_released h.2.1, h.2.2⟩

theorem linesInv_setRst {l : LineLevel} {s : State} (h : linesInv s.cfg s.lines = true) :
    linesInv s.cfg (setRst l s).lines = true := by
  rw [linesInv_iff] at h ⊢
  exact ⟨h.1, h.2.1, driveIf_released h.2.2⟩

theorem linesInv_configureLines {s : State} (h : linesInv s.cfg s.lines = true) :
    linesInv s.cfg (configureLines s).lines = true := by
  rw [linesInv_iff] at h ⊢
  exact ⟨driveIf_released h.1, driveIf_released h.2.1, driveIf_released h.2.2⟩

theorem statusInv_endWait {label : WaitLabel} {o : WaitOutcome} {s : State} (h : statusInv s.status = true) :
    statusInv (endWait label o s).status = true := by
  simp only [statusInv, Bool.and_eq_true] at h ⊢
  cases o
  · exact ⟨h.1, rfl⟩
  · exact ⟨h.1, rfl⟩

theorem Steady.endWait {label : WaitLabel} {o : WaitOutcome} {s : State} (h : Steady s) : Steady (endWait label o s) := by
  refine h.of_eq ?_ (statusInv_endWait h.status) ?_ ?_ ?_ <;> cases o
  all_goals first | exact h.ready | exact h.lines | rfl

/-- A transfer, where the lead is that of a transfer. -/
theorem transferNow_fits {b : ByteKind × Byte} {s : State} (h : Steady s) (hl : leadSend s.flags s.status.waiting ≠ .broken) :
    (transferNow b s).Fits (leadSend s.flags s.status.waiting) := by
  unfold leadSend at hl ⊢
  split at hl
  · next hf =>
    rw [if_pos hf]
    have hd : Steady (drawBus (driveByte b.1 b.2 s)).2 := h.of_eq h.ready h.status (linesInv_driveByte (k := b.1) (b := b.2) h.lines) rfl rfl
    unfold transferNow
    split
    · exact h.raised hf
    · next hh =>
      dsimp only
      split
      · exact hd.raised hf
      · exact ⟨⟨hd.ready, hd.status, hd.lines, hd.direct, hd.readThrough⟩, rfl⟩
  · exact absurd rfl hl

theorem transfer_fits {b : ByteKind × Byte} {s : State} (h : Steady s) (hl : leadSend s.flags s.status.waiting ≠ .broken) :
    (transfer b s).Fits (leadSend s.flags s.status.waiting) := by
  refine takeStep_fits (a := .send b) h fun u hu hf hw => ?_
  have := transferNow_fits (b := b) hu (by rw [hf, hw]; exact hl)
  rwa [hf, hw] at this

theorem endWait_fits (label : WaitLabel) (o : WaitOutcome) {s : State} (h : Steady s) :
    (Progress.going (endWait label o s)).Fits (.on s.flags false) := ⟨h.endWait, by simp⟩

theorem waitMs_fits {ms : Nat} {a : Act} {now : State → Progress} {s : State} (h : Steady s)
    (hn : (now s).Fits (leadAct s.flags s.status.waiting a)) : (waitMs ms a now s).Fits (leadAct s.flags s.status.waiting a) := by
  unfold waitMs
  split
  · exact hn
  · exact ⟨⟨h.ready, h.status, h.lines, h.direct, h.readThrough⟩, rfl⟩

theorem pollInterval_fits {label : WaitLabel} {n : Nat} {next : State → Progress} {s : State} (h : Steady s)
    (hn : ∀ u, Steady u → (next u).Fits (.on u.flags false)) : (pollInterval label n next s).Fits (.on s.flags false) := by
  refine takeStep_fits h fun u hu hf hw => ?_
  have hm := waitMs_fits (ms := 1) (a := .interval label n) hu (now := fun s =>
    let s := advanceClock (pollMicros s.cfg.busyTimeoutUs) s
    if pollExpired s then .going (endWait label .timeout s) else next s) ?_
  · rw [← hf, ← hw]
    exact hm
  · have ha : Steady (advanceClock (pollMicros u.cfg.busyTimeoutUs) u) := ⟨hu.ready, hu.status, hu.lines, hu.direct, hu.readThrough⟩
    dsimp only
    split
    · exact endWait_fits label .timeout ha
    · exact hn _ ha

/-- A poll loop ends its wait or is held in it. -/
theorem pollLoop_fits (label : WaitLabel) (n : Nat) {s : State} (h : Steady s) :
    (pollLoop label n s).Fits (.on s.flags false) := by
  induction n generalizing s with
  | zero =>
    refine takeStep_fits (a := .sample label 0) h fun u hu hf _ => ?_
    rw [← hf]
    exact endWait_fits label .timeout hu
  | succ n ih =>
    refine takeStep_fits (a := .sample label (n + 1)) h fun u hu hf _ => ?_
    have hb : Steady (readBusy u).2 := ⟨hu.ready, hu.status, hu.lines, hu.direct, hu.readThrough⟩
    rw [← hf]
    dsimp only
    split
    · exact endWait_fits label .released hb
    · exact pollInterval_fits hb fun v hv => ih hv

/-- One step of the engine runs as its lead foretells. -/
theorem runAct_fits (a : Act) {s : State} (h : Steady s) (hl : leadAct s.flags s.status.waiting a ≠ .broken) :
    (runAct a s).Fits (leadAct s.flags s.status.waiting a) := by
  have hold : ∀ (ms : Nat) (now : State → Progress) (u : State), Steady u → u.flags = s.flags →
      u.status.waiting = s.status.waiting → (now u).Fits (leadAct u.flags u.status.waiting a) →
      (waitMs ms a now u).Fits (leadAct s.flags s.status.waiting a) := by
    intro ms now u hu hf hw hn
    rw [← hf, ← hw]
    exact waitMs_fits hu hn
  cases a with
  | send b => exact transfer_fits h hl
  | stream space inv a =>
    refine takeStep_fits h fun u hu hf hw => ?_
    have hb : Steady (drawSource u).2 := ⟨hu.ready, hu.status, hu.lines, hu.direct, hu.readThrough⟩
    have hfi : flagsInv s.flags = true := by
      have hl' : leadSend s.flags s.status.waiting ≠ .broken := hl
      unfold leadSend at hl'
      split at hl'
      · assumption
      · exact absurd rfl hl'
    unfold streamNow
    dsimp only
    split
    · exact hb.raised (by rw [← hf] at hfi; exact hfi)
    · have := transfer_fits (b := (.data, applyInvert inv (engineByte space a (drawSource u).2))) hb
        (by rw [show (drawSource u).2.flags = s.flags from hf, show (drawSource u).2.status.waiting = s.status.waiting from hw]; exact hl)
      rwa [show (drawSource u).2.flags = s.flags from hf, show (drawSource u).2.status.waiting = s.status.waiting from hw] at this
  | setFlag n v => exact takeStep_fits h fun u hu hf hw =>
      ⟨⟨hu.ready, hu.status, hu.lines, hu.direct, hu.readThrough⟩, by rw [← hf, ← hw]; rfl⟩
  | initBegin => exact takeStep_fits h fun u hu hf hw =>
      ⟨⟨hu.ready, rfl, hu.lines, hu.direct, hu.readThrough⟩, by rw [← hf, ← hw]; rfl⟩
  | clearLastWait => exact takeStep_fits h fun u hu hf hw =>
      ⟨⟨hu.ready, by
        have := hu.status
        simp only [statusInv, Bool.and_eq_true] at this ⊢
        exact ⟨this.1, rfl⟩, hu.lines, hu.direct, hu.readThrough⟩, by rw [← hf, ← hw]; rfl⟩
  | lineSetup => exact takeStep_fits h fun u hu hf hw =>
      ⟨⟨hu.ready, hu.status, linesInv_configureLines hu.lines, hu.direct, hu.readThrough⟩, by rw [← hf, ← hw]; rfl⟩
  | busSetup => exact takeStep_fits h fun u hu hf hw =>
      ⟨⟨hu.ready, hu.status, hu.lines, hu.direct, hu.readThrough⟩, by rw [← hf, ← hw]; rfl⟩
  | resetLow => exact takeStep_fits h fun u hu hf hw =>
      ⟨⟨hu.ready, hu.status, linesInv_setRst hu.lines, hu.direct, hu.readThrough⟩, by rw [← hf, ← hw]; rfl⟩
  | resetPulse style ms =>
    refine takeStep_fits h fun u hu hf hw => hold ms _ u hu hf hw ?_
    exact ⟨⟨hu.ready, hu.status, linesInv_setRst hu.lines, hu.direct, hu.readThrough⟩, rfl⟩
  | delayBegin => exact takeStep_fits h fun u hu hf hw =>
      ⟨⟨hu.ready, hu.status, hu.lines, hu.direct, hu.readThrough⟩, by rw [← hf]; rfl⟩
  | delayEnd ms =>
    refine takeStep_fits h fun u hu hf hw => hold ms _ u hu hf hw ?_
    exact ⟨⟨hu.ready, hu.status, hu.lines, hu.direct, hu.readThrough⟩, rfl⟩
  | waitBegin => exact takeStep_fits h fun u hu hf hw =>
      ⟨⟨hu.ready, hu.status, hu.lines, hu.direct, hu.readThrough⟩, by rw [← hf]; rfl⟩
  | sample label n => exact pollLoop_fits label n h
  | interval label n => exact pollInterval_fits h fun u hu => pollLoop_fits label n hu
  | raise k =>
    refine takeStep_fits h fun u hu hf hw => ?_
    have hfi : flagsInv s.flags = true := by
      have hl' : leadEnd s.flags false ≠ .broken := hl
      unfold leadEnd at hl'
      split at hl'
      · simp_all
      · exact absurd rfl hl'
    exact hu.raised (by rw [hf]; exact hfi)
  | complete =>
    refine takeStep_fits h fun u hu hf hw => ?_
    have hfi : flagsInv s.flags = true ∧ s.status.waiting = false := by
      have hl' : leadEnd s.flags s.status.waiting ≠ .broken := hl
      unfold leadEnd at hl'
      split at hl'
      · simp_all
      · exact absurd rfl hl'
    exact ⟨rfl, hw.trans hfi.2, by rw [← hfi.1, ← hf]; rfl, rfl, hu.status, hu.lines, hu.direct, hu.readThrough⟩

/-- A program runs as its lead foretells: it ends settled, goes on with the flags and WAITING foretold, or is held where what is
left of it leads to the same. -/
theorem run_fits (p : Prog) {s : State} (h : Steady s) (hl : p.lead s.flags s.status.waiting ≠ .broken) :
    (p.run s).Fits (p.lead s.flags s.status.waiting) := by
  induction p generalizing s with
  | skip => exact ⟨h, rfl⟩
  | act a => exact runAct_fits a h hl
  | seq p q ihp ihq =>
    rw [run_seq]
    match hp : p.lead s.flags s.status.waiting with
    | .broken => simp [Prog.lead, hp] at hl
    | .over =>
      have := ihp h (by rw [hp]; simp)
      rw [hp] at this
      cases e : p.run s with
      | going t => rw [e] at this; exact absurd this.2 (by simp)
      | ended t => rw [e] at this; simpa [Prog.lead, hp] using this
      | held t =>
        rw [e] at this
        exact ⟨⟨this.1.ready, this.1.status, this.1.lines, this.1.direct, this.1.readThrough⟩,
          by simp only [Prog.lead, hp]; rw [show t.todo.lead t.flags t.status.waiting = .over from this.2]⟩
    | .on g w =>
      have := ihp h (by rw [hp]; simp)
      rw [hp] at this
      have hq : (Prog.seq p q).lead s.flags s.status.waiting = q.lead g w := by simp [Prog.lead, hp]
      rw [hq] at hl ⊢
      cases e : p.run s with
      | going t =>
        rw [e] at this
        obtain ⟨ht, he⟩ := this
        injection he with h1 h2
        subst h1 h2
        exact ihq ht hl
      | ended t => rw [e] at this; exact this
      | held t =>
        rw [e] at this
        exact ⟨⟨this.1.ready, this.1.status, this.1.lines, this.1.direct, this.1.readThrough⟩,
          by simp only [Prog.lead]; rw [show t.todo.lead t.flags t.status.waiting = .on g w from this.2]⟩
  | ifFlag n p q ihp ihq =>
    rw [run_ifFlag]
    unfold Prog.lead at hl ⊢
    split
    · next hn => rw [if_pos hn] at hl; exact ihp h hl
    · next hn => rw [if_neg hn] at hl; exact ihq h hl

/-- A program that leads to its end runs to it, or is held before it, with the invariant of the state. -/
theorem run_inv {p : Prog} {s : State} (h : Steady s) (ht : s.todo = .skip) (hl : p.lead s.flags s.status.waiting = .over) :
    (p.run s).state.Inv = true := by
  have hp := run_placed p ht
  have hf := run_fits p h (by rw [hl]; simp)
  rw [hl] at hf
  cases e : p.run s with
  | going t => rw [e] at hf; exact absurd hf.2 (by simp)
  | ended t => rw [e] at hf hp; exact hf.inv hp
  | held t => rw [e] at hf hp; exact hf.1.inv hp hf.2

end Sys2Proof.Machine
end

