-- ==== Sys2Proof/Laws/PerInstr.lean ====
section
/-!
SUPPORT. Families of facts about every request as syntax, one lemma per constructor. `ReservedClear`: the encoder leaves the
reserved bits of a descriptor 0 (R67, R70, R73(b)).
-/
namespace Sys2Proof.Laws.ReservedClear

/-- The descriptor of a request has no reserved bit set. -/
def Statement (i : Instr) : Prop := (encode i).reservedClear = true

/-- No image form's word 0 has a reserved bit set, and its word 7 is 0. -/
theorem imageDesc_clear {op : Byte} (b c : Word) (p : SubImage) (r : Rect) (f : ImageFlags) :
    (imageDesc op b c p r f).reservedClear = true := by
  have ho : (op.setWidth 32).extractLsb' 13 19 = 0 := by
    ext k hk
    simpa using fun _ => BitVec.getLsbD_of_ge op (13 + k) (by omega)
  have h8 : ∀ b, (flagBit 8 b).extractLsb' 13 19 = 0 := by decide
  have h9 : ∀ b, (flagBit 9 b).extractLsb' 13 19 = 0 := by decide
  have h10 : ∀ b, (flagBit 10 b).extractLsb' 13 19 = 0 := by decide
  have h : (imageWord op f).extractLsb' 13 19 = 0 := by
    simp only [imageWord, BitVec.extractLsb'_or, ho, h8, h9, h10]
    rfl
  simp [Desc.reservedClear, imageDesc, h]

theorem init (style : ResetStyle) : Statement (.init style) := by cases style <;> rfl

theorem powerOn : Statement (.powerOn) := rfl

theorem powerOff : Statement (.powerOff) := rfl

theorem hibernate : Statement (.hibernate) := rfl

theorem waitBusy : Statement (.waitBusy) := rfl

theorem writeScreenBuffer (fill : Byte) : Statement (.writeScreenBuffer fill) := by
  have h : (fill.setWidth 32).extractLsb' 8 24 = 0 := by
    ext k hk
    simp
  simp [Statement, encode, bareDesc, Desc.reservedClear, h]

theorem writeImage (base : Word) (r : Rect) (f : ImageFlags) : Statement (.writeImage base r f) := imageDesc_clear _ _ _ _ _

theorem writeImageAgain (base : Word) (r : Rect) (f : ImageFlags) : Statement (.writeImageAgain base r f) := imageDesc_clear _ _ _ _ _

theorem writeImagePart (base : Word) (p : SubImage) (r : Rect) (f : ImageFlags) : Statement (.writeImagePart base p r f) := imageDesc_clear _ _ _ _ _

theorem writeImagePartAgain (base : Word) (p : SubImage) (r : Rect) (f : ImageFlags) : Statement (.writeImagePartAgain base p r f) := imageDesc_clear _ _ _ _ _

theorem writeImageDual (base0 : Word) (base1 : Word) (r : Rect) (f : ImageFlags) : Statement (.writeImageDual base0 base1 r f) := imageDesc_clear _ _ _ _ _

theorem writeImagePartDual (base0 : Word) (base1 : Word) (p : SubImage) (r : Rect) (f : ImageFlags) : Statement (.writeImagePartDual base0 base1 p r f) := imageDesc_clear _ _ _ _ _

theorem refresh (isPartial : Bool) : Statement (.refresh isPartial) := by cases isPartial <;> rfl

theorem refreshRect (r : Rect) : Statement (.refreshRect r) := by
  simp [Statement, encode, bareDesc, Desc.reservedClear]

theorem drawImage (base : Word) (r : Rect) (f : ImageFlags) : Statement (.drawImage base r f) := imageDesc_clear _ _ _ _ _

theorem drawImagePart (base : Word) (p : SubImage) (r : Rect) (f : ImageFlags) : Statement (.drawImagePart base p r f) := imageDesc_clear _ _ _ _ _

theorem drawImageDual (base0 : Word) (base1 : Word) (r : Rect) (f : ImageFlags) : Statement (.drawImageDual base0 base1 r f) := imageDesc_clear _ _ _ _ _

theorem drawImagePartDual (base0 : Word) (base1 : Word) (p : SubImage) (r : Rect) (f : ImageFlags) : Statement (.drawImagePartDual base0 base1 p r f) := imageDesc_clear _ _ _ _ _

end Sys2Proof.Laws.ReservedClear
end

