-- ==== Sys2Proof/Laws/Silent.lean ====
section
/-!
SUPPORT. What steps do while the host is silent. `Runs` says that a program goes on, which events it appends and what it leaves;
`Falls` that it ends with a fault, and what is left then. Both compose, and every step of the engine has its lemma.
-/
namespace Sys2Proof.Machine

/-! ## Oracles -/

@[simp] theorem skip_zero {α : Type} (o : Oracle α) : o.skip 0 = o := rfl

theorem skip_skip {α : Type} (o : Oracle α) (m n : Nat) : (o.skip m).skip n = o.skip (m + n) := by
  simp [Oracle.skip, Nat.add_assoc]

theorem peek_skip {α : Type} (free : Nat → α) (o : Oracle α) (n k : Nat) :
    (o.skip n).peek free k = o.peek free (n + k) := by
  simp [Oracle.peek, Oracle.skip, Nat.add_assoc]

/-! ## The host's turn -/

theorem landMoves_silent {s : State} (h : hostSilent s = true) : landMoves s.inbox s = .going s := by
  unfold hostSilent at h
  split at h
  · next e => rw [e, landMoves, ← e]
  · next e => rw [e, landMoves, ← e]
  all_goals cases h

theorem hostTurn_silent {s : State} (h : hostSilent s = true) : hostTurn s = .going s := landMoves_silent h

/-- With a silent host a step of the engine is what it does. -/
theorem takeStep_silent {a : Act} {now : State → Progress} {s : State} (h : hostSilent s = true) : takeStep a now s = now s := by
  simp [takeStep, hostTurn_silent h]

/-- Silence depends on the host's moves alone. -/
theorem hostSilent_congr {s t : State} (h : t.inbox = s.inbox) : hostSilent t = hostSilent s := by
  simp [hostSilent, h]

theorem byteAt_congr {space : Space} {a : Word} {s t : State} (hd : t.direct = s.direct) (hr : t.readThrough = s.readThrough) :
    byteAt space a t = byteAt space a s := by
  cases space <;> simp [byteAt, memOf, hd, hr]

/-- A byte the host has not raced is the memory's. -/
theorem engineByte_calm {space : Space} {a : Word} {s : State} (h : s.seen = []) : engineByte space a s = byteAt space a s := by
  simp [engineByte, h]

theorem waitMs_runs {ms : Nat} {a : Act} {now : State → Progress} {s : State} (h : s.env.timeRuns = true) :
    waitMs ms a now s = now s := by simp [waitMs, h]

/-! ## The frame of a run -/

/-- A state in which a request runs undisturbed: the host is silent, time runs, no wait is open, no byte is raced. -/
structure Calm (s : State) : Prop where
  silent : hostSilent s = true
  time : s.env.timeRuns = true
  waiting : s.status.waiting = false
  seen : s.seen = []

/-- What no step changes while the host is silent. -/
structure Same (s t : State) : Prop where
  cfg : t.cfg = s.cfg
  req : t.req = s.req
  shadow : t.shadow = s.shadow
  direct : t.direct = s.direct
  readThrough : t.readThrough = s.readThrough
  inbox : t.inbox = s.inbox
  replies : t.replies = s.replies

theorem Same.refl (s : State) : Same s s := ⟨rfl, rfl, rfl, rfl, rfl, rfl, rfl⟩

theorem Same.trans {s t u : State} (h : Same s t) (k : Same t u) : Same s u :=
  ⟨k.cfg.trans h.cfg, k.req.trans h.req, k.shadow.trans h.shadow, k.direct.trans h.direct, k.readThrough.trans h.readThrough,
    k.inbox.trans h.inbox, k.replies.trans h.replies⟩

theorem Same.byteAt {s t : State} (h : Same s t) (space : Space) (a : Word) : byteAt space a t = byteAt space a s :=
  byteAt_congr h.direct h.readThrough

theorem Same.hostSideKept {s t : State} (h : Same s t) : hostSideKept s t :=
  ⟨h.cfg, h.req, h.shadow, h.inbox, h.replies, h.byteAt⟩

@[simp] theorem driveIf_driveIf (p : Bool) (a b x : LineLevel) : driveIf p a (driveIf p b x) = driveIf p a x := by
  cases p <;> rfl

/-- The lines are as they were, or idle after a transfer. -/
def LinesStill (s t : State) : Prop := t.lines = s.lines ∨ linesIdle s t

theorem LinesStill.refl (s : State) : LinesStill s s := .inl rfl

theorem LinesStill.trans {s t u : State} (hc : t.cfg = s.cfg) (h1 : LinesStill s t) (h2 : LinesStill t u) : LinesStill s u := by
  unfold LinesStill linesIdle at *
  obtain h2 | h2 := h2
  · obtain h1 | h1 := h1
    · exact .inl (h2.trans h1)
    · exact .inr (h2.trans h1)
  · obtain h1 | h1 := h1
    · exact .inr (by rw [h2, h1, hc])
    · exact .inr (by rw [h2, h1, hc]; simp)

theorem wireFrame_still {k : ByteKind} {b : Byte} {s t : State} (hc : t.cfg = s.cfg) (h : LinesStill s t) :
    wireFrame k b t = wireFrame k b s := by
  obtain h | h := h
  · simp [wireFrame, hc, h]
  · unfold linesIdle at h
    simp [wireFrame, hc, h]

theorem wireOf_still {evs : List Event} {s t : State} (hc : t.cfg = s.cfg) (h : LinesStill s t) : wireOf evs t = wireOf evs s := by
  unfold wireOf
  congr 1
  funext e
  cases e <;> simp [wireFrame_still hc h]

theorem wireOf_append (as bs : List Event) (s : State) : wireOf (as ++ bs) s = wireOf as s ++ wireOf bs s := by
  simp [wireOf]

theorem busBytes_append (as bs : List Event) : busBytes (as ++ bs) = busBytes as ++ busBytes bs := by
  simp [busBytes]

/-- What steps leave when they go on: the events appended, the flags, STATUS, the number of bitmap reads; everything else as it
was, but T0 and the clock. -/
structure Ran (evs : List Event) (f : Flags) (st : Status) (ns : Nat) (s t : State) : Prop extends Same s t where
  status : t.status = st
  flags : t.flags = f
  todo : t.todo = s.todo
  log : t.log = s.log ++ evs
  wire : t.wire = s.wire ++ wireOf evs s
  seen : t.seen = s.seen
  faultRecord : t.faultRecord = s.faultRecord
  lines : LinesStill s t
  bus : t.env.bus = s.env.bus.skip (busBytes evs).length
  source : t.env.source = s.env.source.skip ns
  timeRuns : t.env.timeRuns = s.env.timeRuns

theorem Ran.trans {e1 e2 : List Event} {f1 f2 : Flags} {st1 st2 : Status} {n1 n2 : Nat} {s t u : State}
    (h1 : Ran e1 f1 st1 n1 s t) (h2 : Ran e2 f2 st2 n2 t u) : Ran (e1 ++ e2) f2 st2 (n1 + n2) s u where
  toSame := h1.toSame.trans h2.toSame
  status := h2.status
  flags := h2.flags
  todo := h2.todo.trans h1.todo
  log := by rw [h2.log, h1.log, List.append_assoc]
  wire := by rw [h2.wire, h1.wire, List.append_assoc, wireOf_append, wireOf_still h1.cfg h1.lines]
  seen := h2.seen.trans h1.seen
  faultRecord := h2.faultRecord.trans h1.faultRecord
  lines := h1.lines.trans h1.cfg h2.lines
  bus := by rw [h2.bus, h1.bus, skip_skip, busBytes_append, List.length_append]
  source := by rw [h2.source, h1.source, skip_skip]
  timeRuns := h2.timeRuns.trans h1.timeRuns

theorem Ran.calm {evs : List Event} {f : Flags} {st : Status} {ns : Nat} {s t : State} (h : Ran evs f st ns s t) (hc : Calm s)
    (hw : st.waiting = false) : Calm t where
  silent := by rw [← hc.silent]; exact hostSilent_congr h.inbox
  time := h.timeRuns.trans hc.time
  waiting := by rw [h.status]; exact hw
  seen := h.seen.trans hc.seen

/-- Nothing but the flags and STATUS. -/
theorem Ran.ofFlags {f : Flags} {st : Status} {s t : State} (h : t = { s with flags := f, status := st }) : Ran [] f st 0 s t := by
  subst h
  exact ⟨⟨rfl, rfl, rfl, rfl, rfl, rfl, rfl⟩, rfl, rfl, rfl, by simp, by simp [wireOf], rfl, rfl, .inl rfl, rfl, rfl, rfl⟩

theorem Ran.congr {e1 e2 : List Event} {f1 f2 : Flags} {st1 st2 : Status} {n1 n2 : Nat} {s t : State}
    (h : Ran e1 f1 st1 n1 s t) (he : e1 = e2) (hf : f1 = f2) (hst : st1 = st2) (hn : n1 = n2) : Ran e2 f2 st2 n2 s t := by
  subst he; subst hf; subst hst; subst hn; exact h

/-- The program goes on and leaves what `Ran` says. -/
def Runs (evs : List Event) (f : Flags) (st : Status) (ns : Nat) (p : Prog) (s : State) : Prop :=
  ∃ t, p.run s = .going t ∧ Ran evs f st ns s t

theorem Runs.skip (s : State) : Runs [] s.flags s.status 0 .skip s := ⟨s, rfl, Ran.ofFlags rfl⟩

theorem Runs.congr {e1 e2 : List Event} {f1 f2 : Flags} {st1 st2 : Status} {n1 n2 : Nat} {p : Prog} {s : State}
    (h : Runs e1 f1 st1 n1 p s) (he : e1 = e2) (hf : f1 = f2) (hst : st1 = st2) (hn : n1 = n2) :
    Runs e2 f2 st2 n2 p s := by
  subst he; subst hf; subst hst; subst hn; exact h

/-- One program after another, from what the first left. -/
theorem Runs.seq {e1 e2 : List Event} {f1 f2 : Flags} {st1 st2 : Status} {n1 n2 : Nat} {p q : Prog} {s t : State}
    (hp : p.run s = .going t) (h1 : Ran e1 f1 st1 n1 s t) (h2 : Runs e2 f2 st2 n2 q t) :
    Runs (e1 ++ e2) f2 st2 (n1 + n2) (.seq p q) s := by
  obtain ⟨u, hu, hr⟩ := h2
  exact ⟨u, by rw [run_seq, hp, andThen_going]; exact hu, h1.trans hr⟩

/-- One program after another that runs from every state the first can leave. -/
theorem Runs.then {e1 e2 : List Event} {f1 f2 : Flags} {st1 st2 : Status} {n1 n2 : Nat} {p q : Prog} {s : State}
    (h1 : Runs e1 f1 st1 n1 p s) (h2 : ∀ t, Ran e1 f1 st1 n1 s t → Runs e2 f2 st2 n2 q t) :
    Runs (e1 ++ e2) f2 st2 (n1 + n2) (.seq p q) s := by
  obtain ⟨t, ht, hr⟩ := h1
  exact Runs.seq ht hr (h2 t hr)

/-- A program and nothing after it. -/
theorem Runs.last {evs : List Event} {f : Flags} {st : Status} {n : Nat} {p : Prog} {s : State} (h : Runs evs f st n p s) :
    Runs evs f st n (.seq p .skip) s :=
  (h.then fun t ht => Runs.skip t |>.congr rfl ht.flags ht.status rfl).congr (by simp) rfl rfl rfl

theorem Runs.ifTrue (name : FlagName) {evs : List Event} {f : Flags} {st : Status} {n : Nat} {p q : Prog} {s : State}
    (hf : s.flags.get name = true) (h : Runs evs f st n p s) : Runs evs f st n (.ifFlag name p q) s := by
  obtain ⟨t, ht, hr⟩ := h
  exact ⟨t, by rw [run_ifFlag, if_pos hf]; exact ht, hr⟩

theorem Runs.ifFalse (name : FlagName) {evs : List Event} {f : Flags} {st : Status} {n : Nat} {p q : Prog} {s : State}
    (hf : s.flags.get name = false) (h : Runs evs f st n q s) : Runs evs f st n (.ifFlag name p q) s := by
  obtain ⟨t, ht, hr⟩ := h
  exact ⟨t, by rw [run_ifFlag, if_neg (by simp [hf])]; exact ht, hr⟩

/-! ## Programs that end with a fault -/

/-- What a fault leaves: the events appended before it, the events whose bytes were driven, the flags and STATUS it found, and
its entry in the record; the rest of the request is dropped. -/
structure Fell (k : FaultKind) (evs driven : List Event) (f : Flags) (st : Status) (s t : State) : Prop extends Same s t where
  flags : t.flags = f
  status : t.status = { st with ready := true, fault := true, waiting := false, faultCode := faultCodeOf k, faultOp := s.shadow.op }
  log : t.log = s.log ++ evs
  wire : t.wire = s.wire ++ wireOf driven s
  faultRecord : t.faultRecord = s.faultRecord ++ [{ kind := k, op := s.shadow.op }]
  lines : LinesStill s t
  todo : t.todo = .skip
  seen : t.seen = []

/-- The program ends with a fault and leaves what `Fell` says. -/
def Falls (k : FaultKind) (evs driven : List Event) (f : Flags) (st : Status) (p : Prog) (s : State) : Prop :=
  ∃ t, p.run s = .ended t ∧ Fell k evs driven f st s t

theorem Fell.after {k : FaultKind} {e1 e2 driven : List Event} {f1 f2 : Flags} {st1 st2 : Status} {n : Nat} {s t u : State}
    (h1 : Ran e1 f1 st1 n s t) (h2 : Fell k e2 driven f2 st2 t u) : Fell k (e1 ++ e2) (e1 ++ driven) f2 st2 s u where
  toSame := h1.toSame.trans h2.toSame
  flags := h2.flags
  status := by rw [h2.status, h1.shadow]
  log := by rw [h2.log, h1.log, List.append_assoc]
  wire := by rw [h2.wire, h1.wire, List.append_assoc, wireOf_append, wireOf_still h1.cfg h1.lines]
  faultRecord := by rw [h2.faultRecord, h1.faultRecord, h1.shadow]
  lines := h1.lines.trans h1.cfg h2.lines
  todo := h2.todo
  seen := h2.seen

/-- The first program ends it. -/
theorem Falls.first {k : FaultKind} {evs driven : List Event} {f : Flags} {st : Status} {p q : Prog} {s : State}
    (h : Falls k evs driven f st p s) : Falls k evs driven f st (.seq p q) s := by
  obtain ⟨t, ht, hr⟩ := h
  exact ⟨t, by rw [run_seq, ht, andThen_ended], hr⟩

/-- The second program ends it. -/
theorem Falls.second {k : FaultKind} {e1 e2 driven : List Event} {f1 f2 : Flags} {st1 st2 : Status} {n : Nat} {p q : Prog}
    {s : State} (h1 : Runs e1 f1 st1 n p s) (h2 : ∀ t, Ran e1 f1 st1 n s t → Falls k e2 driven f2 st2 q t) :
    Falls k (e1 ++ e2) (e1 ++ driven) f2 st2 (.seq p q) s := by
  obtain ⟨t, ht, hr⟩ := h1
  obtain ⟨u, hu, hf⟩ := h2 t hr
  exact ⟨u, by rw [run_seq, ht, andThen_going]; exact hu, hf.after hr⟩

theorem Falls.congr {k : FaultKind} {e1 e2 d1 d2 : List Event} {f1 f2 : Flags} {st1 st2 : Status} {p : Prog} {s : State}
    (h : Falls k e1 d1 f1 st1 p s) (he : e1 = e2) (hd : d1 = d2) (hf : f1 = f2) (hst : st1 = st2) :
    Falls k e2 d2 f2 st2 p s := by
  subst he; subst hd; subst hf; subst hst; exact h

theorem Falls.ifTrue (name : FlagName) {k : FaultKind} {evs driven : List Event} {f : Flags} {st : Status} {p q : Prog}
    {s : State} (hf : s.flags.get name = true) (h : Falls k evs driven f st p s) :
    Falls k evs driven f st (.ifFlag name p q) s := by
  obtain ⟨t, ht, hr⟩ := h
  exact ⟨t, by rw [run_ifFlag, if_pos hf]; exact ht, hr⟩

theorem Falls.ifFalse (name : FlagName) {k : FaultKind} {evs driven : List Event} {f : Flags} {st : Status} {p q : Prog}
    {s : State} (hf : s.flags.get name = false) (h : Falls k evs driven f st q s) :
    Falls k evs driven f st (.ifFlag name p q) s := by
  obtain ⟨t, ht, hr⟩ := h
  exact ⟨t, by rw [run_ifFlag, if_neg (by simp [hf])]; exact ht, hr⟩

/-! ## Single steps -/

theorem transfer_silent {b : ByteKind × Byte} {s : State} (h : hostSilent s = true) (hh : s.flags.hibernating = false)
    (hb : s.env.bus.peek Config.freeBusFailure 0 = false) :
    transfer b s = .going (emit (byteEvent b) (drawBus (driveByte b.1 b.2 s)).2) := by
  have hd : (drawBus (driveByte b.1 b.2 s)).1 = false := hb
  rw [transfer, takeStep_silent h, transferNow]
  simp [hh, hd]

theorem transfer_bus_fails {b : ByteKind × Byte} {s : State} (h : hostSilent s = true) (hh : s.flags.hibernating = false)
    (hb : s.env.bus.peek Config.freeBusFailure 0 = true) :
    transfer b s = .ended (raiseFault .busError (drawBus (driveByte b.1 b.2 s)).2) := by
  have hd : (drawBus (driveByte b.1 b.2 s)).1 = true := hb
  rw [transfer, takeStep_silent h, transferNow]
  simp [hh, hd]

theorem transfer_hibernating {b : ByteKind × Byte} {s : State} (h : hostSilent s = true) (hh : s.flags.hibernating = true) :
    transfer b s = .ended (raiseFault .hibernatingAccess s) := by
  rw [transfer, takeStep_silent h, transferNow]
  simp [hh]

theorem wireOf_byteEvent (b : ByteKind × Byte) (s : State) : wireOf [byteEvent b] s = [wireFrame b.1 b.2 s] := by
  obtain ⟨k, b⟩ := b
  cases k <;> rfl

theorem busBytes_byteEvent (b : ByteKind × Byte) : busBytes [byteEvent b] = [byteEvent b] := by
  obtain ⟨k, b⟩ := b
  cases k <;> rfl

/-- One byte, sent. -/
theorem sent_ran (b : ByteKind × Byte) (s : State) :
    Ran [byteEvent b] s.flags s.status 0 s (emit (byteEvent b) (drawBus (driveByte b.1 b.2 s)).2) where
  cfg := rfl
  req := rfl
  shadow := rfl
  direct := rfl
  readThrough := rfl
  inbox := rfl
  replies := rfl
  status := rfl
  flags := rfl
  todo := rfl
  log := rfl
  wire := by rw [wireOf_byteEvent]; rfl
  seen := rfl
  faultRecord := rfl
  lines := .inr rfl
  bus := by rw [busBytes_byteEvent]; rfl
  source := rfl
  timeRuns := rfl

theorem send_runs {b : ByteKind × Byte} {s : State} (h : hostSilent s = true) (hh : s.flags.hibernating = false)
    (hb : s.env.bus.peek Config.freeBusFailure 0 = false) :
    Runs [byteEvent b] s.flags s.status 0 (.act (.send b)) s := ⟨_, transfer_silent h hh hb, sent_ran b s⟩

theorem send_falls_bus {b : ByteKind × Byte} {s : State} (h : hostSilent s = true) (hh : s.flags.hibernating = false)
    (hb : s.env.bus.peek Config.freeBusFailure 0 = true) :
    Falls .busError [] [byteEvent b] s.flags s.status (.act (.send b)) s :=
  ⟨_, transfer_bus_fails h hh hb, ⟨rfl, rfl, rfl, rfl, rfl, rfl, rfl⟩, rfl, rfl, by simp, by rw [wireOf_byteEvent]; rfl, rfl,
    .inr rfl, rfl, rfl⟩

theorem send_falls_asleep {b : ByteKind × Byte} {s : State} (h : hostSilent s = true) (hh : s.flags.hibernating = true) :
    Falls .hibernatingAccess [] [] s.flags s.status (.act (.send b)) s :=
  ⟨_, transfer_hibernating h hh, ⟨rfl, rfl, rfl, rfl, rfl, rfl, rfl⟩, rfl, rfl, by simp, by simp [wireOf], rfl, .inl rfl, rfl, rfl⟩

theorem streamNow_ok {space : Space} {inv : Bool} {a : Word} {s : State}
    (hs : s.env.source.peek Config.freeSourceError 0 = false) :
    streamNow space inv a s = transfer (.data, applyInvert inv (engineByte space a s)) (drawSource s).2 := by
  have hd : (drawSource s).1 = false := hs
  rw [streamNow]
  simp only [hd, Bool.false_eq_true, if_false]
  rfl

theorem streamNow_fails {space : Space} {inv : Bool} {a : Word} {s : State}
    (hs : s.env.source.peek Config.freeSourceError 0 = true) :
    streamNow space inv a s = .ended (raiseFault .sourceError (drawSource s).2) := by
  have hd : (drawSource s).1 = true := hs
  rw [streamNow]
  simp [hd]

/-- One bitmap byte, read and sent. -/
theorem stream_runs {space : Space} {inv : Bool} {a : Word} {s : State} (h : hostSilent s = true)
    (hh : s.flags.hibernating = false) (hs : s.env.source.peek Config.freeSourceError 0 = false)
    (hb : s.env.bus.peek Config.freeBusFailure 0 = false) :
    Runs [.data (applyInvert inv (engineByte space a s))] s.flags s.status 1 (.act (.stream space inv a)) s := by
  have h1 : hostSilent (drawSource s).2 = true := by rw [← h]; exact hostSilent_congr rfl
  have r := sent_ran (.data, applyInvert inv (engineByte space a s)) (drawSource s).2
  refine ⟨_, ?_, ⟨⟨r.cfg, r.req, r.shadow, r.direct, r.readThrough, r.inbox, r.replies⟩, r.status, r.flags, r.todo, r.log, r.wire,
    r.seen, r.faultRecord, r.lines, r.bus, r.source, r.timeRuns⟩⟩
  rw [run_act, runAct, takeStep_silent h, streamNow_ok hs]
  exact transfer_silent h1 hh hb

theorem stream_falls {space : Space} {inv : Bool} {a : Word} {s : State} (h : hostSilent s = true)
    (hs : s.env.source.peek Config.freeSourceError 0 = true) :
    Falls .sourceError [] [] s.flags s.status (.act (.stream space inv a)) s := by
  refine ⟨raiseFault .sourceError (drawSource s).2, ?_, ⟨rfl, rfl, rfl, rfl, rfl, rfl, rfl⟩, rfl, rfl, by simp, by simp [wireOf], rfl,
    .inl rfl, rfl, rfl⟩
  rw [run_act, runAct, takeStep_silent h, streamNow_fails hs]

theorem setFlag_runs {n : FlagName} {v : Bool} {s : State} (h : hostSilent s = true) :
    Runs [] (s.flags.set n v) s.status 0 (.act (.setFlag n v)) s :=
  ⟨setFlag n v s, by rw [run_act, runAct, takeStep_silent h], Ran.ofFlags rfl⟩

theorem clearLastWait_runs {s : State} (h : hostSilent s = true) :
    Runs [] s.flags { s.status with lastWaitTimeout := false } 0 (.act .clearLastWait) s :=
  ⟨clearLastWait s, by rw [run_act, runAct, takeStep_silent h], Ran.ofFlags rfl⟩

theorem initBegin_runs {s : State} (h : hostSilent s = true) :
    Runs [] { s.flags with initDone := true } (clearSticky s).status 0 (.act .initBegin) s :=
  ⟨initBegin s, by rw [run_act, runAct, takeStep_silent h], Ran.ofFlags rfl⟩

end Sys2Proof.Machine
end

