-- ==== Sys2Proof/Laws/Runs.lean ====
section
/-!
SUPPORT. What the transport's routines do while the host is silent: each goes on and leaves what `Runs` says when nothing fails,
and a list of bytes or of bitmap reads ends with `Falls` at the first that fails.
-/
namespace Sys2Proof.Machine

/-! ## What the bus must allow -/

theorem busOk_left {as bs : List Event} {s : State} (h : busOk (busBytes (as ++ bs)).length s) : busOk (busBytes as).length s := by
  intro k hk
  exact h k (by rw [busBytes_append, List.length_append]; omega)

theorem busOk_right {as bs : List Event} {f : Flags} {st : Status} {ns : Nat} {s t : State}
    (h : busOk (busBytes (as ++ bs)).length s) (hr : Ran as f st ns s t) : busOk (busBytes bs).length t := by
  intro k hk
  rw [hr.bus, peek_skip]
  exact h _ (by rw [busBytes_append, List.length_append]; omega)

theorem sourceOk_left {m n : Nat} {s : State} (h : sourceOk (m + n) s) : sourceOk m s := fun k hk => h k (by omega)

theorem sourceOk_right {m n : Nat} {evs : List Event} {f : Flags} {st : Status} {s t : State} (h : sourceOk (m + n) s)
    (hr : Ran evs f st m s t) : sourceOk n t := by
  intro k hk
  rw [hr.source, peek_skip]
  exact h _ (by omega)

theorem busBytes_eventsOf (bs : List (ByteKind × Byte)) : busBytes (eventsOf bs) = eventsOf bs := by
  induction bs with
  | nil => rfl
  | cons b rest ih =>
    obtain ⟨k, b⟩ := b
    have e : ∀ e : Event, isByteEvent e = true → busBytes (e :: eventsOf rest) = e :: eventsOf rest := by
      intro e he
      rw [busBytes, List.filter_cons_of_pos he]
      exact congrArg _ ih
    cases k
    · exact e (.cmd b) rfl
    · exact e (.data b) rfl

theorem busBytes_eventsOf_length (bs : List (ByteKind × Byte)) : (busBytes (eventsOf bs)).length = bs.length := by
  rw [busBytes_eventsOf, eventsOf, List.length_map]

theorem busBytes_data (bs : List Byte) : busBytes (bs.map Event.data) = bs.map Event.data := by
  simp [busBytes, isByteEvent]

theorem busBytes_delay (ms : Nat) : busBytes (delayEvents ms) = [] := by
  unfold delayEvents
  split <;> rfl

theorem busBytes_wait (c : Cfg) (label : WaitLabel) (ms : Nat) (o : WaitOutcome) : busBytes (waitEvents c label ms o) = [] := by
  unfold waitEvents
  split
  · rfl
  · exact busBytes_delay ms

theorem wireOf_eventsOf (bs : List (ByteKind × Byte)) (s : State) :
    wireOf (eventsOf bs) s = bs.map fun b => wireFrame b.1 b.2 s := by
  induction bs with
  | nil => rfl
  | cons b rest ih =>
    obtain ⟨k, b⟩ := b
    cases k <;> simp_all [wireOf, eventsOf, byteEvent]

theorem wireOf_delay (ms : Nat) (s : State) : wireOf (delayEvents ms) s = [] := by
  unfold delayEvents
  split <;> rfl

theorem wireOf_wait (c : Cfg) (label : WaitLabel) (ms : Nat) (o : WaitOutcome) (s : State) :
    wireOf (waitEvents c label ms o) s = [] := by
  unfold waitEvents
  split
  · rfl
  · exact wireOf_delay ms s

/-! ## Lists of transfers -/

theorem busOk_head {n : Nat} {s : State} (h : busOk (n + 1) s) : s.env.bus.peek Config.freeBusFailure 0 = false := h 0 (by omega)

theorem sendBytes_cons (b : ByteKind × Byte) (bs : List (ByteKind × Byte)) :
    sendBytes (b :: bs) = .seq (.act (.send b)) (sendBytes bs) := rfl

theorem streamBytes_cons (space : Space) (inv : Bool) (a : Word) (addrs : List Word) :
    streamBytes space inv (a :: addrs) = .seq (.act (.stream space inv a)) (streamBytes space inv addrs) := rfl

theorem sendBytes_runs {bs : List (ByteKind × Byte)} {s : State} (hc : Calm s) (hh : s.flags.hibernating = false)
    (hb : busOk (busBytes (eventsOf bs)).length s) : Runs (eventsOf bs) s.flags s.status 0 (sendBytes bs) s := by
  induction bs generalizing s with
  | nil => exact Runs.skip s
  | cons b rest ih =>
    have hb' : busOk (busBytes ([byteEvent b] ++ eventsOf rest)).length s := hb
    have h0 : s.env.bus.peek Config.freeBusFailure 0 = false := by
      rw [busBytes_eventsOf_length] at hb
      exact busOk_head hb
    refine Runs.then (n2 := 0) (send_runs hc.silent hh h0) fun t ht => ?_
    have h := ih (ht.calm hc hc.waiting) (by rw [ht.flags]; exact hh) (busOk_right hb' ht)
    rwa [ht.flags, ht.status] at h

/-- The first transfer that fails ends the list: what was sent before it stays, and the failing byte was driven (R89, R166). -/
theorem sendBytes_falls {bs : List (ByteKind × Byte)} {n : Nat} {s : State} (hc : Calm s) (hh : s.flags.hibernating = false)
    (hn : n < bs.length) (hb : busOk n s) (hf : s.env.bus.peek Config.freeBusFailure n = true) :
    Falls .busError (eventsOf (bs.take n)) (eventsOf (bs.take (n + 1))) s.flags s.status (sendBytes bs) s := by
  induction n generalizing bs s with
  | zero =>
    cases bs with
    | nil => simp at hn
    | cons b rest => exact (Falls.first (send_falls_bus hc.silent hh hf)).congr rfl rfl rfl rfl
  | succ n ih =>
    cases bs with
    | nil => simp at hn
    | cons b rest =>
      refine (Falls.second (send_runs hc.silent hh (busOk_head hb)) fun t ht => ?_).congr (e1 := [byteEvent b] ++ eventsOf (rest.take n))
        (d1 := [byteEvent b] ++ eventsOf (rest.take (n + 1))) rfl rfl rfl rfl
      have hbus : t.env.bus = s.env.bus.skip 1 := by rw [ht.bus, busBytes_byteEvent]; rfl
      have h := @ih rest t (ht.calm hc hc.waiting) (by rw [ht.flags]; exact hh) (by simpa using hn)
        (fun k hk => by rw [hbus, peek_skip]; exact hb _ (by omega))
        (by rw [hbus, peek_skip, Nat.add_comm]; exact hf)
      rwa [ht.flags, ht.status] at h

theorem streamBytes_runs {space : Space} {inv : Bool} {addrs : List Word} {s : State} (hc : Calm s)
    (hh : s.flags.hibernating = false) (hs : sourceOk addrs.length s) (hb : busOk addrs.length s) :
    Runs ((addrs.map fun a => applyInvert inv (byteAt space a s)).map Event.data) s.flags s.status addrs.length
      (streamBytes space inv addrs) s := by
  induction addrs generalizing s with
  | nil => exact Runs.skip s
  | cons a rest ih =>
    have h1 := stream_runs (space := space) (inv := inv) (a := a) hc.silent hh (hs 0 (by simp)) (hb 0 (by simp))
    rw [engineByte_calm hc.seen] at h1
    refine (Runs.then (e2 := (rest.map fun a => applyInvert inv (byteAt space a s)).map Event.data) (n2 := rest.length) h1
      fun t ht => ?_).congr rfl rfl rfl (by simp [Nat.add_comm])
    have h := @ih t (ht.calm hc hc.waiting) (by rw [ht.flags]; exact hh)
      (fun k hk => by rw [ht.source, peek_skip]; exact hs _ (by simp; omega))
      (fun k hk => by
        have : t.env.bus = s.env.bus.skip 1 := ht.bus
        rw [this, peek_skip]; exact hb _ (by simp; omega))
    simp only [ht.byteAt] at h
    rwa [ht.flags, ht.status] at h

/-- The first bitmap read that fails ends the stream: what was sent before it stays (R135, R176). -/
theorem streamBytes_falls {space : Space} {inv : Bool} {addrs : List Word} {n : Nat} {s : State} (hc : Calm s)
    (hh : s.flags.hibernating = false) (hn : n < addrs.length) (hs : sourceOk n s) (hb : busOk n s)
    (hf : s.env.source.peek Config.freeSourceError n = true) :
    let evs := ((addrs.take n).map fun a => applyInvert inv (byteAt space a s)).map Event.data
    Falls .sourceError evs evs s.flags s.status (streamBytes space inv addrs) s := by
  induction n generalizing addrs s with
  | zero =>
    cases addrs with
    | nil => simp at hn
    | cons a rest => exact Falls.first (stream_falls hc.silent hf)
  | succ n ih =>
    cases addrs with
    | nil => simp at hn
    | cons a rest =>
      have h1 := stream_runs (space := space) (inv := inv) (a := a) hc.silent hh (hs 0 (by omega)) (hb 0 (by omega))
      rw [engineByte_calm hc.seen] at h1
      let more := ((rest.take n).map fun a => applyInvert inv (byteAt space a s)).map Event.data
      refine Falls.second (e2 := more) (driven := more) h1 fun t ht => ?_
      have h := @ih rest t (ht.calm hc hc.waiting) (by rw [ht.flags]; exact hh) (by simpa using hn)
        (fun k hk => by rw [ht.source, peek_skip]; exact hs _ (by omega))
        (fun k hk => by
          have : t.env.bus = s.env.bus.skip 1 := ht.bus
          rw [this, peek_skip]; exact hb _ (by omega))
        (by rw [ht.source, peek_skip, Nat.add_comm]; exact hf)
      simp only [ht.byteAt] at h
      rwa [ht.flags, ht.status] at h

/-! ## Delays and waits -/

theorem setWaiting_same {s : State} (h : s.status.waiting = false) : ({ s.status with waiting := false } : Status) = s.status := by
  rw [← h]

theorem delay_runs {ms : Nat} {s : State} (hc : Calm s) : Runs (delayEvents ms) s.flags s.status 0 (delay ms) s := by
  unfold delay delayEvents
  split
  · exact Runs.skip s
  · refine ⟨setWaiting false (emit (.delay ms) (setWaiting true s)), ?_, ⟨⟨rfl, rfl, rfl, rfl, rfl, rfl, rfl⟩,
      setWaiting_same hc.waiting, rfl, rfl, rfl, by simp [wireOf], rfl, rfl, .inl rfl, rfl, rfl, rfl⟩⟩
    have h1 : hostSilent (setWaiting true s) = true := by rw [← hc.silent]; exact hostSilent_congr rfl
    simp [run_seq, runAct, takeStep_silent hc.silent, takeStep_silent h1, delayNow,
      waitMs_runs (s := setWaiting true s) hc.time]

/-- What a busy poll leaves: its event and STATUS; T0, the clock and the draws aside, everything else as it was. -/
theorem endWait_ran {label : WaitLabel} {o : WaitOutcome} {st : Status} {s t u : State} (hb : s.cfg.hasBusy = true)
    (h : Ran [] s.flags st 0 s t) (hst : ∀ o, waitStatus s.cfg o st = waitStatus s.cfg o s.status) (hu : u = endWait label o t) :
    Ran [.busy label o] s.flags (waitStatus s.cfg o s.status) 0 s u := by
  have r : Ran [.busy label o] t.flags (waitStatus s.cfg o st) 0 t u := by
    subst hu
    rw [← h.status]
    cases o <;>
      exact ⟨⟨rfl, rfl, rfl, rfl, rfl, rfl, rfl⟩, by simp [endWait, waitStatus, hb], rfl, rfl, rfl, by simp [wireOf], rfl, rfl,
        .inl rfl, rfl, rfl, rfl⟩
  exact (h.trans r).congr rfl h.flags (hst o) rfl

/-- The comparison of the poll loop is strict and on the elapsed time modulo 2^32 (R95(b), (c)). -/
theorem pollExpired_iff (s : State) :
    pollExpired s = true ↔ (s.cfg.busyTimeoutUs.toNat : Int) < ((s.env.clock.toNat : Int) - s.t0.toNat) % 2 ^ 32 := by
  simp only [pollExpired, decide_eq_true_eq, BitVec.lt_def, BitVec.toNat_sub]
  have := s.env.clock.isLt
  have := s.t0.isLt
  omega

/-- A sample while the host is silent: the line is read, and either the wait ends or a poll interval follows (R95(a)). -/
theorem sample_silent {label : WaitLabel} {n : Nat} {s : State} (h : hostSilent s = true) :
    (Prog.act (.sample label (n + 1))).run s
      = if (readBusy s).1 ≠ s.cfg.busyLevel then .going (endWait label .released (readBusy s).2)
        else (Prog.act (.interval label n)).run (readBusy s).2 := by
  rw [run_act, run_act, runAct, runAct, pollLoop, takeStep_silent h]
  rfl

/-- A poll interval while the host is silent and time runs: the count moves on, and either the wait ends or a sample follows
(R95(b)). -/
theorem interval_silent {label : WaitLabel} {n : Nat} {s : State} (h : hostSilent s = true) (ht : s.env.timeRuns = true) :
    (Prog.act (.interval label n)).run s
      = if pollExpired (advanceClock (pollMicros s.cfg.busyTimeoutUs) s) then
          .going (endWait label .timeout (advanceClock (pollMicros s.cfg.busyTimeoutUs) s))
        else (Prog.act (.sample label n)).run (advanceClock (pollMicros s.cfg.busyTimeoutUs) s) := by
  rw [run_act, run_act, runAct, runAct, pollInterval, takeStep_silent h, waitMs_runs ht]

theorem pollLoop_runs (label : WaitLabel) (n : Nat) {s : State} (h : hostSilent s = true)
    (ht : s.env.timeRuns = true) (hb : s.cfg.hasBusy = true) :
    ∃ o, Runs [.busy label o] s.flags (waitStatus s.cfg o s.status) 0 (.act (.sample label n)) s := by
  induction n generalizing s with
  | zero =>
    exact ⟨.timeout, endWait label .timeout s, by rw [run_act, runAct, pollLoop, takeStep_silent h],
      endWait_ran hb (Ran.ofFlags rfl) (fun _ => rfl) rfl⟩
  | succ n ih =>
    have r1 : Ran [] s.flags s.status 0 s (readBusy s).2 :=
      ⟨⟨rfl, rfl, rfl, rfl, rfl, rfl, rfl⟩, rfl, rfl, rfl, by simp, by simp [wireOf], rfl, rfl, .inl rfl, rfl, rfl, rfl⟩
    have r2 : Ran [] s.flags s.status 0 s (advanceClock (pollMicros s.cfg.busyTimeoutUs) (readBusy s).2) :=
      ⟨⟨rfl, rfl, rfl, rfl, rfl, rfl, rfl⟩, rfl, rfl, rfl, by simp, by simp [wireOf], rfl, rfl, .inl rfl, rfl, rfl, rfl⟩
    have e1 := sample_silent (label := label) (n := n) h
    by_cases hl : (readBusy s).1 ≠ s.cfg.busyLevel
    · exact ⟨.released, _, e1.trans (if_pos hl), endWait_ran hb r1 (fun _ => rfl) rfl⟩
    · have e2 := (e1.trans (if_neg hl)).trans
        (interval_silent (by rw [← h]; exact hostSilent_congr r1.inbox) ht)
      by_cases hx : pollExpired (advanceClock (pollMicros s.cfg.busyTimeoutUs) (readBusy s).2) = true
      · exact ⟨.timeout, _, e2.trans (if_pos hx), endWait_ran hb r2 (fun _ => rfl) rfl⟩
      · obtain ⟨o, t, h3, hr⟩ := @ih (advanceClock (pollMicros s.cfg.busyTimeoutUs) (readBusy s).2)
          (by rw [← h]; exact hostSilent_congr r2.inbox) ht hb
        exact ⟨o, t, (e2.trans (if_neg hx)).trans h3, (r2.trans hr).congr rfl rfl rfl rfl⟩

/-- Everything a busy wait does while the host is silent: it ends, with one outcome or the other (R95, R96). -/
theorem waitWhileBusy_runs (label : WaitLabel) (ms : Nat) {s : State} (hc : Calm s) :
    ∃ o, Runs (waitEvents s.cfg label ms o) s.flags (waitStatus s.cfg o s.status) 0 (waitWhileBusy label ms s.cfg) s := by
  unfold waitWhileBusy
  split
  · next hb =>
    have r : Ran [] s.flags { s.status with waiting := true } 0 s (startTimer (setWaiting true s)) :=
      ⟨⟨rfl, rfl, rfl, rfl, rfl, rfl, rfl⟩, rfl, rfl, rfl, by simp, by simp [wireOf], rfl, rfl, .inl rfl, rfl, rfl, rfl⟩
    have e : (Prog.act .waitBegin).run s = .going (startTimer (setWaiting true s)) := by
      rw [run_act, runAct, takeStep_silent hc.silent]
    obtain ⟨o, h⟩ := @pollLoop_runs label (pollBound s.cfg) (startTimer (setWaiting true s))
      (by rw [← hc.silent]; exact hostSilent_congr r.inbox) hc.time hb
    refine ⟨o, (Runs.seq e r h.last).congr ?_ rfl ?_ rfl⟩
    · simp [waitEvents, hb]
    · cases o <;> simp [waitStatus, hb]
  · next hb =>
    have h := Runs.then (q := steps [.act .clearLastWait]) (f2 := s.flags) (e2 := []) (n2 := 0)
      (st2 := { s.status with lastWaitTimeout := false }) (delay_runs (ms := ms) hc) fun t ht =>
        (clearLastWait_runs (ht.calm hc hc.waiting).silent).last.congr rfl ht.flags (by rw [ht.status]) rfl
    refine ⟨.released, h.congr (by simp [waitEvents, hb]) rfl ?_ rfl⟩
    simp [waitStatus, hb, hc.waiting]

@[simp] theorem waitStatus_waiting (c : Cfg) (o : WaitOutcome) (st : Status) : (waitStatus c o st).waiting = false := by
  unfold waitStatus
  split <;> rfl

end Sys2Proof.Machine
end

