-- ==== Sys2Proof/Laws/Routines.lean ====
section
/-!
SUPPORT. One closed form per routine of Power, Write and Refresh, for a silent host and a bus and a bitmap memory that do
not fail: the traffic of Safety.lean, the flags and STATUS after it.
-/
namespace Sys2Proof.Machine

/-! ## Power -/

/-- A write of one flag and nothing after it. -/
theorem setFlag_last {n : FlagName} {v : Bool} {s : State} (hc : Calm s) :
    Runs [] (s.flags.set n v) s.status 0 (steps [.act (.setFlag n v)]) s := (setFlag_runs hc.silent).last

/-- SendSeq, then a busy wait, then writes of flags. -/
theorem sendThenWait_runs {seq : List SeqStep} (label : WaitLabel) (ms : Nat) {c : Cfg} {q : Prog} {f : Flags} {s : State}
    (hc : Calm s) (hcf : s.cfg = c) (hh : s.flags.hibernating = false)
    (hb : busOk (busBytes (eventsOf (seqBytes seq))).length s)
    (hq : ∀ t, Calm t → t.flags = s.flags → Runs [] f t.status 0 q t) :
    ∃ o, Runs (eventsOf (seqBytes seq) ++ waitEvents c label ms o) f (waitStatus c o s.status) 0
      (.seq (sendSeq seq) (.seq (waitWhileBusy label ms c) q)) s := by
  subst hcf
  obtain ⟨t, ht, hr⟩ := sendBytes_runs hc hh hb
  have hct := hr.calm hc hc.waiting
  obtain ⟨o, u, hu, hru⟩ := waitWhileBusy_runs label ms hct
  rw [hr.cfg] at hu hru
  have h := hq u (hru.calm hct (waitStatus_waiting _ _ _)) (hru.flags.trans hr.flags)
  exact ⟨o, (Runs.seq ht hr (Runs.seq hu hru h)).congr (by simp) rfl (by rw [hru.status, hr.status]) rfl⟩

theorem powerOn_runs {c : Cfg} {s : State} (hc : Calm s) (hcf : s.cfg = c)
    (hh : s.flags.powerOn = false → s.flags.hibernating = false)
    (hb : s.flags.powerOn = false → busOk (busBytes (eventsOf (seqBytes c.pd.seqPowerOn))).length s) :
    ∃ o, Runs (if s.flags.powerOn then [] else powerOnEvents c o) { s.flags with powerOn := true }
      (enterStatus c s.flags o s.status) 0 (powerOn c) s := by
  unfold powerOn enterStatus
  cases hp : s.flags.powerOn with
  | true => exact ⟨.released, (Runs.ifTrue .powerOn hp (Runs.skip s)).congr (by simp) (by rw [← hp]) (by simp) rfl⟩
  | false =>
    obtain ⟨o, h⟩ := sendThenWait_runs .powerOn c.tPowerOnMs (f := { s.flags with powerOn := true }) hc hcf (hh hp) (hb hp)
      fun t ht hf => (setFlag_last (n := .powerOn) (v := true) ht).congr rfl (by rw [hf]; rfl) rfl rfl
    exact ⟨o, (Runs.ifFalse .powerOn hp h).congr (by simp [powerOnEvents]) rfl (by simp) rfl⟩

theorem powerOff_runs {c : Cfg} {s : State} (hc : Calm s) (hcf : s.cfg = c)
    (hh : s.flags.powerOn = true → s.flags.hibernating = false)
    (hb : s.flags.powerOn = true → busOk (busBytes (eventsOf (seqBytes c.pd.seqPowerOff))).length s) :
    ∃ o, Runs (if s.flags.powerOn then powerOffEvents c o else [])
      (if s.flags.powerOn then { s.flags with powerOn := false, usingPartialMode := false } else s.flags)
      (if s.flags.powerOn then waitStatus c o s.status else s.status) 0 (powerOff c) s := by
  unfold powerOff
  cases hp : s.flags.powerOn with
  | true =>
    obtain ⟨o, h⟩ := sendThenWait_runs .powerOff c.tPowerOffMs
      (f := { s.flags with powerOn := false, usingPartialMode := false }) hc hcf (hh hp) (hb hp) (q := steps
        [.act (.setFlag .powerOn false), .act (.setFlag .usingPartialMode false)])
      fun t ht hf => (Runs.then (setFlag_runs (n := .powerOn) (v := false) ht.silent) fun u hu =>
        (setFlag_last (n := .usingPartialMode) (v := false) (hu.calm ht ht.waiting)).congr (f2 :=
          { s.flags with powerOn := false, usingPartialMode := false }) rfl (by rw [hu.flags, hf]; rfl) hu.status rfl)
    exact ⟨o, (Runs.ifTrue .powerOn hp h).congr (by simp [powerOffEvents]) (by simp) (by simp) rfl⟩
  | false => exact ⟨.released, (Runs.ifFalse .powerOn hp (Runs.skip s)).congr (by simp) (by simp) (by simp) rfl⟩

@[simp] theorem enterStatus_waiting (c : Cfg) (f : Flags) (o : WaitOutcome) {st : Status} (h : st.waiting = false) :
    (enterStatus c f o st).waiting = false := by
  unfold enterStatus
  split
  · exact h
  · simp

@[simp] theorem partialStatus_waiting (c : Cfg) (f : Flags) (o : WaitOutcome) {st : Status} (h : st.waiting = false) :
    (partialStatus c f o st).waiting = false := by
  unfold partialStatus
  split
  · exact h
  · exact enterStatus_waiting c f o h

/-- A mode entry, for either mode. -/
theorem enter_runs (v : Bool) {c : Cfg} {s : State} (hc : Calm s) (hcf : s.cfg = c) (hh : s.flags.hibernating = false)
    (hb : ∀ o, busOk (busBytes (enterEvents c s.flags o)).length s) :
    ∃ o, Runs (enterEvents c s.flags o) { s.flags with powerOn := true, usingPartialMode := v }
      (enterStatus c s.flags o s.status) 0
      (steps [initController c, powerOn c, .act (.setFlag .usingPartialMode v)]) s := by
  obtain ⟨t, ht, hr⟩ := sendBytes_runs hc hh (busOk_left (hb .released))
  have hct := hr.calm hc hc.waiting
  have hbt : t.flags.powerOn = false → busOk (busBytes (eventsOf (seqBytes c.pd.seqPowerOn))).length t := by
    intro hp
    rw [hr.flags] at hp
    have h := busOk_right (hb .released) hr
    rw [if_neg (by simp [hp])] at h
    exact busOk_left h
  obtain ⟨o, u, hu, hru⟩ := powerOn_runs hct (hr.cfg.trans hcf) (fun _ => by rw [hr.flags]; exact hh) hbt
  rw [hr.flags, hr.status] at hru
  have hcu := hru.calm hct (enterStatus_waiting _ _ _ hc.waiting)
  exact ⟨o, (Runs.seq ht hr (Runs.seq hu hru (setFlag_last hcu))).congr (by simp [enterEvents])
    (by rw [hru.flags]; rfl) hru.status rfl⟩

theorem ensurePartial_runs {c : Cfg} {s : State} (hc : Calm s) (hcf : s.cfg = c) (hh : s.flags.hibernating = false)
    (hb : ∀ o, busOk (busBytes (partialEvents c s.flags o)).length s) :
    ∃ o, Runs (partialEvents c s.flags o) (partialFlags s.flags) (partialStatus c s.flags o s.status) 0
      (ensurePartial c) s := by
  unfold ensurePartial partialFlags partialStatus partialEvents at *
  cases hp : s.flags.usingPartialMode with
  | true => exact ⟨.released, (Runs.ifTrue .usingPartialMode hp (Runs.skip s)).congr (by simp) (by simp) (by simp) rfl⟩
  | false =>
    simp only [hp, Bool.false_eq_true, if_false] at hb
    obtain ⟨o, h⟩ := enter_runs true hc hcf hh hb
    exact ⟨o, (Runs.ifFalse .usingPartialMode hp h).congr (by simp) (by simp) (by simp) rfl⟩

@[simp] theorem partialFlags_hibernating (f : Flags) : (partialFlags f).hibernating = f.hibernating := by
  unfold partialFlags
  split <;> rfl

@[simp] theorem partialFlags_initialRefresh (f : Flags) : (partialFlags f).initialRefresh = f.initialRefresh := by
  unfold partialFlags
  split <;> rfl

@[simp] theorem partialFlags_initialWrite (f : Flags) : (partialFlags f).initialWrite = f.initialWrite := by
  unfold partialFlags
  split <;> rfl

@[simp] theorem partialFlags_usingPartialMode (f : Flags) : (partialFlags f).usingPartialMode = true := by
  unfold partialFlags
  split
  · assumption
  · rfl

/-! ## Writes -/

/-- The fills of ScreenBufferFill once the mode is Partial. -/
theorem fills_runs (v : Byte) {c : Cfg} {s : State} (hc : Calm s) (hh : s.flags.hibernating = false)
    (hb : busOk (busBytes (fillEvents c s.flags v)).length s) :
    Runs (fillEvents c s.flags v) { s.flags with initialWrite := false } s.status 0
      (steps [.ifFlag .initialRefresh (fillBuffer .prev (~~~v) c) .skip, fillBuffer .cur v c,
        .act (.setFlag .initialWrite false)]) s := by
  have h1 : Runs (if s.flags.initialRefresh then eventsOf (fillBytes c .prev (~~~v)) else []) s.flags s.status 0
      (.ifFlag .initialRefresh (fillBuffer .prev (~~~v) c) .skip) s := by
    have hb1 := busOk_left hb
    cases hi : s.flags.initialRefresh with
    | true =>
      rw [if_pos hi] at hb1
      exact Runs.ifTrue .initialRefresh hi (sendBytes_runs hc hh hb1)
    | false => exact Runs.ifFalse .initialRefresh hi (Runs.skip s)
  obtain ⟨t, ht, hr⟩ := h1
  have hct := hr.calm hc hc.waiting
  have h2 := sendBytes_runs hct (by rw [hr.flags]; exact hh) (busOk_right hb hr)
  rw [hr.flags, hr.status] at h2
  refine (Runs.seq ht hr (h2.then (e2 := []) (n2 := 0) (st2 := s.status) (f2 := { s.flags with initialWrite := false }) fun u hu =>
    (setFlag_last (hu.calm hct hc.waiting)).congr rfl (by rw [hu.flags]; rfl) hu.status rfl)).congr ?_ rfl rfl rfl
  simp [fillEvents]

theorem screenBufferFill_runs (v : Byte) {c : Cfg} {s : State} (hc : Calm s) (hcf : s.cfg = c) (hh : s.flags.hibernating = false)
    (hb : ∀ o, busOk (busBytes (partialEvents c s.flags o ++ fillEvents c s.flags v)).length s) :
    ∃ o, Runs (partialEvents c s.flags o ++ fillEvents c s.flags v)
      { partialFlags s.flags with initialWrite := false } (partialStatus c s.flags o s.status) 0
      (screenBufferFill v c) s := by
  obtain ⟨o, t, ht, hr⟩ := ensurePartial_runs hc hcf hh fun o => busOk_left (hb o)
  have hf : fillEvents c t.flags v = fillEvents c s.flags v := by simp [fillEvents, hr.flags]
  have h2 := fills_runs v (c := c) (hr.calm hc (partialStatus_waiting _ _ _ hc.waiting)) (by rw [hr.flags]; simpa using hh)
    (by rw [hf]; exact busOk_right (hb o) hr)
  rw [hf, hr.flags, hr.status] at h2
  exact ⟨o, Runs.seq ht hr h2⟩

theorem streamRect_runs (p : Plane) (g : Region) {c : Cfg} {s : State} (hc : Calm s) (hh : s.flags.hibernating = false)
    (hs : sourceOk (planeAddrs p g).length s)
    (hb : busOk (busBytes (eventsOf (targetBytes c.pd g.clip p.sel) ++ (planeBytes p g s).map Event.data)).length s) :
    Runs (eventsOf (targetBytes c.pd g.clip p.sel) ++ (planeBytes p g s).map Event.data) s.flags s.status
      (planeAddrs p g).length (streamRect p g c) s := by
  obtain ⟨t, ht, hr⟩ := sendBytes_runs hc hh (busOk_left hb)
  have hbt := busOk_right hb hr
  rw [busBytes_data, List.length_map, planeBytes, List.length_map] at hbt
  have h2 := streamBytes_runs (space := p.space) (inv := p.inv) (hr.calm hc hc.waiting) (by rw [hr.flags]; exact hh)
    (fun k hk => by rw [hr.source]; exact hs k hk) hbt
  simp only [hr.byteAt] at h2
  rw [hr.flags, hr.status] at h2
  exact (Runs.seq ht hr h2.last).congr rfl rfl rfl (by simp)

/-- The first clear since INIT where it is due, then Partial mode (R136). -/
theorem clearThenPartial_runs {c : Cfg} {s : State} (hc : Calm s) (hcf : s.cfg = c) (hh : s.flags.hibernating = false)
    (hb : ∀ o, busOk (busBytes (partialEvents c s.flags o
      ++ (if s.flags.initialWrite then fillEvents c s.flags c.initialClearValue else []))).length s) {q : Prog}
    {e2 : List Event} {f2 : Flags} {n2 : Nat} {st2 : WaitOutcome → Status}
    (hq : ∀ o t, Ran (partialEvents c s.flags o
        ++ (if s.flags.initialWrite then fillEvents c s.flags c.initialClearValue else []))
        { partialFlags s.flags with initialWrite := false } (partialStatus c s.flags o s.status) 0 s t →
      Runs e2 f2 (st2 o) n2 q t) :
    ∃ o, Runs (partialEvents c s.flags o
        ++ (if s.flags.initialWrite then fillEvents c s.flags c.initialClearValue else []) ++ e2)
      f2 (st2 o) n2 (.seq (firstClear c) (.seq (ensurePartial c) q)) s := by
  cases hi : s.flags.initialWrite with
  | true =>
    simp only [hi, if_true] at hb hq
    obtain ⟨o, t, ht, hr⟩ := screenBufferFill_runs c.initialClearValue hc hcf hh hb
    have hp : (ensurePartial c).run t = .going t := by
      rw [ensurePartial, run_ifFlag, if_pos (by rw [hr.flags]; exact partialFlags_usingPartialMode _), run_skip]
    obtain ⟨u, hu, hru⟩ := hq o t hr
    refine ⟨o, u, ?_, (hr.trans hru).congr (by simp) rfl rfl (by simp)⟩
    have hclear : (firstClear c).run s = .going t := by rw [firstClear, run_ifFlag, if_pos (show s.flags.get .initialWrite = true from hi)]; exact ht
    rw [run_seq, hclear, andThen_going, run_seq, hp, andThen_going, hu]
  | false =>
    simp only [hi, Bool.false_eq_true, if_false, List.append_nil] at hb hq
    obtain ⟨o, t, ht, hr⟩ := ensurePartial_runs hc hcf hh hb
    have hclear : (firstClear c).run s = .going s := by
      rw [firstClear, run_ifFlag, if_neg (by simp [Flags.get, hi]), run_skip]
    have hf : ({ partialFlags s.flags with initialWrite := false } : Flags) = partialFlags s.flags := by
      have : (partialFlags s.flags).initialWrite = false := by simpa using hi
      rw [← this]
    rw [hf] at hq
    obtain ⟨u, hu, hru⟩ := hq o t hr
    exact ⟨o, u, by rw [run_seq, hclear, andThen_going, run_seq, ht, andThen_going, hu], (hr.trans hru).congr (by simp) rfl rfl (by simp)⟩

/-- WriteRegion of a region that is not empty. -/
theorem writeResolved_runs (p : Plane) (g : Region) {c : Cfg} {s : State} (hg : resolveRegion c p = some g) (hc : Calm s)
    (hcf : s.cfg = c) (hh : s.flags.hibernating = false) (hs : sourceOk (planeAddrs p g).length s)
    (hb : ∀ o, busOk (busBytes (firstWriteEvents p o s)).length s) :
    ∃ o, Runs (firstWriteEvents p o s) { partialFlags s.flags with initialWrite := false }
      (partialStatus c s.flags o s.status) (planeAddrs p g).length (writeResolved p g c) s := by
  subst hcf
  simp only [firstWriteEvents, hg, List.append_assoc] at hb
  obtain ⟨t, ht, hr⟩ := delay_runs (ms := s.cfg.tYieldMs) hc
  have hct := hr.calm hc hc.waiting
  have hbt := fun o => busOk_right (hb o) hr
  rw [← hr.flags] at hbt
  let rest := eventsOf (targetBytes s.cfg.pd g.clip p.sel) ++ (planeBytes p g s).map Event.data ++ delayEvents s.cfg.tYieldMs
  have hq : ∀ o u, Ran (partialEvents s.cfg t.flags o
        ++ (if t.flags.initialWrite then fillEvents s.cfg t.flags s.cfg.initialClearValue else []))
        { partialFlags t.flags with initialWrite := false } (partialStatus s.cfg t.flags o t.status) 0 t u →
      Runs rest { partialFlags s.flags with initialWrite := false } (partialStatus s.cfg s.flags o s.status)
        (planeAddrs p g).length (steps [streamRect p g s.cfg, yieldHost s.cfg]) u := by
    intro o u hru
    have hcu := hru.calm hct (partialStatus_waiting _ _ _ (by rw [hr.status]; exact hc.waiting))
    have hu1 := hr.trans hru
    have hpb : planeBytes p g u = planeBytes p g s := by simp only [planeBytes, hu1.byteAt]
    have hbu : busOk (busBytes rest).length u := by
      refine busOk_right (as := partialEvents s.cfg t.flags o
        ++ (if t.flags.initialWrite then fillEvents s.cfg t.flags s.cfg.initialClearValue else [])) ?_ hru
      simpa only [rest, List.append_assoc] using hbt o
    have h2 := streamRect_runs p g (c := s.cfg) hcu (by rw [hu1.flags, hr.flags]; simpa using hh)
      (fun k hk => by rw [hu1.source]; exact hs k hk) (by rw [hpb]; exact busOk_left hbu)
    rw [hpb] at h2
    refine (h2.then (e2 := delayEvents s.cfg.tYieldMs) (f2 := u.flags) (st2 := u.status) (n2 := 0) fun v hv => ?_).congr rfl
      (by rw [hru.flags, hr.flags]) (by rw [hru.status, hr.flags, hr.status]) rfl
    exact (delay_runs (ms := s.cfg.tYieldMs) (hv.calm hcu hcu.waiting)).last.congr rfl hv.flags hv.status rfl
  obtain ⟨o, h⟩ := clearThenPartial_runs hct hr.cfg (by rw [hr.flags]; exact hh)
    (fun o => by
      have h := hbt o
      rw [← List.append_assoc] at h
      exact busOk_left h) hq
  rw [hr.flags] at h
  exact ⟨o, (Runs.seq ht hr h).congr (by simp [firstWriteEvents, hg, rest]) rfl rfl (by simp)⟩

/-- WriteRegion in a request's first plane. -/
theorem writeRegion_runs (p : Plane) {c : Cfg} {s : State} (hc : Calm s) (hcf : s.cfg = c)
    (hh : writesSomething c [p] = true → s.flags.hibernating = false) (hs : sourceOk (regionReads p s) s)
    (hb : ∀ o, busOk (busBytes (firstWriteEvents p o s)).length s) :
    ∃ o, Runs (firstWriteEvents p o s) (writeFlags c [p] s.flags) (writeStatus c [p] s.flags o s.status)
      (regionReads p s) (writeRegion p c) s := by
  subst hcf
  unfold writeRegion
  cases hg : resolveRegion s.cfg p with
  | none =>
    refine ⟨.released, (Runs.skip s).congr ?_ ?_ ?_ ?_⟩ <;>
      simp [firstWriteEvents, writeFlags, writeStatus, writesSomething, regionReads, hg]
  | some g =>
    have hg' : regionReads p s = (planeAddrs p g).length := by simp [regionReads, hg]
    obtain ⟨o, h⟩ := writeResolved_runs p g hg hc rfl (hh (by simp [writesSomething, hg])) (by rw [← hg']; exact hs) hb
    rw [hg']
    exact ⟨o, h.congr rfl (by simp [writeFlags, writesSomething, hg]) (by simp [writeStatus, writesSomething, hg]) rfl⟩

/-- WriteRegion once the mode is Partial and the first clear is done. -/
theorem writeRegion_again_runs (p : Plane) {c : Cfg} {s : State} (hc : Calm s) (hcf : s.cfg = c)
    (hh : writesSomething c [p] = true → s.flags.hibernating = false)
    (hp : writesSomething c [p] = true → s.flags.usingPartialMode = true ∧ s.flags.initialWrite = false)
    (hs : sourceOk (regionReads p s) s) (hb : busOk (busBytes (regionEvents p s)).length s) :
    Runs (regionEvents p s) s.flags s.status (regionReads p s) (writeRegion p c) s := by
  subst hcf
  cases hg : resolveRegion s.cfg p with
  | none =>
    have e : writeRegion p s.cfg = .skip := by simp [writeRegion, hg]
    rw [e]
    refine (Runs.skip s).congr ?_ rfl rfl ?_ <;> simp [regionEvents, regionReads, hg]
  | some g =>
    obtain ⟨h1, h2⟩ := hp (by simp [writesSomething, hg])
    have he : ∀ o, firstWriteEvents p o s = regionEvents p s := by
      intro o
      simp [firstWriteEvents, regionEvents, hg, partialEvents, h1, h2]
    obtain ⟨o, h⟩ := writeRegion_runs p hc rfl hh hs (fun o => by rw [he]; exact hb)
    refine h.congr (he o) ?_ ?_ rfl
    · have e : ({ s.flags with initialWrite := false } : Flags) = s.flags := by rw [← h2]
      have e' : writeFlags s.cfg [p] s.flags = { s.flags with initialWrite := false } := by
        simp [writeFlags, writesSomething, partialFlags, h1, hg]
      rw [e', e]
    · simp [writeStatus, writesSomething, partialStatus, h1, hg]

theorem resolveRegion_congr {c : Cfg} {p q : Plane} (hf : q.form = p.form) (hr : q.rect = p.rect) :
    resolveRegion c q = resolveRegion c p := by
  simp [resolveRegion, hf, hr]

/-- WriteDual: both planes (R139). -/
theorem writeDual_runs (p q : Plane) (hf : q.form = p.form) (hr : q.rect = p.rect) {c : Cfg} {s : State} (hc : Calm s)
    (hcf : s.cfg = c) (hh : writesSomething c [p, q] = true → s.flags.hibernating = false)
    (hs : sourceOk (writeReads [p, q] s) s) (hb : ∀ o, busOk (busBytes (writeEvents [p, q] o s)).length s) :
    ∃ o, Runs (writeEvents [p, q] o s) (writeFlags c [p, q] s.flags) (writeStatus c [p, q] s.flags o s.status)
      (writeReads [p, q] s) (writeDual p q c) s := by
  subst hcf
  have hpq : resolveRegion s.cfg q = resolveRegion s.cfg p := resolveRegion_congr hf hr
  have h1 : writesSomething s.cfg [p, q] = writesSomething s.cfg [p] := by simp [writesSomething, hpq]
  have h2 : writesSomething s.cfg [q] = writesSomething s.cfg [p] := by simp [writesSomething, hpq]
  have hev : ∀ o, writeEvents [p, q] o s = firstWriteEvents p o s ++ regionEvents q s := by intro o; simp [writeEvents]
  have hrd : writeReads [p, q] s = regionReads p s + regionReads q s := by simp [writeReads]
  rw [h1] at hh
  rw [hrd] at hs
  simp only [hev] at hb
  obtain ⟨o, t, ht, hrt⟩ := writeRegion_runs p hc rfl hh (sourceOk_left hs) (fun o => busOk_left (hb o))
  have hct : Calm t := hrt.calm hc (by
    unfold writeStatus
    split
    · exact partialStatus_waiting _ _ _ hc.waiting
    · exact hc.waiting)
  have hre : regionEvents q t = regionEvents q s := by
    simp only [regionEvents, hrt.cfg, planeBytes, hrt.byteAt]
  have hrr : regionReads q t = regionReads q s := by simp only [regionReads, hrt.cfg]
  have h := writeRegion_again_runs q hct hrt.cfg (by
      rw [h2, hrt.flags]
      intro hw
      simp [writeFlags, hw, hh hw]) (by
      rw [h2, hrt.flags]
      intro hw
      simp [writeFlags, hw]) (by rw [hrr]; exact sourceOk_right hs hrt) (by rw [hre]; exact busOk_right (hb o) hrt)
  rw [hre, hrr, hrt.flags, hrt.status] at h
  refine ⟨o, (Runs.seq ht hrt h).congr (hev o).symm ?_ ?_ hrd.symm⟩
  · simp [writeFlags, h1]
  · simp [writeStatus, h1]

/-! ## Refreshes -/

theorem refreshFull_runs {c : Cfg} {s : State} (hc : Calm s) (hcf : s.cfg = c) (hh : s.flags.hibernating = false)
    (hb : ∀ oOn o, busOk (busBytes (fullEvents c s.flags oOn o)).length s) :
    ∃ oOn o, Runs (fullEvents c s.flags oOn o) (fullFlags s.flags) (fullStatus c s.flags oOn o s.status) 0
      (refreshFull c) s := by
  simp only [fullEvents, List.append_assoc] at hb
  have h1 : ∃ oOn, Runs (if s.flags.usingPartialMode then enterEvents c s.flags oOn else [])
      (if s.flags.usingPartialMode then { s.flags with powerOn := true, usingPartialMode := false } else s.flags)
      (if s.flags.usingPartialMode then enterStatus c s.flags oOn s.status else s.status) 0
      (.ifFlag .usingPartialMode (enterFull c) .skip) s := by
    cases hp : s.flags.usingPartialMode with
    | true =>
      simp only [hp, if_true] at hb
      obtain ⟨oOn, h⟩ := enter_runs false hc hcf hh fun o => busOk_left (hb o .released)
      exact ⟨oOn, (Runs.ifTrue .usingPartialMode hp h).congr (by simp) (by simp) (by simp) rfl⟩
    | false => exact ⟨.released, (Runs.ifFalse .usingPartialMode hp (Runs.skip s)).congr (by simp) (by simp) (by simp) rfl⟩
  obtain ⟨oOn, t, ht, hr⟩ := h1
  have hct := hr.calm hc (by
    split
    · exact enterStatus_waiting _ _ _ hc.waiting
    · exact hc.waiting)
  have hht : t.flags.hibernating = false := by
    rw [hr.flags]
    split <;> exact hh
  obtain ⟨o, h2⟩ := sendThenWait_runs .fullUpdate c.tFullRefreshMs (f := { t.flags with initialRefresh := false }) hct
    (hr.cfg.trans hcf) hht (busOk_left (busOk_right (hb oOn .released) hr))
    fun u hu hf => (setFlag_last (n := .initialRefresh) (v := false) hu).congr rfl (by rw [hf]; rfl) rfl rfl
  refine ⟨oOn, o, (Runs.seq ht hr h2).congr (by simp [fullEvents]) ?_ ?_ rfl⟩
  · rw [hr.flags, fullFlags]
    split <;> rfl
  · rw [hr.status, fullStatus]

theorem refreshPartial_runs (r : Clipped) {c : Cfg} {s : State} (hc : Calm s) (hcf : s.cfg = c) (hh : s.flags.hibernating = false)
    (hb : ∀ oOn o, busOk (busBytes (partialUpdateEvents c s.flags r oOn o)).length s) :
    ∃ oOn o, Runs (partialUpdateEvents c s.flags r oOn o) (partialFlags s.flags)
      (if c.waitAfterPartialUpdate then waitStatus c o (partialStatus c s.flags oOn s.status)
        else partialStatus c s.flags oOn s.status) 0 (refreshPartial r c) s := by
  subst hcf
  simp only [partialUpdateEvents, List.append_assoc] at hb
  obtain ⟨oOn, t, ht, hr⟩ := ensurePartial_runs hc rfl hh fun o => busOk_left (hb o .released)
  have hct := hr.calm hc (partialStatus_waiting _ _ _ hc.waiting)
  have hht : t.flags.hibernating = false := by rw [hr.flags]; simpa using hh
  have hb1 := busOk_right (hb oOn .released) hr
  obtain ⟨u, hu, hru⟩ := sendBytes_runs hct hht (busOk_left hb1)
  have hcu := hru.calm hct hct.waiting
  obtain ⟨v, hv, hrv⟩ := sendBytes_runs hcu (by rw [hru.flags]; exact hht) (busOk_left (busOk_right hb1 hru))
  have hcv := hrv.calm hcu hcu.waiting
  have hv1 := (hr.trans hru).trans hrv
  have h3 : ∃ o, Runs (if s.cfg.waitAfterPartialUpdate then waitEvents s.cfg .partialUpdate s.cfg.tPartialRefreshMs o else [])
      v.flags (if s.cfg.waitAfterPartialUpdate then waitStatus s.cfg o v.status else v.status) 0
      (if s.cfg.waitAfterPartialUpdate then waitWhileBusy .partialUpdate s.cfg.tPartialRefreshMs s.cfg else .skip) v := by
    split
    · obtain ⟨o, h⟩ := waitWhileBusy_runs .partialUpdate s.cfg.tPartialRefreshMs hcv
      rw [hv1.cfg] at h
      exact ⟨o, h⟩
    · exact ⟨.released, Runs.skip v⟩
  obtain ⟨o, h3⟩ := h3
  refine ⟨oOn, o, (Runs.seq ht hr (Runs.seq hu hru (Runs.seq hv hrv h3.last))).congr ?_ ?_ ?_ rfl⟩
  · simp [partialUpdateEvents]
  · rw [hrv.flags, hru.flags, hr.flags]
  · rw [hrv.status, hru.status, hr.status]

theorem refreshRect_runs (r : Rect) {c : Cfg} {s : State} (hc : Calm s) (hcf : s.cfg = c)
    (hh : takesFull c s.flags = true ∨ (refreshWindow c r).isSome = true → s.flags.hibernating = false)
    (hb : ∀ oOn o, busOk (busBytes (refreshEvents c s.flags r oOn o)).length s) :
    ∃ oOn o, Runs (refreshEvents c s.flags r oOn o) (refreshFlags c s.flags r)
      (refreshStatus c s.flags r oOn o s.status) 0 (refreshRect r.x r.y r.w r.h c) s := by
  unfold refreshEvents at hb
  have hfull (htf : takesFull c s.flags = true) : ∃ oOn o, Runs (refreshEvents c s.flags r oOn o) (refreshFlags c s.flags r)
      (refreshStatus c s.flags r oOn o s.status) 0 (refreshFull c) s := by
    simp only [htf, if_true] at hb
    obtain ⟨oOn, o, h⟩ := refreshFull_runs hc hcf (hh (.inl htf)) hb
    exact ⟨oOn, o, h.congr (by simp [refreshEvents, htf]) (by simp [refreshFlags, htf]) (by simp [refreshStatus, htf]) rfl⟩
  unfold refreshRect
  split
  · next hp => exact hfull (by simp [takesFull, hp])
  · next hp =>
    cases hi : s.flags.initialRefresh with
    | true =>
      obtain ⟨oOn, o, h⟩ := hfull (by simp [takesFull, hi])
      exact ⟨oOn, o, Runs.ifTrue .initialRefresh hi h⟩
    | false =>
      have htf : takesFull c s.flags = false := by simp [takesFull, hi]; simpa using hp
      have e : refreshClipped r.x r.y r.w r.h c = match refreshWindow c r with | none => .skip | some q => refreshPartial q c := by
        unfold refreshClipped refreshWindow
        split
        · rfl
        · rfl
      rw [e]
      simp only [htf, Bool.false_eq_true, if_false] at hb
      cases hw : refreshWindow c r with
      | none =>
        refine ⟨.released, .released, (Runs.ifFalse .initialRefresh hi (Runs.skip s)).congr ?_ ?_ ?_ rfl⟩ <;>
          simp [refreshEvents, refreshFlags, refreshStatus, htf, hw]
      | some q =>
        simp only [hw] at hb
        obtain ⟨oOn, o, h⟩ := refreshPartial_runs q hc hcf (hh (.inr (by simp [hw]))) hb
        exact ⟨oOn, o, (Runs.ifFalse .initialRefresh hi h).congr (by simp [refreshEvents, htf, hw]) (by simp [refreshFlags, htf, hw])
          (by simp [refreshStatus, htf, hw]) rfl⟩

end Sys2Proof.Machine
end

