-- ==== Sys2Proof/Laws/Requests.lean ====
section
/-!
SUPPORT. From what a request's own steps do to what exec answers: the frame around every request while the host is silent,
and how the traffic of Safety.lean depends on a wait's outcome (not in its bytes) and on READY (not at all).
-/
namespace Sys2Proof.Machine

/-! ## The frame around a request -/

theorem beginRequest_calm {s : State} (h : undisturbed s = true) : Calm (beginRequest s) := by
  simp only [undisturbed, Bool.and_eq_true, Bool.not_eq_true'] at h
  exact ⟨h.1.1.2, h.1.2, h.2, rfl⟩

theorem undisturbed_cfgWf {s : State} (h : undisturbed s = true) : cfgWf s.cfg = true := by
  simp only [undisturbed, Bool.and_eq_true] at h
  exact h.1.1.1

theorem gateFault_plain {s : State} (hi : s.flags.initDone = true) : gateFault gatePlain s = none := by
  simp [gateFault, gatePlain, hi]

theorem gateFault_dual {s : State} (hi : s.flags.initDone = true) (hc : s.cfg.hasColor = true) : gateFault gateDual s = none := by
  simp [gateFault, gateDual, hi, hc]

theorem mayTransfer_iff {s : State} : mayTransfer s = true ↔ s.flags.initDone = true ∧ s.flags.hibernating = false := by
  simp [mayTransfer]

/-- The state a request's steps run from. -/
def began (s : State) : State := { beginRequest s with todo := .skip }

theorem began_calm {s : State} (h : undisturbed s = true) : Calm (began s) := by
  have c := beginRequest_calm h
  exact ⟨by rw [← c.silent]; exact hostSilent_congr rfl, c.time, c.waiting, rfl⟩

/-- A request whose routine goes on ends with READY 1. -/
theorem request_completed {g : Gate} {body : Cfg → Prog} {s t : State} (hc : cfgWf s.cfg = true) (hg : gateFault g s = none)
    (h : (body s.cfg).run (began s) = .going t) (ht : hostSilent t = true) : request g body s = .next (completed t) := by
  rw [request, if_pos hc, Prog.reach, dispatched]
  simp only [hg]
  have h' : (body s.cfg).run { beginRequest s with todo := .skip } = .going t := h
  rw [run_seq, h', andThen_going, run_act, runAct, takeStep_silent ht, state_ended]

/-- A request whose steps run undisturbed ends, and leaves what its steps left, with READY 1. -/
theorem request_runs {g : Gate} {body : Cfg → Prog} {s : State} {evs : List Event} {f : Flags} {st : Status} {ns : Nat}
    (hu : undisturbed s = true) (hg : gateFault g s = none)
    (h : Runs evs f { st with ready := false } ns (body s.cfg) (began s)) :
    ∃ t, request g body s = .next t ∧ leaves evs f st s t := by
  obtain ⟨t, ht, hr⟩ := h
  have hs : hostSilent t = true := by
    rw [← (began_calm hu).silent]
    exact hostSilent_congr hr.inbox
  refine ⟨completed t, request_completed (undisturbed_cfgWf hu) hg ht hs, hr.log, hr.wire, hr.flags, ?_, hr.hostSideKept,
    hr.faultRecord, rfl, rfl, hr.lines⟩
  have := hr.status
  simp [completed, this]

/-- A request whose routine has nothing to do leaves everything alone. -/
theorem request_nothing {g : Gate} {body : Cfg → Prog} {s : State} (hu : undisturbed s = true)
    (hg : gateFault g s = none) (h : (body s.cfg).run (began s) = .going (began s)) :
    request g body s = .next (untouched s) :=
  request_completed (t := began s) (undisturbed_cfgWf hu) hg h (began_calm hu).silent

/-- A request whose routine ends early is where the routine ended. -/
theorem request_ended {g : Gate} {body : Cfg → Prog} {s t : State} (hc : cfgWf s.cfg = true)
    (hg : gateFault g s = none) (h : (body s.cfg).run (began s) = .ended t) : request g body s = .next t := by
  rw [request, if_pos hc, Prog.reach, dispatched]
  simp only [hg]
  have h' : (body s.cfg).run { beginRequest s with todo := .skip } = .ended t := h
  rw [run_seq, h', andThen_ended, state_ended]

/-- A request whose routine is held is where the host held it. -/
theorem request_held {g : Gate} {body : Cfg → Prog} {s t : State} (hc : cfgWf s.cfg = true)
    (hg : gateFault g s = none) (h : (body s.cfg).run (began s) = .held t) :
    request g body s = .next { t with todo := .seq t.todo (.act .complete) } := by
  rw [request, if_pos hc, Prog.reach, dispatched]
  simp only [hg]
  have h' : (body s.cfg).run { beginRequest s with todo := .skip } = .held t := h
  rw [run_seq, h', andThen_held, state_held]

/-- A request whose steps end with a fault leaves what they left. -/
theorem request_falls {g : Gate} {body : Cfg → Prog} {k : FaultKind} {s : State} {evs driven : List Event} {f : Flags}
    {st : Status} (hu : undisturbed s = true) (hg : gateFault g s = none)
    (h : Falls k evs driven f st (body s.cfg) (began s)) :
    ∃ t, request g body s = .next t ∧ Fell k evs driven f st (began s) t := by
  obtain ⟨t, ht, hr⟩ := h
  exact ⟨t, request_ended (undisturbed_cfgWf hu) hg ht, hr⟩

/-- What a fault leaves, as the statements say it. -/
theorem Fell.faultTaken {k : FaultKind} {evs driven : List Event} {f : Flags} {s t : State}
    (h : Fell k evs driven f (began s).status (began s) t) : faultTaken k s t := by
  simp [Machine.faultTaken, h.status, h.faultRecord, began, beginRequest]

/-- A fault that Dispatch gives, with a silent host (R165). -/
theorem request_gate {g : Gate} {body : Cfg → Prog} {k : FaultKind} {s : State} (hc : cfgWf s.cfg = true)
    (hs : hostSilent s = true) (hg : gateFault g s = some k) : request g body s = .next (raiseFault k (began s)) := by
  have h : hostSilent (began s) = true := by rw [← hs]; exact hostSilent_congr rfl
  rw [request, if_pos hc, Prog.reach, dispatched]
  simp only [hg]
  show Host.Outcome.next ((Prog.act (.raise k)).run (began s)).state = _
  rw [run_act, runAct, takeStep_silent h, state_ended]

/-! ## READY does not matter to STATUS's other fields -/

theorem waitStatus_ready (c : Cfg) (o : WaitOutcome) (st : Status) (b : Bool) :
    waitStatus c o { st with ready := b } = { waitStatus c o st with ready := b } := by
  unfold waitStatus
  split <;> rfl

theorem enterStatus_ready (c : Cfg) (f : Flags) (o : WaitOutcome) (st : Status) (b : Bool) :
    enterStatus c f o { st with ready := b } = { enterStatus c f o st with ready := b } := by
  unfold enterStatus
  split
  · rfl
  · exact waitStatus_ready c o st b

theorem partialStatus_ready (c : Cfg) (f : Flags) (o : WaitOutcome) (st : Status) (b : Bool) :
    partialStatus c f o { st with ready := b } = { partialStatus c f o st with ready := b } := by
  unfold partialStatus
  split
  · rfl
  · exact enterStatus_ready c f o st b

theorem writeStatus_ready (c : Cfg) (ps : List Plane) (f : Flags) (o : WaitOutcome) (st : Status) (b : Bool) :
    writeStatus c ps f o { st with ready := b } = { writeStatus c ps f o st with ready := b } := by
  unfold writeStatus
  split
  · exact partialStatus_ready c f o st b
  · rfl

theorem fullStatus_ready (c : Cfg) (f : Flags) (oOn o : WaitOutcome) (st : Status) (b : Bool) :
    fullStatus c f oOn o { st with ready := b } = { fullStatus c f oOn o st with ready := b } := by
  unfold fullStatus
  rw [← waitStatus_ready]
  split
  · rw [enterStatus_ready]
  · rfl

theorem refreshStatus_ready (c : Cfg) (f : Flags) (r : Rect) (oOn o : WaitOutcome) (st : Status) (b : Bool) :
    refreshStatus c f r oOn o { st with ready := b } = { refreshStatus c f r oOn o st with ready := b } := by
  unfold refreshStatus
  split
  · exact fullStatus_ready c f oOn o st b
  · split
    · rfl
    · simp only [partialStatus_ready]
      split
      · exact waitStatus_ready _ _ _ _
      · rfl

/-! ## A wait's outcome does not matter to the bytes -/

theorem busBytes_powerOnEvents (c : Cfg) (o o' : WaitOutcome) : busBytes (powerOnEvents c o) = busBytes (powerOnEvents c o') := by
  simp [powerOnEvents, busBytes_append, busBytes_wait]

theorem busBytes_enterEvents (c : Cfg) (f : Flags) (o o' : WaitOutcome) :
    busBytes (enterEvents c f o) = busBytes (enterEvents c f o') := by
  unfold enterEvents
  rw [busBytes_append, busBytes_append]
  split
  · rfl
  · rw [busBytes_powerOnEvents c o o']

theorem busBytes_partialEvents (c : Cfg) (f : Flags) (o o' : WaitOutcome) :
    busBytes (partialEvents c f o) = busBytes (partialEvents c f o') := by
  unfold partialEvents
  split
  · rfl
  · exact busBytes_enterEvents c f o o'

theorem busBytes_firstWriteEvents (p : Plane) (o o' : WaitOutcome) (s : State) :
    busBytes (firstWriteEvents p o s) = busBytes (firstWriteEvents p o' s) := by
  unfold firstWriteEvents
  split
  · rfl
  · simp only [busBytes_append, busBytes_partialEvents s.cfg s.flags o o']

theorem busBytes_writeEvents (ps : List Plane) (o o' : WaitOutcome) (s : State) :
    busBytes (writeEvents ps o s) = busBytes (writeEvents ps o' s) := by
  cases ps with
  | nil => rfl
  | cons p more => simp only [writeEvents, busBytes_append, busBytes_firstWriteEvents p o o' s]

theorem busBytes_fullEvents (c : Cfg) (f : Flags) (a b a' b' : WaitOutcome) :
    busBytes (fullEvents c f a b) = busBytes (fullEvents c f a' b') := by
  unfold fullEvents
  simp only [busBytes_append, busBytes_wait]
  split
  · rw [busBytes_enterEvents c f a a']
  · rfl

theorem busBytes_partialUpdateEvents (c : Cfg) (f : Flags) (r : Clipped) (a b a' b' : WaitOutcome) :
    busBytes (partialUpdateEvents c f r a b) = busBytes (partialUpdateEvents c f r a' b') := by
  unfold partialUpdateEvents
  simp only [busBytes_append, busBytes_partialEvents c f a a']
  split <;> simp [busBytes_wait]

theorem busBytes_refreshEvents (c : Cfg) (f : Flags) (r : Rect) (a b a' b' : WaitOutcome) :
    busBytes (refreshEvents c f r a b) = busBytes (refreshEvents c f r a' b') := by
  unfold refreshEvents
  split
  · exact busBytes_fullEvents c f a b a' b'
  · split
    · rfl
    · exact busBytes_partialUpdateEvents c f _ a b a' b'

end Sys2Proof.Machine
end

