-- ==== Sys2Proof/Laws/Step.lean ====
section
/-!
SUPPORT. What a step can do, once for all: `step_next` lists every way in which a step answers a next state, and
`reach_kept` says what holds where the steps of a request in flight end.
-/
namespace Sys2Proof.Machine

/-- The dispatch fault of a descriptor that does not decode (R80). -/
def faultOfError : DecodeError → FaultKind
  | .illegalOpcode => .illegalOpcode
  | .reservedBits => .reservedBits

theorem decodeStart_eq (s : State) : decodeStart s =
    match decode s.shadow with
    | .error e => .settled ((Prog.act (.raise (faultOfError e))).reach s)
    | .ok i => .run i s := by
  unfold decodeStart
  split <;> simp_all [faultOfError]

/-- What a move of the host between two requests leaves, where it starts none. -/
def Moved (m : HostMove) (rest : List HostMove) (s t : State) : Prop :=
  match m with
  | .pass => t = { s with inbox := rest }
  | .hold => t = { s with inbox := rest }
  | .awaitReady => t = if s.status.ready then { s with inbox := rest } else s
  | .engineReset => t = engineReset { s with inbox := rest }
  | .poke space a b => t = hostPoke space a b { s with inbox := rest }
  | .write offset width v =>
    accessRefusal offset width = none ∧ ¬ (offset = 0x20 ∧ startTaken v s = true) ∧ t = regWrite offset v { s with inbox := rest }
  | .read offset width =>
    accessRefusal offset width = none ∧ t = { s with replies := s.replies ++ [regRead offset s], inbox := rest }

/-- The state in which a start that is taken is dispatched (R17, R18). -/
def started (rest : List HostMove) (s : State) : State := latchStart { s with inbox := rest }

/-- Every way in which a step answers a next state: an idle engine waits; a move of the host that starts nothing; a start that
ends in a dispatch fault of its descriptor; a start that runs its request; the request in flight goes on. -/
theorem step_next {s t : State} (h : step s = .next t) : cfgWf s.cfg = true ∧
    ((s.todo = .skip ∧ s.inbox = [] ∧ t = s) ∨
     (s.todo = .skip ∧ ∃ m rest, s.inbox = m :: rest ∧ Moved m rest s t) ∨
     (s.todo = .skip ∧ ∃ rest e, decode s.req = .error e ∧ t = (Prog.act (.raise (faultOfError e))).reach (started rest s) ∧
        ∃ width v, s.inbox = .write 0x20 width v :: rest ∧ startTaken v s = true) ∨
     (s.todo = .skip ∧ ∃ rest i, decode s.req = .ok i ∧ exec i (started rest s) = .next t ∧
        ∃ width v, s.inbox = .write 0x20 width v :: rest ∧ startTaken v s = true) ∨
     (s.todo ≠ .skip ∧ nextRefusal s.inbox = none ∧ t = s.todo.reach s)) := by
  unfold step fetch at h
  by_cases hc : cfgWf s.cfg = true
  · refine ⟨hc, ?_⟩
    rw [if_pos hc] at h
    by_cases ht : s.todo = .skip
    · rw [if_pos ht] at h
      cases hi : s.inbox with
      | nil =>
        simp only [hi] at h
        exact .inl ⟨ht, rfl, (Host.Outcome.next.inj h).symm⟩
      | cons m rest =>
        simp only [hi] at h
        cases m with
        | pass => exact .inr (.inl ⟨ht, _, _, rfl, (Host.Outcome.next.inj h).symm⟩)
        | hold => exact .inr (.inl ⟨ht, _, _, rfl, (Host.Outcome.next.inj h).symm⟩)
        | awaitReady => exact .inr (.inl ⟨ht, _, _, rfl, (Host.Outcome.next.inj h).symm⟩)
        | engineReset => exact .inr (.inl ⟨ht, _, _, rfl, (Host.Outcome.next.inj h).symm⟩)
        | poke space a b => exact .inr (.inl ⟨ht, _, _, rfl, (Host.Outcome.next.inj h).symm⟩)
        | read offset width =>
          unfold fetchMove at h
          cases hr : accessRefusal offset width with
          | some r => simp [hr] at h
          | none =>
            simp only [hr] at h
            exact .inr (.inl ⟨ht, _, _, rfl, hr, (Host.Outcome.next.inj h).symm⟩)
        | write offset width v =>
          unfold fetchMove at h
          cases hr : accessRefusal offset width with
          | some r => simp [hr] at h
          | none =>
            simp only [hr] at h
            unfold fetchWrite at h
            by_cases hs : offset = 0x20 ∧ startTaken v s = true
            · have hs' : offset = 0x20 ∧ startTaken v { s with inbox := rest } = true := hs
              rw [if_pos hs', decodeStart_eq] at h
              obtain ⟨rfl, hs⟩ := hs
              have e : (latchStart { s with inbox := rest }).shadow = s.req := rfl
              rw [e] at h
              cases hd : decode s.req with
              | error err =>
                simp only [hd] at h
                exact .inr (.inr (.inl ⟨ht, rest, err, rfl, (Host.Outcome.next.inj h).symm, width, v, rfl, hs⟩))
              | ok i =>
                simp only [hd] at h
                exact .inr (.inr (.inr (.inl ⟨ht, rest, i, rfl, h, width, v, rfl, hs⟩)))
            · have hs' : ¬ (offset = 0x20 ∧ startTaken v { s with inbox := rest } = true) := hs
              rw [if_neg hs'] at h
              exact .inr (.inl ⟨ht, _, _, rfl, hr, hs, (Host.Outcome.next.inj h).symm⟩)
    · rw [if_neg ht] at h
      refine .inr (.inr (.inr (.inr ⟨ht, ?_⟩)))
      simp only [resume] at h
      cases hr : nextRefusal s.inbox with
      | some r => simp [hr] at h
      | none =>
        simp only [hr] at h
        split at h
        · cases h
        · exact ⟨rfl, (Host.Outcome.next.inj h).symm⟩
  · rw [if_neg hc] at h
    cases h

/-- Where the steps of a request in flight end: it goes on being in flight, and P holds but for `todo`; or it has ended, with Q;
or, for steps without an end of their own, they are done, with P. -/
theorem reach_kept {A : Act → Prop} {P Q : State → Prop} (H : KeptBySteps A P Q) {p : Prog} (hp : p.All A) {s : State}
    (h : P { s with todo := .skip }) :
    ((p.reach s).todo ≠ .skip ∧ P { p.reach s with todo := .skip }) ∨ ((p.reach s).todo = .skip ∧ (Q (p.reach s) ∨ P (p.reach s))) := by
  have hs := prog_kept H hp h
  have ht := run_placed p (s := { s with todo := .skip }) rfl
  unfold Prog.reach
  cases e : p.run { s with todo := .skip } with
  | going u => rw [e] at hs ht; exact .inr ⟨ht, .inr hs⟩
  | ended u => rw [e] at hs ht; exact .inr ⟨ht, .inl hs⟩
  | held u => rw [e] at hs ht; exact .inl ⟨ht, hs⟩

/-! ## The first step of a program -/

/-- Every step of the engine begins with the host's turn, which may hold the machine before that very step. -/
theorem runAct_turn (a : Act) : ∃ now, ∀ s, runAct a s = takeStep a now s := by
  cases a with
  | sample label n => cases n <;> exact ⟨_, fun _ => rfl⟩
  | _ => exact ⟨_, fun _ => rfl⟩

/-- A program with no step left does nothing. -/
theorem run_of_first_none {p : Prog} {s : State} (h : p.first s.flags = none) : p.run s = .going s := by
  induction p with
  | skip => rfl
  | act a => cases h
  | seq p q ihp ihq =>
    unfold Prog.first at h
    split at h
    · cases h
    · next hp => rw [run_seq, ihp hp, andThen_going, ihq h]
  | ifFlag n p q ihp ihq =>
    unfold Prog.first at h
    rw [run_ifFlag]
    split at h
    · next hn => rw [if_pos hn, ihp h]
    · next hn => rw [if_neg hn, ihq h]

/-- Where the host holds the machine before the first step of a program, that step stays the first of what is left. -/
theorem run_of_first_held {p : Prog} {a : Act} {s u : State} (h : p.first s.flags = some a) (ht : hostTurn s = .held u) :
    ∃ todo, p.run s = .held { u with todo := todo } ∧ todo.first s.flags = some a := by
  induction p with
  | skip => cases h
  | act b =>
    obtain ⟨now, hn⟩ := runAct_turn b
    exact ⟨.act b, by rw [run_act, hn, takeStep, ht], h⟩
  | seq p q ihp ihq =>
    unfold Prog.first at h
    split at h
    · next b hp =>
      cases h
      obtain ⟨todo, hr, hf⟩ := ihp hp
      exact ⟨.seq todo q, by rw [run_seq, hr, andThen_held], by rw [Prog.first, hf]⟩
    · next hp =>
      obtain ⟨todo, hr, hf⟩ := ihq h
      exact ⟨todo, by rw [run_seq, run_of_first_none hp, andThen_going, hr], hf⟩
  | ifFlag n p q ihp ihq =>
    unfold Prog.first at h
    rw [run_ifFlag]
    split at h
    · next hn => rw [if_pos hn]; exact ihp h
    · next hn => rw [if_neg hn]; exact ihq h

/-- Where the host's turn ends the request, at the engine's reset, so does every step. -/
theorem runAct_of_turn_ended {a : Act} {s u : State} (h : hostTurn s = .ended u) : runAct a s = .ended u := by
  obtain ⟨now, hn⟩ := runAct_turn a
  rw [hn, takeStep, h]

/-- Where the first step of a program ends the request, so does the program. -/
theorem run_of_first_ended {p : Prog} {a : Act} {s u : State} (h : p.first s.flags = some a) (ht : runAct a s = .ended u) :
    p.run s = .ended u := by
  induction p with
  | skip => cases h
  | act b => cases h; exact ht
  | seq p q ihp ihq =>
    unfold Prog.first at h
    split at h
    · next b hp =>
      cases h
      rw [run_seq, ihp hp, andThen_ended]
    · next hp => rw [run_seq, run_of_first_none hp, andThen_going, ihq h]
  | ifFlag n p q ihp ihq =>
    unfold Prog.first at h
    rw [run_ifFlag]
    split at h
    · next hn => rw [if_pos hn]; exact ihp h
    · next hn => rw [if_neg hn]; exact ihq h

end Sys2Proof.Machine
end

