-- ==== Sys2Proof/Machine/Assembler.lean ====
section
/-!
DEFINITION. The assembler syntax of a request (30_encoding.md R76): the mnemonic of the opcode table, the suffixes of the
flags, then the operands, comma-separated, as decimal integers.
-/
namespace Sys2Proof.Machine

/-- The request's mnemonic in the opcode table (R72). -/
def mnemonicOf : Instr → String
  | .init _ => "INIT"
  | .powerOn => "POWER_ON"
  | .powerOff => "POWER_OFF"
  | .hibernate => "HIBERNATE"
  | .waitBusy => "WAIT_BUSY"
  | .writeScreenBuffer _ => "WRITE_SCREEN_BUFFER"
  | .writeImage _ _ _ => "WRITE_IMAGE"
  | .writeImageAgain _ _ _ => "WRITE_IMAGE_AGAIN"
  | .writeImagePart _ _ _ _ => "WRITE_IMAGE_PART"
  | .writeImagePartAgain _ _ _ _ => "WRITE_IMAGE_PART_AGAIN"
  | .writeImageDual _ _ _ _ => "WRITE_IMAGE_DUAL"
  | .writeImagePartDual _ _ _ _ _ => "WRITE_IMAGE_PART_DUAL"
  | .refresh _ => "REFRESH"
  | .refreshRect _ => "REFRESH_RECT"
  | .drawImage _ _ _ => "DRAW_IMAGE"
  | .drawImagePart _ _ _ _ => "DRAW_IMAGE_PART"
  | .drawImageDual _ _ _ _ => "DRAW_IMAGE_DUAL"
  | .drawImagePartDual _ _ _ _ _ => "DRAW_IMAGE_PART_DUAL"

/-- A suffix that stands when its flag is set (R76). -/
def asmSuffix (set : Bool) (text : String) : String := if set then text else ""

/-- The suffixes .inv, .mir and .rt (R76). -/
def asmImageSuffix (f : ImageFlags) : String :=
  asmSuffix f.inv ".inv" ++ asmSuffix f.mir ".mir" ++ asmSuffix (decide (f.space = .readThrough)) ".rt"

/-- The flag suffixes of a request (R76). -/
def asmFlags : Instr → String
  | .init style => asmSuffix (decide (style = .pulldown)) ".pulldown"
  | .powerOn => ""
  | .powerOff => ""
  | .hibernate => ""
  | .waitBusy => ""
  | .writeScreenBuffer _ => ""
  | .writeImage _ _ f => asmImageSuffix f
  | .writeImageAgain _ _ f => asmImageSuffix f
  | .writeImagePart _ _ _ f => asmImageSuffix f
  | .writeImagePartAgain _ _ _ f => asmImageSuffix f
  | .writeImageDual _ _ _ f => asmImageSuffix f
  | .writeImagePartDual _ _ _ _ f => asmImageSuffix f
  | .refresh isPartial => if isPartial then ".partial" else ".full"
  | .refreshRect _ => ""
  | .drawImage _ _ f => asmImageSuffix f
  | .drawImagePart _ _ _ f => asmImageSuffix f
  | .drawImageDual _ _ _ f => asmImageSuffix f
  | .drawImagePartDual _ _ _ _ f => asmImageSuffix f

/-- A target rectangle's operands (R76). -/
def rectOperands (r : Rect) : List Int := [r.x, r.y, r.w, r.h]

/-- A sub-image's operands (R76). -/
def subOperands (p : SubImage) : List Int := [p.xPart, p.yPart, p.wBmp, p.hBmp]

/-- A base address as an operand. -/
def baseOperand (b : Word) : Int := b.toNat

/-- The operands in the order of R76. -/
def asmOperands : Instr → List Int
  | .init _ => []
  | .powerOn => []
  | .powerOff => []
  | .hibernate => []
  | .waitBusy => []
  | .writeScreenBuffer fill => [fill.toNat]
  | .writeImage b r _ => baseOperand b :: rectOperands r
  | .writeImageAgain b r _ => baseOperand b :: rectOperands r
  | .writeImagePart b p r _ => baseOperand b :: subOperands p ++ rectOperands r
  | .writeImagePartAgain b p r _ => baseOperand b :: subOperands p ++ rectOperands r
  | .writeImageDual b c r _ => baseOperand b :: baseOperand c :: rectOperands r
  | .writeImagePartDual b c p r _ => baseOperand b :: baseOperand c :: subOperands p ++ rectOperands r
  | .refresh _ => []
  | .refreshRect r => rectOperands r
  | .drawImage b r _ => baseOperand b :: rectOperands r
  | .drawImagePart b p r _ => baseOperand b :: subOperands p ++ rectOperands r
  | .drawImageDual b c r _ => baseOperand b :: baseOperand c :: rectOperands r
  | .drawImagePartDual b c p r _ => baseOperand b :: baseOperand c :: subOperands p ++ rectOperands r

/-- The text of a request (R76). -/
def asmText (i : Instr) : String :=
  mnemonicOf i ++ asmFlags i ++
    (match asmOperands i with
     | [] => ""
     | ops => " " ++ ", ".intercalate (ops.map toString))

end Sys2Proof.Machine
end

