-- ==== Sys2Proof/Tests/Slice0.lean ====
section
/-!
SUPPORT. Tests. Expected values are the spec's: the worked encodings of R81, the vectors and programs of 95_test_vectors.md
(named V-x, W x, P x), or hand calculation from the rule cited. First the checks of WellFormed, then decoding, the address
calculator, one step of each request, faults and waits, and last a witness for the hypotheses of each obligation.
-/
namespace Sys2Proof.Tests
open Sys2Proof Sys2Proof.Machine

/-! ## Well-formed requests: each check refuses an ill-formed term (R68) -/

/-- A rectangle in range. -/
def okRect : Rect := ⟨-32768, 32767, 0, 32767⟩

/-- A sub-image in range. -/
def okSub : SubImage := ⟨32767, -32768, 32767, -32768⟩

/-- No flag set, DIRECT. -/
def noFlags : ImageFlags := ⟨false, false, .direct⟩

theorem test_wf_accepts_range_ends :
    okRect.wf = true ∧ okSub.wf = true ∧ (Instr.drawImagePartDual 0 0 okSub okRect noFlags).wf = true := by decide

theorem test_wf_rect_refuses :
    Rect.wf ⟨-32769, 0, 0, 0⟩ = false ∧ Rect.wf ⟨0, 32768, 0, 0⟩ = false ∧ Rect.wf ⟨0, 0, 32768, 0⟩ = false ∧
      Rect.wf ⟨0, 0, 0, -32769⟩ = false := by decide

theorem test_wf_sub_refuses :
    SubImage.wf ⟨-32769, 0, 0, 0⟩ = false ∧ SubImage.wf ⟨0, 32768, 0, 0⟩ = false ∧ SubImage.wf ⟨0, 0, -32769, 0⟩ = false ∧
      SubImage.wf ⟨0, 0, 0, 32768⟩ = false := by decide

/-- A rectangle out of range. -/
def badRect : Rect := ⟨0, 0, 32768, 0⟩

/-- A sub-image out of range. -/
def badSub : SubImage := ⟨0, 0, 0, 32768⟩

theorem test_wf_refuses_bad_rect :
    ((Instr.writeImage 0 badRect noFlags).wf || (Instr.writeImageAgain 0 badRect noFlags).wf
      || (Instr.writeImagePart 0 okSub badRect noFlags).wf || (Instr.writeImagePartAgain 0 okSub badRect noFlags).wf
      || (Instr.writeImageDual 0 0 badRect noFlags).wf || (Instr.writeImagePartDual 0 0 okSub badRect noFlags).wf
      || (Instr.refreshRect badRect).wf || (Instr.drawImage 0 badRect noFlags).wf
      || (Instr.drawImagePart 0 okSub badRect noFlags).wf || (Instr.drawImageDual 0 0 badRect noFlags).wf
      || (Instr.drawImagePartDual 0 0 okSub badRect noFlags).wf) = false := by decide

theorem test_wf_refuses_bad_sub :
    ((Instr.writeImagePart 0 badSub okRect noFlags).wf || (Instr.writeImagePartAgain 0 badSub okRect noFlags).wf
      || (Instr.writeImagePartDual 0 0 badSub okRect noFlags).wf || (Instr.drawImagePart 0 badSub okRect noFlags).wf
      || (Instr.drawImagePartDual 0 0 badSub okRect noFlags).wf) = false := by decide

/-! ## Decoding: words written out from R67 to R72 and R81 -/

/-- Decoding that gives a request, as an Option, so that it can be compared. -/
def decoded (d : Desc) : Option Instr :=
  match decode d with
  | .ok i => some i
  | .error _ => none

theorem test_decode_power :
    decoded ⟨0x00000001, 0, 0, 0, 0, 0, 0, 0⟩ = some (.init .pulse) ∧
    decoded ⟨0x00000801, 0, 0, 0, 0, 0, 0, 0⟩ = some (.init .pulldown) ∧
    decoded ⟨0x00000002, 0, 0, 0, 0, 0, 0, 0⟩ = some .powerOn ∧
    decoded ⟨0x00000003, 0, 0, 0, 0, 0, 0, 0⟩ = some .powerOff ∧
    decoded ⟨0x00000004, 0, 0, 0, 0, 0, 0, 0⟩ = some .hibernate ∧
    decoded ⟨0x00000005, 0, 0, 0, 0, 0, 0, 0⟩ = some .waitBusy := by decide

theorem test_decode_fill_and_write :
    decoded ⟨0x00000010, 0, 0, 0, 0, 0, 0, 0x000000A5⟩ = some (.writeScreenBuffer 0xA5) ∧
    decoded ⟨0x00000311, 0x0005FFFD, 0x00020010, 0, 0, 0x00002000, 0, 0⟩
      = some (.writeImage 0x2000 ⟨-3, 5, 16, 2⟩ ⟨true, true, .direct⟩) ∧
    decoded ⟨0x00000412, 0x80007FFF, 0xFFFF0010, 0, 0, 0x00002000, 0, 0⟩
      = some (.writeImageAgain 0x2000 ⟨32767, -32768, 16, -1⟩ ⟨false, false, .readThrough⟩) := by decide

theorem test_decode_write_part :
    decoded ⟨0x00000413, 0, 0x00020010, 0x00010008, 0x00040020, 0x00003000, 0, 0⟩
      = some (.writeImagePart 0x3000 ⟨8, 1, 32, 4⟩ ⟨0, 0, 16, 2⟩ ⟨false, false, .readThrough⟩) ∧
    decoded ⟨0x00000214, 0x00020001, 0x00040003, 0x00060005, 0x00080007, 0xFFFFFFFF, 0, 0⟩
      = some (.writeImagePartAgain 0xFFFFFFFF ⟨5, 6, 7, 8⟩ ⟨1, 2, 3, 4⟩ ⟨false, true, .direct⟩) := by decide

theorem test_decode_write_dual :
    decoded ⟨0x00000115, 0x00000005, 0x00020010, 0, 0, 0x00001000, 0x00002000, 0⟩
      = some (.writeImageDual 0x1000 0x2000 ⟨5, 0, 16, 2⟩ ⟨true, false, .direct⟩) ∧
    decoded ⟨0x00000016, 0x00020001, 0x00040003, 0x00060005, 0x00080007, 0x00001000, 0x00002000, 0⟩
      = some (.writeImagePartDual 0x1000 0x2000 ⟨5, 6, 7, 8⟩ ⟨1, 2, 3, 4⟩ ⟨false, false, .direct⟩) := by decide

theorem test_decode_refresh :
    decoded ⟨0x00000020, 0, 0, 0, 0, 0, 0, 0⟩ = some (.refresh false) ∧
    decoded ⟨0x00001020, 0, 0, 0, 0, 0, 0, 0⟩ = some (.refresh true) ∧
    decoded ⟨0x00000021, 0x00000008, 0x00040008, 0, 0, 0, 0, 0⟩ = some (.refreshRect ⟨8, 0, 8, 4⟩) := by decide

theorem test_decode_draw :
    decoded ⟨0x00000030, 0x00000010, 0x00040008, 0, 0, 0x00001000, 0, 0⟩
      = some (.drawImage 0x1000 ⟨16, 0, 8, 4⟩ ⟨false, false, .direct⟩) ∧
    decoded ⟨0x00000731, 0x00020001, 0x00040003, 0x00060005, 0x00080007, 0x00003000, 0, 0⟩
      = some (.drawImagePart 0x3000 ⟨5, 6, 7, 8⟩ ⟨1, 2, 3, 4⟩ ⟨true, true, .readThrough⟩) ∧
    decoded ⟨0x00000132, 0x00000005, 0x00020010, 0, 0, 0x00001000, 0x00002000, 0⟩
      = some (.drawImageDual 0x1000 0x2000 ⟨5, 0, 16, 2⟩ ⟨true, false, .direct⟩) ∧
    decoded ⟨0x00000033, 0x00020001, 0x00040003, 0x00060005, 0x00080007, 0x00001000, 0x00002000, 0⟩
      = some (.drawImagePartDual 0x1000 0x2000 ⟨5, 6, 7, 8⟩ ⟨1, 2, 3, 4⟩ ⟨false, false, .direct⟩) := by decide

/-- The numbering of the opcode table: REQ0 is the lowest word, REQ5 starts at bit 160. -/
theorem test_decode_table_word :
    decodeTableWord 32 0x00001020 = some (.refresh true) ∧
    decodeTableWord 256 0x0000000000000000000020000000000000000000000200100005FFFD00000311
      = some (.writeImage 0x2000 ⟨-3, 5, 16, 2⟩ ⟨true, true, .direct⟩) ∧
    decodeTableWord 32 0x00002011 = none ∧ decodeTableWord 32 0x00000006 = none := by decide

/-- The assembly of R81's rows, with R76's decimal operands. -/
theorem test_assembly :
    asmText (.init .pulldown) = "INIT.pulldown" ∧ asmText (.refresh true) = "REFRESH.partial" ∧
    asmText (.writeImage 0x2000 ⟨-3, 5, 16, 2⟩ ⟨true, true, .direct⟩) = "WRITE_IMAGE.inv.mir 8192, -3, 5, 16, 2" ∧
    asmText (.writeImagePart 0x3000 ⟨8, 1, 32, 4⟩ ⟨0, 0, 16, 2⟩ ⟨false, false, .readThrough⟩)
      = "WRITE_IMAGE_PART.rt 12288, 8, 1, 32, 4, 0, 0, 16, 2" := ⟨rfl, rfl, rfl, rfl⟩

/-! ## The address calculator: the tables of 95_test_vectors.md section 2.1 -/

theorem test_align_clip :
    alignClip cfgTest 5 0 16 8 = some ⟨0, 0, 16, 4, 0, 0, 2⟩ ∧ alignClip cfgTest (-5) 0 16 8 = some ⟨0, 0, 8, 4, 8, 0, 2⟩ ∧
    alignClip cfgTest 15 0 1 1 = some ⟨8, 0, 8, 1, 0, 0, 1⟩ ∧ alignClip cfgTest 8 2 100 100 = some ⟨8, 2, 8, 2, 0, 0, 13⟩ ∧
    alignClip cfgTest 7 3 2 1 = some ⟨0, 3, 8, 1, 0, 0, 1⟩ ∧
    alignClip cfgTest (-9) (-1) 16 3 = none ∧ alignClip cfgTest (-1) 0 2 1 = none ∧ alignClip cfgTest 16 0 8 4 = none ∧
    alignClip cfgTest 0 4 8 1 = none ∧ alignClip cfgTest (-8) 0 8 4 = none ∧ alignClip cfgTest 0 0 0 4 = none := by decide

theorem test_part_clamp :
    partClamp ⟨9, 1, 32, 4⟩ 40 8 = some ⟨8, 24, 3⟩ ∧ partClamp ⟨8, 1, 32, 4⟩ 16 2 = some ⟨8, 16, 2⟩ ∧
    partClamp ⟨31, 0, 32, 4⟩ 16 4 = some ⟨24, 8, 4⟩ ∧ partClamp ⟨32, 0, 32, 4⟩ 8 8 = none ∧
    partClamp ⟨0, 4, 32, 4⟩ 8 8 = none ∧ partClamp ⟨-1, 0, 32, 4⟩ 8 8 = none ∧ partClamp ⟨0, 0, 0, 0⟩ 8 8 = none ∧
    partClamp ⟨0, 0, 32, 4⟩ (-1) 8 = none := by decide

/-- A region with the source parameters of a vector V-S. -/
def srcRegion (dx colBase rowBase wbSrc hSrc : Int) : Region := ⟨⟨0, 0, 8, 1, dx, 0, 0⟩, ⟨colBase, rowBase, wbSrc, hSrc⟩⟩

theorem test_src_index :
    srcIndex false (srcRegion 8 0 0 2 4) 0 0 = 1 ∧ srcIndex true (srcRegion 0 0 0 2 4) 0 0 = 6 ∧
    srcIndex false (srcRegion 0 1 1 4 4) 1 1 = 10 ∧ srcIndex true (srcRegion 0 1 1 4 4) 0 0 = 9 ∧
    srcIndex true (srcRegion 0 0 0 2 3) 2 1 = 1 := by decide

/-- A command and its data bytes, `[c: d1, ..., dn]`. -/
def cmdE (c : Byte) (args : List Byte) : List Event := .cmd c :: args.map Event.data

/-- W9. -/
theorem test_window_two_byte_rows :
    eventsOf (windowBytes (pdDefault 296) 120 256 8 40)
      = cmdE 0x11 [0x03] ++ cmdE 0x44 [0x0F, 0x0F] ++ cmdE 0x45 [0x00, 0x01, 0x27, 0x01] ++ cmdE 0x4E [0x0F]
        ++ cmdE 0x4F [0x00, 0x01] := by decide

/-! ## One step of each request: the vectors and programs of 95_test_vectors.md -/

/-- Every transfer and read succeeds, and each busy wait finds the line released at its first sample. -/
def calm : Env :=
  { bus := ⟨List.replicate 150 false, 0⟩, source := ⟨List.replicate 20 false, 0⟩, busy := ⟨List.replicate 4 false, 0⟩
    elapsed := ⟨List.replicate 4 0, 0⟩, race := ⟨[], 0⟩, clock := 0, timeRuns := true }

/-- M[0x1000..0x1007] = 10..17 and M[0x3000..0x300F] = 30..3F. -/
def mem : Memory :=
  [(0x1000, 0x10), (0x1001, 0x11), (0x1002, 0x12), (0x1003, 0x13), (0x1004, 0x14), (0x1005, 0x15), (0x1006, 0x16),
   (0x1007, 0x17), (0x3000, 0x30), (0x3001, 0x31), (0x3002, 0x32), (0x3003, 0x33), (0x3004, 0x34), (0x3005, 0x35),
   (0x3006, 0x36), (0x3007, 0x37), (0x3008, 0x38), (0x3009, 0x39), (0x300A, 0x3A), (0x300B, 0x3B), (0x300C, 0x3C),
   (0x300D, 0x3D), (0x300E, 0x3E), (0x300F, 0x3F)]

/-- A state of a configuration with the flags that a value of the STATE register shows. -/
def stAt (c : Cfg) (w : Word) : State :=
  { State.resetOf c with
    flags := ⟨w.getLsbD 0, w.getLsbD 1, w.getLsbD 2, w.getLsbD 3, w.getLsbD 4, w.getLsbD 5⟩
    env := calm, direct := mem, readThrough := mem }

/-- CFG_T with colour. -/
def cfgColour : Cfg := { cfgTest with hasColor := true }

/-- P4's configuration: no busy line, no reset line. -/
def cfgBare : Cfg := { cfgTest with hasBusy := false, hasRst := false }

/-- The log, STATE and STATUS that a request leaves. -/
def seen (i : Instr) (s : State) : Option (List Event × Word × Word) :=
  (nextOf (exec i s)).map fun t => (t.log, stateWord t.flags, statusWord t.status)

/-- IC, PON, POFF, FULL, PART and SLEEP of section 0, with Win(0,0,16,4) and a window's rows 0 to y at columns a to b. -/
def evWin (a b y : Byte) : List Event :=
  cmdE 0x11 [0x03] ++ cmdE 0x44 [a, b] ++ cmdE 0x45 [0x00, 0x00, y, 0x00] ++ cmdE 0x4E [a] ++ cmdE 0x4F [0x00, 0x00]
def evIC : List Event :=
  cmdE 0x01 [0x03, 0x00, 0x00] ++ cmdE 0x11 [0x03] ++ evWin 0 1 3 ++ cmdE 0x3C [0x05] ++ cmdE 0x18 [0x80]
    ++ cmdE 0x21 [0x00, 0x80]
def evPon : List Event := cmdE 0x22 [0xE0] ++ cmdE 0x20 []
def evPoff : List Event := cmdE 0x22 [0x83] ++ cmdE 0x20 []
def evFull : List Event := cmdE 0x22 [0xF7] ++ cmdE 0x20 []
def evPart : List Event := cmdE 0x22 [0xFC] ++ cmdE 0x20 []
def evSleep : List Event := cmdE 0x10 [0x01]
def evReleased (l : WaitLabel) : List Event := [.busy l .released]

/-- V-I1, and V-F9: INIT clears the fault of an earlier request. -/
theorem test_init :
    seen (.init .pulldown) { stAt cfgTest 0x0C with status := { statusReset with fault := true, faultCode := 1, faultOp := 6 } }
      = some ([.lineSetup, .resetPulse .pulldown, .delay 10, .busSetup], 0x2C, 0x01) := by decide

/-- P4 step 1, from flags of a run before: without a reset line there is no pulse, but the flags are reset. -/
theorem test_init_without_reset_line :
    seen (.init .pulse) (stAt cfgBare 0x31) = some ([.lineSetup, .busSetup], 0x2C, 0x01) := by decide

/-- V-W1. -/
theorem test_power_on :
    seen .powerOn (stAt cfgTest 0x2C) = some (evPon ++ evReleased .powerOn, 0x2D, 0x01) ∧
    seen .powerOn (stAt cfgTest 0x2D) = some ([], 0x2D, 0x01) := by decide

/-- P5 step 3, V-W2. -/
theorem test_power_off :
    seen .powerOff (stAt cfgTest 0x23) = some (evPoff ++ evReleased .powerOff, 0x20, 0x01) ∧
    seen .powerOff (stAt cfgTest 0x2C) = some ([], 0x2C, 0x01) := by decide

/-- V-H3, V-H2. -/
theorem test_hibernate :
    seen .hibernate (stAt cfgTest 0x23) = some (evPoff ++ evReleased .powerOff ++ evSleep, 0x30, 0x01) ∧
    seen .hibernate { stAt cfgTest 0x3C with shadow := bareDesc 4 } = some ([], 0x3C, 0x00040053) := by decide

/-- V-H4: without a reset line HIBERNATE is POWER_OFF. -/
theorem test_hibernate_without_reset_line :
    seen .hibernate (stAt cfgBare 0x2D) = some (evPoff ++ [.delay 120], 0x2C, 0x01) := by decide

/-- P3 step 5: TIMEOUT is sticky, LAST_WAIT_TIMEOUT is cleared. -/
theorem test_wait_busy :
    seen .waitBusy { stAt cfgTest 0x2C with status := { statusReset with timeout := true, lastWaitTimeout := true } }
      = some (evReleased .explicit, 0x2C, 0x101) := by decide

/-- V-T8: a timeout of 0 needs one poll interval; the wait is not fatal. -/
theorem test_wait_busy_timeout :
    seen .waitBusy { stAt { cfgTest with busyTimeoutUs := 0 } 0x2C with
        env := { calm with busy := ⟨[true], 0⟩ } }
      = some ([.busy .explicit .timeout], 0x2C, 0x301) := by decide

/-- A state at the start of a wait: BUSY_TIMEOUT_US, the count, T0, the samples of the line and what each interval adds to 1 ms. -/
def polling (timeout clock t0 : Word) (busy : List Bool) (extra : List Nat) : State :=
  { stAt { cfgTest with busyTimeoutUs := timeout } 0x2C with
    t0 := t0, env := { calm with busy := ⟨busy, 0⟩, elapsed := ⟨extra, 0⟩, clock := clock } }

/-- The events that a program leaves, if it goes on. -/
def eventsAfter (p : Prog) (s : State) : Option (List Event) :=
  match p.run s with
  | .going t => some t.log
  | .ended _ => none
  | .held _ => none

/-- One poll interval and then a released sample: V-T7, where the count wraps; elapsed 2500 of 2500; and 2501, which is too much. -/
theorem test_poll_interval :
    ([(0xFFFFFC18, 0), (0x10, 1500), (0x10, 1501)] : List (Word × Nat)).map (fun p =>
      eventsAfter (.act (.interval .explicit 2)) (polling 2500 p.1 p.1 [false] [p.2]))
    = [some [.busy .explicit .released], some [.busy .explicit .released], some [.busy .explicit .timeout]] := by decide

/-- The example of R95, the line released at the second sample; and V-T6 with a fourth sample that would be released. -/
theorem test_poll_loop :
    ([[true, false], [true, true, false], [true, true, true, false]] : List (List Bool)).map (fun busy =>
      eventsAfter (waitWhileBusy .explicit 0 (polling 2500 0 0 busy [0, 0, 0, 0]).cfg) (polling 2500 0 0 busy [0, 0, 0, 0]))
    = [some [.busy .explicit .released], some [.busy .explicit .released], some [.busy .explicit .timeout]] := by decide

/-- V-W11. -/
theorem test_write_screen_buffer :
    seen (.writeScreenBuffer 0x00) (stAt cfgTest 0x2B)
      = some (evWin 0 1 3 ++ cmdE 0x26 (List.replicate 8 0xFF) ++ evWin 0 1 3 ++ cmdE 0x24 (List.replicate 8 0x00), 0x2B, 0x01) := by
  decide

/-- V-W13: the bus fails at the third data byte, the 19th transfer. -/
theorem test_write_screen_buffer_bus_error :
    seen (.writeScreenBuffer 0xFF) { stAt cfgTest 0x23 with
        shadow := bareDesc 0x10, env := { calm with bus := ⟨List.replicate 18 false ++ [true], 0⟩ } }
      = some (evWin 0 1 3 ++ cmdE 0x24 [0xFF, 0xFF], 0x23, 0x00100063) := by decide

/-- V-W3: the first write after INIT, with a yield of 5 ms. -/
theorem test_write_image_first :
    seen (.writeImage 0x1000 ⟨0, 0, 16, 2⟩ noFlags) (stAt { cfgTest with tYieldMs := 5 } 0x2C)
      = some ([.delay 5] ++ evIC ++ evPon ++ evReleased .powerOn ++ evWin 0 1 3 ++ cmdE 0x26 (List.replicate 8 0x00)
          ++ evWin 0 1 3 ++ cmdE 0x24 (List.replicate 8 0xFF) ++ evWin 0 1 1 ++ cmdE 0x24 [0x10, 0x11, 0x12, 0x13] ++ [.delay 5],
          0x2B, 0x01) := by decide +kernel

/-- W6: the mirrored bitmap. -/
theorem test_write_image_mirror :
    seen (.writeImage 0x1000 ⟨0, 0, 16, 4⟩ ⟨false, true, .direct⟩) (stAt cfgTest 0x2B)
      = some (evWin 0 1 3 ++ cmdE 0x24 [0x16, 0x17, 0x14, 0x15, 0x12, 0x13, 0x10, 0x11], 0x2B, 0x01) := by decide

/-- V-W9. -/
theorem test_write_image_again :
    seen (.writeImageAgain 0x1000 ⟨0, 0, 16, 1⟩ ⟨true, false, .direct⟩) (stAt cfgTest 0x2B)
      = some (evWin 0 1 0 ++ cmdE 0x26 [0xEF, 0xEE], 0x2B, 0x01) := by decide

/-- V-W6, and W2: XPART = WBMP is rejected. -/
theorem test_write_image_part :
    seen (.writeImagePart 0x3000 ⟨31, 0, 32, 4⟩ ⟨0, 0, 16, 4⟩ noFlags) (stAt cfgTest 0x2B)
      = some (evWin 0 0 3 ++ cmdE 0x24 [0x33, 0x37, 0x3B, 0x3F], 0x2B, 0x01) ∧
    seen (.writeImagePart 0x3000 ⟨32, 0, 32, 4⟩ ⟨0, 0, 16, 4⟩ noFlags) (stAt cfgTest 0x2C) = some ([], 0x2C, 0x01) := by
  decide

/-- V-W7's window and bytes in the previous buffer (R145). -/
theorem test_write_image_part_again :
    seen (.writeImagePartAgain 0x3000 ⟨8, 1, 32, 4⟩ ⟨0, 0, 16, 2⟩ ⟨false, true, .direct⟩) (stAt cfgTest 0x2B)
      = some (evWin 0 1 1 ++ cmdE 0x26 [0x39, 0x3A, 0x35, 0x36], 0x2B, 0x01) := by decide

/-- V-W14: the second plane is complemented. -/
theorem test_write_image_dual :
    seen (.writeImageDual 0x1000 0x3000 ⟨0, 0, 16, 1⟩ noFlags) (stAt cfgColour 0x2B)
      = some (evWin 0 1 0 ++ cmdE 0x24 [0x10, 0x11] ++ evWin 0 1 0 ++ cmdE 0x26 [0xCF, 0xCE], 0x2B, 0x01) := by decide

/-- V-F5: UNSUPPORTED without colour. -/
theorem test_write_image_dual_unsupported :
    seen (.writeImageDual 0 0 ⟨0, 0, 0, 0⟩ noFlags) { stAt cfgTest 0x2C with shadow := bareDesc 0x15 }
      = some ([], 0x2C, 0x00150043) := by decide

/-- V-W15, and one row by hand from R124, R125 and R139: column 1, row 1 of a bitmap 4 bytes wide. -/
theorem test_write_image_part_dual :
    seen (.writeImagePartDual 0x1000 0x3000 ⟨40, 0, 32, 4⟩ ⟨0, 0, 8, 4⟩ noFlags) (stAt cfgColour 0x2B)
      = some ([], 0x2B, 0x01) ∧
    seen (.writeImagePartDual 0x1000 0x3000 ⟨8, 1, 32, 4⟩ ⟨0, 0, 8, 1⟩ noFlags) (stAt cfgColour 0x2B)
      = some (evWin 0 0 0 ++ cmdE 0x24 [0x15] ++ evWin 0 0 0 ++ cmdE 0x26 [0xCA], 0x2B, 0x01) := by decide

/-- V-R1, V-R7: Full mode is entered only from Partial mode. -/
theorem test_refresh_full :
    seen (.refresh false) (stAt cfgTest 0x2C) = some (evFull ++ evReleased .fullUpdate, 0x24, 0x01) ∧
    seen (.refresh false) (stAt cfgTest 0x23) = some (evIC ++ evFull ++ evReleased .fullUpdate, 0x21, 0x01) := by decide

/-- V-R5. -/
theorem test_refresh_partial :
    seen (.refresh true) (stAt { cfgTest with waitAfterPartialUpdate := true } 0x25)
      = some (evIC ++ evWin 0 1 3 ++ evPart ++ evReleased .partialUpdate, 0x27, 0x01) := by decide

/-- V-R2, V-R3: initialRefresh is tested before the size; an empty rectangle does nothing. -/
theorem test_refresh_rect_order :
    seen (.refreshRect ⟨0, 0, -1, -1⟩) (stAt cfgTest 0x2C) = some (evFull ++ evReleased .fullUpdate, 0x24, 0x01) ∧
    seen (.refreshRect ⟨16, 0, 8, 4⟩) (stAt cfgTest 0x24) = some ([], 0x24, 0x01) := by decide

/-- W5's second refresh. -/
theorem test_refresh_rect_partial :
    seen (.refreshRect ⟨8, 0, 8, 4⟩) (stAt cfgTest 0x24)
      = some (evIC ++ evPon ++ evReleased .powerOn ++ evWin 1 1 3 ++ evPart, 0x27, 0x01) := by decide

/-- V-R9: an empty write, and the refresh still runs. -/
theorem test_draw_image :
    seen (.drawImage 0x1000 ⟨16, 0, 8, 4⟩ noFlags) (stAt cfgTest 0x2C)
      = some (evFull ++ evReleased .fullUpdate, 0x24, 0x01) := by decide

/-- By hand from R158: the part write of V-W8, then the partial refresh of its rectangle. -/
theorem test_draw_image_part :
    seen (.drawImagePart 0x3000 ⟨8, 1, 32, 4⟩ ⟨0, 0, 16, 2⟩ noFlags) (stAt cfgTest 0x23)
      = some (evWin 0 1 1 ++ cmdE 0x24 [0x35, 0x36, 0x39, 0x3A] ++ evWin 0 1 1 ++ evPart, 0x23, 0x01) := by decide

/-- P3 step 3 with the second plane at 0x3000: x = 5, inverted; then the full refresh. -/
theorem test_draw_image_dual :
    seen (.drawImageDual 0x1000 0x3000 ⟨5, 0, 16, 2⟩ ⟨true, false, .direct⟩) (stAt cfgColour 0x2B)
      = some (evWin 0 1 1 ++ cmdE 0x24 [0xEF, 0xEE, 0xED, 0xEC] ++ evWin 0 1 1 ++ cmdE 0x26 [0x30, 0x31, 0x32, 0x33]
          ++ evIC ++ evFull ++ evReleased .fullUpdate, 0x21, 0x01) := by decide +kernel

/-- By hand from R160: the planes of `test_write_image_part_dual`, then the partial refresh. -/
theorem test_draw_image_part_dual :
    seen (.drawImagePartDual 0x1000 0x3000 ⟨8, 1, 32, 4⟩ ⟨0, 0, 8, 1⟩ noFlags) (stAt cfgColour 0x23)
      = some (evWin 0 0 0 ++ cmdE 0x24 [0x15] ++ evWin 0 0 0 ++ cmdE 0x26 [0xCA] ++ evWin 0 0 0 ++ evPart, 0x23, 0x01) := by
  decide

/-! ## Starts, registers, faults and the observer -/

/-- A state with a descriptor in the request registers and a write of 1 to GO pending. -/
def atGo (d : Desc) (s : State) : State := { s with req := d, inbox := [goMove] }

/-- STATUS after one step. -/
def statusAfter (s : State) : Option Word := (nextOf (step s)).map fun t => statusWord t.status

/-- V-F1, V-F2, V-F3, V-F6. -/
theorem test_dispatch_faults :
    statusAfter (atGo (bareDesc 0x10) State.reset) = some 0x00100033 ∧
    statusAfter (atGo (bareDesc 0x2006) State.reset) = some 0x00060013 ∧
    statusAfter (atGo (bareDesc 0x2015) State.reset) = some 0x00150023 ∧
    statusAfter (atGo { bareDesc 0x10 with w7 := 0x1FF } (stAt cfgTest 0x2C)) = some 0x00100023 := by decide

/-- P2 step 6, P3 step 7: a dropped start, and an INIT with a reserved bit under a fault. -/
theorem test_start_under_fault :
    statusAfter (atGo (bareDesc 2) { stAt cfgTest 0x38 with
      status := { statusReset with fault := true, faultCode := 5, faultOp := 0x11 } }) = some 0x00110453 ∧
    statusAfter (atGo (bareDesc 0x2001) { stAt cfgTest 0x23 with
      status := { statusReset with fault := true, faultCode := 1, faultOp := 6, timeout := true } }) = some 0x00010123 := by
  decide

/-- Section 0: GEOM, CAPS and BUSYTO of CFG_T; CAPS with colour, and of P4. -/
theorem test_configuration_registers :
    geomWord cfgTest = 0x00040010 ∧ cfgTest.busyTimeoutUs = 0x00989680 ∧ capsWord cfgTest = 0x000000FA ∧
    capsWord cfgColour = 0x000000FB ∧ capsWord cfgBare = 0x0000009A := by decide

/-- V-T1: the wire of a command byte 0x24. -/
theorem test_wire_of_command :
    wireFrame .cmd 0x24 State.reset = ⟨.low, .low, [false, false, true, false, false, true, false, false]⟩ := by decide

/-- P3 step 3 and R60: the colour plane's bytes in PREV, the current plane's in CUR, nothing outside the window; a reset
pulse makes all unknown. -/
theorem test_observer :
    let log := evWin 0 1 1 ++ cmdE 0x24 [0xEF, 0xEE, 0xED, 0xEC] ++ evWin 0 1 1 ++ cmdE 0x26 [0xF0, 0xF1, 0xF2, 0xF3]
    let o := observeLog (pdDefault 4) log
    [ramAt .cur o 0 0, ramAt .cur o 1 0, ramAt .cur o 0 1, ramAt .cur o 1 1, ramAt .prev o 1 1, ramAt .cur o 0 2]
      = [some 0xEF, some 0xEE, some 0xED, some 0xEC, some 0xF3, none] ∧
    observeLog (pdDefault 4) (log ++ [.resetPulse .pulse]) = observerUnknown := by decide

/-- Log 4: a byte written with 0 is no longer listed; the canonical form of small memories. -/
theorem test_memory_write :
    memWrite (memWrite (memWrite [] 7 0x55) 3 0xAA) 7 0x00 = [(3, 0xAA)] ∧ memRead [(3, 0xAA)] 7 = 0 ∧
    memWf [(3, 0xAA), (7, 0x55)] = true ∧ memWf [(7, 0x55), (3, 0xAA)] = false ∧ memWf [(3, 0x00)] = false ∧
    memWf [(4294967296, 0x01)] = false := by decide

/-! ## The host while a request runs -/

/-- What the host has read and the log, with READY and WAITING, where a request ends or the host holds it. -/
def readBack (i : Instr) (s : State) : Option (List Word × List Event × Bool × Bool) :=
  (nextOf (exec i s)).map fun t => (t.replies, t.log, t.status.ready, t.status.waiting)

/-- Why a step is refused. -/
def refusalOf (o : Host.Outcome State Fault Refusal) : Option Refusal :=
  match o with
  | .next _ => none
  | .fault _ => none
  | .refused r => some r

/-- R54, D46: after the latch and before WAIT_BUSY's poll a read gives READY = 0, WAITING = 0; after the poll's start WAITING = 1. -/
theorem test_status_before_first_poll :
    readBack .waitBusy { stAt cfgTest 0x2C with inbox := [.read 0x24 4, .pass, .read 0x24 4, .hold] }
      = some ([0x00, 0x04], [], false, true) := by decide +kernel

/-- R54, R19, R26: after an INIT's latch FAULT is still 1 and initDone 0; after its first step, before LineSetup, FAULT is 0 and
initDone 1. -/
theorem test_fault_before_init_step :
    readBack (.init .pulse) { stAt cfgBare 0x0C with
        status := { statusReset with fault := true, faultCode := 1, faultOp := 6 }
        inbox := [.read 0x24 4, .read 0x28 4, .pass, .read 0x24 4, .read 0x28 4, .hold] }
      = some ([0x00060012, 0x0C, 0x00, 0x2C], [], false, false) := by decide +kernel

/-- R6, R45: an access that R30 refuses leaves the byte sent before it in the log, and the next step refuses it. -/
theorem test_refused_access_in_flight :
    readBack .powerOn { stAt cfgTest 0x2C with inbox := [.pass, .read 0x28 4, .read 0x24 1] }
      = some ([0x2C], [.cmd 0x22], false, false) ∧
    (nextOf (exec .powerOn { stAt cfgTest 0x2C with inbox := [.read 0x24 1] })).map (fun t => refusalOf (step t))
      = some (some .unalignedAccess) := by decide +kernel

/-- R53: the byte is overwritten twice before it is read; whatever the first race gave, the old byte is what the second write
replaced. -/
theorem test_raced_byte_old_is_memory :
    ∀ p ∈ [([false, false], (0x55 : Byte)), ([true, false], 0x55), ([false, true], 0x99)],
      seen (.writeImage 0x1000 ⟨0, 0, 8, 1⟩ noFlags)
          { stAt cfgTest 0x23 with env := { calm with race := ⟨p.1, 0⟩ }, inbox := [.poke .direct 0x1000 0x55, .poke .direct 0x1000 0x99] }
        = some (evWin 0 0 0 ++ cmdE 0x24 [p.2], 0x23, 0x01) := by decide +kernel

/-- R46(a): the byte of two overlapping planes is overwritten before the first read; one race decides both reads. -/
theorem test_raced_byte_is_one :
    ∀ won ∈ [false, true],
      let b : Byte := if won then 0x99 else 0x10
      seen (.writeImageDual 0x1000 0x1000 ⟨0, 0, 8, 1⟩ noFlags)
          { stAt cfgColour 0x2B with env := { calm with race := ⟨[won], 0⟩ }, inbox := [.poke .direct 0x1000 0x99] }
        = some (evWin 0 0 0 ++ cmdE 0x24 [b] ++ evWin 0 0 0 ++ cmdE 0x26 [~~~b], 0x2B, 0x01) := by decide +kernel

/-- R202: the run ends with its last start; what the host reads after it is not of the run. -/
theorem test_end_of_run :
    (endOfRun 12 { State.reset with env := calm, inbox := startMoves (.init .pulse) ++ [.read 0x24 4, .engineReset] }).map
        (fun t => (t.log, t.replies, statusWord t.status))
      = some ([.lineSetup, .resetPulse .pulse, .delay 10, .busSetup], [], 0x01) := by decide +kernel

/-! ## Witnesses: a state and operands that meet the hypotheses of each obligation, clause by clause

Obligations without hypotheses (WorkedEncodings, InvariantAtReset, CoordinatesSignExtended) have none. -/

/-- A next state that has a decidable property. -/
theorem next_of {o : Host.Outcome State Fault Refusal} {p : State → Bool} (h : (nextOf o).any p = true) :
    ∃ t, o = .next t ∧ p t = true := by
  cases o with
  | next t => exact ⟨t, rfl, h⟩
  | fault f => exact absurd h (by simp [nextOf])
  | refused r => exact absurd h (by simp [nextOf])

/-- A state with a request in flight: READY is 0 and these steps are still to do. -/
def flying (p : Prog) (c : Cfg) (w : Word) : State :=
  { stAt c w with status := { statusReset with ready := false }, todo := p }

/-- What is left of a POWER_ON before its first byte. -/
def powerOnLeft : Prog := .seq (sendSeq cfgTest.pd.seqPowerOn) (.act .complete)

theorem test_hyp_DecodeOfEncode : (Instr.drawImagePartDual 0xFFFFFFFF 0 okSub okRect ⟨true, false, .readThrough⟩).wf = true := by
  decide

theorem test_hyp_DecodedIsWellFormed :
    decode ⟨0x00000021, 0x80007FFF, 0x7FFF8000, 0, 0, 0, 0, 0⟩ = .ok (.refreshRect ⟨32767, -32768, -32768, 32767⟩) := rfl

/-- The ends of each illegal range, and the legal opcodes beside them; a descriptor of the table's last row. -/
theorem test_hyp_DecodeCases :
    (∀ op ∈ [0x00, 0x06, 0x0F, 0x17, 0x1F, 0x22, 0x2F, 0x34, (0xFF : Byte)], illegalOpcode op) ∧
    (∀ op ∈ [0x01, 0x05, 0x10, 0x16, 0x20, 0x21, 0x30, (0x33 : Byte)], ¬ illegalOpcode op) ∧
    reservedSet ⟨0x00002001, 0, 0, 0, 0, 0, 0, 0⟩ ∧ reservedSet ⟨0x80000001, 0, 0, 0, 0, 0, 0, 0⟩ ∧
    reservedSet ⟨1, 0, 0, 0, 0, 0, 0, 0x100⟩ ∧ ¬ reservedSet ⟨0x00001F01, 0, 0, 0, 0, 0, 0, 0xFF⟩ ∧
    ((⟨0x00000733, 1, 2, 3, 4, 5, 6, 7⟩ : Desc).w0.toNat % 256 = 0x33 ∧ ¬ reservedSet ⟨0x00000733, 1, 2, 3, 4, 5, 6, 7⟩) := by
  refine ⟨?_, ?_, ?_, ?_, ?_, ?_, ?_⟩ <;> simp [illegalOpcode, reservedSet]

/-- Two POWER_ON descriptors that differ in every field, and two INITs that differ in all but PULLDOWN. -/
theorem test_hyp_UnlistedFieldsIgnored :
    (let d : Desc := ⟨0x00001F02, 1, 2, 3, 4, 5, 6, 7⟩
     let e : Desc := ⟨0x00000002, 0, 0, 0, 0, 0, 0, 0⟩
     d.op = e.op ∧ ¬ reservedSet d ∧ ¬ reservedSet e ∧ sameFields d.op d e) ∧
    (let d : Desc := ⟨0x00001F01, 1, 2, 3, 4, 5, 6, 7⟩
     let e : Desc := ⟨0x00000801, 0, 0, 0, 0, 0, 0, 0⟩
     d.op = e.op ∧ ¬ reservedSet d ∧ ¬ reservedSet e ∧ sameFields d.op d e) := by
  simp [reservedSet, Desc.op, sameFields, sameFlag]

/-- Also under a fault, for an INIT (R17); and a request in flight, as a hold leaves one. -/
theorem test_hyp_StepRunsDecoded :
    (let s := atGo (bareDesc 2) State.reset
     cfgWf s.cfg = true ∧ s.todo = .skip ∧ s.inbox = .write 0x20 4 1 :: [] ∧ startTaken 1 s = true ∧
       decode s.req = .ok .powerOn) ∧
    (let s := atGo (bareDesc 1) { State.reset with status := { statusReset with fault := true } }
     cfgWf s.cfg = true ∧ s.todo = .skip ∧ s.inbox = .write 0x20 4 1 :: [] ∧ startTaken 1 s = true ∧
       decode s.req = .ok (.init .pulse)) ∧
    ∃ s, exec .powerOn { stAt cfgTest 0x2C with inbox := [.hold] } = .next s ∧
      (cfgWf s.cfg && decide (s.todo ≠ .skip) && s.env.timeRuns && decide (nextRefusal s.inbox = none)) = true :=
  ⟨⟨by decide, by decide, rfl, by decide, rfl⟩, ⟨by decide, by decide, rfl, by decide, rfl⟩, next_of (by decide +kernel)⟩

/-- A faulted state that a start of POWER_ON finds (P2 step 6). -/
def faulted : State :=
  { State.reset with req := bareDesc 2, status := { statusReset with fault := true, faultCode := 5, faultOp := 0x11 } }

/-- Each way a start is taken, and each way it is not. -/
theorem test_hyp_StartTakenWhen :
    startTaken 0xFFFFFFFF State.reset = true ∧ startTaken 1 { faulted with req := bareDesc 1 } = true ∧
    startTaken 1 faulted = false ∧ startTaken 0xFFFFFFFE State.reset = false ∧
    startTaken 1 { State.reset with status := { statusReset with ready := false } } = false := by decide

theorem test_hyp_DroppedStarts :
    (let s : State := { faulted with inbox := [.write 0x20 4 3] }
     cfgWf s.cfg = true ∧ s.todo = .skip ∧ s.inbox = .write 0x20 4 3 :: [] ∧ (3 : Word).toNat % 2 = 1 ∧ s.status.ready = true ∧
       s.status.fault = true ∧ s.req.w0.toNat % 256 ≠ 0x01) ∧
    (let s : State := { State.reset with inbox := [.write 0x20 4 2] }
     cfgWf s.cfg = true ∧ s.todo = .skip ∧ s.inbox = .write 0x20 4 2 :: [] ∧ (2 : Word).toNat % 2 = 0) ∧
    (let s : State := { State.reset with inbox := [.write 0x20 4 1, .awaitReady], status := { statusReset with ready := false } }
     cfgWf s.cfg = true ∧ s.inbox = .write 0x20 4 1 :: [.awaitReady] ∧ (1 : Word).toNat % 2 = 1 ∧ s.status.ready = false ∧
       hostSilent { s with inbox := [.awaitReady] } = true) ∧
    (let s : State := { State.reset with inbox := [.write 0x20 4 0], status := { statusReset with ready := false } }
     cfgWf s.cfg = true ∧ s.inbox = .write 0x20 4 0 :: [] ∧ (0 : Word).toNat % 2 = 0 ∧
       hostSilent { s with inbox := [] } = true) := by decide

/-- With a silent host, and with one that acts before the fault is seen. -/
theorem test_hyp_DescriptorFaults :
    (let s := atGo (bareDesc 0x34) State.reset
     cfgWf s.cfg = true ∧ s.todo = .skip ∧ s.inbox = .write 0x20 4 1 :: [] ∧ startTaken 1 s = true ∧ illegalOpcode s.req.op ∧
       hostSilent { s with inbox := [] } = true ∧ hostNoReset { s with inbox := [] } = true) ∧
    (let s : State := { State.reset with req := bareDesc 0x2033, inbox := [goMove, .read 0x24 4, .hold] }
     cfgWf s.cfg = true ∧ s.todo = .skip ∧ s.inbox = .write 0x20 4 1 :: [.read 0x24 4, .hold] ∧ startTaken 1 s = true ∧
       reservedSet s.req ∧ hostNoReset { s with inbox := [.read 0x24 4, .hold] } = true) :=
  ⟨⟨by decide, by decide, rfl, by decide, by simp [illegalOpcode, atGo, Desc.op, bareDesc], by decide, by decide⟩,
   ⟨by decide, by decide, rfl, by decide, by simp [reservedSet, bareDesc], by decide⟩⟩

/-- The reset state with one host move pending. -/
def withMove (m : HostMove) : State := { State.reset with inbox := [m] }

/-- A machine between two requests and one with POWER_ON in flight. -/
theorem test_hyp_RequestRegisters :
    (0 < 8 ∧ 7 < 8) ∧ (cfgWf State.reset.cfg = true ∧ State.reset.todo = .skip) ∧
    let s := flying powerOnLeft cfgTest 0x2C
    cfgWf s.cfg = true ∧ (s.todo.first s.flags).isSome = true := by decide

/-- Every offset from GO to the reserved ones, with the words of the reset state; and POWER_ON in flight. -/
theorem test_hyp_RegisterReads :
    (let s := State.reset
     cfgWf s.cfg = true ∧ s.todo = .skip ∧
       [(0x20, (0 : Word)), (0x24, 1), (0x28, 0xC), (0x2C, 0x00040010), (0x30, 0xFA), (0x34, 10000000), (0x38, 0), (0x3C, 0)]
         = [(0x20, (0 : Word)), (0x24, statusWord s.status), (0x28, stateWord s.flags), (0x2C, geomWord s.cfg),
           (0x30, capsWord s.cfg), (0x34, s.cfg.busyTimeoutUs), (0x38, 0), (0x3C, 0)]) ∧
    let s := flying powerOnLeft cfgTest 0x2C
    cfgWf s.cfg = true ∧ (s.todo.first s.flags).isSome = true := by decide

/-- Between requests, and in flight after the last byte. -/
theorem test_hyp_StatusRegister :
    (cfgWf State.reset.cfg = true ∧ State.reset.todo = .skip) ∧
    let s := flying (.seq .skip (.act .complete)) cfgTest 0x2D
    cfgWf s.cfg = true ∧ (s.todo.first s.flags).isSome = true := by decide

/-- Between requests, and in flight where a flag decides which step is next. -/
theorem test_hyp_StateRegister :
    (cfgWf State.reset.cfg = true ∧ State.reset.todo = .skip) ∧
    let s := flying (.seq (powerOff cfgTest) (.act .complete)) cfgTest 0x2D
    cfgWf s.cfg = true ∧ s.todo.first s.flags = some (.send (.cmd, 0x22)) := by decide

theorem test_hyp_ConfigurationRegisters :
    cfgWf cfgTest = true ∧ State.reset.todo = .skip ∧
    (let s := flying powerOnLeft cfgTest 0x2C
     cfgWf s.cfg = true ∧ (s.todo.first s.flags).isSome = true) ∧
    ∃ t, step (withMove (.write 0x2C 4 7)) = .next t :=
  ⟨by decide, by decide, by decide, (next_of (p := fun _ => true) (by decide)).imp fun _ h => h.1⟩

/-- Reserved offsets; the first offset outside the block; narrow, wide and misaligned accesses at the ends of the
block; a wide access while a request is in flight. -/
theorem test_hyp_ReservedAndRefusedAccesses :
    cfgWf State.reset.cfg = true ∧ State.reset.todo = .skip ∧
    (let s := flying powerOnLeft cfgTest 0x2C
     cfgWf s.cfg = true ∧ (s.todo.first s.flags).isSome = true) ∧
    (0x40 ≤ 0x40 ∧ (withMove (.read 0x40 4)).inbox = .read 0x40 4 :: []) ∧
    (0x00 < 0x40 ∧ 3 ≠ 4 ∧ (withMove (.write 0x00 3 0)).inbox = .write 0x00 3 0 :: []) ∧
    (0x38 < 0x40 ∧ 8 ≠ 4 ∧ (withMove (.read 0x38 8)).inbox = .read 0x38 8 :: []) ∧
    (let s : State := { flying powerOnLeft cfgTest 0x2C with inbox := [.write 0x20 8 1] }
     cfgWf s.cfg = true ∧ 0x20 < 0x40 ∧ 8 ≠ 4 ∧ s.inbox = .write 0x20 8 1 :: []) ∧
    (0x3F < 0x40 ∧ 0x3F % 4 ≠ 0 ∧ (withMove (.read 0x3F 4)).inbox = .read 0x3F 4 :: []) := by decide

theorem test_hyp_ResetValues :
    (cfgWf (withMove .engineReset).cfg = true ∧ (withMove .engineReset).inbox = .engineReset :: [] ∧
      (withMove .engineReset).todo = .skip) ∧
    (let s : State := { flying powerOnLeft cfgTest 0x2C with inbox := [.engineReset] }
     cfgWf s.cfg = true ∧ s.inbox = .engineReset :: [] ∧ (s.todo.first s.flags).isSome = true) := by decide

/-- A write in Partial mode, by a start; a request in flight; and, which no run reaches, a reset step left without a reset line: the
line stays undriven (R98). -/
theorem test_hyp_InvariantKept :
    (∃ t, (stAt cfgTest 0x23).Inv = true ∧ cfgTest.pd.seqPowerOn ≠ [] ∧
      step (atGo (encode (.writeScreenBuffer 0)) (stAt cfgTest 0x23)) = .next t ∧ t.status.ready = true) ∧
    (∃ t, (flying powerOnLeft cfgTest 0x2C).Inv = true ∧ step (flying powerOnLeft cfgTest 0x2C) = .next t ∧ t.status.ready = true) ∧
    ∃ t, (flying (.seq (.act .resetLow) (.act .complete)) cfgBare 0x2C).Inv = true ∧
      step (flying (.seq (.act .resetLow) (.act .complete)) cfgBare 0x2C) = .next t ∧ t.lines.rst = .released := by
  obtain ⟨t, h, hr⟩ := next_of (o := step (atGo (encode (.writeScreenBuffer 0)) (stAt cfgTest 0x23)))
    (p := fun t => t.status.ready) (by decide +kernel)
  obtain ⟨u, k, kr⟩ := next_of (o := step (flying powerOnLeft cfgTest 0x2C)) (p := fun t => t.status.ready) (by decide +kernel)
  obtain ⟨v, m, mr⟩ := next_of (o := step (flying (.seq (.act .resetLow) (.act .complete)) cfgBare 0x2C))
    (p := fun t => decide (t.lines.rst = .released)) (by decide +kernel)
  exact ⟨⟨t, by decide, by decide, h, hr⟩, ⟨u, by decide, k, kr⟩, v, by decide, m, of_decide_eq_true mr⟩

/-- A request that runs while the host writes, reads and starts (R54). -/
def busyHost : State :=
  { stAt cfgTest 0x2C with inbox := [.pass, .write 0x00 4 9, .write 0x20 4 1, .pass, .read 0x24 4, .poke .direct 0x1000 7] }

/-- A request by a start, one with a busy host, and one step of the engine of a request in flight. -/
theorem test_hyp_BusLogOnlyGrows :
    (hostNoReset busyHost = true ∧ (∃ t, exec .powerOn busyHost = .next t ∧ t.status.drop = true) ∧
      ∃ t, step (atGo (bareDesc 2) (stAt cfgTest 0x2C)) = .next t ∧ decide (t.log ≠ []) = true) ∧
    let s : State := { flying powerOnLeft cfgTest 0x2C with inbox := [.pass, .hold] }
    s.todo ≠ .skip ∧ s.inbox = .pass :: .hold :: [] ∧ ∃ t, step s = .next t ∧ decide (t.log = [.cmd 0x22]) = true :=
  ⟨⟨by decide, next_of (by decide +kernel), next_of (by decide +kernel)⟩, by decide, rfl, next_of (by decide +kernel)⟩

/-- Every flag change that FlagWriters speaks of happens: the request, the STATE before and the STATE after. -/
theorem test_hyp_FlagWriters :
    ∀ p ∈ [(Instr.powerOn, (0x2C : Word), (0x2D : Word)), (.powerOff, 0x23, 0x20), (.init .pulse, 0x31, 0x2C),
        (.writeScreenBuffer 0, 0x2C, 0x2B), (.refresh false, 0x2B, 0x21), (.refresh false, 0x2C, 0x24),
        (.hibernate, 0x23, 0x30), (.init .pulse, 0x3C, 0x2C), (.init .pulse, 0x0C, 0x2C)],
      hostNoReset (stAt cfgTest p.2.1) = true ∧ ∃ t, exec p.1 (stAt cfgTest p.2.1) = .next t ∧ stateWord t.flags = p.2.2 := by
  intro p hp
  refine ⟨rfl, ?_⟩
  have h : (nextOf (exec p.1 (stAt cfgTest p.2.1))).any (fun t => decide (stateWord t.flags = p.2.2)) = true := by
    revert p
    decide +kernel
  obtain ⟨t, ht, hq⟩ := next_of h
  exact ⟨t, ht, of_decide_eq_true hq⟩

/-- A request with a busy host; one that was held and is then let go on; the end of a run after its last start; and the two ways
a wait hangs with a stopped time source. -/
theorem test_hyp_EveryRequestEnds :
    (cfgWf busyHost.cfg = true ∧ busyHost.env.timeRuns = true ∧ hostLegal busyHost = true ∧ hostNoHold busyHost = true) ∧
    (∃ t, exec .powerOn { stAt cfgTest 0x2C with inbox := [.pass, .hold] } = .next t ∧
      (decide (t.todo ≠ .skip) && hostLegal { t with inbox := [] } && hostNoHold { t with inbox := [] }) = true) ∧
    (∃ t, runEnded (atGo (bareDesc 2) (stAt cfgTest 0x2C)) = false ∧ step (atGo (bareDesc 2) (stAt cfgTest 0x2C)) = .next t ∧
      runEnded t = true) ∧
    (let s : State := { stAt cfgBare 0x2C with env := { calm with timeRuns := false } }
     cfgWf s.cfg = true ∧ s.env.timeRuns = false ∧ hostSilent s = true ∧ s.flags.initDone = true ∧ s.cfg.hasBusy = false ∧
       s.cfg.tPartialRefreshMs ≠ 0) ∧
    (let s : State := { stAt cfgTest 0x2C with env := { calm with timeRuns := false, busy := ⟨[true], 0⟩ } }
     cfgWf s.cfg = true ∧ s.env.timeRuns = false ∧ hostSilent s = true ∧ s.flags.initDone = true ∧ s.cfg.hasBusy = true ∧
       s.env.busy.peek Config.freeBusyLevel 0 = s.cfg.busyLevel) := by
  obtain ⟨t, ht, h⟩ := next_of (o := step (atGo (bareDesc 2) (stAt cfgTest 0x2C))) (p := fun t => runEnded t) (by decide +kernel)
  exact ⟨by decide, next_of (by decide +kernel), ⟨t, by decide, ht, h⟩, by decide, by decide⟩

/-- A request with a busy host that gives a next state: the drop of its second start is seen. A request held after one byte. -/
theorem test_hyp_ReadyAfterRequest :
    (busyHost.status.waiting = false ∧ ∃ t, exec .powerOn busyHost = .next t ∧ t.status.drop = true) ∧
    let s := stAt cfgTest 0x2C
    let ms : List HostMove := [.pass, .write 0x00 4 9, .pass]
    let rest : List HostMove := [.read 0x24 4]
    s.env.timeRuns = true ∧ hostLegal { s with inbox := ms ++ rest } = true ∧ hostNoHold { s with inbox := ms } = true ∧
      ∃ t, exec .powerOn { s with inbox := ms ++ .hold :: rest } = .next t ∧ decide (t.todo ≠ .skip) = true :=
  ⟨⟨rfl, next_of (by decide +kernel)⟩, rfl, by decide, by decide, next_of (by decide +kernel)⟩

theorem test_hyp_RequestRegistersNotSeen :
    busyHost.inbox.any readsRequest = false ∧ ∃ t, exec .powerOn busyHost = .next t ∧ t.req.w0 = 9 := by
  obtain ⟨t, ht, h⟩ := next_of (o := exec .powerOn busyHost) (p := fun t => decide (t.req.w0 = 9)) (by decide +kernel)
  exact ⟨by decide, t, ht, of_decide_eq_true h⟩

/-- WRITE_SCREEN_BUFFER while hibernating. -/
theorem test_hyp_NoTransferWhileHibernating :
    isInit (.writeScreenBuffer 0) = false ∧ (stAt cfgTest 0x3C).flags.hibernating = true ∧ hostNoReset (stAt cfgTest 0x3C) = true ∧
      ∃ t, exec (.writeScreenBuffer 0) (stAt cfgTest 0x3C) = .next t ∧ t.status.faultCode = 5 := by
  obtain ⟨t, ht, h⟩ := next_of (o := exec (.writeScreenBuffer 0) (stAt cfgTest 0x3C))
    (p := fun t => decide (t.status.faultCode = 5)) (by decide +kernel)
  exact ⟨rfl, rfl, rfl, t, ht, of_decide_eq_true h⟩

theorem test_hyp_HostSideFrame :
    ∀ i ∈ [Instr.writeImage 0x1000 ⟨0, 0, 8, 1⟩ noFlags, .writeScreenBuffer 0xFF], hostSilent (stAt cfgTest 0x23) = true ∧
      ∃ t, exec i (stAt cfgTest 0x23) = .next t := by
  intro i hi
  have h : (nextOf (exec i (stAt cfgTest 0x23))).any (fun _ => true) = true := by
    revert i
    decide +kernel
  exact ⟨rfl, (next_of h).imp fun _ h => h.1⟩

/-- A wait without a busy line, an INIT, and a wait that polls. -/
theorem test_hyp_TimerFrame :
    (hostNoReset (stAt cfgBare 0x2C) = true ∧ cfgBare.hasBusy = false ∧ ∃ t, exec .waitBusy (stAt cfgBare 0x2C) = .next t) ∧
    (hostNoReset (stAt cfgTest 0x2C) = true ∧ isInit (.init .pulse) = true ∧
      ∃ t, exec (.init .pulse) (stAt cfgTest 0x2C) = .next t) ∧
    ∃ t, exec .waitBusy { stAt cfgTest 0x2C with t0 := 5 } = .next t ∧ t.t0 = 0 := by
  obtain ⟨t, ht, h⟩ := next_of (o := exec .waitBusy { stAt cfgTest 0x2C with t0 := 5 }) (p := fun t => decide (t.t0 = 0))
    (by decide +kernel)
  exact ⟨⟨rfl, rfl, (next_of (p := fun _ => true) (by decide +kernel)).imp fun _ h => h.1⟩,
    ⟨rfl, rfl, (next_of (p := fun _ => true) (by decide +kernel)).imp fun _ h => h.1⟩, t, ht, of_decide_eq_true h⟩

/-- The request at STATE 0x2C or another value, with one bus failure or one source error first. -/
def failing (w : Word) : State :=
  { stAt cfgTest w with env := { calm with bus := ⟨[true], 0⟩, source := ⟨[true], 0⟩ } }

/-- A request that ends without a fault, and one that does not. -/
theorem test_hyp_FaultIsRecorded :
    hostNoReset (stAt cfgTest 0x2C) = true ∧ (∃ t, exec .powerOn (stAt cfgTest 0x2C) = .next t ∧ t.faultRecord = []) ∧
      hostNoReset (failing 0x2C) = true ∧ ∃ t, exec .powerOn (failing 0x2C) = .next t ∧ t.faultRecord = [⟨.busError, 0⟩] := by
  obtain ⟨t, ht, h⟩ := next_of (o := exec .powerOn (stAt cfgTest 0x2C)) (p := fun t => decide (t.faultRecord = [])) (by decide +kernel)
  obtain ⟨u, hu, k⟩ := next_of (o := exec .powerOn (failing 0x2C)) (p := fun t => decide (t.faultRecord = [⟨.busError, 0⟩]))
    (by decide +kernel)
  exact ⟨rfl, ⟨t, ht, of_decide_eq_true h⟩, rfl, u, hu, of_decide_eq_true k⟩

/-- Each fault an execution can raise: NOT_INITIALIZED, UNSUPPORTED, HIBERNATING_ACCESS, BUS_ERROR, SOURCE_ERROR. -/
theorem test_hyp_FaultsOfEachRequest :
    ∀ p ∈ [(FaultKind.notInitialized, Instr.powerOn, stAt cfgTest 0x0C),
        (.unsupported, .drawImageDual 0 0 ⟨0, 0, 0, 0⟩ noFlags, stAt cfgTest 0x2C),
        (.hibernatingAccess, .hibernate, stAt cfgTest 0x3C), (.busError, .powerOn, failing 0x2C),
        (.sourceError, .writeImage 0x1000 ⟨0, 0, 8, 1⟩ noFlags,
          { stAt cfgTest 0x23 with env := { calm with source := ⟨[true], 0⟩ } })],
      hostNoReset p.2.2 = true ∧
        ∃ t, exec p.2.1 p.2.2 = .next t ∧ t.faultRecord = p.2.2.faultRecord ++ [{ kind := p.1, op := p.2.2.shadow.op }] := by
  intro p hp
  have h : hostNoReset p.2.2 = true ∧ (nextOf (exec p.2.1 p.2.2)).any
      (fun t => decide (t.faultRecord = p.2.2.faultRecord ++ [{ kind := p.1, op := p.2.2.shadow.op }])) = true := by
    revert p
    decide +kernel
  obtain ⟨t, ht, hq⟩ := next_of h.2
  exact ⟨h.1, t, ht, of_decide_eq_true hq⟩

/-- From any flags, with and without the optional lines; held after the first step; from a clean entry with nothing in the memories
but an environment. -/
theorem test_hyp_InitResult :
    undisturbed (stAt cfgTest 0x3C) = true ∧ undisturbed (stAt cfgBare 0x2D) = true ∧
    (let s := { stAt cfgTest 0x0C with inbox := [.pass, .hold] }
     cfgWf s.cfg = true ∧ s.inbox = .pass :: .hold :: []) ∧
    (cleanEntry { State.reset with env := calm } ∧ undisturbed { State.reset with env := calm } = true ∧
      decode (bareDesc 0x801) = .ok (.init .pulldown)) ∧ State.reset.inbox.any isStart = false :=
  ⟨by decide, by decide, ⟨by decide, rfl⟩, ⟨rfl, by decide, rfl⟩, rfl⟩

theorem test_hyp_PowerOnResult :
    (undisturbed (stAt cfgTest 0x2D) = true ∧ (stAt cfgTest 0x2D).flags.initDone = true ∧ (stAt cfgTest 0x2D).flags.powerOn = true) ∧
    (let s := stAt cfgTest 0x2C
     undisturbed s = true ∧ s.flags.initDone = true ∧ s.flags.powerOn = false ∧ s.flags.hibernating = false ∧
       busOk (seqBytes s.cfg.pd.seqPowerOn).length s) := by
  unfold busOk
  decide

theorem test_hyp_PowerOffResult :
    (undisturbed (stAt cfgTest 0x3C) = true ∧ (stAt cfgTest 0x3C).flags.initDone = true ∧ (stAt cfgTest 0x3C).flags.powerOn = false) ∧
    (let s := stAt cfgTest 0x23
     undisturbed s = true ∧ s.flags.initDone = true ∧ s.flags.powerOn = true ∧ s.flags.hibernating = false ∧
       busOk (seqBytes s.cfg.pd.seqPowerOff).length s) := by
  unfold busOk
  decide

/-- Powered and not, with and without a reset line. -/
theorem test_hyp_HibernateResult :
    ∀ c ∈ [cfgTest, cfgBare],
      (let s := stAt c 0x23
       undisturbed s = true ∧ mayTransfer s = true ∧ s.flags.powerOn = true ∧
         busOk ((seqBytes s.cfg.pd.seqPowerOff).length + (seqBytes s.cfg.pd.seqDeepSleep).length) s) ∧
      (let s := stAt c 0x2C
       undisturbed s = true ∧ mayTransfer s = true ∧ s.flags.powerOn = false ∧
         busOk (seqBytes s.cfg.pd.seqDeepSleep).length s) := by
  unfold busOk
  decide

theorem test_hyp_WaitBusyResult : undisturbed (stAt cfgTest 0x3C) = true ∧ (stAt cfgTest 0x3C).flags.initDone = true := by decide

/-- After INIT (mode entry, both buffers), and in Partial mode after the first refresh (one buffer). -/
theorem test_hyp_FillResult :
    ∀ w ∈ [0x2C, 0x23],
      let s := stAt cfgTest (BitVec.ofNat 32 w)
      undisturbed s = true ∧ mayTransfer s = true ∧
        busOk (busBytes (partialEvents s.cfg s.flags .released ++ fillEvents s.cfg s.flags 0xA5)).length s := by
  unfold busOk
  decide +kernel

/-- The six write requests, on the colour panel, just after INIT. -/
theorem test_hyp_WriteImageResult :
    ∀ i ∈ [Instr.writeImage 0x1000 ⟨-3, 1, 16, 4⟩ noFlags, .writeImageAgain 0x1000 ⟨0, 0, 16, 1⟩ ⟨true, false, .direct⟩,
        .writeImagePart 0x3000 ⟨8, 1, 32, 4⟩ ⟨0, 0, 16, 2⟩ noFlags,
        .writeImagePartAgain 0x3000 ⟨31, 0, 32, 4⟩ ⟨0, 0, 16, 4⟩ ⟨false, true, .readThrough⟩,
        .writeImageDual 0x1000 0x3000 ⟨5, 0, 16, 2⟩ noFlags,
        .writeImagePartDual 0x1000 0x3000 ⟨8, 1, 32, 4⟩ ⟨0, 0, 8, 1⟩ noFlags],
      let s := stAt cfgColour 0x2C
      isImageWrite i = true ∧ undisturbed s = true ∧ mayTransfer s = true ∧ (isDual i = true → s.cfg.hasColor = true) ∧
        sourceOk (writeReads (planesOf i) s) s ∧ busOk (busBytes (writeEvents (planesOf i) .released s)).length s := by
  unfold sourceOk busOk
  decide +kernel

/-- The four sides of R140's range, for the three requests. -/
theorem test_hyp_PartOutsideBitmap :
    (∀ p ∈ [SubImage.mk (-1) 0 32 4, ⟨32, 0, 32, 4⟩, ⟨0, -1, 32, 4⟩, ⟨0, 4, 32, 4⟩],
      p.xPart < 0 ∨ p.xPart ≥ p.wBmp ∨ p.yPart < 0 ∨ p.yPart ≥ p.hBmp) ∧
    hostNoReset (stAt cfgColour 0x2C) = true ∧
    ∀ i ∈ [Instr.writeImagePart 0 ⟨32, 0, 32, 4⟩ okRect noFlags, .writeImagePartAgain 0 ⟨32, 0, 32, 4⟩ okRect noFlags,
        .writeImagePartDual 0 0 ⟨32, 0, 32, 4⟩ okRect noFlags], ∃ t, exec i (stAt cfgColour 0x2C) = .next t := by
  refine ⟨by decide, rfl, fun i hi => ?_⟩
  have h : (nextOf (exec i (stAt cfgColour 0x2C))).any (fun _ => true) = true := by
    revert i
    decide +kernel
  exact (next_of h).imp fun _ h => h.1

/-- An empty write while hibernating; an empty partial refresh by REFRESH_RECT and by DRAW_IMAGE. -/
theorem test_hyp_NoOpRequests :
    (let i := Instr.writeImage 0 ⟨0, 0, 0, 0⟩ noFlags
     let s := stAt cfgTest 0x3C
     undisturbed s = true ∧ s.flags.initDone = true ∧ (isDual i = true → s.cfg.hasColor = true) ∧
       writesSomething s.cfg (planesOf i) = false ∧ isImageWrite i = true) ∧
    (∀ i ∈ [Instr.refreshRect ⟨16, 0, 8, 4⟩, .drawImage 0 ⟨16, 0, 8, 4⟩ noFlags],
      let s := stAt cfgTest 0x24
      undisturbed s = true ∧ s.flags.initDone = true ∧ (isDual i = true → s.cfg.hasColor = true) ∧
        writesSomething s.cfg (planesOf i) = false ∧ (i = .refreshRect ⟨16, 0, 8, 4⟩ ∨ drawRect i = some ⟨16, 0, 8, 4⟩) ∧
        takesFull s.cfg s.flags = false ∧ refreshWindow s.cfg ⟨16, 0, 8, 4⟩ = none) := by decide

theorem test_hyp_ModeAfterWrite :
    (∀ i ∈ [Instr.writeScreenBuffer 0xFF, .writeImage 0x1000 ⟨0, 0, 16, 2⟩ noFlags],
      let s := stAt cfgTest 0x2C
      hostNoReset s = true ∧ (s.flags.usingPartialMode = true → s.flags.powerOn = true) ∧
        (isFill i = true ∨ (isImageWrite i = true ∧ writesSomething s.cfg (planesOf i) = true))) ∧
    ∀ i ∈ [Instr.writeScreenBuffer 0xFF, .writeImage 0x1000 ⟨0, 0, 16, 2⟩ noFlags],
      ∃ t, exec i (stAt cfgTest 0x2C) = .next t ∧ t.todo = .skip ∧ t.faultRecord = (stAt cfgTest 0x2C).faultRecord := by
  refine ⟨by decide, fun i hi => ?_⟩
  have h : (nextOf (exec i (stAt cfgTest 0x2C))).any (fun t => decide (t.todo = .skip ∧ t.faultRecord = [])) = true := by
    revert i
    decide +kernel
  obtain ⟨t, ht, hq⟩ := next_of h
  exact ⟨t, ht, of_decide_eq_true hq⟩

/-- Full refresh from Full and from Partial mode; the whole panel's partial refresh. -/
theorem test_hyp_RefreshResult :
    ∀ w ∈ [0x2C, 0x23],
      let s := stAt cfgTest (BitVec.ofNat 32 w)
      undisturbed s = true ∧ mayTransfer s = true ∧ busOk (busBytes (fullEvents s.cfg s.flags .released .released)).length s ∧
        busOk (busBytes (refreshEvents s.cfg s.flags (wholePanel s.cfg) .released .released)).length s := by
  unfold busOk
  decide +kernel

/-- The first refresh, an empty rectangle, a rectangle in Full mode and in Partial mode. -/
theorem test_hyp_RefreshRectResult :
    ∀ p ∈ [((0x2C : Word), Rect.mk 8 0 8 4), (0x24, ⟨16, 0, 8, 4⟩), (0x24, ⟨8, 0, 8, 4⟩), (0x23, ⟨8, 0, 8, 4⟩)],
      let s := stAt cfgTest p.1
      undisturbed s = true ∧ mayTransfer s = true ∧
        busOk (busBytes (refreshEvents s.cfg s.flags p.2 .released .released)).length s := by
  unfold busOk
  decide +kernel

/-- The four draw requests, on the colour panel, after the first refresh. -/
theorem test_hyp_DrawImageResult :
    ∀ i ∈ [Instr.drawImage 0x1000 ⟨0, 0, 16, 1⟩ noFlags, .drawImagePart 0x3000 ⟨8, 1, 32, 4⟩ ⟨0, 0, 16, 1⟩ noFlags,
        .drawImageDual 0x1000 0x3000 ⟨0, 0, 16, 1⟩ noFlags,
        .drawImagePartDual 0x1000 0x3000 ⟨8, 1, 32, 4⟩ ⟨0, 0, 16, 1⟩ noFlags],
      let s := stAt cfgColour 0x23
      let r : Rect := ⟨0, 0, 16, 1⟩
      drawRect i = some r ∧ undisturbed s = true ∧ mayTransfer s = true ∧ (isDual i = true → s.cfg.hasColor = true) ∧
        sourceOk (writeReads (planesOf i) s) s ∧
        busOk (busBytes (writeEvents (planesOf i) .released s
          ++ refreshEvents s.cfg (writeFlags s.cfg (planesOf i) s.flags) r .released .released)).length s := by
  unfold sourceOk busOk
  decide +kernel

theorem test_hyp_FirstRefreshIsFull :
    ∀ i ∈ [Instr.refresh true, .refreshRect ⟨0, 0, -1, -1⟩, .drawImage 0x1000 ⟨16, 0, 8, 4⟩ noFlags],
      let s := stAt cfgTest 0x2C
      refreshes i = true ∧ hostNoReset s = true ∧ s.flags.initialRefresh = true ∧
        ∃ t, exec i s = .next t ∧ t.todo = .skip ∧ t.faultRecord = s.faultRecord := by
  intro i hi
  have h : refreshes i = true ∧
      (nextOf (exec i (stAt cfgTest 0x2C))).any (fun t => decide (t.todo = .skip ∧ t.faultRecord = [])) = true := by
    revert i
    decide +kernel
  obtain ⟨t, ht, hq⟩ := next_of h.2
  exact ⟨h.1, rfl, rfl, t, ht, of_decide_eq_true hq⟩

theorem test_hyp_NotInitialized :
    cfgWf State.reset.cfg = true ∧ State.reset.flags.initDone = false ∧ isInit .powerOn = false ∧
      isInit (.writeImageDual 0 0 okRect noFlags) = false ∧ hostSilent State.reset = true ∧
      hostNoReset (withMove .hold) = true := by decide

theorem test_hyp_DualNeedsColour :
    (let s := stAt cfgTest 0x2C
     ∀ i ∈ [Instr.writeImageDual 0 0 okRect noFlags, .writeImagePartDual 0 0 okSub okRect noFlags,
         .drawImageDual 0 0 okRect noFlags, .drawImagePartDual 0 0 okSub okRect noFlags],
       cfgWf s.cfg = true ∧ s.flags.initDone = true ∧ isDual i = true ∧ s.cfg.hasColor = false ∧ hostSilent s = true ∧
         hostNoReset s = true) ∧
    hostNoReset (failing 0x2C) = true ∧ isDual .powerOn = false ∧ ∃ t, exec .powerOn (failing 0x2C) = .next t :=
  ⟨by decide, rfl, rfl, (next_of (p := fun _ => true) (by decide +kernel)).imp fun _ h => h.1⟩

/-- Each kind of request that transfers, while hibernating: at STATE 0x3C and 0x34, and with the power flag set. Then a transfer
that is the next step of a request in flight. -/
theorem test_hyp_HibernatingAccess :
    (∀ p ∈ [(Instr.powerOn, (0x3C : Word)), (.powerOff, 0x3D), (.hibernate, 0x3D), (.hibernate, 0x3C), (.writeScreenBuffer 0, 0x3C),
        (.refresh false, 0x3C), (.refresh true, 0x34), (.refreshRect ⟨8, 0, 8, 4⟩, 0x34),
        (.writeImage 0 ⟨0, 0, 16, 4⟩ noFlags, 0x3C), (.drawImage 0 ⟨0, 0, 16, 4⟩ noFlags, 0x3C),
        (.drawImage 0 ⟨16, 0, 8, 4⟩ noFlags, 0x3C)],
      let i := p.1
      let s := stAt cfgTest p.2
      undisturbed s = true ∧ s.flags.initDone = true ∧ s.flags.hibernating = true ∧
        (isDual i = true → s.cfg.hasColor = true) ∧
        ((i = .powerOn ∧ s.flags.powerOn = false ∧ seqBytes s.cfg.pd.seqPowerOn ≠ []) ∨
          (i = .powerOff ∧ s.flags.powerOn = true ∧ seqBytes s.cfg.pd.seqPowerOff ≠ []) ∨
          (i = .hibernate ∧ s.flags.powerOn = true ∧ seqBytes s.cfg.pd.seqPowerOff ≠ []) ∨
          (i = .hibernate ∧ s.flags.powerOn = false ∧ s.cfg.hasRst = true ∧ seqBytes s.cfg.pd.seqDeepSleep ≠ []) ∨
          isFill i = true ∨ (i = .refresh false ∧ fullTransfers s.cfg s.flags = true) ∨
          (i = .refresh true ∧ refreshTransfers s.cfg s.flags (wholePanel s.cfg) = true) ∨
          (i = .refreshRect ⟨8, 0, 8, 4⟩ ∧ refreshTransfers s.cfg s.flags ⟨8, 0, 8, 4⟩ = true) ∨
          (readsBitmap i = true ∧ writesSomething s.cfg (planesOf i) = true) ∨
          (drawRect i = some ⟨16, 0, 8, 4⟩ ∧ writesSomething s.cfg (planesOf i) = false ∧
            refreshTransfers s.cfg s.flags ⟨16, 0, 8, 4⟩ = true))) ∧
    let s := flying powerOnLeft cfgTest 0x3C
    cfgWf s.cfg = true ∧ hostSilent s = true ∧ s.flags.hibernating = true ∧
      s.todo.first s.flags = some (.send (.cmd, 0x22)) := by decide +kernel

/-- The n-th transfer fails: the first byte of a sequence and its last. -/
def busFailsAt (n : Nat) (w : Word) : State :=
  { stAt cfgTest w with env := { calm with bus := ⟨List.replicate n false ++ [true], 0⟩ } }

/-- A first write after INIT whose 12th transfer fails; a transfer that is the next step; the forms of the last clause. -/
theorem test_hyp_BusErrorKeepsPrefix :
    (let i := Instr.writeImage 0x1000 ⟨0, 0, 16, 2⟩ noFlags
     let s := busFailsAt 11 0x2C
     undisturbed s = true ∧ busOk 11 s ∧ s.env.bus.peek Config.freeBusFailure 11 = true ∧
       ∃ u, exec i (s.spareBus 150) = .next u ∧
         decide (11 < (busBytes (u.log.drop s.log.length)).length ∧ (busBytes (u.log.drop s.log.length)).length ≤ 150) = true) ∧
    (let s : State := { flying powerOnLeft cfgTest 0x2C with env := { calm with bus := ⟨[true], 0⟩ } }
     cfgWf s.cfg = true ∧ hostSilent s = true ∧ s.flags.hibernating = false ∧
       s.todo.first s.flags = some (.send (.cmd, 0x22)) ∧ s.env.bus.peek Config.freeBusFailure 0 = true) ∧
    ∀ p ∈ [(Instr.powerOn, (0x2C : Word), 0, seqBytes cfgTest.pd.seqPowerOn),
        (.powerOff, 0x23, 2, seqBytes cfgTest.pd.seqPowerOff), (.refresh false, 0x2C, 1, seqBytes cfgTest.pd.seqFullUpdate),
        (.writeScreenBuffer 0xFF, 0x23, 23, fillBytes cfgTest .cur 0xFF)],
      let s := busFailsAt p.2.2.1 p.2.1
      undisturbed s = true ∧ mayTransfer s = true ∧
        ((p.1 = .powerOn ∧ s.flags.powerOn = false ∧ p.2.2.2 = seqBytes s.cfg.pd.seqPowerOn) ∨
          (p.1 = .powerOff ∧ s.flags.powerOn = true ∧ p.2.2.2 = seqBytes s.cfg.pd.seqPowerOff) ∨
          (p.1 = .refresh false ∧ s.flags.usingPartialMode = false ∧ p.2.2.2 = seqBytes s.cfg.pd.seqFullUpdate) ∨
          (p.1 = .writeScreenBuffer 0xFF ∧ s.flags.usingPartialMode = true ∧ s.flags.initialRefresh = false ∧
            p.2.2.2 = fillBytes s.cfg .cur 0xFF)) ∧
        p.2.2.1 < p.2.2.2.length ∧ busOk p.2.2.1 s ∧ s.env.bus.peek Config.freeBusFailure p.2.2.1 = true := by
  unfold busOk
  exact ⟨⟨by decide, by decide, by decide, next_of (by decide +kernel)⟩, by decide, by decide +kernel⟩

/-- A draw of two planes whose fifth read fails; a read that is the next step; and V-W12's write in the DIRECT space: the first
read fails, or the last of the four. -/
theorem test_hyp_SourceErrorKeepsPrefix :
    (let i := Instr.drawImageDual 0x1000 0x3000 ⟨0, 0, 16, 2⟩ noFlags
     let s : State := { stAt cfgColour 0x2C with env := { calm with source := ⟨List.replicate 4 false ++ [true], 0⟩ } }
     undisturbed s = true ∧ sourceOk 4 s ∧ s.env.source.peek Config.freeSourceError 4 = true ∧
       ∃ u, exec i (s.spareSource 8) = .next u ∧
         decide (u.faultRecord = s.faultRecord ∧ 4 + s.env.source.drawn < u.env.source.drawn ∧
           u.env.source.drawn ≤ 8 + s.env.source.drawn) = true) ∧
    (let s : State := { flying (.seq (.act (.stream .direct false 0x1000)) (.act .complete)) cfgTest 0x23 with
       env := { calm with source := ⟨[true], 0⟩ } }
     cfgWf s.cfg = true ∧ hostSilent s = true ∧ s.todo.first s.flags = some (.stream .direct false 0x1000) ∧
       s.env.source.peek Config.freeSourceError 0 = true) ∧
    ∀ n ∈ [0, 3],
      let i := Instr.writeImage 0x1000 ⟨0, 0, 16, 2⟩ noFlags
      let p := planeCur .image 0x1000 ⟨0, 0, 16, 2⟩ noFlags
      let g : Region := ⟨⟨0, 0, 16, 2, 0, 0, 2⟩, ⟨0, 0, 2, 2⟩⟩
      let s : State := { stAt cfgTest 0x23 with env := { calm with source := ⟨List.replicate n false ++ [true], 0⟩ } }
      undisturbed s = true ∧ mayTransfer s = true ∧ isImageWrite i = true ∧ planesOf i = [p] ∧
        resolveRegion s.cfg p = some g ∧ s.flags.usingPartialMode = true ∧ s.flags.initialWrite = false ∧
        n < (planeAddrs p g).length ∧ busOk (16 + n) s ∧ sourceOk n s ∧ s.env.source.peek Config.freeSourceError n = true := by
  unfold busOk sourceOk
  exact ⟨⟨by decide, by decide, by decide, next_of (by decide +kernel)⟩, by decide, by decide +kernel⟩

/-- Each reason for EMPTY at its boundary, a result at the panel's far corner, and one of a negative origin. -/
theorem test_hyp_AlignClipEmpty :
    cfgWf cfgTest = true ∧
    (∀ q ∈ [Rect.mk 0 0 0 4, ⟨0, 0, 16, 0⟩, ⟨-8, 0, 8, 4⟩, ⟨16, 0, 8, 4⟩, ⟨0, -1, 8, 1⟩, ⟨0, 4, 8, 1⟩],
      0 ≤ q.w ∧ 0 ≤ q.h ∧ alignClip cfgTest q.x q.y q.w q.h = none) ∧
    alignClip cfgTest 15 3 1 1 = some ⟨8, 3, 8, 1, 0, 0, 1⟩ ∧ alignClip cfgTest (-5) (-1) 16 3 = some ⟨0, 0, 8, 2, 8, 1, 2⟩ := by
  decide

theorem test_hyp_AlignClipBounds :
    cfgWf cfgTest = true ∧ alignClip cfgTest (-5) (-1) 16 3 = some ⟨0, 0, 8, 2, 8, 1, 2⟩ ∧
    alignClip cfgTest 8 2 100 100 = some ⟨8, 2, 8, 2, 0, 0, 13⟩ := by decide

/-- Each rejection at its boundary; an accepted origin at 0 and at the last pixel. -/
theorem test_hyp_PartClampCases :
    (∀ q ∈ [(SubImage.mk 0 0 (-1) 4, (8 : Int), (8 : Int)), (⟨0, 0, 32, -1⟩, 8, 8), (⟨0, 0, 32, 4⟩, -1, 8), (⟨0, 0, 32, 4⟩, 8, -1),
        (⟨-1, 0, 32, 4⟩, 8, 8), (⟨32, 0, 32, 4⟩, 8, 8), (⟨0, -1, 32, 4⟩, 8, 8), (⟨0, 4, 32, 4⟩, 8, 8)],
      partClamp q.1 q.2.1 q.2.2 = none) ∧
    partClamp ⟨0, 0, 32, 4⟩ 8 8 = some ⟨0, 8, 4⟩ ∧ partClamp ⟨31, 3, 32, 4⟩ 16 1 = some ⟨24, 8, 1⟩ := by decide

/-- V-P3's region, its first and its last byte; and a plain region. -/
theorem test_hyp_SourceIndexInBitmap :
    let p := planeCur (.part ⟨31, 0, 32, 4⟩) 0x3000 ⟨0, 0, 16, 4⟩ noFlags
    let g : Region := ⟨⟨0, 0, 8, 4, 0, 0, 1⟩, ⟨3, 0, 4, 4⟩⟩
    resolveRegion cfgTest (planeCur .image 0x1000 ⟨-5, 0, 16, 2⟩ noFlags) = some ⟨⟨0, 0, 8, 2, 8, 0, 2⟩, ⟨0, 0, 2, 2⟩⟩ ∧
    cfgWf cfgTest = true ∧ resolveRegion cfgTest p = some g ∧
      ∀ ij ∈ [((0 : Int), (0 : Int)), (3, 0)], 0 ≤ ij.1 ∧ ij.1 < g.clip.h1 ∧ 0 ≤ ij.2 ∧ ij.2 < g.clip.w1 / 8 := by decide

/-- W6's bitmap and its row-reversed copy, as cells. -/
def mirrorMem : Memory :=
  [(0x1000, 0x10), (0x1001, 0x11), (0x1002, 0x12), (0x1003, 0x13), (0x1100, 0x12), (0x1101, 0x13), (0x1102, 0x10), (0x1103, 0x11)]

theorem test_hyp_MirrorReadsReversed :
    let s : State := { stAt cfgTest 0x23 with direct := mirrorMem }
    let p := planeCur .image 0x1000 ⟨0, 0, 16, 2⟩ ⟨false, true, .direct⟩
    let q := planeCur .image 0x1100 ⟨0, 0, 16, 2⟩ noFlags
    let g : Region := ⟨⟨0, 0, 16, 2, 0, 0, 2⟩, ⟨0, 0, 2, 2⟩⟩
    cfgWf s.cfg = true ∧ p.mir = true ∧ q = { p with mir := false, base := q.base } ∧ resolveRegion s.cfg p = some g ∧
      ∀ r c : Int, 0 ≤ r → r < g.src.hSrc → 0 ≤ c → c < g.src.wbSrc →
        byteAt p.space (sourceAddr q.base (c + r * g.src.wbSrc)) s
          = byteAt p.space (sourceAddr p.base (c + (g.src.hSrc - 1 - r) * g.src.wbSrc)) s := by
  refine ⟨by decide, rfl, rfl, by decide, fun r c hr hr' hc hc' => ?_⟩
  replace hr' : r < 2 := hr'
  replace hc' : c < 2 := hc'
  obtain rfl | rfl : r = 0 ∨ r = 1 := by omega
  all_goals obtain rfl | rfl : c = 0 ∨ c = 1 := by omega
  all_goals decide

/-- The whole panel, and its last byte column and row. -/
theorem test_hyp_WindowBytesFit :
    cfgWf cfgTest = true ∧ alignClip cfgTest 0 0 16 4 = some ⟨0, 0, 16, 4, 0, 0, 2⟩ ∧
    alignClip cfgTest 15 3 1 1 = some ⟨8, 3, 8, 1, 0, 0, 1⟩ := by decide

/-- A region that streams, its last byte, and one that is rejected. -/
theorem test_hyp_ByteCounts :
    (let p := planeCur (.part ⟨31, 0, 32, 4⟩) 0x3000 ⟨0, 0, 16, 4⟩ noFlags
     cfgWf (stAt cfgTest 0x23).cfg = true ∧ resolveRegion (stAt cfgTest 0x23).cfg p = some ⟨⟨0, 0, 8, 4, 0, 0, 1⟩, ⟨3, 0, 4, 4⟩⟩ ∧
       ((3 : Nat) : Int) < 4 ∧ ((0 : Nat) : Int) < 8 / 8) ∧
    resolveRegion (stAt cfgTest 0x23).cfg (planeCur .image 0 ⟨0, 0, -1, 4⟩ noFlags) = none := by decide

/-- Hibernating, a transfer that succeeds, one that fails. -/
theorem test_hyp_TransferOnTheWire :
    (hostSilent (stAt cfgTest 0x3C) = true ∧ (stAt cfgTest 0x3C).flags.hibernating = true) ∧
    (hostSilent (stAt cfgTest 0x2C) = true ∧ (stAt cfgTest 0x2C).flags.hibernating = false ∧
      (stAt cfgTest 0x2C).env.bus.peek Config.freeBusFailure 0 = false) ∧
    (hostSilent (failing 0x2C) = true ∧ (failing 0x2C).flags.hibernating = false ∧
      (failing 0x2C).env.bus.peek Config.freeBusFailure 0 = true) := by decide

/-- A host that is silent; a sample of each level; an interval that takes the elapsed time, across a wrap of the count, to
BUSY_TIMEOUT_US, one that takes it past, and the longest that R63 allows. -/
theorem test_hyp_BusyWaitOutcome_steps :
    (let s := polling 2500 0xFFFFFC18 0xFFFFFC18 [true] [1500]
     hostSilent s = true ∧ s.env.timeRuns = true ∧ s.env.busy.peek Config.freeBusyLevel 0 = s.cfg.busyLevel ∧
       s.cfg.busyTimeoutUs.toNat + 1000 < 2 ^ 32 ∧
       1000 + s.env.elapsed.peek Config.freeElapsed 0 < 2 ^ 32 - s.cfg.busyTimeoutUs.toNat ∧
       (((s.env.clock + BitVec.ofNat 32 2500).toNat : Int) - s.t0.toNat) % 2 ^ 32 = s.cfg.busyTimeoutUs.toNat) ∧
    (let s := polling 2500 0xFFFFFC18 0xFFFFFC18 [false] [1501]
     hostSilent s = true ∧ s.env.timeRuns = true ∧ s.env.busy.peek Config.freeBusyLevel 0 ≠ s.cfg.busyLevel ∧
       1000 + s.env.elapsed.peek Config.freeElapsed 0 < 2 ^ 32 - s.cfg.busyTimeoutUs.toNat ∧
       (((s.env.clock + BitVec.ofNat 32 2501).toNat : Int) - s.t0.toNat) % 2 ^ 32 = s.cfg.busyTimeoutUs.toNat + 1) ∧
    (let s := polling 2500 0 0 [] [2 ^ 32 - 2500 - 1001]
     hostSilent s = true ∧ s.env.timeRuns = true ∧
       1000 + s.env.elapsed.peek Config.freeElapsed 0 + 1 = 2 ^ 32 - s.cfg.busyTimeoutUs.toNat) := by decide

/-- Released at once; released at the second sample with the elapsed time at BUSY_TIMEOUT_US; one µs past it; the third interval of
V-T6; active in every sample of a timeout of 2500 µs; no busy line. -/
theorem test_hyp_BusyWaitOutcome :
    (let s := stAt cfgTest 0x2C
     hostSilent s = true ∧ s.env.timeRuns = true ∧ s.status.waiting = false ∧ s.cfg.hasBusy = true ∧
       s.env.busy.peek Config.freeBusyLevel 0 ≠ s.cfg.busyLevel) ∧
    (∀ p ∈ [((1000 : Word), 1), (999, 1), (2500, 3)],
      let s := polling p.1 0xFFFFFC18 0 [true, p.2 = 3, true] [7, 0, 0, 0]
      hostSilent s = true ∧ s.env.timeRuns = true ∧ s.status.waiting = false ∧ s.cfg.hasBusy = true ∧
        (∀ j, j < p.2 → s.env.busy.peek Config.freeBusyLevel j = s.cfg.busyLevel) ∧
        (∀ j, j < p.2 → 1000 + s.env.elapsed.peek Config.freeElapsed (j + 1) < 2 ^ 32 - s.cfg.busyTimeoutUs.toNat) ∧
        (∀ j, j < p.2 → pollElapsed s j ≤ s.cfg.busyTimeoutUs.toNat) ∧
        (p.1 = 1000 → s.env.busy.peek Config.freeBusyLevel p.2 ≠ s.cfg.busyLevel ∧
          pollElapsed s p.2 = s.cfg.busyTimeoutUs.toNat) ∧
        (p.1 ≠ 1000 → s.cfg.busyTimeoutUs.toNat < pollElapsed s p.2)) ∧
    (let s := polling 2500 0 0 [true, true, true] [0, 0, 0, 0]
     hostSilent s = true ∧ s.env.timeRuns = true ∧ s.status.waiting = false ∧ s.cfg.hasBusy = true ∧
       ∀ k, k ≤ s.cfg.busyTimeoutUs.toNat / 1000 → s.env.busy.peek Config.freeBusyLevel k = s.cfg.busyLevel) ∧
    (let s := stAt cfgBare 0x2C
     hostSilent s = true ∧ s.env.timeRuns = true ∧ s.status.waiting = false ∧ s.cfg.hasBusy = false) := by
  refine ⟨by decide, by decide, ⟨by decide, by decide, by decide, by decide, fun k hk => ?_⟩, by decide⟩
  replace hk : k ≤ 2 := hk
  obtain rfl | rfl | rfl : k = 0 ∨ k = 1 ∨ k = 2 := by omega
  all_goals decide

/-- The first and the last address; a value that lists the byte and the one that does not. -/
theorem test_hyp_BitmapSupply :
    ∀ p ∈ [(Space.direct, (0 : Word), (0xFF : Byte)), (.readThrough, 0xFFFFFFFF, 0)],
      let s : State := { stAt cfgTest 0x23 with inbox := [.poke p.1 p.2.1 p.2.2] }
      cfgWf s.cfg = true ∧ memWf (memOf p.1 s) = true ∧ s.status.ready = true ∧ s.todo = .skip ∧ s.inbox = .poke p.1 p.2.1 p.2.2 :: [] := by decide

/-- A request that runs, the byte raced and another; and a read while nothing fails. -/
theorem test_hyp_RacedByteOldOrNew :
    let s : State := { stAt cfgTest 0x23 with status := { statusReset with ready := false } }
    s.status.ready = false ∧ memWf (memOf .direct s) = true ∧ s.seen = [] ∧
      hostSilent s = true ∧ mayTransfer s = true ∧ busOk 1 s ∧ sourceOk 1 s ∧
      (Space.readThrough ≠ Space.direct ∨ (0x1000 : Word) ≠ 0x1000) ∧ (Space.direct ≠ Space.direct ∨ (0x1001 : Word) ≠ 0x1000) := by
  unfold busOk sourceOk
  decide

/-- A window in the middle of the panel: its corner bytes, and a cell beyond each side. -/
theorem test_hyp_ObserverHoldsRegion :
    let s := stAt { cfgTest with width := 32 } 0x23
    let p := planeCur .image 0x1000 ⟨8, 1, 16, 2⟩ noFlags
    let g : Region := ⟨⟨8, 1, 16, 2, 0, 0, 2⟩, ⟨0, 0, 2, 2⟩⟩
    cfgWf s.cfg = true ∧ resolveRegion s.cfg p = some g ∧
      [s.cfg.pd.opDataEntry, s.cfg.pd.opRamXWindow, s.cfg.pd.opRamYWindow, s.cfg.pd.opRamXCounter, s.cfg.pd.opRamYCounter,
        s.cfg.pd.opWriteRamCurrent, s.cfg.pd.opWriteRamPrevious].Nodup ∧
      (((1 : Nat) : Int) < g.clip.h1 ∧ ((1 : Nat) : Int) < g.clip.w1 / 8) ∧
      (Buffer.prev ≠ p.sel ∧ ((0 : Nat) : Int) < g.clip.x1 / 8 ∧ (g.clip.x1 + g.clip.w1) / 8 ≤ ((3 : Nat) : Int) ∧
        ((0 : Nat) : Int) < g.clip.y1 ∧ g.clip.y1 + g.clip.h1 ≤ ((3 : Nat) : Int)) := by decide

end Sys2Proof.Tests
end

/-!
The register block (10_state.md): what a host access leaves between requests and in flight, the words of the registers, and that
no step changes the configuration.
-/
namespace Sys2Proof.Machine

/-! ## Host accesses between requests and in flight (R15 to R17, R30, R54) -/

theorem accessRefusal_eq_outsideBlock {offset : Nat} (width : Nat) (h : 0x40 ≤ offset) :
    accessRefusal offset width = some .outsideBlock := if_pos h

theorem accessRefusal_eq_unalignedAccess {offset width : Nat} (h : offset < 0x40) (hw : width ≠ 4 ∨ offset % 4 ≠ 0) :
    accessRefusal offset width = some .unalignedAccess := by
  unfold accessRefusal
  rw [if_neg (Nat.not_le.2 h), if_pos hw]

/-- What R30 refuses is refused by the step, between requests and while one is in flight. -/
theorem step_of_nextRefusal {s : State} {r : Refusal} (hc : cfgWf s.cfg = true) (h : nextRefusal s.inbox = some r) :
    step s = .refused r := by
  by_cases ht : s.todo = .skip
  · cases hi : s.inbox with
    | nil => rw [hi] at h; cases h
    | cons m rest =>
      rw [hi] at h
      cases m with
      | write offset width v =>
        replace h : accessRefusal offset width = some r := h
        simp [step, fetch, hc, ht, hi, fetchMove, h]
      | read offset width =>
        replace h : accessRefusal offset width = some r := h
        simp [step, fetch, hc, ht, hi, fetchMove, h]
      | poke space a b => cases h
      | engineReset => cases h
      | pass => cases h
      | hold => cases h
      | awaitReady => cases h
  · simp [step, fetch, hc, ht, resume, h]

theorem nextRefusal_of_access {l rest : List HostMove} {offset width : Nat} {v : Word}
    (h : l = .read offset width :: rest ∨ l = .write offset width v :: rest) : nextRefusal l = accessRefusal offset width := by
  obtain rfl | rfl := h
  · rfl
  · rfl

theorem step_of_settled_move {s t : State} {m : HostMove} {rest : List HostMove} (hc : cfgWf s.cfg = true)
    (ht : s.todo = .skip) (hi : s.inbox = m :: rest) (hm : fetchMove m rest s = .settled t) : step s = .next t := by
  simp [step, fetch, hc, ht, hi, hm]

/-- Where the host's turn before the next step of a request in flight is held with a move made, the machine's step ends there, and
that engine step stays the next (R54, log 5). -/
theorem step_of_turn_held {s u : State} (hc : cfgWf s.cfg = true) (hf : (s.todo.first s.flags).isSome = true)
    (hr : nextRefusal s.inbox = none) (hu : hostTurn { s with todo := .skip } = .held u) (hi : u.inbox ≠ s.inbox) :
    ∃ todo, todo.first s.flags = s.todo.first s.flags ∧ step s = .next { u with todo := todo } := by
  obtain ⟨a, ha⟩ := Option.isSome_iff_exists.1 hf
  have ht : s.todo ≠ .skip := fun e => by rw [e] at ha; cases ha
  obtain ⟨todo, hrun, hfirst⟩ := run_of_first_held (s := { s with todo := .skip }) ha hu
  have hreach : s.todo.reach s = { u with todo := todo } := by rw [Prog.reach, hrun, state_held]
  exact ⟨todo, hfirst.trans ha.symm, by simp [step, fetch, hc, ht, resume, hr, hreach, hi]⟩

/-- The two halves of `accessLeaves` for an access that is not refused: what it leaves as the host's move between requests, and as
an access that lands in the host's turn. -/
theorem accessLeaves_of_lands {m : HostMove} {s t : State} (hc : cfgWf s.cfg = true) (hr : ∀ rest, nextRefusal (m :: rest) = none)
    (hmove : ∀ rest, fetchMove m rest { s with inbox := m :: rest } = .settled { t with inbox := rest })
    (hland : ∀ rest, landMoves (m :: .hold :: rest) { s with inbox := m :: .hold :: rest, todo := .skip }
      = .held { t with inbox := rest, todo := .skip }) :
    accessLeaves m s t := by
  refine fun rest => ⟨fun ht => step_of_settled_move hc ht rfl (hmove rest), fun hf => ?_⟩
  exact step_of_turn_held (s := { s with inbox := m :: .hold :: rest }) hc hf (hr _) (hland rest)
    fun e => absurd (congrArg List.length e) (by simp only [List.length_cons]; omega)

/-- A write to a register changes the request registers, the latched descriptor or STATUS alone, and looks neither at the host's
moves nor at the position of a request in flight (R16, R17). -/
theorem regWrite_eq (offset : Nat) (v : Word) (s : State) : ∃ d sh st, ∀ l p,
    regWrite offset v { s with inbox := l, todo := p }
      = { s with req := d, shadow := sh, status := st, inbox := l, todo := p } := by
  by_cases hreq : offset < 0x20
  · exact ⟨descSet s.req v (offset / 4), s.shadow, s.status, fun _ _ => if_pos hreq⟩
  by_cases hgo : offset = 0x20
  · subst hgo
    by_cases hbit : v.getLsbD 0 = true
    · by_cases ht : startTaken v s = true
      · exact ⟨s.req, s.req, { s.status with ready := false }, fun _ _ => (if_pos hbit).trans (if_pos ht)⟩
      · exact ⟨s.req, s.shadow, { s.status with drop := true }, fun _ _ => (if_pos hbit).trans (if_neg ht)⟩
    · exact ⟨s.req, s.shadow, s.status, fun _ _ => if_neg hbit⟩
  · exact ⟨s.req, s.shadow, s.status, fun _ _ => (if_neg hreq).trans (if_neg hgo)⟩

/-- A 32-bit read at an aligned offset of the block appends the register's value to what the host has read (R15, R30, R54). -/
theorem accessLeaves_read {offset : Nat} {s : State} (hc : cfgWf s.cfg = true) (h : accessRefusal offset 4 = none) :
    accessLeaves (.read offset 4) s { s with replies := s.replies ++ [regRead offset s] } := by
  refine accessLeaves_of_lands hc (fun _ => h) (fun rest => ?_) fun rest => ?_
  · simp only [fetchMove, h]
    rfl
  · simp only [landMoves, h]
    rfl

/-- A 32-bit write at an aligned offset of the block other than GO's is the write to the register there (R16, R30, R54). -/
theorem accessLeaves_write {offset : Nat} {s : State} (v : Word) (hc : cfgWf s.cfg = true) (h : accessRefusal offset 4 = none)
    (hgo : offset ≠ 0x20) : accessLeaves (.write offset 4 v) s (regWrite offset v s) := by
  obtain ⟨d, sh, st, hw⟩ := regWrite_eq offset v s
  have hs : regWrite offset v s = { s with req := d, shadow := sh, status := st } := hw s.inbox s.todo
  refine accessLeaves_of_lands hc (fun _ => h) (fun rest => ?_) fun rest => ?_
  · have hn : ¬ (offset = 0x20 ∧ startTaken v { s with inbox := rest } = true) := fun hg => hgo hg.1
    simp only [fetchMove, h, fetchWrite, if_neg hn, hs]
    exact congrArg Fetched.settled (hw rest s.todo)
  · simp only [landMoves, h, hs, hw]

/-- Every offset above GO's is read-only or reserved: a write there changes nothing (R19, R20, R29, R30). -/
theorem accessLeaves_write_ignored {offset : Nat} {s : State} (v : Word) (hc : cfgWf s.cfg = true)
    (h : accessRefusal offset 4 = none) (hgo : 0x20 < offset) : accessLeaves (.write offset 4 v) s s := by
  have hw : regWrite offset v s = s := by
    unfold regWrite
    rw [if_neg (by omega), if_neg (by omega)]
  have hl := accessLeaves_write v hc h (Nat.ne_of_gt hgo)
  rwa [hw] at hl

/-! ## The words of the registers (R19, R20, R29) -/

/-- One bit of a word stands at its bit number alone. -/
theorem getLsbD_bitAt {k : Nat} (hk : k < 32) (b : Bool) (n : Nat) : (bitAt k b).getLsbD n = (decide (n = k) && b) := by
  cases b with
  | false => simp [bitAt]
  | true =>
    rw [bitAt, if_pos rfl, BitVec.getLsbD_ofNat, Nat.testBit_two_pow, Bool.and_true]
    by_cases h : n = k
    · subst h
      simp [hk]
    · have hn : k ≠ n := Ne.symm h
      simp [h, hn]

theorem getLsbD_stateWord (f : Flags) (n : Nat) : (stateWord f).getLsbD n =
    if n = 0 then f.powerOn else if n = 1 then f.usingPartialMode else if n = 2 then f.initialWrite
    else if n = 3 then f.initialRefresh else if n = 4 then f.hibernating else if n = 5 then f.initDone else false := by
  simp (disch := decide) only [stateWord, BitVec.getLsbD_or, getLsbD_bitAt]
  repeat' split
  all_goals simp [*]

theorem getLsbD_capsWord (c : Cfg) (n : Nat) : (capsWord c).getLsbD n =
    if n = 0 then c.hasColor else if n = 1 then c.hasPartial else if n = 2 then c.hasFastPartial
    else if n = 3 then c.hasCs else if n = 4 then c.hasDc else if n = 5 then c.hasRst else if n = 6 then c.hasBusy
    else if n = 7 then c.busyLevel else if n = 8 then c.waitAfterPartialUpdate else false := by
  simp (disch := decide) only [capsWord, BitVec.getLsbD_or, getLsbD_bitAt]
  repeat' split
  all_goals simp [*]

theorem toNat_geomWord {c : Cfg} (h : cfgWf c = true) : (geomWord c).toNat = c.width + 65536 * c.height := by
  obtain ⟨-, -, hw, -, hh, -⟩ := cfgWf_iff.1 h
  rw [geomWord, BitVec.toNat_append, BitVec.toNat_ofNat, BitVec.toNat_ofNat, Nat.mod_eq_of_lt (by omega : c.width < 2 ^ 16),
    Nat.mod_eq_of_lt (by omega : c.height < 2 ^ 16),
    ← Nat.shiftLeft_add_eq_or_of_lt (by omega), Nat.shiftLeft_eq]
  omega

/-! ## The configuration never changes (log 1) -/

theorem regWrite_cfg (offset : Nat) (v : Word) (s : State) : (regWrite offset v s).cfg = s.cfg := by
  obtain ⟨d, sh, st, hw⟩ := regWrite_eq offset v s
  have hs : regWrite offset v s = { s with req := d, shadow := sh, status := st } := hw s.inbox s.todo
  rw [hs]

theorem hostPoke_cfg (space : Space) (a : Word) (b : Byte) (s : State) : (hostPoke space a b s).cfg = s.cfg := by
  unfold hostPoke
  split <;> simp

/-- Neither the host nor any step of the engine changes the configuration. -/
theorem cfg_keptBySteps (c : Cfg) : KeptBySteps (fun _ => True) (fun s => s.cfg = c) (fun s => s.cfg = c) where
  inbox _ _ h := h
  held _ h := h
  replies _ _ h := h
  poke space a b s h := (hostPoke_cfg space a b s).trans h
  write offset v s _ h := (regWrite_cfg offset v s).trans h
  reset _ h := h
  sent _ _ _ h _ := h
  busFault _ _ _ h _ := h
  sleepFault _ _ h _ := h
  source _ _ h := h
  sourceFault _ _ h := h
  flag _ _ _ _ h := h
  initBegin _ _ h := h
  lastWait _ _ h := h
  lines _ _ h := h
  bus _ _ h := h
  rstLow _ _ h := h
  pulse _ _ _ _ h := h
  delayBegin _ _ h := h
  delayEnd _ _ _ h := h
  waitBegin _ _ h := h
  busy _ _ h := h
  clock _ _ _ h := h
  waitEnd label o s _ h := (endWait_cfg label o s).trans h
  raised _ _ _ h := h
  done _ _ h := h

theorem Prog.all_true (p : Prog) : p.All fun _ => True := by
  induction p with
  | skip => trivial
  | act a => trivial
  | seq p q ihp ihq => exact ⟨ihp, ihq⟩
  | ifFlag f p q ihp ihq => exact ⟨ihp, ihq⟩

theorem reach_cfg (p : Prog) (s : State) : (p.reach s).cfg = s.cfg := by
  obtain ⟨-, h⟩ | ⟨-, h | h⟩ := reach_kept (cfg_keptBySteps s.cfg) p.all_true (s := s) rfl
  · exact h
  · exact h
  · exact h

theorem exec_cfg {i : Instr} {s t : State} (h : exec i s = .next t) : t.cfg = s.cfg := by
  rw [exec_eq_request] at h
  exact request_sat h (prog_kept (cfg_keptBySteps s.cfg) (Prog.all_true _) rfl) (fun _ _ hu => hu) fun _ _ hu => hu

theorem moved_cfg {m : HostMove} {rest : List HostMove} {s t : State} (h : Moved m rest s t) : t.cfg = s.cfg := by
  cases m with
  | pass =>
    obtain rfl := h
    rfl
  | hold =>
    obtain rfl := h
    rfl
  | awaitReady =>
    obtain rfl := h
    split <;> rfl
  | engineReset =>
    obtain rfl := h
    rfl
  | poke space a b =>
    obtain rfl := h
    exact hostPoke_cfg space a b _
  | write offset width v =>
    obtain ⟨-, -, rfl⟩ := h
    exact regWrite_cfg offset v _
  | read offset width =>
    obtain ⟨-, rfl⟩ := h
    rfl

theorem step_cfg {s t : State} (h : step s = .next t) : t.cfg = s.cfg := by
  obtain ⟨-, ⟨-, -, rfl⟩ | ⟨-, m, rest, -, hm⟩ | ⟨-, rest, e, -, rfl, -⟩ | ⟨-, rest, i, -, he, -⟩ | ⟨-, -, rfl⟩⟩ := step_next h
  · rfl
  · exact moved_cfg hm
  · exact reach_cfg _ (started rest s)
  · exact (exec_cfg he).trans rfl
  · exact reach_cfg _ s

/-! ## The obligations of the register block (10_state.md) -/

/-- Settles O15, with `step_cfg` for the last clause: the three registers show `State.cfg`, which no step changes. -/
theorem configurationRegisters : Obligations.ConfigurationRegisters := by
  unfold Obligations.ConfigurationRegisters
  refine ⟨fun c => toNat_geomWord, getLsbD_capsWord, fun s hc => ?_, fun s t => step_cfg⟩
  refine ⟨accessLeaves_read hc rfl, accessLeaves_read hc rfl, accessLeaves_read hc rfl, fun v offset ho => ?_⟩
  simp only [List.mem_cons, List.not_mem_nil, or_false] at ho
  obtain rfl | rfl | rfl := ho
  · exact accessLeaves_write_ignored v hc rfl (by decide)
  · exact accessLeaves_write_ignored v hc rfl (by decide)
  · exact accessLeaves_write_ignored v hc rfl (by decide)

/-- Settles O14. -/
theorem stateRegister : Obligations.StateRegister := by
  unfold Obligations.StateRegister
  exact ⟨getLsbD_stateWord, fun s hc => ⟨accessLeaves_read hc rfl, fun v => accessLeaves_write_ignored v hc rfl (by decide)⟩⟩

/-- Settles O16, by R30's case split on the offset and the width (`accessRefusal`). -/
theorem reservedAndRefusedAccesses : Obligations.ReservedAndRefusedAccesses := by
  unfold Obligations.ReservedAndRefusedAccesses
  intro s offset width v rest hc
  refine ⟨fun ho => ?_, fun ho hi => ?_, fun ho hw hi => ?_⟩
  · obtain rfl | rfl := ho
    · exact ⟨accessLeaves_read hc rfl, accessLeaves_write_ignored v hc rfl (by decide)⟩
    · exact ⟨accessLeaves_read hc rfl, accessLeaves_write_ignored v hc rfl (by decide)⟩
  · exact step_of_nextRefusal hc ((nextRefusal_of_access hi).trans (accessRefusal_eq_outsideBlock width ho))
  · exact step_of_nextRefusal hc ((nextRefusal_of_access hi).trans (accessRefusal_eq_unalignedAccess ho hw))

end Sys2Proof.Machine

/-!
The encoding (30_encoding.md): the signed coordinates of a descriptor, the fields each request reads, and the worked encodings.
-/
namespace Sys2Proof.Machine

/-! ## Coordinates (R68) -/

/-- Reading 16 bits as a signed integer is R10's sign extension of their number. -/
theorem toInt_eq_sext16 (v : BitVec 16) : v.toInt = sext16 v.toNat := by
  have hv := v.isLt
  rw [BitVec.toInt_eq_toNat_cond, sext16]
  split <;> split <;> omega

theorem lowS16_eq_sext16 (w : Word) : lowS16 w = sext16 (w.toNat % 65536) := by
  rw [lowS16, toInt_eq_sext16, BitVec.extractLsb'_toNat, Nat.shiftRight_zero]

theorem highS16_eq_sext16 (w : Word) : highS16 w = sext16 (w.toNat / 65536) := by
  have hw := w.isLt
  rw [highS16, toInt_eq_sext16, BitVec.extractLsb'_toNat, Nat.shiftRight_eq_div_pow, Nat.mod_eq_of_lt (by omega)]

theorem inS16_toInt (v : BitVec 16) : inS16 v.toInt = true := by
  have hlo := v.le_toInt
  have hhi := v.toInt_lt
  simp only [inS16, Bool.and_eq_true, decide_eq_true_eq]
  omega

@[simp] theorem inS16_lowS16 (w : Word) : inS16 (lowS16 w) = true := inS16_toInt _

@[simp] theorem inS16_highS16 (w : Word) : inS16 (highS16 w) = true := inS16_toInt _

theorem rect_wf (d : Desc) : d.rect.wf = true := by simp [Desc.rect, Rect.wf]

theorem sub_wf (d : Desc) : d.sub.wf = true := by simp [Desc.sub, SubImage.wf]

/-! ## Reserved bits (R73) -/

/-- The bits of a word from k up are 0 just when its number is below 2 ^ k. -/
theorem extractLsb'_upper_eq_zero_iff (w : Word) {k n : Nat} (h : k + n = 32) :
    w.extractLsb' k n = 0 ↔ w.toNat / 2 ^ k = 0 := by
  have hlt : w.toNat / 2 ^ k < 2 ^ n := by
    rw [Nat.div_lt_iff_lt_mul (Nat.two_pow_pos k), ← Nat.pow_add, Nat.add_comm, h]
    exact w.isLt
  rw [← BitVec.toNat_inj, BitVec.extractLsb'_toNat, Nat.shiftRight_eq_div_pow, Nat.mod_eq_of_lt hlt]
  rfl

/-- The decoder's check of the reserved bits is R73(b)'s. -/
theorem reservedClear_iff (d : Desc) : d.reservedClear = true ↔ ¬ reservedSet d := by
  rw [Desc.reservedClear, Bool.and_eq_true, decide_eq_true_iff, decide_eq_true_iff, extractLsb'_upper_eq_zero_iff d.w0 rfl,
    extractLsb'_upper_eq_zero_iff d.w7 rfl, reservedSet, not_or, ne_eq, ne_eq, Decidable.not_not,
    Decidable.not_not]

/-! ## The fields a request reads (R71) -/

section Fields
variable {d e : Desc}

theorem resetStyle_congr (h : sameFlag 11 d e) : d.resetStyle = e.resetStyle := by
  rw [Desc.resetStyle, h, Desc.resetStyle]

theorem isPartial_congr (h : sameFlag 12 d e) : d.isPartial = e.isPartial := h

theorem fill_congr (h : d.w7.toNat % 256 = e.w7.toNat % 256) : d.fill = e.fill :=
  BitVec.eq_of_toNat_eq (by simpa [Desc.fill] using h)

theorem rect_congr (h1 : d.w1 = e.w1) (h2 : d.w2 = e.w2) : d.rect = e.rect := by
  rw [Desc.rect, h1, h2, Desc.rect]

theorem sub_congr (h3 : d.w3 = e.w3) (h4 : d.w4 = e.w4) : d.sub = e.sub := by
  rw [Desc.sub, h3, h4, Desc.sub]

theorem imageFlags_congr (hinv : sameFlag 8 d e) (hmir : sameFlag 9 d e) (hsrc : sameFlag 10 d e) :
    d.imageFlags = e.imageFlags := by
  rw [Desc.imageFlags, hinv, hmir, hsrc, Desc.imageFlags]

/-! The four kinds of image rows of R71's table, whichever request is built from the fields of one. -/

theorem imageFields_congr (g : Word → Rect → ImageFlags → Instr) (h : d.w5 = e.w5 ∧ sameImage d e) :
    g d.w5 d.rect d.imageFlags = g e.w5 e.rect e.imageFlags := by
  obtain ⟨hbase, h1, h2, hinv, hmir, hsrc⟩ := h
  rw [hbase, rect_congr h1 h2, imageFlags_congr hinv hmir hsrc]

theorem partFields_congr (g : Word → SubImage → Rect → ImageFlags → Instr) (h : d.w5 = e.w5 ∧ samePart d e ∧ sameImage d e) :
    g d.w5 d.sub d.rect d.imageFlags = g e.w5 e.sub e.rect e.imageFlags := by
  obtain ⟨hbase, ⟨h3, h4⟩, himage⟩ := h
  rw [sub_congr h3 h4]
  exact imageFields_congr (g · e.sub) ⟨hbase, himage⟩

theorem dualFields_congr (g : Word → Word → Rect → ImageFlags → Instr) (h : d.w5 = e.w5 ∧ d.w6 = e.w6 ∧ sameImage d e) :
    g d.w5 d.w6 d.rect d.imageFlags = g e.w5 e.w6 e.rect e.imageFlags := by
  obtain ⟨hbase, hcolour, himage⟩ := h
  rw [hcolour]
  exact imageFields_congr (g · e.w6) ⟨hbase, himage⟩

theorem dualPartFields_congr (g : Word → Word → SubImage → Rect → ImageFlags → Instr)
    (h : d.w5 = e.w5 ∧ d.w6 = e.w6 ∧ samePart d e ∧ sameImage d e) :
    g d.w5 d.w6 d.sub d.rect d.imageFlags = g e.w5 e.w6 e.sub e.rect e.imageFlags := by
  obtain ⟨hbase, hcolour, hpart, himage⟩ := h
  rw [hcolour]
  exact partFields_congr (g · e.w6) ⟨hbase, hpart, himage⟩

/-- The fields of R71 determine the request: one case per row of R72, and the illegal opcodes. -/
theorem request_congr (hop : d.op = e.op) (h : sameFields d.op d e) : d.request = e.request := by
  unfold Desc.request
  rw [← hop]
  unfold sameFields at h
  generalize d.op.toNat = n at h ⊢
  split
  case h_1 => rw [resetStyle_congr h]
  case h_2 | h_3 | h_4 | h_5 | h_19 => rfl
  case h_6 => rw [fill_congr h]
  case h_7 => exact congrArg some (imageFields_congr .writeImage h)
  case h_8 => exact congrArg some (imageFields_congr .writeImageAgain h)
  case h_9 => exact congrArg some (partFields_congr .writeImagePart h)
  case h_10 => exact congrArg some (partFields_congr .writeImagePartAgain h)
  case h_11 => exact congrArg some (dualFields_congr .writeImageDual h)
  case h_12 => exact congrArg some (dualPartFields_congr .writeImagePartDual h)
  case h_13 => rw [isPartial_congr h]
  case h_14 =>
    obtain ⟨h1, h2⟩ := h
    rw [rect_congr h1 h2]
  case h_15 => exact congrArg some (imageFields_congr .drawImage h)
  case h_16 => exact congrArg some (partFields_congr .drawImagePart h)
  case h_17 => exact congrArg some (dualFields_congr .drawImageDual h)
  case h_18 => exact congrArg some (dualPartFields_congr .drawImagePartDual h)

end Fields

/-- Without reserved bits only the opcode decides whether a descriptor is a request (R73). -/
theorem decode_of_not_reservedSet {d : Desc} (h : ¬ reservedSet d) :
    decode d = d.request.elim (.error .illegalOpcode) .ok := by
  unfold decode
  rw [(reservedClear_iff d).2 h]
  cases d.request <;> rfl

/-! ## The obligations of the encoding (30_encoding.md) -/

/-- Settles O5: both descriptors pass the check of reserved bits, and `request_congr` gives them one request. -/
theorem unlistedFieldsIgnored : Obligations.UnlistedFieldsIgnored := by
  unfold Obligations.UnlistedFieldsIgnored
  intro d e hop hd he hsame
  rw [decode_of_not_reservedSet hd, decode_of_not_reservedSet he, request_congr hop hsame]

/-- Settles O4, half by half. -/
theorem coordinatesSignExtended : Obligations.CoordinatesSignExtended := by
  unfold Obligations.CoordinatesSignExtended
  intro d
  refine ⟨?_, ?_, rect_wf d, sub_wf d⟩
  · simp only [Desc.rect, lowS16_eq_sext16, highS16_eq_sext16]
  · simp only [Desc.sub, lowS16_eq_sext16, highS16_eq_sext16]

/-- Settles O6: each row of R81 is closed, and the encoder and the decoder compute it. -/
theorem workedEncodings : Obligations.WorkedEncodings := by
  unfold Obligations.WorkedEncodings
  refine ⟨fun di hdi => ?_, rfl, rfl⟩
  simp only [List.mem_cons, List.not_mem_nil, or_false] at hdi
  obtain rfl | rfl | rfl | rfl | rfl | rfl | rfl | rfl := hdi
  all_goals exact ⟨rfl, rfl⟩

end Sys2Proof.Machine

/-!
The address calculator (42_window_address.md): the bounds of a clipped rectangle, the source parameters of each form, and that
every streamed index lies in the bitmap.
-/
namespace Sys2Proof.Machine

/-! ## The bounds of AlignClip (R121) -/

section ClipBounds
variable {c : Cfg} {x y w h : Int} {r : Clipped}

/-- R121(a): a non-empty result is whole byte columns and rows, at least one of each. -/
theorem alignClip_byteColumns (hc : cfgWf c = true) (hr : alignClip c x y w h = some r) :
    r.x1 % 8 = 0 ∧ r.w1 % 8 = 0 ∧ 8 ≤ r.w1 ∧ 1 ≤ r.h1 := by
  obtain ⟨hwidth, -⟩ := cfgWf_iff.1 hc
  obtain ⟨rfl, hw1, hh1⟩ := alignClip_some.1 hr
  simp only [clipOf] at hw1 hh1 ⊢
  omega

/-- R121(b): a result lies on the panel. -/
theorem alignClip_onPanel (hr : alignClip c x y w h = some r) :
    0 ≤ r.x1 ∧ r.x1 + r.w1 ≤ c.width ∧ 0 ≤ r.y1 ∧ r.y1 + r.h1 ≤ c.height := by
  obtain ⟨rfl, -⟩ := alignClip_some.1 hr
  simp only [clipOf]
  omega

/-- R121(c): what is cut off at the left is whole byte columns, and no cut is negative. -/
theorem alignClip_offset (hr : alignClip c x y w h = some r) : r.dx % 8 = 0 ∧ 0 ≤ r.dx ∧ 0 ≤ r.dy := by
  obtain ⟨rfl, -⟩ := alignClip_some.1 hr
  simp only [clipOf]
  omega

/-- R121(d): a result, with what is cut off before it, fits the source it was clipped from. -/
theorem alignClip_fitsSource (hr : alignClip c x y w h = some r) :
    r.dx + r.w1 ≤ 8 * ceil8 w ∧ r.dy + r.h1 ≤ h := by
  obtain ⟨rfl, -⟩ := alignClip_some.1 hr
  simp only [clipOf]
  omega

end ClipBounds

/-! ## The source parameters of each form (R125, R136) -/

section SourceParameters
variable {c : Cfg} {p : Plane} {g : Region}

theorem resolveRegion_size (hg : resolveRegion c p = some g) : 0 ≤ p.rect.w ∧ 0 ≤ p.rect.h := by
  unfold resolveRegion at hg
  split at hg
  · cases hg
  · omega

/-- A plain plane is clipped as it stands, and its source is the whole bitmap. -/
theorem resolveRegion_image (hg : resolveRegion c p = some g) (hf : p.form = .image) :
    alignClip c p.rect.x p.rect.y p.rect.w p.rect.h = some g.clip ∧
      g.src = { colBase := 0, rowBase := 0, wbSrc := ceil8 p.rect.w, hSrc := p.rect.h } := by
  have hsize := resolveRegion_size hg
  rw [resolveRegion, if_neg (by omega), hf] at hg
  obtain ⟨r, hr, rfl⟩ := Option.map_eq_some_iff.1 hg
  exact ⟨hr, rfl⟩

/-- A part plane is clamped and then clipped, and its source is the bitmap from the sub-image's aligned origin on. -/
theorem resolveRegion_part {sub : SubImage} (hg : resolveRegion c p = some g) (hf : p.form = .part sub) :
    ∃ q, partClamp sub p.rect.w p.rect.h = some q ∧ alignClip c p.rect.x p.rect.y q.w' q.h' = some g.clip ∧
      g.src = { colBase := sub.xPart / 8, rowBase := sub.yPart, wbSrc := ceil8 sub.wBmp, hSrc := sub.hBmp } := by
  have hsize := resolveRegion_size hg
  rw [resolveRegion, if_neg (by omega), hf] at hg
  obtain ⟨q, hq, hg⟩ := Option.bind_eq_some_iff.1 hg
  obtain ⟨r, hr, rfl⟩ := Option.map_eq_some_iff.1 hg
  obtain ⟨-, hq'⟩ := partClamp_some.1 hq
  have hcol : q.xPa / 8 = sub.xPart / 8 := by
    simp only [hq']
    omega
  exact ⟨q, hq, hr, by rw [hcol]⟩

end SourceParameters

/-! ## Every streamed index lies in the bitmap (R127) -/

section IndexBounds
variable {c : Cfg} {p : Plane} {g : Region}

/-- The byte column of the window's column j lies in the bitmap: the cut-off columns and the window's fit the source. -/
theorem sourceColumn_inBitmap (hg : resolveRegion c p = some g) {j : Int} (hj : 0 ≤ j) (hj' : j < g.clip.w1 / 8) :
    0 ≤ g.src.colBase + j + g.clip.dx / 8 ∧ g.src.colBase + j + g.clip.dx / 8 < g.src.wbSrc := by
  obtain ⟨w, h, -, -, hclip, hcol, hwb, -⟩ := resolveRegion_some hg
  obtain ⟨-, hdx, -⟩ := alignClip_offset hclip
  obtain ⟨hfit, -⟩ := alignClip_fitsSource hclip
  omega

/-- The source row of the window's row i lies in the bitmap; reflecting a row in the whole bitmap keeps it there. -/
theorem srcRow_inBitmap (mir : Bool) (hg : resolveRegion c p = some g) {i : Int} (hi : 0 ≤ i) (hi' : i < g.clip.h1) :
    0 ≤ srcRow mir g i ∧ srcRow mir g i < g.src.hSrc := by
  obtain ⟨w, h, -, -, hclip, -, -, hrow, hh⟩ := resolveRegion_some hg
  obtain ⟨-, -, hdy⟩ := alignClip_offset hclip
  obtain ⟨-, hfit⟩ := alignClip_fitsSource hclip
  cases mir with
  | false =>
    simp only [srcRow, Bool.false_eq_true, if_false]
    omega
  | true =>
    simp only [srcRow, if_true]
    omega

end IndexBounds

/-- A column and a row of a bitmap of wb columns and h rows give an index of the bitmap. -/
theorem rowMajor_inBitmap {col row wb h : Int} (hcol : 0 ≤ col ∧ col < wb) (hrow : 0 ≤ row ∧ row < h) :
    0 ≤ col + row * wb ∧ col + row * wb < wb * h := by
  have hwb : 0 ≤ wb := by omega
  have hlo : 0 ≤ row * wb := Int.mul_nonneg hrow.1 hwb
  have hhi : (row + 1) * wb ≤ h * wb := Int.mul_le_mul_of_nonneg_right (by omega) hwb
  rw [Int.add_mul, Int.one_mul] at hhi
  rw [Int.mul_comm wb h]
  omega

/-! ## The obligations of the address calculator (42_window_address.md) -/

/-- Settles O50, clause by clause of R121; the bounds hold for negative sizes as well. -/
theorem alignClipBounds : Obligations.AlignClipBounds := by
  unfold Obligations.AlignClipBounds
  intro c x y w h r hc _ _ hr
  exact ⟨alignClip_byteColumns hc hr, alignClip_onPanel hr, alignClip_offset hr, alignClip_fitsSource hr⟩

/-- Settles O52: the column and the row lie in the bitmap, and so does their index. -/
theorem sourceIndexInBitmap : Obligations.SourceIndexInBitmap := by
  unfold Obligations.SourceIndexInBitmap
  refine ⟨fun c p g i j _ hg hi hi' hj hj' => ?_, fun g i j => ⟨rfl, rfl⟩, fun c p g hg => ?_⟩
  · have hcol := sourceColumn_inBitmap hg hj hj'
    have hrow := srcRow_inBitmap p.mir hg hi hi'
    exact ⟨hcol, hrow, rowMajor_inBitmap hcol hrow⟩
  · obtain ⟨hw, hh⟩ := resolveRegion_size hg
    refine ⟨hw, hh, fun hf => ?_, fun sub hf => ?_⟩
    · obtain ⟨hclip, hsrc⟩ := resolveRegion_image hg hf
      rw [hsrc]
      exact ⟨hclip, rfl, rfl, rfl, rfl⟩
    · obtain ⟨q, hq, hclip, hsrc⟩ := resolveRegion_part hg hf
      rw [hsrc]
      exact ⟨q, hq, hclip, rfl, rfl, rfl, rfl⟩

end Sys2Proof.Machine

/-!
Write requests (43_write.md): the host's turn without an engine reset, requests that have no step to take, and the part writes
whose sub-origin is outside the bitmap.
-/
namespace Sys2Proof.Machine

/-! ## The host's turn without an engine reset (R38, R54) -/

/-- Moves without an engine reset end no request, and the moves they leave pending hold none either. -/
theorem landMoves_noReset {ms : List HostMove} (h : (ms.all fun m => decide (m ≠ .engineReset)) = true) (s : State) :
    (landMoves ms s).Sat (fun u => hostNoReset u = true) fun _ => False := by
  induction ms generalizing s with
  | nil => rfl
  | cons m rest ih =>
    obtain ⟨hm, hrest⟩ : m ≠ .engineReset ∧ (rest.all fun m => decide (m ≠ .engineReset)) = true := by
      simpa only [List.all_cons, Bool.and_eq_true, decide_eq_true_eq] using h
    cases m with
    | pass => exact hrest
    | hold => exact hrest
    | awaitReady => exact h
    | engineReset => exact absurd rfl hm
    | poke space a b => exact ih hrest _
    | write offset width v =>
      unfold landMoves
      cases accessRefusal offset width with
      | some r => exact h
      | none => exact ih hrest _
    | read offset width =>
      unfold landMoves
      cases accessRefusal offset width with
      | some r => exact h
      | none => exact ih hrest _

/-- Without an engine reset, a step can only end a request by what it does itself after the host's turn. -/
theorem takeStep_kept_noReset {P Q R : State → Prop} (H : KeptByHost P R) {a : Act} {now : State → Progress} {s : State}
    (hr : hostNoReset s = true) (h : P s) (hn : ∀ u, hostNoReset u = true → P u → (now u).Sat P Q) :
    (takeStep a now s).Sat P Q := by
  have hkept := landMoves_kept H s.inbox h
  have hmoves := landMoves_noReset hr s
  unfold takeStep hostTurn
  split
  · next e =>
    rw [e] at hkept hmoves
    exact hn _ hmoves hkept
  · next e =>
    rw [e] at hmoves
    exact hmoves.elim
  · next e =>
    rw [e] at hkept
    exact hkept

/-! ## The bus log and the flags in the host's turn (R54) -/

/-- A state with the same bus log and the same controller-state flags. -/
def sameLogAndFlags (s u : State) : Prop := u.log = s.log ∧ u.flags = s.flags

theorem hostPoke_log (space : Space) (a : Word) (b : Byte) (s : State) : (hostPoke space a b s).log = s.log := by
  unfold hostPoke
  split <;> simp

theorem hostPoke_flags (space : Space) (a : Word) (b : Byte) (s : State) : (hostPoke space a b s).flags = s.flags := by
  unfold hostPoke
  split <;> simp

theorem regWrite_log (offset : Nat) (v : Word) (s : State) : (regWrite offset v s).log = s.log := by
  obtain ⟨d, sh, st, hw⟩ := regWrite_eq offset v s
  have hs : regWrite offset v s = { s with req := d, shadow := sh, status := st } := hw s.inbox s.todo
  rw [hs]

theorem regWrite_flags (offset : Nat) (v : Word) (s : State) : (regWrite offset v s).flags = s.flags := by
  obtain ⟨d, sh, st, hw⟩ := regWrite_eq offset v s
  have hs : regWrite offset v s = { s with req := d, shadow := sh, status := st } := hw s.inbox s.todo
  rw [hs]

/-- The host appends no event and changes no flag, short of an engine reset. -/
theorem sameLogAndFlags_keptByHost (s : State) : KeptByHost (sameLogAndFlags s) fun _ => True where
  inbox _ _ h := h
  held _ h := h
  replies _ _ h := h
  poke space a b u h := ⟨(hostPoke_log space a b u).trans h.1, (hostPoke_flags space a b u).trans h.2⟩
  write offset v u _ h := ⟨(regWrite_log offset v u).trans h.1, (regWrite_flags offset v u).trans h.2⟩
  reset _ _ := trivial

/-! ## Requests without a step of their own (R80) -/

/-- A request whose routine has no step to take appends no event and changes no flag: only Dispatch's fault or READY <- 1 is
left of it, after a turn of the host. -/
theorem request_sameLogAndFlags_of_noStep {g : Gate} {body : Cfg → Prog} {s t : State} (hr : hostNoReset s = true)
    (hb : (body s.cfg).first s.flags = none) (h : request g body s = .next t) : sameLogAndFlags s t := by
  have hhost := sameLogAndFlags_keptByHost s
  have hrun : ((dispatched g body s).run (began s)).Sat (sameLogAndFlags s) (sameLogAndFlags s) := by
    unfold dispatched
    cases gateFault g s with
    | some k => exact takeStep_kept_noReset hhost hr ⟨rfl, rfl⟩ fun _ _ hu => hu
    | none =>
      show ((Prog.seq (body s.cfg) (.act .complete)).run (began s)).Sat _ _
      rw [run_seq, run_of_first_none (s := began s) hb, andThen_going]
      exact takeStep_kept_noReset hhost hr ⟨rfl, rfl⟩ fun _ _ hu => hu
  exact request_sat h hrun (fun _ _ hu => hu) fun _ _ hu => hu

/-! ## Planes that resolve to nothing (R124, R136, R140) -/

/-- A sub-origin outside the bitmap rejects the plane: an accepted one has its origin inside. -/
theorem resolveRegion_outside {c : Cfg} {p : Plane} {sub : SubImage} (hf : p.form = .part sub)
    (ho : sub.xPart < 0 ∨ sub.xPart ≥ sub.wBmp ∨ sub.yPart < 0 ∨ sub.yPart ≥ sub.hBmp) : resolveRegion c p = none := by
  cases hg : resolveRegion c p with
  | none => rfl
  | some g =>
    obtain ⟨q, hq, -⟩ := resolveRegion_part hg hf
    obtain ⟨⟨-, -, hx, hx', hy, hy'⟩, -⟩ := partClamp_some.1 hq
    omega

theorem writeRegion_of_none {c : Cfg} {p : Plane} (h : resolveRegion c p = none) : writeRegion p c = .skip := by
  rw [writeRegion, h]

theorem writeDual_of_none {c : Cfg} {p q : Plane} (hp : resolveRegion c p = none) (hq : resolveRegion c q = none) :
    writeDual p q c = .seq .skip .skip := by
  rw [writeDual, writeRegion_of_none hp, writeRegion_of_none hq]

/-! ## The obligations of the write requests (43_write.md) -/

/-- Settles O37: each plane of the three requests resolves to nothing, so their routines have no step to take. -/
theorem partOutsideBitmap : Obligations.PartOutsideBitmap := by
  unfold Obligations.PartOutsideBitmap
  intro b c p r f i s t ho hi hr h
  rw [exec_eq_request] at h
  refine request_sameLogAndFlags_of_noStep hr ?_ h
  obtain rfl | rfl | rfl := hi
  · exact congrArg (Prog.first s.flags) (writeRegion_of_none (resolveRegion_outside rfl ho))
  · exact congrArg (Prog.first s.flags) (writeRegion_of_none (resolveRegion_outside rfl ho))
  · exact congrArg (Prog.first s.flags) (writeDual_of_none (resolveRegion_outside rfl ho) (resolveRegion_outside rfl ho))

end Sys2Proof.Machine

/-!
Dispatch's faults (60_exceptions.md): what the host can do between a start and the fault that Dispatch's checks give it, and the
requests made before the first INIT.
-/
namespace Sys2Proof.Machine

/-! ## The host's turn before a dispatch fault (R17, R54) -/

/-- With READY 0 no start is taken: a register write changes the request registers or sets DROP (R16, R17). -/
theorem regWrite_of_notReady {s : State} (h : s.status.ready = false) (offset : Nat) (v : Word) :
    (∃ d, regWrite offset v s = { s with req := d }) ∨ regWrite offset v s = setDrop s ∨ regWrite offset v s = s := by
  have ht : ¬ startTaken v s = true := by simp [startTaken, h]
  unfold regWrite onGoWrite
  rw [if_neg ht]
  split
  · exact .inl ⟨_, rfl⟩
  · split
    · split
      · exact .inr (.inl rfl)
      · exact .inr (.inr rfl)
    · exact .inr (.inr rfl)

/-- A request that began from s has READY 0, and nothing that its dispatch fault reads or leaves alone has changed. -/
structure FaultPending (s u : State) : Prop where
  ready : u.status.ready = false
  shadow : u.shadow = s.shadow
  faultRecord : u.faultRecord = s.faultRecord
  flags : u.flags = s.flags
  lines : u.lines = s.lines
  log : u.log = s.log
  wire : u.wire = s.wire
  t0 : u.t0 = s.t0

theorem faultPending_began (s : State) : FaultPending s (began s) := ⟨rfl, rfl, rfl, rfl, rfl, rfl, rfl, rfl⟩

/-- Short of an engine reset, no move of the host reaches what a pending fault depends on. -/
theorem faultPending_keptByHost (s : State) : KeptByHost (FaultPending s) fun _ => True where
  inbox _ _ h := { h with }
  held _ h := { h with }
  replies _ _ h := { h with }
  poke space a b u h := by
    unfold hostPoke
    rw [h.ready]
    constructor <;> simp [h.ready, h.shadow, h.faultRecord, h.flags, h.lines, h.log, h.wire, h.t0]
  write offset v u _ h := by
    obtain ⟨d, e⟩ | e | e := regWrite_of_notReady h.ready offset v
    · rw [e]
      exact { h with }
    · rw [e]
      exact { h with }
    · rw [e]
      exact h
  reset _ _ := trivial

/-! ## The fault itself (R80, R168) -/

section DispatchFault
variable {g : Gate} {body : Cfg → Prog} {k : FaultKind} {s : State}

/-- While the fault is pending READY is 0, so nothing is yet said of STATUS. -/
theorem FaultPending.dispatchFaults {u : State} (h : FaultPending s u) : dispatchFaults k s.shadow.op s u :=
  ⟨h.flags, h.lines, h.log, h.wire, h.t0, fun hr => absurd hr (by simp [h.ready])⟩

theorem FaultPending.raised {u : State} (h : FaultPending s u) :
    Machine.dispatchFaults k s.shadow.op s (raiseFault k u) :=
  ⟨h.flags, h.lines, h.log, h.wire, h.t0, fun _ => by simp [h.shadow, h.faultRecord]⟩

/-- A fault that Dispatch gives, whatever the host does before it short of an engine reset (R54, R165). -/
theorem request_dispatchFaults (hc : cfgWf s.cfg = true) (hr : hostNoReset s = true) (hg : gateFault g s = some k) :
    ∃ t, request g body s = .next t ∧ dispatchFaults k s.shadow.op s t := by
  have hrun : ((dispatched g body s).run (began s)).Sat (FaultPending s) (dispatchFaults k s.shadow.op s) := by
    rw [dispatched, hg]
    exact takeStep_kept_noReset (faultPending_keptByHost s) hr (faultPending_began s) fun _ _ hu => hu.raised
  have hnext : request g body s = .next ((dispatched g body s).reach (beginRequest s)) := if_pos hc
  exact ⟨_, hnext, request_sat hnext hrun (fun _ _ hu => hu) fun _ _ hu => hu.dispatchFaults⟩

/-- With a silent host the fault is all that is left of the request (R165, R168). -/
theorem request_faultTaken (hc : cfgWf s.cfg = true) (hs : hostSilent s = true) (hg : gateFault g s = some k) :
    ∃ t, request g body s = .next t ∧ faultTaken k s t ∧ dispatchKept s t :=
  ⟨raiseFault k (began s), request_gate hc hs hg, ⟨rfl, rfl, rfl, rfl, rfl, rfl, rfl, rfl, rfl⟩,
    ⟨rfl, rfl, rfl, rfl, rfl, fun _ _ => rfl⟩, rfl, rfl, rfl, rfl, rfl, rfl, rfl, rfl, rfl, rfl⟩

end DispatchFault

/-! ## Before the first INIT (R171) -/

/-- INIT alone is dispatched without initDone (R80). -/
theorem bodyOf_needsInit (i : Instr) : (bodyOf i).1.needsInit = !isInit i := by
  cases i <;> rfl

/-- NOT_INITIALIZED is the first of the two checks, so it does not depend on HAS_COLOR (R172). -/
theorem gateFault_notInitialized {i : Instr} {s : State} (hi : isInit i = false) (hd : s.flags.initDone = false) :
    gateFault (bodyOf i).1 s = some .notInitialized := by
  simp [gateFault, bodyOf_needsInit, hi, hd]

/-- Settles O44: the gate's first check gives the fault, which Dispatch raises after one turn of the host; the example is POWER_ON
right after reset. -/
theorem notInitialized : Obligations.NotInitialized := by
  unfold Obligations.NotInitialized
  refine ⟨fun i s hc hd hi => ?_, fun c hc => ?_⟩
  · rw [exec_eq_request]
    have hg := gateFault_notInitialized hi hd
    exact ⟨fun hs => request_faultTaken hc hs hg, fun hr => request_dispatchFaults hc hr hg⟩
  · have hstate : stateWord flagsReset = 0x0000000C := by decide
    exact ⟨_, request_gate hc rfl rfl, rfl, hstate⟩

end Sys2Proof.Machine

/-!
Decoding (30_encoding.md): the decoder undoes the encoder field by field, and the three outcomes of a decoding.
-/
namespace Sys2Proof.Machine

/-! ## Coordinates that are packed and read again (R68) -/

theorem toInt_ofInt_of_inS16 {n : Int} (h : inS16 n = true) : (BitVec.ofInt 16 n).toInt = n := by
  simp only [inS16, Bool.and_eq_true, decide_eq_true_eq] at h
  rw [BitVec.toInt_ofInt, Int.bmod_eq_of_le] <;> omega

theorem lowS16_packS16 {lo : Int} (hi : Int) (h : inS16 lo = true) : lowS16 (packS16 lo hi) = lo := by
  rw [lowS16, packS16, BitVec.extractLsb'_append_eq_right, toInt_ofInt_of_inS16 h]

theorem highS16_packS16 (lo : Int) {hi : Int} (h : inS16 hi = true) : highS16 (packS16 lo hi) = hi := by
  rw [highS16, packS16, BitVec.extractLsb'_append_eq_left, toInt_ofInt_of_inS16 h]

theorem rect_of_packed {d : Desc} {r : Rect} (h : r.wf = true) (h1 : d.w1 = packS16 r.x r.y) (h2 : d.w2 = packS16 r.w r.h) :
    d.rect = r := by
  simp only [Rect.wf, Bool.and_eq_true] at h
  obtain ⟨⟨⟨hx, hy⟩, hw⟩, hh⟩ := h
  rw [Desc.rect, h1, h2, lowS16_packS16 _ hx, highS16_packS16 _ hy, lowS16_packS16 _ hw, highS16_packS16 _ hh]

theorem sub_of_packed {d : Desc} {p : SubImage} (h : p.wf = true) (h3 : d.w3 = packS16 p.xPart p.yPart)
    (h4 : d.w4 = packS16 p.wBmp p.hBmp) : d.sub = p := by
  simp only [SubImage.wf, Bool.and_eq_true] at h
  obtain ⟨⟨⟨hx, hy⟩, hw⟩, hh⟩ := h
  rw [Desc.sub, h3, h4, lowS16_packS16 _ hx, highS16_packS16 _ hy, lowS16_packS16 _ hw, highS16_packS16 _ hh]

/-! ## Word 0 of the image forms (R67) -/

theorem getLsbD_flagBit {k : Nat} (hk : k < 32) (b : Bool) (n : Nat) : (flagBit k b).getLsbD n = (decide (n = k) && b) :=
  getLsbD_bitAt hk b n

theorem imageWord_op (op : Byte) (f : ImageFlags) : (imageWord op f).extractLsb' 0 8 = op := by
  apply BitVec.eq_of_getLsbD_eq
  intro k hk
  simp (disch := decide) [imageWord, getLsbD_flagBit, hk, Nat.ne_of_lt (Nat.lt_of_lt_of_le hk _)]
  omega

theorem getLsbD_imageWord (op : Byte) (f : ImageFlags) {n : Nat} (hn : 8 ≤ n) :
    (imageWord op f).getLsbD n
      = ((decide (n = 8) && f.inv) || (decide (n = 9) && f.mir) || (decide (n = 10) && decide (f.space = .readThrough))) := by
  simp (disch := decide) [imageWord, getLsbD_flagBit, BitVec.getLsbD_of_ge op n hn]

theorem imageFlags_imageWord {d : Desc} {op : Byte} {f : ImageFlags} (h : d.w0 = imageWord op f) : d.imageFlags = f := by
  obtain ⟨inv, mir, space⟩ := f
  simp (disch := decide) only [Desc.imageFlags, h, getLsbD_imageWord]
  cases space <;> simp


/-! ## The request of an encoded descriptor (R72) -/

/-- Each kind of image row: the fields that the encoder writes are those the decoder reads, whichever request they build. -/
theorem imageDesc_fields (op : Byte) (b c : Word) {p : SubImage} {r : Rect} (f : ImageFlags) (hp : p.wf = true) (hr : r.wf = true) :
    (imageDesc op b c p r f).op = op ∧ (imageDesc op b c p r f).rect = r ∧ (imageDesc op b c p r f).sub = p ∧
      (imageDesc op b c p r f).imageFlags = f :=
  ⟨imageWord_op op f, rect_of_packed hr rfl rfl, sub_of_packed hp rfl rfl, imageFlags_imageWord (op := op) rfl⟩

theorem encode_reservedClear (i : Instr) : (encode i).reservedClear = true := by
  cases i with
  | init style => exact Laws.ReservedClear.init style
  | powerOn => rfl
  | powerOff => rfl
  | hibernate => rfl
  | waitBusy => rfl
  | writeScreenBuffer fill => exact Laws.ReservedClear.writeScreenBuffer fill
  | refresh isPartial => exact Laws.ReservedClear.refresh isPartial
  | refreshRect r => exact Laws.ReservedClear.refreshRect r
  | _ => exact Laws.ReservedClear.imageDesc_clear _ _ _ _ _

/-- The encoder's descriptor of a well-formed request has that request's opcode and fields. -/
theorem request_encode {i : Instr} (h : i.wf = true) : (encode i).request = some i := by
  have image (b c : Word) {r : Rect} (f : ImageFlags) (hr : r.wf = true) (op : Byte) :=
    imageDesc_fields op b c (p := noSub) f rfl hr
  have part (b c : Word) {p : SubImage} {r : Rect} (f : ImageFlags) (hw : (p.wf && r.wf) = true) (op : Byte) :=
    imageDesc_fields op b c f (Bool.and_eq_true_iff.1 hw).1 (Bool.and_eq_true_iff.1 hw).2
  cases i
  case init style => cases style <;> rfl
  case powerOn | powerOff | hibernate | waitBusy => rfl
  case writeScreenBuffer fill =>
    exact congrArg (some ∘ Instr.writeScreenBuffer) (BitVec.extractLsb'_setWidth_of_le (by decide) |>.trans BitVec.extractLsb'_eq_self)
  case refresh isPartial => cases isPartial <;> rfl
  case refreshRect r =>
    exact congrArg (some ∘ Instr.refreshRect) (rect_of_packed (d := encode (.refreshRect r)) h rfl rfl)
  case writeImage b r f | writeImageAgain b r f | drawImage b r f =>
    simp only [encode, Desc.request, image b 0 f h]
    rfl
  case writeImagePart b p r f | writeImagePartAgain b p r f | drawImagePart b p r f =>
    simp only [encode, Desc.request, part b 0 f h]
    rfl
  case writeImageDual b c r f | drawImageDual b c r f =>
    simp only [encode, Desc.request, image b c f h]
    rfl
  case writeImagePartDual b c p r f | drawImagePartDual b c p r f =>
    simp only [encode, Desc.request, part b c f h]
    rfl

/-- Settles O1: the encoder sets no reserved bit, and every field is read where it was written. -/
theorem decodeOfEncode : Obligations.DecodeOfEncode := by
  unfold Obligations.DecodeOfEncode
  intro i h
  rw [decode, request_encode h]
  exact if_pos (encode_reservedClear i)

/-! ## The outcomes of a decoding (R72, R73) -/

theorem op_toNat (d : Desc) : d.op.toNat = d.w0.toNat % 256 := by
  rw [Desc.op, BitVec.extractLsb'_toNat, Nat.shiftRight_zero]

/-- The opcodes without a row in R72's table are those of R73(a). -/
theorem request_none_iff (d : Desc) : d.request = none ↔ illegalOpcode d.op := by
  have hlt := d.op.isLt
  unfold Desc.request illegalOpcode
  generalize d.op.toNat = n at hlt ⊢
  split
  case h_19 =>
    simp only [imp_false] at *
    simp only [true_iff]
    omega
  all_goals simp

/-- Every request decoded is well-formed, since its coordinates are read from 16-bit fields. -/
theorem request_wf {d : Desc} {i : Instr} (h : d.request = some i) : i.wf = true := by
  unfold Desc.request at h
  split at h
  case h_19 => cases h
  all_goals
    obtain rfl := Option.some.inj h
    simp [Instr.wf, rect_wf, sub_wf]

theorem decode_ok_iff {d : Desc} {i : Instr} : decode d = .ok i ↔ d.request = some i ∧ d.reservedClear = true := by
  unfold decode
  cases d.request with
  | none => simp
  | some j => cases d.reservedClear <;> simp

theorem fill_eq_ofNat (d : Desc) : d.fill = BitVec.ofNat 8 (d.w7.toNat % 256) :=
  BitVec.eq_of_toNat_eq (by simp [Desc.fill])

/-- Settles O2. -/
theorem decodedIsWellFormed : Obligations.DecodedIsWellFormed := by
  unfold Obligations.DecodedIsWellFormed
  intro d i h
  exact request_wf (decode_ok_iff.1 h).1

/-- Settles O3: the opcode alone decides between an illegal one and a request, and then the reserved bits whether it is reported. -/
theorem decodeCases : Obligations.DecodeCases := by
  unfold Obligations.DecodeCases
  intro d
  refine ⟨fun ho => ?_, fun ho hr => ?_, fun ho hr => ?_, fun hr row hrow hop => ?_⟩
  · rw [decode, (request_none_iff d).2 ho]
  · obtain ⟨i, hi⟩ := Option.ne_none_iff_exists'.1 (mt (request_none_iff d).1 ho)
    rw [decode, hi]
    exact if_neg fun hc => (reservedClear_iff d).1 hc hr
  · obtain ⟨i, hi⟩ := Option.ne_none_iff_exists'.1 (mt (request_none_iff d).1 ho)
    exact ⟨i, decode_ok_iff.2 ⟨hi, (reservedClear_iff d).2 hr⟩⟩
  · refine decode_ok_iff.2 ⟨?_, (reservedClear_iff d).2 hr⟩
    rw [← op_toNat] at hop
    rw [← fill_eq_ofNat] at hrow
    simp only [List.mem_cons, List.not_mem_nil, or_false] at hrow
    obtain rfl | rfl | rfl | rfl | rfl | rfl | rfl | rfl | rfl | rfl | rfl | rfl | rfl | rfl | rfl | rfl | rfl | rfl := hrow
    all_goals
      rw [Desc.request, hop]
      rfl

end Sys2Proof.Machine

/-!
The invariant (10_state.md R27, R31): where the routine of each request leads, and that a step of the machine keeps the invariant.
-/
namespace Sys2Proof.Machine

/-! ## Where routines lead -/

/-- From flags with A and no wait open, the steps lead to the request's end, or on with B and no wait open. -/
def Prog.LeadsTo (A B : Flags → Prop) (p : Prog) : Prop :=
  ∀ f, A f → p.lead f false = .over ∨ ∃ g, p.lead f false = .on g false ∧ B g

/-- The flags of an initialized engine between two requests (R27). -/
def Fine (f : Flags) : Prop := flagsInv f = true ∧ f.initDone = true

section LeadsTo
variable {A B C : Flags → Prop} {p q : Prog}

theorem leadsTo_skip (A : Flags → Prop) : Prog.skip.LeadsTo A A := fun f h => .inr ⟨f, rfl, h⟩

theorem Prog.LeadsTo.seq (hp : p.LeadsTo A B) (hq : q.LeadsTo B C) : (Prog.seq p q).LeadsTo A C := by
  intro f hf
  obtain h | ⟨g, h, hg⟩ := hp f hf
  · exact .inl (by rw [Prog.lead, h])
  · rw [Prog.lead, h]
    exact hq g hg

theorem Prog.LeadsTo.ifFlag {n : FlagName} (hp : p.LeadsTo (fun f => A f ∧ f.get n = true) B)
    (hq : q.LeadsTo (fun f => A f ∧ f.get n = false) B) : (Prog.ifFlag n p q).LeadsTo A B := by
  intro f hf
  unfold Prog.lead
  cases hn : f.get n with
  | true => exact hp f ⟨hf, hn⟩
  | false => exact hq f ⟨hf, hn⟩

theorem Prog.LeadsTo.mono {A' B' : Flags → Prop} (h : p.LeadsTo A B) (hA : ∀ f, A' f → A f) (hB : ∀ f, B f → B' f) :
    p.LeadsTo A' B' := by
  intro f hf
  obtain h | ⟨g, h, hg⟩ := h f (hA f hf)
  · exact .inl h
  · exact .inr ⟨g, h, hB g hg⟩

theorem setFlag_leadsTo {n : FlagName} {v : Bool} (h : ∀ f, A f → B (f.set n v)) : (Prog.act (.setFlag n v)).LeadsTo A B :=
  fun f hf => .inr ⟨_, rfl, h f hf⟩

end LeadsTo

/-! Steps that write no flag: from flags with R27's relations they lead to the end, or on with these flags. -/

theorem delay_leadsTo (ms : Nat) (A : Flags → Prop) : (delay ms).LeadsTo A A := by
  intro f hf
  unfold delay
  split
  · exact .inr ⟨f, rfl, hf⟩
  · exact .inr ⟨f, rfl, hf⟩

theorem wait_leadsTo (label : WaitLabel) (ms : Nat) (c : Cfg) (A : Flags → Prop) : (waitWhileBusy label ms c).LeadsTo A A := by
  unfold waitWhileBusy
  split
  · exact fun f hf => .inr ⟨f, rfl, hf⟩
  · exact (delay_leadsTo ms A).seq fun f hf => .inr ⟨f, rfl, hf⟩

/-- A list of transfers, of bytes or of bitmap reads. -/
theorem transfers_leadsTo {ps : List Prog} (hps : ∀ p ∈ ps, ∀ f w, p.lead f w = leadSend f w) {A : Flags → Prop}
    (hA : ∀ f, A f → flagsInv f = true) : (steps ps).LeadsTo A A := by
  induction ps with
  | nil => exact leadsTo_skip A
  | cons p ps ih =>
    refine Prog.LeadsTo.seq (fun f hf => ?_) (ih fun q hq => hps q (List.mem_cons_of_mem p hq))
    rw [hps p List.mem_cons_self, leadSend, if_pos (hA f hf)]
    split
    · exact .inl rfl
    · exact .inr ⟨f, rfl, hf⟩

theorem sendBytes_leadsTo (bs : List (ByteKind × Byte)) {A : Flags → Prop} (hA : ∀ f, A f → flagsInv f = true) :
    (sendBytes bs).LeadsTo A A := by
  refine transfers_leadsTo (fun p hp f w => ?_) hA
  obtain ⟨b, -, rfl⟩ := List.mem_map.1 hp
  rfl

theorem streamBytes_leadsTo (space : Space) (inv : Bool) (addrs : List Word) {A : Flags → Prop}
    (hA : ∀ f, A f → flagsInv f = true) : (streamBytes space inv addrs).LeadsTo A A := by
  refine transfers_leadsTo (fun p hp f w => ?_) hA
  obtain ⟨a, -, rfl⟩ := List.mem_map.1 hp
  rfl

/-- A sequence with a byte in it ends the request while the controller hibernates (R113). -/
theorem sendSeq_leadsTo_awake {seq : List SeqStep} (h : seq ≠ []) {A : Flags → Prop} (hA : ∀ f, A f → flagsInv f = true) :
    (sendSeq seq).LeadsTo A fun f => A f ∧ f.hibernating = false := by
  obtain ⟨st, rest, rfl⟩ := List.exists_cons_of_ne_nil h
  refine Prog.LeadsTo.seq (B := fun f => A f ∧ f.hibernating = false) (fun f hf => ?_) (sendBytes_leadsTo _ fun f hf => hA f hf.1)
  rw [Prog.lead, leadAct, leadSend, if_pos (hA f hf)]
  cases hh : f.hibernating with
  | true => exact .inl rfl
  | false => exact .inr ⟨f, rfl, hf, hh⟩

/-! ## The routines of the power-state machine -/

/-- R27(a), (b) and, once INIT has run, nothing else. -/
theorem fine_iff {f : Flags} : Fine f ↔ f.initDone = true ∧ (f.usingPartialMode = true → f.powerOn = true) ∧
    (f.hibernating = true → f.powerOn = false) := by
  obtain ⟨p, m, w, r, h, d⟩ := f
  cases p <;> cases m <;> cases h <;> cases d <;> simp [Fine, flagsInv]

theorem fine_flagsInv {f : Flags} (h : Fine f) : flagsInv f = true := h.1

section Routines
variable {c : Cfg}

theorem powerOn_leadsTo (h : c.pd.seqPowerOn ≠ []) : (powerOn c).LeadsTo Fine fun f => Fine f ∧ f.powerOn = true := by
  refine Prog.LeadsTo.ifFlag (leadsTo_skip _) ?_
  refine (sendSeq_leadsTo_awake h fun f hf => hf.1.1).seq ((wait_leadsTo _ _ c _).seq (Prog.LeadsTo.seq (setFlag_leadsTo ?_) (leadsTo_skip _)))
  rintro f ⟨⟨hf, -⟩, hh⟩
  rw [fine_iff] at hf ⊢
  simp [hf, hh]

theorem powerOff_leadsTo (c : Cfg) : (powerOff c).LeadsTo Fine fun f => Fine f ∧ f.powerOn = false := by
  refine Prog.LeadsTo.ifFlag ?_ (leadsTo_skip _)
  refine (sendBytes_leadsTo _ fun f hf => hf.1.1).seq ((wait_leadsTo _ _ c _).seq (Prog.LeadsTo.seq
    (B := fun f => Fine { f with usingPartialMode := false } ∧ f.powerOn = false) (setFlag_leadsTo ?_)
    (Prog.LeadsTo.seq (setFlag_leadsTo fun f hf => hf) (leadsTo_skip _))))
  rintro f ⟨hf, hp⟩
  rw [fine_iff] at hf ⊢
  simp [hf]

/-- A mode entry, for either mode. -/
theorem enter_leadsTo (h : c.pd.seqPowerOn ≠ []) (v : Bool) :
    (steps [initController c, powerOn c, .act (.setFlag .usingPartialMode v)]).LeadsTo Fine Fine := by
  refine (sendBytes_leadsTo _ fun f => fine_flagsInv).seq ((powerOn_leadsTo h).seq (Prog.LeadsTo.seq (setFlag_leadsTo ?_) (leadsTo_skip _)))
  rintro f ⟨hf, hp⟩
  rw [fine_iff] at hf ⊢
  simp_all

theorem ensurePartial_leadsTo (h : c.pd.seqPowerOn ≠ []) : (ensurePartial c).LeadsTo Fine Fine :=
  Prog.LeadsTo.ifFlag ((leadsTo_skip _).mono (fun _ hf => hf.1) fun _ hf => hf)
    ((enter_leadsTo h true).mono (fun _ hf => hf.1) fun _ hf => hf)

theorem hibernateBody_leadsTo (c : Cfg) : (hibernateBody c).LeadsTo Fine Fine := by
  refine (powerOff_leadsTo c).seq (Prog.LeadsTo.seq ?_ (leadsTo_skip _))
  split
  · refine (sendBytes_leadsTo _ fun f hf => hf.1.1).seq (Prog.LeadsTo.seq (setFlag_leadsTo ?_) (leadsTo_skip _))
    rintro f ⟨hf, hp⟩
    rw [fine_iff] at hf ⊢
    simp_all
  · exact (leadsTo_skip _).mono (fun _ hf => hf.1) fun _ hf => hf

/-! ## The routines of the write family -/

theorem fine_initialWrite {f : Flags} (h : Fine f) : Fine (f.set .initialWrite false) := by
  rw [fine_iff] at h ⊢
  exact h

theorem fine_initialRefresh {f : Flags} (h : Fine f) : Fine (f.set .initialRefresh false) := by
  rw [fine_iff] at h ⊢
  exact h

/-- A flag that a routine looks at, where it has the relations of R27 either way. -/
theorem ifFlag_leadsTo {n : FlagName} {p q : Prog} (hp : p.LeadsTo Fine Fine) (hq : q.LeadsTo Fine Fine) :
    (Prog.ifFlag n p q).LeadsTo Fine Fine :=
  Prog.LeadsTo.ifFlag (hp.mono (fun _ hf => hf.1) fun _ hf => hf) (hq.mono (fun _ hf => hf.1) fun _ hf => hf)

theorem send_leadsTo (bs : List (ByteKind × Byte)) : (sendBytes bs).LeadsTo Fine Fine := sendBytes_leadsTo bs fun _ => fine_flagsInv

theorem screenBufferFill_leadsTo (h : c.pd.seqPowerOn ≠ []) (v : Byte) : (screenBufferFill v c).LeadsTo Fine Fine :=
  (ensurePartial_leadsTo h).seq ((ifFlag_leadsTo (send_leadsTo _) (leadsTo_skip _)).seq ((send_leadsTo _).seq
    (Prog.LeadsTo.seq (setFlag_leadsTo fun _ => fine_initialWrite) (leadsTo_skip _))))

theorem writeRegion_leadsTo (h : c.pd.seqPowerOn ≠ []) (p : Plane) : (writeRegion p c).LeadsTo Fine Fine := by
  unfold writeRegion
  split
  · exact leadsTo_skip _
  · exact (delay_leadsTo _ _).seq ((ifFlag_leadsTo (screenBufferFill_leadsTo h _) (leadsTo_skip _)).seq
      ((ensurePartial_leadsTo h).seq (((send_leadsTo _).seq
        ((streamBytes_leadsTo _ _ _ fun _ => fine_flagsInv).seq (leadsTo_skip _))).seq ((delay_leadsTo _ _).seq (leadsTo_skip _)))))

theorem writeDual_leadsTo (h : c.pd.seqPowerOn ≠ []) (p q : Plane) : (writeDual p q c).LeadsTo Fine Fine :=
  (writeRegion_leadsTo h p).seq (writeRegion_leadsTo h q)

/-! ## The routines of the refresh family -/

theorem refreshFull_leadsTo (h : c.pd.seqPowerOn ≠ []) : (refreshFull c).LeadsTo Fine Fine :=
  (ifFlag_leadsTo (enter_leadsTo h false) (leadsTo_skip _)).seq ((send_leadsTo _).seq ((wait_leadsTo _ _ c _).seq
    (Prog.LeadsTo.seq (setFlag_leadsTo fun _ => fine_initialRefresh) (leadsTo_skip _))))

theorem refreshPartial_leadsTo (h : c.pd.seqPowerOn ≠ []) (r : Clipped) : (refreshPartial r c).LeadsTo Fine Fine := by
  refine (ensurePartial_leadsTo h).seq ((send_leadsTo _).seq ((send_leadsTo _).seq (Prog.LeadsTo.seq ?_ (leadsTo_skip _))))
  split
  · exact wait_leadsTo _ _ c _
  · exact leadsTo_skip _

theorem refreshRect_leadsTo (h : c.pd.seqPowerOn ≠ []) (x y w k : Int) : (refreshRect x y w k c).LeadsTo Fine Fine := by
  unfold refreshRect
  split
  · exact refreshFull_leadsTo h
  · refine ifFlag_leadsTo (refreshFull_leadsTo h) ?_
    unfold refreshClipped
    split
    · exact leadsTo_skip _
    · split
      · exact leadsTo_skip _
      · exact refreshPartial_leadsTo h _

theorem refreshWhole_leadsTo (h : c.pd.seqPowerOn ≠ []) (v : Bool) : (refreshWhole v c).LeadsTo Fine Fine := by
  unfold refreshWhole
  split
  · exact refreshRect_leadsTo h _ _ _ _
  · exact refreshFull_leadsTo h

end Routines

/-! ## Every request leads to its end -/

/-- INIT leads on from any flags to R107's, whatever the reset line and its times. -/
theorem initBody_leadsTo (style : ResetStyle) (c : Cfg) : (initBody style c).LeadsTo (fun _ => True) Fine := by
  intro f _
  refine .inr ⟨{ flagsReset with initDone := true }, ?_, rfl, rfl⟩
  unfold initBody resetPulse delay
  split
  · split <;> rfl
  · rfl

theorem bodyOf_leadsTo {c : Cfg} (h : c.pd.seqPowerOn ≠ []) (i : Instr) : ((bodyOf i).2 c).LeadsTo Fine Fine := by
  cases i with
  | init style => exact (initBody_leadsTo style c).mono (fun _ _ => trivial) fun _ hf => hf
  | powerOn => exact (powerOn_leadsTo h).mono (fun _ hf => hf) fun _ hf => hf.1
  | powerOff => exact (powerOff_leadsTo c).mono (fun _ hf => hf) fun _ hf => hf.1
  | hibernate => exact hibernateBody_leadsTo c
  | waitBusy => exact wait_leadsTo _ _ c _
  | writeScreenBuffer fill => exact screenBufferFill_leadsTo h fill
  | writeImage b r f => exact writeRegion_leadsTo h _
  | writeImageAgain b r f => exact writeRegion_leadsTo h _
  | writeImagePart b p r f => exact writeRegion_leadsTo h _
  | writeImagePartAgain b p r f => exact writeRegion_leadsTo h _
  | writeImageDual b d r f => exact writeDual_leadsTo h _ _
  | writeImagePartDual b d p r f => exact writeDual_leadsTo h _ _
  | refresh v => exact refreshWhole_leadsTo h v
  | refreshRect r => exact refreshRect_leadsTo h _ _ _ _
  | drawImage b r f => exact (writeRegion_leadsTo h _).seq (refreshRect_leadsTo h _ _ _ _)
  | drawImagePart b p r f => exact (writeRegion_leadsTo h _).seq (refreshRect_leadsTo h _ _ _ _)
  | drawImageDual b d r f => exact (writeDual_leadsTo h _ _).seq (refreshRect_leadsTo h _ _ _ _)
  | drawImagePartDual b d p r f => exact (writeDual_leadsTo h _ _).seq (refreshRect_leadsTo h _ _ _ _)

/-- A routine that leads on with R27's relations leads, with READY <- 1 after it, to the request's end. -/
theorem Prog.LeadsTo.completes {A : Flags → Prop} {p : Prog} (h : p.LeadsTo A Fine) {f : Flags} (hf : A f) :
    (Prog.seq p (.act .complete)).lead f false = .over := by
  obtain h | ⟨g, h, hg⟩ := h f hf
  · rw [Prog.lead, h]
  · rw [Prog.lead, h]
    simp [Prog.lead, leadAct, leadEnd, hg.1]

theorem raise_lead {k : FaultKind} {f : Flags} {w : Bool} (hf : flagsInv f = true) : (Prog.act (.raise k)).lead f w = .over := by
  simp [Prog.lead, leadAct, leadEnd, hf]

/-- Without a dispatch fault, a request other than INIT has initDone (R80). -/
theorem gateFault_initDone {i : Instr} {s : State} (hg : gateFault (bodyOf i).1 s = none) (hi : isInit i = false) :
    s.flags.initDone = true := by
  cases hd : s.flags.initDone with
  | true => rfl
  | false => rw [gateFault_notInitialized hi hd] at hg; cases hg

theorem dispatched_lead {i : Instr} {s : State} (hf : flagsInv s.flags = true) (hseq : s.cfg.pd.seqPowerOn ≠ []) :
    (dispatched (bodyOf i).1 (bodyOf i).2 s).lead s.flags false = .over := by
  unfold dispatched
  split
  · exact raise_lead hf
  · next hg =>
    cases hi : isInit i with
    | false => exact (bodyOf_leadsTo hseq i).completes ⟨hf, gateFault_initDone hg hi⟩
    | true =>
      cases i with
      | init style => exact (initBody_leadsTo style s.cfg).completes trivial
      | _ => cases hi

/-! ## The invariant over a step -/

/-- A settled state in which a request has begun. -/
theorem Settled.began {s t : State} (h : Settled s) (hst : t.status = { s.status with ready := false }) (hc : t.cfg = s.cfg)
    (hl : t.lines = s.lines) (hd : t.direct = s.direct) (hr : t.readThrough = s.readThrough) : Steady t :=
  ⟨by rw [hst], by rw [hst]; exact h.status, by rw [hc, hl]; exact h.lines, by rw [hd]; exact h.direct, by rw [hr]; exact h.readThrough⟩

/-- A move of the host between two requests keeps what the invariant says there. -/
theorem moved_settled {m : HostMove} {rest : List HostMove} {s t : State} (h : Settled s) (hm : Moved m rest s t) : Settled t := by
  have hinbox (l : List HostMove) : Settled { s with inbox := l } :=
    ⟨h.ready, h.waiting, h.flags, h.seen, h.status, h.lines, h.direct, h.readThrough⟩
  cases m with
  | pass => obtain rfl := hm; exact hinbox rest
  | hold => obtain rfl := hm; exact hinbox rest
  | awaitReady =>
    obtain rfl := hm
    rw [if_pos h.ready]
    exact hinbox rest
  | engineReset =>
    obtain rfl := hm
    exact ⟨rfl, rfl, rfl, rfl, rfl, linesInv_released _, h.direct, h.readThrough⟩
  | poke space a b =>
    obtain rfl := hm
    have hm := setByte_wf (space := space) (a := a) (b := b) (s := { s with inbox := rest }) h.direct h.readThrough
    unfold hostPoke
    rw [if_pos h.ready]
    exact ⟨by simp [h.ready], by simp [h.waiting], by simp [h.flags], by simp [h.seen], by simp [h.status], by simp [h.lines], hm.1, hm.2⟩
  | read offset width =>
    obtain ⟨-, rfl⟩ := hm
    exact ⟨h.ready, h.waiting, h.flags, h.seen, h.status, h.lines, h.direct, h.readThrough⟩
  | write offset width v =>
    obtain ⟨-, hs, rfl⟩ := hm
    unfold regWrite onGoWrite
    split
    · exact ⟨h.ready, h.waiting, h.flags, h.seen, h.status, h.lines, h.direct, h.readThrough⟩
    · split
      · next ho =>
        rw [if_neg (fun ht => hs ⟨ho, ht⟩ : ¬ startTaken v { s with inbox := rest } = true)]
        split
        · exact ⟨h.ready, h.waiting, h.flags, h.seen, h.status, h.lines, h.direct, h.readThrough⟩
        · exact hinbox rest
      · exact hinbox rest

theorem moved_todo {m : HostMove} {rest : List HostMove} {s t : State} (h : s.todo = .skip) (hm : Moved m rest s t) : t.todo = .skip := by
  cases m with
  | pass => obtain rfl := hm; exact h
  | hold => obtain rfl := hm; exact h
  | awaitReady =>
    obtain rfl := hm
    split <;> exact h
  | engineReset => obtain rfl := hm; rfl
  | poke space a b => obtain rfl := hm; exact (hostPoke_todo space a b _).trans h
  | read offset width => obtain ⟨-, rfl⟩ := hm; exact h
  | write offset width v => obtain ⟨-, -, rfl⟩ := hm; exact (regWrite_todo offset v _).trans h

/-- Settles O19: a move of the host keeps the invariant between requests, and the steps of a request, whether it starts or goes on,
lead to its end, so that it ends or is held with the invariant (`run_inv`). -/
theorem invariantKept : Obligations.InvariantKept := by
  unfold Obligations.InvariantKept
  intro s t hs hseq h
  obtain ⟨-, ⟨-, -, rfl⟩ | ⟨ht, m, rest, -, hm⟩ | ⟨ht, rest, e, -, rfl, -⟩ | ⟨ht, rest, i, -, he, -⟩ | ⟨ht, -, rfl⟩⟩ := step_next h
  · exact hs
  · exact (moved_settled (settled_of_inv hs ht) hm).inv (moved_todo ht hm)
  · have hb := settled_of_inv hs ht
    exact run_inv (hb.began rfl rfl rfl rfl rfl) rfl (raise_lead hb.flags)
  · have hb := settled_of_inv hs ht
    rw [exec_eq_request, request] at he
    split at he
    · obtain rfl := Host.Outcome.next.inj he
      refine run_inv (hb.began rfl rfl rfl rfl rfl) rfl ?_
      have hw : (started rest s).status.waiting = false := hb.waiting
      exact (congrArg (Prog.lead _ · _) hw).trans (dispatched_lead hb.flags hseq)
    · cases he
  · obtain ⟨hb, hl⟩ := steady_of_inv hs ht
    exact run_inv ⟨hb.ready, hb.status, hb.lines, hb.direct, hb.readThrough⟩ rfl hl

end Sys2Proof.Machine

/-!
Starts, the register block and the engine's reset (10_state.md), between requests and while one is in flight.
-/
namespace Sys2Proof.Machine

/-! ## Starts (R17) -/

theorem getLsbD_zero_iff (v : Word) : v.getLsbD 0 = true ↔ v.toNat % 2 = 1 := by
  rw [BitVec.getLsbD, Nat.testBit_zero, decide_eq_true_iff]

theorem startTaken_iff (v : Word) (s : State) : startTaken v s = true ↔
    v.toNat % 2 = 1 ∧ s.status.ready = true ∧ (s.status.fault = false ∨ s.req.w0.toNat % 256 = 0x01) := by
  have hop : s.req.op = 0x01 ↔ s.req.w0.toNat % 256 = 0x01 := by
    rw [← op_toNat, ← BitVec.toNat_inj]
    rfl
  simp only [startTaken, Bool.and_eq_true, Bool.or_eq_true, Bool.not_eq_true', decide_eq_true_eq, getLsbD_zero_iff, hop, and_assoc]

/-- Settles O8. -/
theorem startTakenWhen : Obligations.StartTakenWhen := by
  unfold Obligations.StartTakenWhen
  exact startTaken_iff

section Step
variable {s : State} {v : Word} {rest : List HostMove}

theorem fetch_of_start (hc : cfgWf s.cfg = true) (ht : s.todo = .skip) (hi : s.inbox = .write 0x20 4 v :: rest)
    (hs : startTaken v s = true) : fetch s = decodeStart (started rest s) := by
  unfold fetch
  rw [if_pos hc, if_pos ht, hi]
  exact if_pos ⟨rfl, hs⟩

/-- A start that is taken and decodes runs its request from the latched state. -/
theorem step_of_start {i : Instr} (hc : cfgWf s.cfg = true) (ht : s.todo = .skip) (hi : s.inbox = .write 0x20 4 v :: rest)
    (hs : startTaken v s = true) (hd : decode s.req = .ok i) : step s = exec i (started rest s) := by
  have hd' : decode (started rest s).shadow = .ok i := hd
  rw [step, fetch_of_start hc ht hi hs, decodeStart_eq, hd']

/-- A start that is taken and does not decode raises the fault of its descriptor. -/
theorem step_of_badStart {e : DecodeError} (hc : cfgWf s.cfg = true) (ht : s.todo = .skip)
    (hi : s.inbox = .write 0x20 4 v :: rest) (hs : startTaken v s = true) (hd : decode s.req = .error e) :
    step s = .next ((Prog.act (.raise (faultOfError e))).reach (started rest s)) := by
  have hd' : decode (started rest s).shadow = .error e := hd
  rw [step, fetch_of_start hc ht hi hs, decodeStart_eq, hd']

/-- A request in flight goes on, while time runs and R30 refuses nothing. -/
theorem step_of_inFlight (hc : cfgWf s.cfg = true) (ht : s.todo ≠ .skip) (htime : s.env.timeRuns = true)
    (hr : nextRefusal s.inbox = none) : step s = .next (s.todo.reach s) := by
  simp [step, fetch, hc, ht, resume, hr, htime]

/-- Settles O7. -/
theorem stepRunsDecoded : Obligations.StepRunsDecoded := by
  unfold Obligations.StepRunsDecoded
  refine ⟨fun s v rest i hc ht hi hs hd => ?_, fun s hc ht htime hr => step_of_inFlight hc ht htime hr⟩
  exact step_of_start hc ht hi hs hd

/-! ## Starts that are dropped (R17) -/

/-- What is left of the host's moves where it is silent stays pending. -/
theorem landMoves_rest_silent (h : hostSilent { s with inbox := rest } = true) (u : State) :
    landMoves rest u = .going { u with inbox := rest } := by
  have hs := landMoves_silent (s := { u with inbox := rest }) ((hostSilent_congr rfl).trans h)
  unfold hostSilent at h
  split at h
  · next e => cases e; rfl
  · next e => cases e; rfl
  all_goals cases h

theorem goWrite_dropped (hb : v.toNat % 2 = 1) (hs : ¬ startTaken v s = true) : regWrite 0x20 v s = setDrop s := by
  show onGoWrite v s = _
  rw [onGoWrite, if_pos ((getLsbD_zero_iff v).2 hb), if_neg hs]

theorem goWrite_clear (hb : v.toNat % 2 = 0) (s : State) : regWrite 0x20 v s = s := by
  show onGoWrite v s = _
  refine if_neg fun h => ?_
  have := (getLsbD_zero_iff v).1 h
  omega

/-- A write to GO that starts nothing is done with in one step. -/
theorem step_of_goWrite (hc : cfgWf s.cfg = true) (ht : s.todo = .skip) (hi : s.inbox = .write 0x20 4 v :: rest)
    (hs : ¬ startTaken v s = true) : step s = .next (regWrite 0x20 v { s with inbox := rest }) :=
  step_of_settled_move hc ht hi (if_neg fun h => hs h.2)

/-- Settles O9: READY, FAULT and bit 0 decide which of the two a write that starts nothing is. -/
theorem droppedStarts : Obligations.DroppedStarts := by
  unfold Obligations.DroppedStarts
  intro s v rest hc hi
  refine ⟨fun ht hb _ hf hop => ?_, fun ht hb => ?_, fun hb hr hsil => ?_, fun hb hsil => ?_⟩
  · have hs : ¬ startTaken v s = true := by simp [startTaken_iff, hf, hop]
    exact (step_of_goWrite hc ht hi hs).trans (congrArg _ (goWrite_dropped hb hs))
  · have hs : ¬ startTaken v s = true := by simp [startTaken_iff, hb]
    rw [step_of_goWrite hc ht hi hs, goWrite_clear hb]
  · have hs : ¬ startTaken v s = true := by simp [startTaken_iff, hr]
    rw [hostTurn, hi]
    show landMoves rest (regWrite 0x20 v s) = _
    rw [landMoves_rest_silent hsil, goWrite_dropped hb hs]
    rfl
  · rw [hostTurn, hi]
    show landMoves rest (regWrite 0x20 v s) = _
    rw [landMoves_rest_silent hsil, goWrite_clear hb]

end Step

/-! ## Descriptors that do not decode (R169, R170) -/

/-- The opcodes of R72's table. -/
def tableOpcodes : List Nat :=
  [0x01, 0x02, 0x03, 0x04, 0x05, 0x10, 0x11, 0x12, 0x13, 0x14, 0x15, 0x16, 0x20, 0x21, 0x30, 0x31, 0x32, 0x33]

theorem illegalOpcode_iff (op : Byte) : illegalOpcode op ↔ op.toNat ∉ tableOpcodes := by
  have hlt := op.isLt
  simp only [illegalOpcode, tableOpcodes, List.mem_cons, List.not_mem_nil, or_false]
  omega

/-- A bad descriptor decodes to the error that R172's order gives. -/
theorem decode_error {d : Desc} (h : illegalOpcode d.op ∨ reservedSet d) :
    decode d = .error (if d.op.toNat ∈ tableOpcodes then .reservedBits else .illegalOpcode) := by
  by_cases ho : d.op.toNat ∈ tableOpcodes
  · have hl : ¬ illegalOpcode d.op := fun hl => (illegalOpcode_iff _).1 hl ho
    obtain ⟨i, hi⟩ := Option.ne_none_iff_exists'.1 (mt (request_none_iff d).1 hl)
    rw [decode, hi, if_pos ho]
    exact if_neg fun hc => (reservedClear_iff d).1 hc (h.resolve_left hl)
  · rw [decode, (request_none_iff d).2 ((illegalOpcode_iff _).2 ho), if_neg ho]

/-- What holds of the state reached, however the run goes on. -/
theorem Progress.Sat.state {P Q R : State → Prop} {p : Progress} (h : p.Sat P Q) (hgoing : ∀ u, P u → R u) (hended : ∀ u, Q u → R u)
    (hheld : ∀ u : State, P { u with todo := .skip } → R u) : R p.state := by
  cases p with
  | going u => exact hgoing u h
  | ended u => exact hended u h
  | held u => exact hheld u h

/-- Settles O10: the descriptor's error is raised after one turn of the host, which changes nothing that the fault leaves alone. -/
theorem descriptorFaults : Obligations.DescriptorFaults := by
  unfold Obligations.DescriptorFaults
  intro s v rest hc ht hi hs hbad k
  have hk : k = faultOfError (if s.req.op.toNat ∈ tableOpcodes then .reservedBits else .illegalOpcode) := by
    rw [apply_ite faultOfError]
    rfl
  rw [step_of_badStart hc ht hi hs (decode_error hbad), ← hk]
  have hpending : FaultPending { s with shadow := s.req } { started rest s with todo := .skip } := ⟨rfl, rfl, rfl, rfl, rfl, rfl, rfl, rfl⟩
  refine ⟨fun hsil => ?_, fun hr => ?_⟩
  · have hsil' : hostSilent { started rest s with todo := .skip } = true := (hostSilent_congr rfl).trans hsil
    have hreach : (Prog.act (.raise k)).reach (started rest s) = raiseFault k { started rest s with todo := .skip } := by
      rw [Prog.reach, run_act, runAct, takeStep_silent hsil', state_ended]
    rw [hreach]
    exact ⟨_, rfl, ⟨rfl, rfl, rfl, rfl, rfl, rfl, rfl, rfl, rfl⟩, ⟨rfl, rfl, rfl, rfl, rfl, fun _ _ => rfl⟩, rfl, rfl, rfl, rfl, rfl, rfl,
      rfl, rfl, rfl, rfl⟩
  · have hsat : ((Prog.act (.raise k)).run { started rest s with todo := .skip }).Sat (FaultPending { s with shadow := s.req })
        (dispatchFaults k s.req.op s) :=
      takeStep_kept_noReset (faultPending_keptByHost _) hr hpending fun _ _ hu => hu.raised
    exact ⟨_, rfl, hsat.state (fun _ hu => hu.dispatchFaults) (fun _ hu => hu) fun _ hu => hu.dispatchFaults⟩

/-! ## The register block (R15 to R20) -/

theorem descGet_descSet_self (d : Desc) (v : Word) {k : Nat} (hk : k < 8) : descGet (descSet d v k) k = v := by
  match k, hk with
  | 0, _ | 1, _ | 2, _ | 3, _ | 4, _ | 5, _ | 6, _ | 7, _ => rfl

theorem descGet_descSet_ne (d : Desc) (v : Word) {j k : Nat} (hj : j < 8) (hk : k < 8) (h : j ≠ k) :
    descGet (descSet d v k) j = descGet d j := by
  match k, hk with
  | 0, _ | 1, _ | 2, _ | 3, _ | 4, _ | 5, _ | 6, _ | 7, _ =>
    match j, hj with
    | 0, _ | 1, _ | 2, _ | 3, _ | 4, _ | 5, _ | 6, _ | 7, _ => simp [descGet, descSet] at h ⊢

/-- Settles O11. -/
theorem requestRegisters : Obligations.RequestRegisters := by
  unfold Obligations.RequestRegisters
  intro s k hk hc
  have hlt : 4 * k < 0x20 := by omega
  have hdiv : 4 * k / 4 = k := by omega
  have haccess : accessRefusal (4 * k) 4 = none := by
    unfold accessRefusal
    rw [if_neg (by omega), if_neg (by omega)]
  refine ⟨fun v => ⟨descSet s.req v k, ?_, descGet_descSet_self _ _ hk, fun j hj hne => descGet_descSet_ne _ _ hj hk hne⟩, ?_⟩
  · have hw : regWrite (4 * k) v s = { s with req := descSet s.req v k } := by rw [regWrite, if_pos hlt, hdiv]
    have h := accessLeaves_write v hc haccess (by omega)
    rwa [hw] at h
  · have hr : regRead (4 * k) s = descGet s.req k := by
      unfold regRead
      rw [if_pos hlt, hdiv]
    have h := accessLeaves_read hc haccess
    rwa [hr] at h

/-- Settles O12. -/
theorem registerReads : Obligations.RegisterReads := by
  unfold Obligations.RegisterReads
  intro s hc r hr
  simp only [List.mem_cons, List.not_mem_nil, or_false] at hr
  obtain rfl | rfl | rfl | rfl | rfl | rfl | rfl | rfl := hr
  all_goals
    dsimp only
    exact accessLeaves_read hc rfl

/-- A field of a word that was shifted to its place. -/
theorem getLsbD_field {w : Nat} (x : BitVec w) (k n : Nat) (h : k + w ≤ 32) :
    ((x.setWidth 32) <<< k).getLsbD n = (decide (k ≤ n) && x.getLsbD (n - k)) := by
  have hx : n - k < w ∨ x.getLsbD (n - k) = false := by
    by_cases hlt : n - k < w
    · exact .inl hlt
    · exact .inr (BitVec.getLsbD_of_ge _ _ (by omega))
  rw [BitVec.getLsbD_shiftLeft, BitVec.getLsbD_setWidth]
  by_cases hk : k ≤ n
  · obtain hx | hx := hx
    · have h1 : n < 32 := by omega
      have h2 : n - k < 32 := by omega
      have h3 : ¬ n < k := by omega
      simp [h1, h2, h3, hk]
    · simp [hx]
  · have h3 : n < k := by omega
    simp [h3, hk]

theorem getLsbD_statusWord (st : Status) (n : Nat) : (statusWord st).getLsbD n =
    if n = 0 then st.ready else if n = 1 then st.fault else if n = 2 then st.waiting
    else if 4 ≤ n ∧ n ≤ 7 then st.faultCode.getLsbD (n - 4)
    else if n = 8 then st.timeout else if n = 9 then st.lastWaitTimeout else if n = 10 then st.drop
    else if 16 ≤ n ∧ n ≤ 23 then st.faultOp.getLsbD (n - 16) else false := by
  have hcode : 8 ≤ n → st.faultCode.getLsbD (n - 4) = false := fun h => BitVec.getLsbD_of_ge _ _ (by omega)
  have hop : 24 ≤ n → st.faultOp.getLsbD (n - 16) = false := fun h => BitVec.getLsbD_of_ge _ _ (by omega)
  simp (disch := decide) only [statusWord, BitVec.getLsbD_or, getLsbD_bitAt, getLsbD_field]
  by_cases hn : n < 24
  · match n, hn with
    | 0, _ | 1, _ | 2, _ | 3, _ | 4, _ | 5, _ | 6, _ | 7, _ | 8, _ | 9, _ | 10, _ | 11, _ | 12, _ | 13, _ | 14, _ | 15, _ | 16, _
    | 17, _ | 18, _ | 19, _ | 20, _ | 21, _ | 22, _ | 23, _ => simp
    | m + 24, hm => omega
  · have hne (k : Nat) (hk : k < 24) : n ≠ k := by omega
    have h7 : ¬ n ≤ 7 := by omega
    have h23 : ¬ n ≤ 23 := by omega
    simp (disch := decide) only [hne, hcode (by omega), hop (by omega), h7, h23, decide_false, and_false, if_false, Bool.false_and, Bool.and_false,
      Bool.or_false]

/-- Settles O13. -/
theorem statusRegister : Obligations.StatusRegister := by
  unfold Obligations.StatusRegister
  exact ⟨getLsbD_statusWord, fun s hc => ⟨accessLeaves_read hc rfl, fun v => accessLeaves_write_ignored v hc rfl (by decide)⟩⟩

/-! ## The engine's reset (R38) -/

/-- Settles O18. -/
theorem invariantAtReset : Obligations.InvariantAtReset := by
  unfold Obligations.InvariantAtReset
  exact fun c => Settled.inv ⟨rfl, rfl, rfl, rfl, rfl, linesInv_released c, rfl, rfl⟩ rfl

/-- The reset input ends whatever goes on, between requests or in flight, at the engine's reset state. -/
theorem step_of_engineReset {s : State} {rest : List HostMove} (hc : cfgWf s.cfg = true) (hi : s.inbox = .engineReset :: rest)
    (h : s.todo = .skip ∨ (s.todo.first s.flags).isSome = true) : step s = .next (engineReset { s with inbox := rest }) := by
  by_cases ht : s.todo = .skip
  · exact step_of_settled_move hc ht hi rfl
  · obtain ⟨a, ha⟩ := Option.isSome_iff_exists.1 (h.resolve_left ht)
    have hturn : hostTurn { s with todo := .skip } = .ended (engineReset { s with inbox := rest }) := by
      rw [hostTurn, hi]
      rfl
    have hreach : s.todo.reach s = engineReset { s with inbox := rest } := by
      rw [Prog.reach, run_of_first_ended (s := { s with todo := .skip }) ha (runAct_of_turn_ended hturn), state_ended]
    have hne : rest ≠ .engineReset :: rest := (List.cons_ne_self _ _).symm
    simp [step, fetch, hc, ht, resume, hi, nextRefusal, hreach]

/-- Settles O17. -/
theorem resetValues : Obligations.ResetValues := by
  unfold Obligations.ResetValues
  have hstatus : statusWord statusReset = 0x00000001 := by decide
  have hstate : stateWord flagsReset = 0x0000000C := by decide
  refine ⟨fun c => ⟨rfl, rfl, hstatus, hstate, rfl, rfl, rfl, rfl, rfl, rfl, rfl, rfl⟩, fun s rest hc hi h => ?_⟩
  exact ⟨_, step_of_engineReset hc hi h, rfl, rfl, hstatus, hstate, rfl, rfl, rfl, rfl, rfl, rfl, rfl, rfl, rfl, rfl, rfl⟩

end Sys2Proof.Machine

/-!
The results of the power requests (41_power_state.md): each from the closed form of its routine (Laws/Routines.lean) and the frame
around every request (Laws/Requests.lean).
-/
namespace Sys2Proof.Machine

/-! ## From a routine's closed form to the request's result -/

/-- A request other than INIT whose routine runs as its closed form says ends, and leaves what the form says. -/
theorem exec_leaves {i : Instr} {s : State} {evs : List Event} {f : Flags} {st st' : Status} {ns : Nat} (hu : undisturbed s = true)
    (hg : gateFault (bodyOf i).1 s = none) (hst : st' = { st with ready := false })
    (h : Runs evs f st' ns ((bodyOf i).2 s.cfg) (began s)) : ∃ t, exec i s = .next t ∧ leaves evs f st s t := by
  subst hst
  rw [exec_eq_request]
  exact request_runs hu hg h

theorem busOk_seqBytes {n : Nat} {seq : List SeqStep} {s : State} (h : busOk n s) (hn : (seqBytes seq).length ≤ n) :
    busOk (busBytes (eventsOf (seqBytes seq))).length (began s) := by
  rw [busBytes_eventsOf_length]
  exact fun k hk => h k (by omega)

section Power
variable {s : State}

theorem powerOn_off (hu : undisturbed s = true) (hi : s.flags.initDone = true) (hp : s.flags.powerOn = false)
    (hh : s.flags.hibernating = false) (hb : busOk (seqBytes s.cfg.pd.seqPowerOn).length s) :
    ∃ o t, exec .powerOn s = .next t ∧
      leaves (powerOnEvents s.cfg o) { s.flags with powerOn := true } (waitStatus s.cfg o s.status) s t := by
  obtain ⟨o, h⟩ := powerOn_runs (s := began s) (began_calm hu) rfl (fun _ => hh) (fun _ => busOk_seqBytes hb (Nat.le_refl _))
  have hp' : (began s).flags.powerOn = false := hp
  rw [hp', if_neg Bool.false_ne_true] at h
  refine ⟨o, exec_leaves hu (gateFault_plain hi) ?_ h⟩
  rw [enterStatus, if_neg (by simp [hp'])]
  exact waitStatus_ready _ _ _ _

/-- Settles O31: switched on, the routine has no step to take; switched off, it runs as `powerOn_runs` says. -/
theorem powerOnResult : Obligations.PowerOnResult := by
  unfold Obligations.PowerOnResult
  intro s hu hi
  refine ⟨fun hp => ?_, fun hp hh hb => powerOn_off hu hi hp hh hb⟩
  rw [exec_eq_request]
  exact request_nothing hu (gateFault_plain hi) (if_pos hp)

theorem powerOff_on (hu : undisturbed s = true) (hi : s.flags.initDone = true) (hp : s.flags.powerOn = true)
    (hh : s.flags.hibernating = false) (hb : busOk (seqBytes s.cfg.pd.seqPowerOff).length s) :
    ∃ o t, exec .powerOff s = .next t ∧
      leaves (powerOffEvents s.cfg o) { s.flags with powerOn := false, usingPartialMode := false }
        (waitStatus s.cfg o s.status) s t := by
  obtain ⟨o, h⟩ := powerOff_runs (s := began s) (began_calm hu) rfl (fun _ => hh) (fun _ => busOk_seqBytes hb (Nat.le_refl _))
  have hp' : (began s).flags.powerOn = true := hp
  rw [hp', if_pos rfl, if_pos rfl, if_pos rfl] at h
  exact ⟨o, exec_leaves hu (gateFault_plain hi) (waitStatus_ready _ _ _ _) h⟩

/-- Settles O32: switched off, the routine has no step to take; switched on, it runs as `powerOff_runs` says. -/
theorem powerOffResult : Obligations.PowerOffResult := by
  unfold Obligations.PowerOffResult
  intro s hu hi
  refine ⟨fun hp => ?_, fun hp hh hb => powerOff_on hu hi hp hh hb⟩
  rw [exec_eq_request]
  exact request_nothing hu (gateFault_plain hi) (if_neg (by simp [began, hp]))

/-- The end of HIBERNATE: the deep-sleep sequence and the flag, if there is a reset line (R110). -/
theorem deepSleep_runs {c : Cfg} {s : State} (hc : Calm s) (hh : s.flags.hibernating = false)
    (hb : busOk (busBytes (eventsOf (seqBytes c.pd.seqDeepSleep))).length s) :
    Runs (if c.hasRst then eventsOf (seqBytes c.pd.seqDeepSleep) else []) { s.flags with hibernating := c.hasRst } s.status 0
      (if c.hasRst then steps [sendSeq c.pd.seqDeepSleep, .act (.setFlag .hibernating true)] else .skip) s := by
  cases hr : c.hasRst with
  | true =>
    refine ((sendBytes_runs hc hh hb).then (e2 := []) (f2 := { s.flags with hibernating := true }) (st2 := s.status) (n2 := 0)
      fun t ht => ?_).congr (by simp) rfl rfl rfl
    exact (setFlag_last (ht.calm hc hc.waiting)).congr rfl (by rw [ht.flags]; rfl) ht.status rfl
  | false => exact (Runs.skip s).congr (by simp) (by rw [← hh]) rfl rfl

/-- HIBERNATE's routine: power off where the controller is on, then the end. -/
theorem hibernateBody_runs {c : Cfg} {s : State} (hc : Calm s) (hcf : s.cfg = c) (hh : s.flags.hibernating = false)
    (hb : busOk ((if s.flags.powerOn then (seqBytes c.pd.seqPowerOff).length else 0) + (seqBytes c.pd.seqDeepSleep).length) s) :
    ∃ o, Runs ((if s.flags.powerOn then powerOffEvents c o else []) ++ if c.hasRst then eventsOf (seqBytes c.pd.seqDeepSleep) else [])
      { (if s.flags.powerOn then { s.flags with powerOn := false, usingPartialMode := false } else s.flags) with hibernating := c.hasRst }
      (if s.flags.powerOn then waitStatus c o s.status else s.status) 0 (hibernateBody c) s := by
  obtain ⟨o, t, ht, hr⟩ := powerOff_runs hc hcf (fun _ => hh) fun hp => by
    rw [busBytes_eventsOf_length]
    exact fun k hk => hb k (by rw [if_pos hp]; omega)
  have hct : Calm t := hr.calm hc (by
    split
    · exact waitStatus_waiting _ _ _
    · exact hc.waiting)
  have hht : t.flags.hibernating = false := by
    rw [hr.flags]
    split <;> exact hh
  have hsent : (busBytes (if s.flags.powerOn then powerOffEvents c o else [])).length
      = if s.flags.powerOn then (seqBytes c.pd.seqPowerOff).length else 0 := by
    split
    · rw [powerOffEvents, busBytes_append, busBytes_wait, List.append_nil, busBytes_eventsOf_length]
    · rfl
  have h2 := (deepSleep_runs (c := c) hct hht fun k hk => by
    rw [hr.bus, peek_skip, hsent]
    rw [busBytes_eventsOf_length] at hk
    exact hb _ (by omega)).last
  exact ⟨o, (Runs.seq ht hr h2).congr rfl (by rw [hr.flags]) hr.status rfl⟩

/-- Settles O33, from `hibernateBody_runs` with the controller on and off. -/
theorem hibernateResult : Obligations.HibernateResult := by
  unfold Obligations.HibernateResult
  intro s hu hm
  obtain ⟨hi, hh⟩ := mayTransfer_iff.1 hm
  have hg : gateFault (bodyOf .hibernate).1 s = none := gateFault_plain hi
  refine ⟨fun hp hb => ?_, fun hp hb => ?_⟩
  · have hp' : (began s).flags.powerOn = true := hp
    obtain ⟨o, h⟩ := hibernateBody_runs (s := began s) (began_calm hu) rfl hh (by rw [if_pos hp']; exact hb)
    simp only [hp', if_true] at h
    exact ⟨o, exec_leaves hu hg (waitStatus_ready _ _ _ _) h⟩
  · have hp' : (began s).flags.powerOn = false := hp
    obtain ⟨o, h⟩ := hibernateBody_runs (s := began s) (began_calm hu) rfl hh (by rw [if_neg (by simp [hp']), Nat.zero_add]; exact hb)
    simp only [hp', Bool.false_eq_true, if_false, List.nil_append] at h
    exact exec_leaves hu hg rfl (h.congr rfl (by rw [← hp]; rfl) rfl rfl)

/-- Settles O34. -/
theorem waitBusyResult : Obligations.WaitBusyResult := by
  unfold Obligations.WaitBusyResult
  intro s hu hi
  obtain ⟨o, h⟩ := waitWhileBusy_runs .explicit s.cfg.tPartialRefreshMs (began_calm hu)
  exact ⟨o, exec_leaves hu (gateFault_plain hi) (waitStatus_ready _ _ _ _) h⟩

end Power

end Sys2Proof.Machine

/-!
The results of the write, refresh and draw requests (43_write.md, 44_refresh_draw.md), those that do nothing among them.
-/
namespace Sys2Proof.Machine

/-! ## The dispatch checks (R80) -/

theorem bodyOf_needsColor (i : Instr) : (bodyOf i).1.needsColor = isDual i := by
  cases i <;> rfl

/-- What passes Dispatch's checks. -/
theorem gateFault_none {i : Instr} {s : State} (hi : s.flags.initDone = true) (hc : isDual i = true → s.cfg.hasColor = true) :
    gateFault (bodyOf i).1 s = none := by
  have hcolor : ¬ (isDual i && !s.cfg.hasColor) = true := by simpa using hc
  rw [gateFault, bodyOf_needsInit, bodyOf_needsColor, hi, if_neg (by simp), if_neg hcolor]

/-! ## The planes of a request (R139) -/

/-- The write of the planes of a request. -/
def writePlanes : List Plane → Cfg → Prog
  | [p], c => writeRegion p c
  | [p, q], c => writeDual p q c
  | _, _ => .skip

/-- A request that reads bitmap bytes writes one plane, or two that share their geometry. -/
theorem planesOf_cases {i : Instr} (h : readsBitmap i = true) :
    (∃ p, planesOf i = [p]) ∨ ∃ p q, planesOf i = [p, q] ∧ q.form = p.form ∧ q.rect = p.rect := by
  cases i
  case writeImage | writeImageAgain | writeImagePart | writeImagePartAgain | drawImage | drawImagePart => exact .inl ⟨_, rfl⟩
  case writeImageDual | writeImagePartDual | drawImageDual | drawImagePartDual => exact .inr ⟨_, _, rfl, rfl, rfl⟩
  all_goals cases h

theorem bodyOf_imageWrite {i : Instr} (h : isImageWrite i = true) : (bodyOf i).2 = writePlanes (planesOf i) := by
  cases i
  case writeImage | writeImageAgain | writeImagePart | writeImagePartAgain | writeImageDual | writeImagePartDual => rfl
  all_goals cases h

theorem bodyOf_draw {i : Instr} {r : Rect} (h : drawRect i = some r) :
    (bodyOf i).2 = drawThenRefresh (writePlanes (planesOf i)) r := by
  cases i
  case drawImage | drawImagePart | drawImageDual | drawImagePartDual => cases h; rfl
  all_goals cases h

theorem readsBitmap_of_imageWrite {i : Instr} (h : isImageWrite i = true) : readsBitmap i = true := by
  rw [readsBitmap, h, Bool.true_or]

theorem readsBitmap_of_draw {i : Instr} {r : Rect} (h : drawRect i = some r) : readsBitmap i = true := by
  rw [readsBitmap, h, Option.isSome_some, Bool.or_true]

/-- The closed form of a request's writes, one plane or two. -/
theorem writePlanes_runs {i : Instr} (hi : readsBitmap i = true) {c : Cfg} {s : State} (hc : Calm s) (hcf : s.cfg = c)
    (hh : s.flags.hibernating = false) (hs : sourceOk (writeReads (planesOf i) s) s)
    (hb : ∀ o, busOk (busBytes (writeEvents (planesOf i) o s)).length s) :
    ∃ o, Runs (writeEvents (planesOf i) o s) (writeFlags c (planesOf i) s.flags) (writeStatus c (planesOf i) s.flags o s.status)
      (writeReads (planesOf i) s) (writePlanes (planesOf i) c) s := by
  obtain ⟨p, hp⟩ | ⟨p, q, hp, hform, hrect⟩ := planesOf_cases hi
  · have hev (o : WaitOutcome) : writeEvents [p] o s = firstWriteEvents p o s := by simp [writeEvents]
    have hrd : writeReads [p] s = regionReads p s := by simp [writeReads]
    simp only [hp, hev, hrd] at hs hb ⊢
    exact writeRegion_runs p hc hcf (fun _ => hh) hs hb
  · rw [hp] at hs hb ⊢
    exact writeDual_runs p q hform hrect hc hcf (fun _ => hh) hs hb

/-! ## Fills and writes -/

/-- Settles O35. -/
theorem fillResult : Obligations.FillResult := by
  unfold Obligations.FillResult
  intro v s hu hm hb
  obtain ⟨hi, hh⟩ := mayTransfer_iff.1 hm
  have hb' (o : WaitOutcome) : busOk (busBytes (partialEvents s.cfg s.flags o ++ fillEvents s.cfg s.flags v)).length (began s) := by
    rw [busBytes_append, busBytes_partialEvents s.cfg s.flags o .released, ← busBytes_append]
    exact hb
  obtain ⟨o, h⟩ := screenBufferFill_runs v (began_calm hu) rfl hh hb'
  exact ⟨o, exec_leaves hu (gateFault_plain hi) (partialStatus_ready _ _ _ _ _) h⟩

/-- Settles O36 by the closed form of the request's planes; the planes of each request are those of its definition. -/
theorem writeImageResult : Obligations.WriteImageResult := by
  unfold Obligations.WriteImageResult
  refine ⟨fun i s himg hu hm hcolor hs hb => ?_, fun b c p r f => ⟨rfl, rfl, rfl, rfl, rfl, rfl⟩⟩
  obtain ⟨hi, hh⟩ := mayTransfer_iff.1 hm
  obtain ⟨o, h⟩ := writePlanes_runs (readsBitmap_of_imageWrite himg) (s := began s) (began_calm hu) rfl hh hs fun o => by
    rw [busBytes_writeEvents _ o .released]
    exact hb
  rw [← bodyOf_imageWrite himg] at h
  exact ⟨o, exec_leaves hu (gateFault_none hi hcolor) (writeStatus_ready _ _ _ _ _ _) h⟩

/-! ## Refreshes -/

/-- REFRESH_RECT and REFRESH.partial, from the closed form of RefreshRect. -/
theorem refreshRect_leaves {i : Instr} {r : Rect} {s : State} (hbody : (bodyOf i).2 s.cfg = refreshRect r.x r.y r.w r.h s.cfg)
    (hg : gateFault (bodyOf i).1 s = none) (hu : undisturbed s = true) (hh : s.flags.hibernating = false)
    (hb : busOk (busBytes (refreshEvents s.cfg s.flags r .released .released)).length s) :
    ∃ oOn o t, exec i s = .next t ∧ leaves (refreshEvents s.cfg s.flags r oOn o) (refreshFlags s.cfg s.flags r)
      (refreshStatus s.cfg s.flags r oOn o s.status) s t := by
  obtain ⟨oOn, o, h⟩ := refreshRect_runs r (s := began s) (began_calm hu) rfl (fun _ => hh) fun oOn o => by
    rw [busBytes_refreshEvents _ _ _ oOn o .released .released]
    exact hb
  have h' : Runs _ _ _ _ (refreshRect r.x r.y r.w r.h s.cfg) (began s) := h
  rw [← hbody] at h'
  exact ⟨oOn, o, exec_leaves hu hg (refreshStatus_ready _ _ _ _ _ _ _) h'⟩

/-- Settles O40. -/
theorem refreshResult : Obligations.RefreshResult := by
  unfold Obligations.RefreshResult
  intro s hu hm
  obtain ⟨hi, hh⟩ := mayTransfer_iff.1 hm
  refine ⟨fun hb => ?_, fun hb => refreshRect_leaves (i := .refresh true) (r := wholePanel s.cfg) rfl (gateFault_plain hi) hu hh hb⟩
  obtain ⟨oOn, o, h⟩ := refreshFull_runs (s := began s) (began_calm hu) rfl hh fun oOn o => by
    rw [busBytes_fullEvents _ _ oOn o .released .released]
    exact hb
  exact ⟨oOn, o, exec_leaves (i := .refresh false) hu (gateFault_plain hi) (fullStatus_ready _ _ _ _ _ _) h⟩

/-- Settles O41. -/
theorem refreshRectResult : Obligations.RefreshRectResult := by
  unfold Obligations.RefreshRectResult
  intro r s hu hm hb
  obtain ⟨hi, hh⟩ := mayTransfer_iff.1 hm
  exact refreshRect_leaves (i := .refreshRect r) rfl (gateFault_plain hi) hu hh hb

/-! ## Draws -/

@[simp] theorem writeFlags_hibernating (c : Cfg) (ps : List Plane) (f : Flags) : (writeFlags c ps f).hibernating = f.hibernating := by
  unfold writeFlags
  split
  · exact partialFlags_hibernating f
  · rfl

theorem writeStatus_waiting (c : Cfg) (ps : List Plane) (f : Flags) (o : WaitOutcome) {st : Status} (h : st.waiting = false) :
    (writeStatus c ps f o st).waiting = false := by
  unfold writeStatus
  split
  · exact partialStatus_waiting c f o h
  · exact h

/-- The closed form of a DRAW request: its writes, then the refresh from what they left. -/
theorem draw_runs {i : Instr} {r : Rect} (hr : drawRect i = some r) {c : Cfg} {s : State} (hc : Calm s) (hcf : s.cfg = c)
    (hh : s.flags.hibernating = false) (hs : sourceOk (writeReads (planesOf i) s) s)
    (hb : ∀ oW oOn o, busOk (busBytes (writeEvents (planesOf i) oW s
      ++ refreshEvents c (writeFlags c (planesOf i) s.flags) r oOn o)).length s) :
    ∃ oW oOn o, Runs (writeEvents (planesOf i) oW s ++ refreshEvents c (writeFlags c (planesOf i) s.flags) r oOn o)
      (refreshFlags c (writeFlags c (planesOf i) s.flags) r)
      (refreshStatus c (writeFlags c (planesOf i) s.flags) r oOn o (writeStatus c (planesOf i) s.flags oW s.status))
      (writeReads (planesOf i) s) ((bodyOf i).2 c) s := by
  obtain ⟨oW, t, ht, hrt⟩ := writePlanes_runs (readsBitmap_of_draw hr) hc hcf hh hs fun oW => busOk_left (hb oW .released .released)
  have hct : Calm t := hrt.calm hc (writeStatus_waiting _ _ _ _ hc.waiting)
  obtain ⟨oOn, o, h⟩ := refreshRect_runs r hct (hrt.cfg.trans hcf) (fun _ => by rw [hrt.flags, writeFlags_hibernating]; exact hh)
    fun oOn o => by
      rw [hrt.flags]
      exact busOk_right (hb oW oOn o) hrt
  rw [hrt.flags, hrt.status] at h
  rw [bodyOf_draw hr]
  exact ⟨oW, oOn, o, Runs.seq ht hrt h⟩

/-- Settles O42. -/
theorem drawImageResult : Obligations.DrawImageResult := by
  unfold Obligations.DrawImageResult
  refine ⟨fun i r s hr hu hm hcolor hs hb => ?_, fun b c p r f => ⟨rfl, rfl, rfl, rfl, rfl, rfl, rfl, rfl⟩⟩
  obtain ⟨hi, hh⟩ := mayTransfer_iff.1 hm
  obtain ⟨oW, oOn, o, h⟩ := draw_runs hr (s := began s) (began_calm hu) rfl hh hs fun oW oOn o => by
    rw [busBytes_append, busBytes_writeEvents _ oW .released, busBytes_refreshEvents _ _ _ oOn o .released .released, ← busBytes_append]
    exact hb
  refine ⟨oW, oOn, o, exec_leaves hu (gateFault_none hi hcolor) ?_ h⟩
  rw [← refreshStatus_ready, ← writeStatus_ready]
  rfl

/-! ## Requests that have nothing to do (R136(c), R140, R152(c)) -/

theorem writeRegion_idle {c : Cfg} {p : Plane} (h : (resolveRegion c p).isSome = false) : writeRegion p c = .skip :=
  writeRegion_of_none (by simpa using h)

/-- Planes that are all rejected or empty are no write. -/
theorem writePlanes_idle {i : Instr} (hi : readsBitmap i = true) {c : Cfg} (h : writesSomething c (planesOf i) = false) (s : State) :
    (writePlanes (planesOf i) c).run s = .going s := by
  obtain ⟨p, hp⟩ | ⟨p, q, hp, -, -⟩ := planesOf_cases hi
  · rw [hp] at h ⊢
    simp only [writesSomething, List.any_cons, List.any_nil, Bool.or_false] at h
    rw [writePlanes, writeRegion_idle h, run_skip]
  · rw [hp] at h ⊢
    simp only [writesSomething, List.any_cons, List.any_nil, Bool.or_false, Bool.or_eq_false_iff] at h
    rw [writePlanes, writeDual, writeRegion_idle h.1, writeRegion_idle h.2]
    rfl

/-- Once no full refresh is due, the refresh of a rectangle that is negative or empty does nothing. -/
theorem refreshRect_idle {c : Cfg} {r : Rect} {s : State} (hf : takesFull c s.flags = false) (hw : refreshWindow c r = none) :
    (refreshRect r.x r.y r.w r.h c).run s = .going s := by
  simp only [takesFull, Bool.or_eq_false_iff, Bool.not_eq_false'] at hf
  obtain ⟨hp, hi⟩ := hf
  have hclip : refreshClipped r.x r.y r.w r.h c = .skip := by
    unfold refreshWindow at hw
    unfold refreshClipped
    split at hw
    · next hn => rw [if_pos hn]
    · next hn => rw [if_neg hn, hw]
  rw [refreshRect, if_neg (by simp [hp]), run_ifFlag, if_neg (by simp [hi]), hclip, run_skip]

/-- Settles O38: the routine of each of these requests has no step to take, so only READY <- 1 is left. -/
theorem noOpRequests : Obligations.NoOpRequests := by
  unfold Obligations.NoOpRequests
  intro i s hu hi hcolor hw h
  rw [exec_eq_request]
  refine request_nothing hu (gateFault_none hi hcolor) ?_
  obtain himg | ⟨r, rfl | hr, hf, hwin⟩ := h
  · rw [bodyOf_imageWrite himg]
    exact writePlanes_idle (readsBitmap_of_imageWrite himg) hw (began s)
  · exact refreshRect_idle (s := began s) hf hwin
  · rw [bodyOf_draw hr, drawThenRefresh, run_seq, writePlanes_idle (readsBitmap_of_draw hr) hw, andThen_going]
    exact refreshRect_idle (s := began s) hf hwin

end Sys2Proof.Machine

/-!
The rest of the address calculator (42_window_address.md): when AlignClip is empty and PartClamp rejects, the bytes of a window, the
bytes a region write streams, and the mirrored write.
-/
namespace Sys2Proof.Machine

/-! ## AlignClip and PartClamp (R120, R124) -/

/-- Settles O49: for a size that is not negative, each way to miss the panel makes one of the two differences 0 or less. -/
theorem alignClipEmpty : Obligations.AlignClipEmpty := by
  unfold Obligations.AlignClipEmpty
  intro c x y w h hc hw hh
  obtain ⟨hwidth, hwidth8, -, hheight, -⟩ := cfgWf_iff.1 hc
  refine ⟨?_, fun r hr => ?_⟩
  · rw [alignClip_none]
    simp only [clipOf, ceil8]
    omega
  · obtain ⟨rfl, -⟩ := alignClip_some.1 hr
    have haligned : x - x % 8 = 8 * (x / 8) := by omega
    refine ⟨?_, fun hx hy => ?_⟩
    · simp only [clipOf, ceil8, haligned, and_self]
    · simp only [clipOf]
      omega

/-- Settles O51. -/
theorem partClampCases : Obligations.PartClampCases := by
  unfold Obligations.PartClampCases
  intro p w h
  refine ⟨?_, fun q hq => ?_⟩
  · rw [partClamp_none, partAccepted]
    omega
  · obtain ⟨ha, rfl⟩ := partClamp_some.1 hq
    unfold partAccepted at ha
    dsimp only
    omega

/-! ## The window's bytes (R90, R104, R122) -/

/-- A number below 256 is its own low byte. -/
theorem toNat_byteOf {n : Int} (h : 0 ≤ n) (h' : n < 256) : ((byteOf n).toNat : Int) = n := by
  rw [byteOf, BitVec.toNat_ofInt]
  omega

/-- Settles O54: the bounds of AlignClip keep each byte of a window below 256. -/
theorem windowBytesFit : Obligations.WindowBytesFit := by
  unfold Obligations.WindowBytesFit
  refine ⟨fun c x y w h r hc _ _ hr => ?_, ⟨rfl, fun _ _ _ => rfl⟩, fun c => ?_⟩
  · obtain ⟨-, -, hwidth, -, hheight, -⟩ := cfgWf_iff.1 hc
    obtain ⟨hx, hw, hw8, hh1⟩ := alignClip_byteColumns hc hr
    obtain ⟨hx0, hxw, hy0, hyh⟩ := alignClip_onPanel hr
    refine ⟨_, _, _, _, _, _, rfl, ?_⟩
    rw [toNat_byteOf (n := r.x1 / 8), toNat_byteOf (n := (r.x1 + r.w1 - 1) / 8), toNat_byteOf (n := r.y1 % 256),
      toNat_byteOf (n := r.y1 / 256), toNat_byteOf (n := (r.y1 + r.h1 - 1) % 256), toNat_byteOf (n := (r.y1 + r.h1 - 1) / 256)]
    all_goals omega
  · simp [initControllerBytes, windowBytes, byteOf]

/-! ## The bytes a region write streams (R131, R134, R135) -/

section Region
variable {c : Cfg} {p : Plane} {g : Region}

/-- Rows one after another: entry j of row i. -/
theorem getElem?_flatMap_range {α : Type} (f : Nat → Nat → α) {w : Nat} (h : Nat) {i j : Nat} (hi : i < h) (hj : j < w) :
    ((List.range h).flatMap fun i => (List.range w).map (f i))[j + i * w]? = some (f i j) := by
  induction h generalizing i f with
  | zero => omega
  | succ h ih =>
    rw [List.range_succ_eq_map, List.flatMap_cons, List.flatMap_map]
    cases i with
    | zero =>
      rw [Nat.zero_mul, Nat.add_zero, List.getElem?_append_left (by simpa using hj)]
      simp [hj]
    | succ i =>
      have hle : w ≤ j + (i + 1) * w := by rw [Nat.add_mul]; omega
      rw [List.getElem?_append_right (by simpa using hle)]
      have hidx : j + (i + 1) * w - ((List.range w).map (f 0)).length = j + i * w := by
        rw [List.length_map, List.length_range, Nat.add_mul]
        omega
      rw [hidx]
      exact ih (fun i => f (i + 1)) (by omega)

theorem length_regionIndices (mir : Bool) (g : Region) : (regionIndices mir g).length = g.clip.h1.toNat * (g.clip.w1 / 8).toNat := by
  simp [regionIndices, List.length_flatMap, List.map_const']

/-- The index streamed for row i and byte column j. -/
theorem getElem?_regionIndices (mir : Bool) {i j : Nat} (hi : (i : Int) < g.clip.h1) (hj : (j : Int) < g.clip.w1 / 8) :
    (regionIndices mir g)[j + i * (g.clip.w1 / 8).toNat]? = some (srcIndex mir g i j) :=
  getElem?_flatMap_range (fun i j => srcIndex mir g (i : Int) (j : Int)) g.clip.h1.toNat (by omega) (by omega)

theorem length_planeBytes (p : Plane) (g : Region) (s : State) :
    (planeBytes p g s).length = g.clip.h1.toNat * (g.clip.w1 / 8).toNat := by
  rw [planeBytes, List.length_map, planeAddrs, List.length_map, length_regionIndices]

/-- The byte streamed for row i and byte column j. -/
theorem getElem?_planeBytes (p : Plane) (s : State) {i j : Nat} (hi : (i : Int) < g.clip.h1) (hj : (j : Int) < g.clip.w1 / 8) :
    (planeBytes p g s)[j + i * (g.clip.w1 / 8).toNat]?
      = some (applyInvert p.inv (byteAt p.space (sourceAddr p.base (srcIndex p.mir g i j)) s)) := by
  simp only [planeBytes, planeAddrs, List.getElem?_map, getElem?_regionIndices p.mir hi hj, Option.map_some]

theorem toNat_applyInvert (inv : Bool) (b : Byte) : (applyInvert inv b).toNat = if inv then 255 - b.toNat else b.toNat := by
  cases inv with
  | false => rfl
  | true => simp [applyInvert, BitVec.toNat_not]

theorem toNat_sourceAddr (base : Word) (idx : Int) : ((sourceAddr base idx).toNat : Int) = ((base.toNat : Int) + idx) % 4294967296 := by
  rw [sourceAddr, BitVec.toNat_add, BitVec.toNat_ofInt]
  omega

theorem byte_not_eq_sub (b : Byte) : ~~~b = 255 - b := by
  refine BitVec.eq_of_toNat_eq ?_
  have := b.isLt
  rw [BitVec.toNat_not, BitVec.toNat_sub]
  have h255 : (255 : Byte).toNat = 255 := rfl
  omega

/-- A fill of one buffer as events. -/
theorem eventsOf_fillBytes (c : Cfg) (sel : Buffer) (v : Byte) : eventsOf (fillBytes c sel v)
    = eventsOf (windowBytes c.pd 0 0 c.width c.height) ++ .cmd (selectByte c.pd sel)
      :: List.replicate (c.width * c.height / 8) (Event.data v) := by
  simp [eventsOf, fillBytes, byteEvent]

/-- Settles O55. -/
theorem byteCounts : Obligations.ByteCounts := by
  unfold Obligations.ByteCounts
  refine ⟨fun s p g hc hg => ⟨?_, fun i j hi hj => ?_⟩, fun pd r sel => ?_, fun c f v => ?_, fun s p o h => ?_⟩
  · obtain ⟨w, h, -, -, hclip, -⟩ := resolveRegion_some hg
    obtain ⟨-, -, hw8, hh1⟩ := alignClip_byteColumns hc hclip
    rw [length_planeBytes, Int.natCast_mul, Int.mul_comm, Int.toNat_of_nonneg (by omega), Int.toNat_of_nonneg (by omega)]
  · exact ⟨_, _, toNat_sourceAddr _ _, getElem?_planeBytes p s hi hj, toNat_applyInvert _ _⟩
  · cases sel <;> rfl
  · simp only [fillEvents, eventsOf_fillBytes, byte_not_eq_sub, selectByte, List.append_assoc]
  · simp [firstWriteEvents, regionEvents, h]

/-! ## The mirrored write (R128) -/

/-- The unmirrored plane on the row-reversed bitmap reads, at each place, what the mirrored plane reads. -/
theorem planeBytes_mirrored {s : State} {q : Plane} (hmir : p.mir = true) (hq : q = { p with mir := false, base := q.base })
    (hg : resolveRegion c p = some g)
    (hrows : ∀ r c : Int, 0 ≤ r → r < g.src.hSrc → 0 ≤ c → c < g.src.wbSrc →
      byteAt p.space (sourceAddr q.base (c + r * g.src.wbSrc)) s
        = byteAt p.space (sourceAddr p.base (c + (g.src.hSrc - 1 - r) * g.src.wbSrc)) s) :
    planeBytes p g s = planeBytes q g s := by
  rw [hq]
  simp only [planeBytes, planeAddrs, regionIndices, List.map_map, List.map_flatMap, hmir]
  rw [List.flatMap_def, List.flatMap_def]
  refine congrArg List.flatten (List.map_congr_left fun i hi => List.map_congr_left fun j hj => ?_)
  rw [List.mem_range] at hi hj
  obtain ⟨hcol, hcol'⟩ := sourceColumn_inBitmap hg (j := j) (by omega) (by omega)
  obtain ⟨hrow, hrow'⟩ := srcRow_inBitmap false hg (i := i) (by omega) (by omega)
  exact congrArg (applyInvert p.inv) (hrows _ _ hrow hrow' hcol hcol').symm

/-- Settles O53. -/
theorem mirrorReadsReversed : Obligations.MirrorReadsReversed := by
  unfold Obligations.MirrorReadsReversed
  intro s p q g _ hmir hq hg hrows
  have hbytes := planeBytes_mirrored hmir hq hg hrows
  have hg' : resolveRegion s.cfg q = some g := by
    rw [hq]
    exact hg
  have hsel : q.sel = p.sel := by rw [hq]
  refine ⟨hbytes, ?_, fun o => ?_⟩
  · simp only [regionEvents, hg, hg', hbytes, hsel]
  · simp only [firstWriteEvents, hg, hg', hbytes, hsel]

end Region

end Sys2Proof.Machine

/-!
One transfer on the wire (R86), and bitmap memory as the host supplies it and a running request reads it (R39 to R41, R53).
-/
namespace Sys2Proof.Machine

/-! ## One transfer (R78, R86) -/

theorem byteEvent_eq (k : ByteKind) (b : Byte) : byteEvent (k, b) = if k = .cmd then .cmd b else .data b := by
  cases k <;> rfl

/-- What a transfer drives, with DC by the byte's kind and bit 7 first. -/
theorem wireFrame_eq (k : ByteKind) (b : Byte) (s : State) : wireFrame k b s =
    { cs := if s.cfg.hasCs then .low else s.lines.cs
      dc := if s.cfg.hasDc then (if k = .data then .high else .low) else s.lines.dc
      bits := (List.range 8).map fun n => b.getLsbD (7 - n) } := by
  cases k <;> rfl

/-- Settles O56, from the three outcomes of a transfer with a silent host. -/
theorem transferOnTheWire : Obligations.TransferOnTheWire := by
  unfold Obligations.TransferOnTheWire
  intro k b s hsil
  dsimp only
  rw [← wireFrame_eq, ← byteEvent_eq]
  refine ⟨fun hh => ⟨_, transfer_hibernating hsil hh, ?_⟩, fun hh hb => ⟨_, transfer_silent hsil hh hb, ?_⟩,
    fun hh hb => ⟨_, transfer_bus_fails hsil hh hb, ?_⟩⟩
  · exact ⟨⟨rfl, rfl, rfl, rfl, rfl, rfl, rfl, rfl, rfl⟩, rfl, rfl, rfl, rfl⟩
  · exact ⟨rfl, rfl, rfl, rfl, rfl⟩
  · exact ⟨⟨rfl, rfl, rfl, rfl, rfl, rfl, rfl, rfl, rfl⟩, rfl, rfl, rfl, rfl⟩

/-! ## A byte written by the host (R40, R53) -/

section Memory
variable {space space' : Space} {a a' : Word} {b : Byte} {s : State}

theorem byteAt_setByte_self (h : memWf (memOf space s) = true) : byteAt space a (setByte space a b s) = b := by
  cases space with
  | direct => exact memRead_memWrite_self h
  | readThrough => exact memRead_memWrite_self h

/-- Every other byte of that space, and every byte of the other, stays. -/
theorem byteAt_setByte_other (h : space' ≠ space ∨ a' ≠ a) : byteAt space' a' (setByte space a b s) = byteAt space' a' s := by
  have hne : space' = space → a'.toNat ≠ a.toNat := fun hs he => h.elim (absurd hs) (absurd (BitVec.eq_of_toNat_eq he))
  cases space <;> cases space'
  · exact memRead_memWrite_other (hne rfl)
  · rfl
  · rfl
  · exact memRead_memWrite_other (hne rfl)

theorem memWf_memOf_setByte (h : memWf (memOf space s) = true) : memWf (memOf space (setByte space a b s)) = true := by
  cases space with
  | direct => exact memWf_memWrite h
  | readThrough => exact memWf_memWrite h

theorem setByte_eq (space : Space) (a : Word) (b : Byte) (s : State) : setByte space a b s
    = { s with direct := (setByte space a b s).direct, readThrough := (setByte space a b s).readThrough } := by
  cases space <;> rfl

/-- Settles O58: between requests the host's byte is written and races with nothing. -/
theorem bitmapSupply : Obligations.BitmapSupply := by
  unfold Obligations.BitmapSupply
  intro s space a b rest hc hwf hr ht hi
  have hpoke : hostPoke space a b { s with inbox := rest } = setByte space a b { s with inbox := rest } :=
    congrArg (setByte space a b) (if_pos hr)
  have hmem : memOf space { s with inbox := rest } = memOf space s := by cases space <;> rfl
  have hwf' : memWf (memOf space { s with inbox := rest }) = true := hmem ▸ hwf
  refine ⟨setByte space a b { s with inbox := rest }, step_of_settled_move hc ht hi (congrArg Fetched.settled hpoke),
    byteAt_setByte_self hwf', memWf_memOf_setByte hwf', fun space' a' hne => ?_, setByte_eq _ _ _ _⟩
  exact (byteAt_setByte_other hne).trans (byteAt_congr rfl rfl)

/-! ## What a running request reads (R41, R46(a), R53) -/

theorem engineByte_of_find {e : SeenByte} (h : s.seen.find? (fun e => decide (e.space = space ∧ e.addr = a)) = some e) :
    engineByte space a s = e.byte := by
  rw [engineByte, h]

/-- The byte the host wrote during the request is seen as the race was drawn. -/
theorem engineByte_hostPoke_self (hr : s.status.ready = false) :
    engineByte space a (hostPoke space a b s) = if s.env.race.peek Config.freeRace 0 then b else byteAt space a s := by
  rw [hostPoke, if_neg (by simp [hr])]
  refine engineByte_of_find (e := ⟨space, a, _⟩) ?_
  rw [setByte_seen]
  exact List.find?_cons_of_pos (by simp)

/-- Every other byte is seen as before. -/
theorem engineByte_hostPoke_other (hr : s.status.ready = false) (h : space' ≠ space ∨ a' ≠ a) :
    engineByte space' a' (hostPoke space a b s) = engineByte space' a' s := by
  have hmiss : ¬ (space = space' ∧ a = a') := fun he => h.elim (absurd he.1.symm) (absurd he.2.symm)
  have hbyte : byteAt space' a' (setByte space a b (raceByte space a b s)) = byteAt space' a' s :=
    (byteAt_setByte_other h).trans (byteAt_congr rfl rfl)
  rw [hostPoke, if_neg (by simp [hr]), engineByte, engineByte, setByte_seen, hbyte]
  simp [raceByte, hmiss]

theorem engineByte_congr {t : State} (hd : t.direct = s.direct) (hr : t.readThrough = s.readThrough) (hs : t.seen = s.seen) :
    engineByte space a t = engineByte space a s := by
  rw [engineByte, engineByte, hs, byteAt_congr hd hr]

/-- Settles O59. -/
theorem racedByteOldOrNew : Obligations.RacedByteOldOrNew := by
  unfold Obligations.RacedByteOldOrNew
  refine ⟨fun s space space' a a' b hr hwf => ?_, fun s space space' a a' inv hsil hm hb hs => ?_,
    fun s space a h => engineByte_calm h⟩
  · have hraced : hostPoke space a b s = setByte space a b (raceByte space a b s) := by rw [hostPoke, if_neg (by simp [hr])]
    have hwf' : memWf (memOf space (raceByte space a b s)) = true := by cases space <;> exact hwf
    refine ⟨?_, ?_, engineByte_hostPoke_self hr, ?_, engineByte_hostPoke_other hr⟩
    · rw [hraced, byteAt_setByte_self hwf']
    · rw [engineByte_hostPoke_self hr]
      split
      · exact .inr rfl
      · exact .inl rfl
    · rw [hraced]
      cases space <;> rfl
  · obtain ⟨t, ht, hran⟩ := stream_runs (space := space) (inv := inv) (a := a) hsil (mayTransfer_iff.1 hm).2 (hs 0 (by omega)) (hb 0 (by omega))
    exact ⟨t, ht, hran.log, engineByte_congr hran.direct hran.readThrough hran.seen⟩

end Memory

end Sys2Proof.Machine

/-!
The busy wait (R95): one sample, one poll interval, and the whole wait at every number of intervals.
-/
namespace Sys2Proof.Machine

/-! ## Single steps of a busy wait (R63, R95) -/

section Steps
variable {label : WaitLabel} {n : Nat} {s : State}

theorem pollMicros_bounds (timeout : Word) (extra : Nat) : 1000 ≤ pollMicros timeout extra ∧
    (timeout.toNat + 1000 < 2 ^ 32 → pollMicros timeout extra < 2 ^ 32 - timeout.toNat) := by
  have hmod := Nat.mod_lt extra (by omega : 0 < max 1 (2 ^ 32 - timeout.toNat - 1000))
  unfold pollMicros
  omega

/-- An interval takes what the script adds to 1 ms, where the script does not pass R63's bound. -/
theorem pollMicros_exact {timeout : Word} {extra : Nat} (h : 1000 + extra < 2 ^ 32 - timeout.toNat) :
    pollMicros timeout extra = 1000 + extra := by
  rw [pollMicros, Nat.mod_eq_of_lt (by omega)]

theorem waitBegin_silent (h : hostSilent s = true) : (Prog.act .waitBegin).run s = .going (startTimer (setWaiting true s)) := by
  rw [run_act, runAct, takeStep_silent h]

/-- A sample that shows the line active leads to a poll interval. -/
theorem sample_active (h : hostSilent s = true) (hb : s.env.busy.peek Config.freeBusyLevel 0 = s.cfg.busyLevel) :
    (Prog.act (.sample label (n + 1))).run s = (Prog.act (.interval label n)).run (readBusy s).2 :=
  (sample_silent h).trans (if_neg fun hne => hne hb)

theorem sample_released (h : hostSilent s = true) (hb : s.env.busy.peek Config.freeBusyLevel 0 ≠ s.cfg.busyLevel) :
    (Prog.act (.sample label (n + 1))).run s = .going (endWait label .released (readBusy s).2) :=
  (sample_silent h).trans (if_pos hb)

end Steps

/-! ## A whole busy wait -/

section Wait
variable {label : WaitLabel} {s : State}

/-- A busy wait that began at s, after m samples that showed the line active and m poll intervals of 1 ms and what the script adds. -/
def pollAt (s : State) (m : Nat) : State :=
  { startTimer (setWaiting true s) with
    env := { s.env with
      clock := (startTimer (setWaiting true s)).t0 + BitVec.ofNat 32 (pollElapsed s m)
      busy := s.env.busy.skip m
      elapsed := s.env.elapsed.skip (m + 1) } }

theorem pollAt_zero (s : State) : pollAt s 0 = startTimer (setWaiting true s) := by
  simp [pollAt, startTimer, advanceClock, pollElapsed]

theorem pollAt_silent (h : hostSilent s = true) (m : Nat) : hostSilent (pollAt s m) = true := h

/-- The next poll interval, where it is as long as the script says. -/
theorem advanceClock_pollAt {m : Nat} (hus : 1000 + s.env.elapsed.peek Config.freeElapsed (m + 1) < 2 ^ 32 - s.cfg.busyTimeoutUs.toNat) :
    advanceClock (pollMicros s.cfg.busyTimeoutUs) (readBusy (pollAt s m)).2 = pollAt s (m + 1) := by
  have helapsed : (pollAt s m).env.elapsed.peek Config.freeElapsed 0 = s.env.elapsed.peek Config.freeElapsed (m + 1) := peek_skip _ _ _ _
  have hclock : (startTimer (setWaiting true s)).t0 + BitVec.ofNat 32 (pollElapsed s m)
        + BitVec.ofNat 32 (1000 + s.env.elapsed.peek Config.freeElapsed (m + 1))
      = (startTimer (setWaiting true s)).t0 + BitVec.ofNat 32 (pollElapsed s (m + 1)) := by
    rw [BitVec.add_assoc, ← BitVec.ofNat_add, pollElapsed, Nat.add_assoc]
  unfold advanceClock readBusy
  dsimp only
  rw [helapsed, pollMicros_exact hus]
  simp only [pollAt, hclock, skip_skip]

/-- The elapsed time has not wrapped, so the interval ends the wait exactly when it passes the bound (R95(b), R63). -/
theorem pollExpired_pollAt {m : Nat} (hlt : pollElapsed s m < 2 ^ 32) :
    pollExpired (pollAt s m) = true ↔ s.cfg.busyTimeoutUs.toNat < pollElapsed s m := by
  have hsub : (pollAt s m).env.clock - (pollAt s m).t0 = BitVec.ofNat 32 (pollElapsed s m) := by
    show (startTimer (setWaiting true s)).t0 + _ - (startTimer (setWaiting true s)).t0 = _
    rw [BitVec.add_comm, BitVec.add_sub_cancel]
  rw [pollExpired, hsub, decide_eq_true_iff, BitVec.lt_def, BitVec.toNat_ofNat, Nat.mod_eq_of_lt hlt]
  rfl

/-- The premises of a wait that is still open after m intervals. -/
structure PollsTo (s : State) (m : Nat) : Prop where
  active : ∀ j, j < m → s.env.busy.peek Config.freeBusyLevel j = s.cfg.busyLevel
  exact : ∀ j, j < m → 1000 + s.env.elapsed.peek Config.freeElapsed (j + 1) < 2 ^ 32 - s.cfg.busyTimeoutUs.toNat
  within : ∀ j, j < m → pollElapsed s j ≤ s.cfg.busyTimeoutUs.toNat

theorem PollsTo.pred {m : Nat} (h : PollsTo s (m + 1)) : PollsTo s m :=
  ⟨fun j hj => h.active j (by omega), fun j hj => h.exact j (by omega), fun j hj => h.within j (by omega)⟩

theorem pollElapsed_ge (s : State) (m : Nat) : 1000 * m ≤ pollElapsed s m := by
  induction m with
  | zero => exact Nat.zero_le _
  | succ m ih =>
    rw [pollElapsed]
    omega

theorem PollsTo.elapsed_lt {m : Nat} (h : PollsTo s (m + 1)) : pollElapsed s (m + 1) < 2 ^ 32 := by
  have hexact := h.exact m (by omega)
  have hwithin := h.within m (by omega)
  rw [pollElapsed]
  omega

/-- One pass of the loop: the sample shows the line active, and the interval is compared. -/
theorem run_pollAt {m n : Nat} (hsil : hostSilent s = true) (htime : s.env.timeRuns = true) (h : PollsTo s (m + 1)) :
    (Prog.act (.sample label (n + 1))).run (pollAt s m)
      = if s.cfg.busyTimeoutUs.toNat < pollElapsed s (m + 1) then .going (endWait label .timeout (pollAt s (m + 1)))
        else (Prog.act (.sample label n)).run (pollAt s (m + 1)) := by
  have hactive : (pollAt s m).env.busy.peek Config.freeBusyLevel 0 = s.cfg.busyLevel := by
    refine (peek_skip _ _ _ _).trans ?_
    exact h.active m (by omega)
  rw [sample_active (pollAt_silent hsil m) hactive, interval_silent (s := (readBusy (pollAt s m)).2) hsil htime]
  have hadv := advanceClock_pollAt (h.exact m (by omega))
  simp only [show (readBusy (pollAt s m)).2.cfg = s.cfg from rfl, hadv, pollExpired_pollAt h.elapsed_lt]

/-- The loop after m intervals that have not passed the bound. -/
theorem run_pollAt_of_within {m n : Nat} (hsil : hostSilent s = true) (htime : s.env.timeRuns = true) (h : PollsTo s m)
    (hm : pollElapsed s m ≤ s.cfg.busyTimeoutUs.toNat) :
    (Prog.act (.sample label (n + m))).run (pollAt s 0) = (Prog.act (.sample label n)).run (pollAt s m) := by
  induction m generalizing n with
  | zero => rfl
  | succ m ih =>
    have hwithin := h.within m (by omega)
    rw [show n + (m + 1) = n + 1 + m by omega, ih h.pred hwithin, run_pollAt hsil htime h, if_neg (by omega)]

/-- With a busy line the wait is the poll loop, from T0 at the wait's start. -/
theorem waitWhileBusy_eq {ms : Nat} (hsil : hostSilent s = true) (hb : s.cfg.hasBusy = true) :
    (waitWhileBusy label ms s.cfg).run s
      = ((Prog.act (.sample label (pollBound s.cfg))).run (pollAt s 0)).andThen .skip Prog.skip.run := by
  rw [waitWhileBusy, if_pos hb, steps_cons, run_seq, waitBegin_silent hsil, andThen_going, pollAt_zero]
  rfl

/-- R95(a): released at the sample after m intervals that have not passed the bound. -/
theorem waitWhileBusy_released {ms m : Nat} (hsil : hostSilent s = true) (htime : s.env.timeRuns = true) (hb : s.cfg.hasBusy = true)
    (h : PollsTo s m) (hrel : s.env.busy.peek Config.freeBusyLevel m ≠ s.cfg.busyLevel)
    (hm : pollElapsed s m ≤ s.cfg.busyTimeoutUs.toNat) :
    (waitWhileBusy label ms s.cfg).run s = .going (endWait label .released (readBusy (pollAt s m)).2) := by
  have hge := pollElapsed_ge s m
  obtain ⟨n, hn⟩ : ∃ n, pollBound s.cfg = n + 1 + m := ⟨s.cfg.busyTimeoutUs.toNat / 1000 - m, by unfold pollBound; omega⟩
  have hrel' : (pollAt s m).env.busy.peek Config.freeBusyLevel 0 ≠ s.cfg.busyLevel := fun he => hrel ((peek_skip _ _ _ _).symm.trans he)
  rw [waitWhileBusy_eq hsil hb, hn, run_pollAt_of_within hsil htime h hm, sample_released (pollAt_silent hsil m) hrel']
  rfl

/-- R95(b): timed out by the first interval that passes the bound. -/
theorem waitWhileBusy_timeout {ms m : Nat} (hsil : hostSilent s = true) (htime : s.env.timeRuns = true) (hb : s.cfg.hasBusy = true)
    (h : PollsTo s m) (hm : s.cfg.busyTimeoutUs.toNat < pollElapsed s m) :
    (waitWhileBusy label ms s.cfg).run s = .going (endWait label .timeout (pollAt s m)) := by
  cases m with
  | zero => exact absurd hm (Nat.not_lt_zero _)
  | succ m =>
    have hge := pollElapsed_ge s m
    have hwithin := h.within m (by omega)
    obtain ⟨n, hn⟩ : ∃ n, pollBound s.cfg = n + 1 + m := ⟨s.cfg.busyTimeoutUs.toNat / 1000 - m, by unfold pollBound; omega⟩
    rw [waitWhileBusy_eq hsil hb, hn, run_pollAt_of_within hsil htime h.pred hwithin, run_pollAt hsil htime h, if_pos hm]
    rfl

/-- Samples that all show the line active end the wait TIMEOUT, however long the intervals are (R96). -/
theorem sample_times_out {n : Nat} (hsil : hostSilent s = true) (htime : s.env.timeRuns = true)
    (hb : ∀ k, k < n → s.env.busy.peek Config.freeBusyLevel k = s.cfg.busyLevel) :
    ∃ u, (Prog.act (.sample label n)).run s = .going (endWait label .timeout u) ∧ u.log = s.log ∧ u.status = s.status ∧ u.t0 = s.t0 := by
  induction n generalizing s with
  | zero => exact ⟨s, by rw [run_act, runAct, pollLoop, takeStep_silent hsil], rfl, rfl, rfl⟩
  | succ n ih =>
    rw [sample_active hsil (hb 0 (by omega)), interval_silent (s := (readBusy s).2) hsil htime]
    split
    · exact ⟨_, rfl, rfl, rfl, rfl⟩
    · have hb' (k : Nat) (hk : k < n) : (s.env.busy.skip 1).peek Config.freeBusyLevel k = s.cfg.busyLevel := by
        rw [peek_skip]
        exact hb _ (by omega)
      exact ih (s := advanceClock (pollMicros s.cfg.busyTimeoutUs) (readBusy s).2) hsil htime hb'

/-- Without a busy line the wait is the fallback delay (R95). -/
theorem waitWhileBusy_fallback {ms : Nat} (hsil : hostSilent s = true) (htime : s.env.timeRuns = true) (hw : s.status.waiting = false)
    (hb : s.cfg.hasBusy = false) : ∃ t, (waitWhileBusy label ms s.cfg).run s = .going t ∧ t.log = s.log ++ delayEvents ms ∧
      t.status = { s.status with lastWaitTimeout := false } := by
  have hclear (u : State) (hu : hostSilent u = true) : (steps [.act .clearLastWait]).run u = .going (clearLastWait u) := by
    rw [steps_cons, run_seq, run_act, runAct, takeStep_silent hu]
    rfl
  rw [waitWhileBusy, if_neg (by simp [hb]), steps_cons, run_seq, delay, delayEvents]
  by_cases hms : ms = 0
  · rw [if_pos hms, if_pos hms, run_skip, andThen_going, hclear s hsil]
    exact ⟨_, rfl, (List.append_nil _).symm, rfl⟩
  · have hbegun : hostSilent (setWaiting true s) = true := hsil
    rw [if_neg hms, if_neg hms, steps_cons, run_seq, run_act, runAct, takeStep_silent hsil, andThen_going, steps_cons, run_seq, run_act,
      runAct, takeStep_silent hbegun, delayNow, waitMs_runs (s := setWaiting true s) htime, andThen_going, steps_nil, run_skip, andThen_going,
      hclear (setWaiting false (emit (.delay ms) (setWaiting true s))) hsil]
    exact ⟨_, rfl, rfl, by simp [clearLastWait, setWaiting, emit, hw]⟩

end Wait

/-- Settles O57: the steps of a wait one by one, then the wait at each number of intervals from what the loop is after them
(`run_pollAt_of_within`). -/
theorem busyWaitOutcome : Obligations.BusyWaitOutcome := by
  unfold Obligations.BusyWaitOutcome
  refine ⟨fun label n s hsil => ⟨waitBegin_silent hsil, ⟨fun hb => sample_released hsil hb, fun hb => sample_active hsil hb⟩, fun htime => ?_⟩,
    fun label ms s hsil htime hw => ?_⟩
  · obtain ⟨hlo, hhi⟩ := pollMicros_bounds s.cfg.busyTimeoutUs (s.env.elapsed.peek Config.freeElapsed 0)
    have hexp := pollExpired_iff (advanceClock (pollMicros s.cfg.busyTimeoutUs) s)
    refine ⟨_, hlo, hhi, pollMicros_exact, fun hle => ?_, fun hlt => ?_⟩
    · exact (interval_silent hsil htime).trans (if_neg fun he => absurd (hexp.1 he) (Int.not_lt.2 hle))
    · exact (interval_silent hsil htime).trans (if_pos (hexp.2 hlt))
  · have hreleased (m : Nat) (hb : s.cfg.hasBusy = true) (h : PollsTo s m) (hrel : s.env.busy.peek Config.freeBusyLevel m ≠ s.cfg.busyLevel)
        (hm : pollElapsed s m ≤ s.cfg.busyTimeoutUs.toNat) : ∃ t, (waitWhileBusy label ms s.cfg).run s = .going t ∧
          t.log = s.log ++ [.busy label .released] ∧ t.status = { s.status with lastWaitTimeout := false } ∧
          t.t0 = s.env.clock + BitVec.ofNat 32 (s.env.elapsed.peek Config.freeElapsed 0) ∧
          t.env.clock = s.env.clock + BitVec.ofNat 32 (s.env.elapsed.peek Config.freeElapsed 0) + BitVec.ofNat 32 (pollElapsed s m) ∧
          t.env.busy.drawn = s.env.busy.drawn + m + 1 ∧ t.env.elapsed.drawn = s.env.elapsed.drawn + m + 1 :=
      ⟨_, waitWhileBusy_released hsil htime hb h hrel hm, rfl, by simp [endWait, recordWait, readBusy, pollAt, startTimer, hw], rfl, rfl, rfl, rfl⟩
    refine ⟨fun hb hrel => ?_, fun m hb hactive hexact hwithin => ⟨fun hrel hm => ?_, fun hm => ?_⟩, fun hb hactive => ?_,
      fun hb => waitWhileBusy_fallback hsil htime hw hb⟩
    · obtain ⟨t, ht, hlog, hst, ht0, -, hbusy, helapsed⟩ := hreleased 0 hb
        ⟨fun _ h => absurd h (Nat.not_lt_zero _), fun _ h => absurd h (Nat.not_lt_zero _), fun _ h => absurd h (Nat.not_lt_zero _)⟩ hrel
        (Nat.zero_le _)
      exact ⟨t, ht, hlog, hst, ht0, hbusy, helapsed⟩
    · exact hreleased m hb ⟨hactive, hexact, hwithin⟩ hrel hm
    · exact ⟨_, waitWhileBusy_timeout hsil htime hb ⟨hactive, hexact, hwithin⟩ hm, rfl,
        by simp [endWait, recordWait, pollAt, startTimer, hw], rfl, rfl, rfl, rfl⟩
    · obtain ⟨u, hu, hlog, hst, ht0⟩ := sample_times_out (label := label) (n := pollBound s.cfg) (pollAt_silent hsil 0) htime fun k hk =>
        hactive k (by unfold pollBound at hk; omega)
      refine ⟨endWait label .timeout u, ?_, ?_, ?_, ht0⟩
      · rw [waitWhileBusy_eq hsil hb, hu]
        rfl
      · simp [endWait, recordWait, hlog, pollAt, startTimer]
      · simp [endWait, recordWait, hst, pollAt, startTimer, hw]

end Sys2Proof.Machine

/-!
The controller RAM observer after a region write (20_memory.md R59 to R62).
-/
namespace Sys2Proof.Machine

/-! ## The log command by command (R50, R60) -/

/-- What is left to read of a log depends on what came before only by the command that is open. -/
theorem obsItems_append (as : List Event) (op : Option (Byte × List Byte)) :
    ∃ items op', ∀ bs, obsItems (as ++ bs) op = items ++ obsItems bs op' := by
  induction as generalizing op with
  | nil => exact ⟨[], op, fun _ => rfl⟩
  | cons e as ih =>
    have hpass (op' : Option (Byte × List Byte)) (front : List ObsItem)
        (he : ∀ bs, obsItems (e :: bs) op = front ++ obsItems bs op') :
        ∃ items op', ∀ bs, obsItems (e :: as ++ bs) op = items ++ obsItems bs op' := by
      obtain ⟨items, op'', h⟩ := ih op'
      exact ⟨front ++ items, op'', fun bs => by rw [List.cons_append, he, h, List.append_assoc]⟩
    cases e with
    | cmd b => exact hpass (some (b, [])) (flushCommand op) fun _ => rfl
    | data b =>
      cases op with
      | none => exact hpass none [] fun _ => rfl
      | some p => exact hpass (some (p.1, p.2 ++ [b])) [] fun _ => rfl
    | resetPulse style => exact hpass none (flushCommand op ++ [.reset]) fun _ => by simp [obsItems]
    | lineSetup => exact hpass op [] fun _ => rfl
    | busSetup => exact hpass op [] fun _ => rfl
    | delay ms => exact hpass op [] fun _ => rfl
    | busy label o => exact hpass op [] fun _ => rfl

theorem obsItems_nil (op : Option (Byte × List Byte)) : obsItems [] op = flushCommand op := by
  cases op <;> rfl

theorem obsItems_cmd (b : Byte) (rest : List Event) (op : Option (Byte × List Byte)) :
    obsItems (.cmd b :: rest) op = flushCommand op ++ obsItems rest (some (b, [])) := by
  cases op <;> rfl

theorem obsItems_delay (ms : Nat) (rest : List Event) (op : Option (Byte × List Byte)) :
    obsItems (delayEvents ms ++ rest) op = obsItems rest op := by
  unfold delayEvents
  split
  · rfl
  · cases op <;> rfl

/-- Data bytes are added to the command that is open. -/
theorem obsItems_data (bs : List Byte) (rest : List Event) (c : Byte) (args : List Byte) :
    obsItems (bs.map Event.data ++ rest) (some (c, args)) = obsItems rest (some (c, args ++ bs)) := by
  induction bs generalizing args with
  | nil => rw [List.append_nil]; rfl
  | cons b bs ih => exact (ih (args ++ [b])).trans (by rw [List.append_assoc]; rfl)

/-- The commands of a region write in Partial mode (R122, R135). -/
def regionItems (p : Plane) (g : Region) (s : State) : List ObsItem :=
  let pd := s.cfg.pd
  let xs := byteOf (g.clip.x1 / 8)
  let y0 := byteOf (g.clip.y1 % 256)
  let y1 := byteOf (g.clip.y1 / 256)
  [.command pd.opDataEntry [pd.entryXyInc], .command pd.opRamXWindow [xs, byteOf ((g.clip.x1 + g.clip.w1 - 1) / 8)],
   .command pd.opRamYWindow [y0, y1, byteOf ((g.clip.y1 + g.clip.h1 - 1) % 256), byteOf ((g.clip.y1 + g.clip.h1 - 1) / 256)],
   .command pd.opRamXCounter [xs], .command pd.opRamYCounter [y0, y1], .command (selectByte pd p.sel) (planeBytes p g s)]

theorem obsItems_regionEvents {s : State} {p : Plane} {g : Region} (hg : resolveRegion s.cfg p = some g)
    (op : Option (Byte × List Byte)) : obsItems (regionEvents p s) op = flushCommand op ++ regionItems p g s := by
  have hdata := obsItems_data (planeBytes p g s) (delayEvents s.cfg.tYieldMs) (selectByte s.cfg.pd p.sel) []
  have htail := obsItems_delay s.cfg.tYieldMs [] (some (selectByte s.cfg.pd p.sel, planeBytes p g s))
  rw [List.append_nil] at htail
  simp only [regionEvents, hg, List.append_assoc, obsItems_delay]
  simp only [targetBytes, windowBytes, eventsOf, List.map_cons, List.map_nil, List.cons_append, List.nil_append, byteEvent, obsItems_cmd,
    obsItems, hdata, htail, flushCommand, regionItems]

/-- The observer after a log goes on from where it was. -/
theorem observeLog_regionEvents {s : State} {p : Plane} {g : Region} (before : List Event) (hg : resolveRegion s.cfg p = some g) :
    observeLog s.cfg.pd (before ++ regionEvents p s)
      = (regionItems p g s).foldl (obsStep s.cfg.pd) (observeLog s.cfg.pd before) := by
  obtain ⟨items, op, h⟩ := obsItems_append before none
  have hbefore := h []
  rw [List.append_nil, obsItems_nil] at hbefore
  rw [observeLog, observeLog, h, hbefore, obsItems_regionEvents hg, ← List.append_assoc, List.foldl_append]

/-! ## Data bytes in a window (R61) -/

/-- The window of the observer is w byte columns from xs and h rows from ys. -/
structure WindowIs (xs ys w h : Nat) (o : Observer) : Prop where
  left : o.xs = some xs
  right : o.xe = some (xs + w - 1)
  top : o.ys = some ys
  bottom : o.ye = some (ys + h - 1)

/-- The counters stand at the k-th place of the window, row by row. -/
structure CountersAt (xs ys w k : Nat) (o : Observer) : Prop where
  column : o.xc = some (xs + k % w)
  row : o.yc = some (ys + k / w)

/-- The place after the k-th: the next byte column, or the first one of the next row. -/
theorem place_succ {w : Nat} (hw : 0 < w) (k : Nat) :
    (k % w + 1 = w → (k + 1) % w = 0 ∧ (k + 1) / w = k / w + 1) ∧
    (k % w + 1 ≠ w → (k + 1) % w = k % w + 1 ∧ (k + 1) / w = k / w) := by
  have hk := Nat.div_add_mod k w
  have hlt := Nat.mod_lt k hw
  refine ⟨fun h => ?_, fun h => ?_⟩
  · have hsucc : k + 1 = w * (k / w + 1) := by rw [Nat.mul_add, Nat.mul_one]; omega
    rw [hsucc, Nat.mul_mod_right, Nat.mul_div_cancel_left _ hw]
    exact ⟨rfl, rfl⟩
  · have hsucc : k + 1 = w * (k / w) + (k % w + 1) := by omega
    have hlt' : k % w + 1 < w := by omega
    constructor
    · rw [hsucc, Nat.mul_add_mod, Nat.mod_eq_of_lt hlt']
    · rw [hsucc, Nat.mul_add_div hw, Nat.div_eq_of_lt hlt', Nat.add_zero]

/-- The k-th place of a window is a place of it, and no other place has its number. -/
theorem place_iff {xs ys w k col row : Nat} (hw : 0 < w) : (col = xs + k % w ∧ row = ys + k / w) ↔
    (xs ≤ col ∧ col < xs + w ∧ ys ≤ row) ∧ col - xs + (row - ys) * w = k := by
  have hk := Nat.div_add_mod k w
  have hlt := Nat.mod_lt k hw
  constructor
  · rintro ⟨rfl, rfl⟩
    rw [Nat.add_sub_cancel_left, Nat.add_sub_cancel_left, Nat.mul_comm]
    generalize k / w = q at *
    generalize k % w = r at *
    omega
  · rintro ⟨⟨hx, hx', hy⟩, rfl⟩
    rw [Nat.add_mul_mod_self_right, Nat.add_mul_div_right _ _ hw, Nat.mod_eq_of_lt (by omega), Nat.div_eq_of_lt (by omega)]
    omega

section Window
variable {sel : Buffer} {xs ys w h k : Nat} {o : Observer}

theorem ramData_window (b : Byte) (hwin : WindowIs xs ys w h o) (hat : CountersAt xs ys w k o) : WindowIs xs ys w h (ramData sel o b) := by
  obtain ⟨h1, h2, h3, h4⟩ := hwin
  simp only [ramData, h1, h2, h3, h4, hat.column, hat.row]
  cases sel <;> exact ⟨h1, h2, h3, h4⟩

/-- A data byte moves the counters to the next place, short of the window's end. -/
theorem ramData_counters (b : Byte) (hwin : WindowIs xs ys w h o) (hat : CountersAt xs ys w k o) (hk : k + 1 < w * h) :
    CountersAt xs ys w (k + 1) (ramData sel o b) := by
  have hw : 0 < w := Nat.pos_of_ne_zero fun e => by rw [e, Nat.zero_mul] at hk; omega
  have hrow : (k + 1) / w < h := (Nat.div_lt_iff_lt_mul hw).2 (by rw [Nat.mul_comm]; exact hk)
  have hlt := Nat.mod_lt k hw
  obtain ⟨hlast, hinner⟩ := place_succ hw k
  simp only [ramData, hwin.left, hwin.right, hwin.top, hwin.bottom, hat.column, hat.row]
  by_cases hx : k % w + 1 = w
  · obtain ⟨hmod, hdiv⟩ := hlast hx
    rw [hdiv] at hrow
    have hwrap : xs + w - 1 < xs + k % w + 1 := by omega
    have hinside : ¬ ys + h - 1 < ys + k / w + 1 := by omega
    simp only [if_pos hwrap, if_neg hinside]
    exact ⟨by rw [hmod]; rfl, by rw [hdiv]; rfl⟩
  · obtain ⟨hmod, hdiv⟩ := hinner hx
    rw [hdiv] at hrow
    have hwrap : ¬ xs + w - 1 < xs + k % w + 1 := by omega
    have hinside : ¬ ys + h - 1 < ys + k / w := by omega
    simp only [if_neg hwrap, if_neg hinside]
    exact ⟨by rw [hmod]; rfl, by rw [hdiv]⟩

/-- A data byte lands at the counters and nowhere else. -/
theorem ramAt_ramData (b : Byte) (hw : 0 < w) (hwin : WindowIs xs ys w h o) (hat : CountersAt xs ys w k o) (sel' : Buffer)
    (col row : Nat) : ramAt sel' (ramData sel o b) col row
      = if sel' = sel ∧ (xs ≤ col ∧ col < xs + w ∧ ys ≤ row) ∧ col - xs + (row - ys) * w = k then some b else ramAt sel' o col row := by
  have hplane : planeOf sel' (ramData sel o b)
      = if sel' = sel then ⟨xs + k % w, ys + k / w, b⟩ :: planeOf sel' o else planeOf sel' o := by
    simp only [ramData, hwin.left, hwin.right, hwin.top, hwin.bottom, hat.column, hat.row]
    cases sel <;> cases sel' <;> rfl
  have hplace := place_iff (xs := xs) (ys := ys) (k := k) (col := col) (row := row) hw
  unfold ramAt
  rw [hplane]
  by_cases hs : sel' = sel
  · rw [if_pos hs]
    by_cases hp : xs + k % w = col ∧ ys + k / w = row
    · rw [List.find?_cons_of_pos (by simpa using hp), if_pos ⟨hs, hplace.1 ⟨hp.1.symm, hp.2.symm⟩⟩]
      rfl
    · rw [List.find?_cons_of_neg (by simpa using hp), if_neg fun h => hp ((hplace.2 h.2).imp Eq.symm Eq.symm)]
  · rw [if_neg hs, if_neg fun h => hs h.1]

/-- The bytes streamed from the k-th place on land one place after another, and nowhere else. -/
theorem ramAt_foldl_ramData (hw : 0 < w) (bs : List Byte) (hwin : WindowIs xs ys w h o) (hat : k < w * h → CountersAt xs ys w k o)
    (hfit : k + bs.length ≤ w * h) (sel' : Buffer) (col row : Nat) :
    ramAt sel' (bs.foldl (ramData sel) o) col row
      = if sel' = sel ∧ (xs ≤ col ∧ col < xs + w ∧ ys ≤ row) ∧ k ≤ col - xs + (row - ys) * w
            ∧ col - xs + (row - ys) * w < k + bs.length
        then bs[col - xs + (row - ys) * w - k]? else ramAt sel' o col row := by
  induction bs generalizing k o with
  | nil => rw [if_neg fun h => by simp only [List.length_nil] at h; omega]; rfl
  | cons b bs ih =>
    rw [List.length_cons] at hfit ⊢
    have hat := hat (by omega)
    rw [List.foldl_cons, ih (ramData_window b hwin hat) (fun hk => ramData_counters b hwin hat hk) (by omega),
      ramAt_ramData b hw hwin hat]
    generalize col - xs + (row - ys) * w = idx
    by_cases hs : sel' = sel ∧ (xs ≤ col ∧ col < xs + w ∧ ys ≤ row)
    · obtain ⟨hs, hin⟩ := hs
      simp only [hs, hin, and_self, true_and]
      rcases Nat.lt_trichotomy idx k with hlt | rfl | hgt
      · rw [if_neg (by omega), if_neg (by omega), if_neg (by omega)]
      · rw [if_neg (by omega), if_pos rfl, if_pos (by omega), Nat.sub_self, List.getElem?_cons_zero]
      · have hidx : idx - k = idx - (k + 1) + 1 := by omega
        rw [hidx, List.getElem?_cons_succ]
        by_cases hend : idx < k + (bs.length + 1)
        · rw [if_pos (by omega), if_pos (by omega)]
        · rw [if_neg (by omega), if_neg (by omega), if_neg (by omega)]
    · rw [if_neg fun h => hs ⟨h.1, h.2.1⟩, if_neg fun h => hs ⟨h.1, h.2.1⟩, if_neg fun h => hs ⟨h.1, h.2.1⟩]

end Window

/-! ## The commands of a region write (R60) -/

/-- The opcodes the observer tells apart. -/
def obsOpcodes (pd : Pd) : List Byte :=
  [pd.opDataEntry, pd.opRamXWindow, pd.opRamYWindow, pd.opRamXCounter, pd.opRamYCounter, pd.opWriteRamCurrent, pd.opWriteRamPrevious]

section Commands
variable {pd : Pd} {o : Observer}

theorem obsCommand_select (h : (obsOpcodes pd).Nodup) (sel : Buffer) (args : List Byte) :
    obsCommand pd o (selectByte pd sel) args = args.foldl (ramData sel) { o with target := some sel } := by
  simp only [obsOpcodes, List.nodup_cons, List.mem_cons, List.not_mem_nil, or_false, not_or] at h
  obtain ⟨-, ⟨-, -, -, hx, hx'⟩, ⟨-, -, hy, hy'⟩, ⟨-, hxc, hxc'⟩, ⟨hyc, hyc'⟩, hcp, -⟩ := h
  cases sel with
  | cur => simp [obsCommand, selectByte, Ne.symm hx, Ne.symm hy, Ne.symm hxc, Ne.symm hyc]
  | prev => simp [obsCommand, selectByte, Ne.symm hx', Ne.symm hy', Ne.symm hxc', Ne.symm hyc', Ne.symm hcp]

/-- The five commands of a window and its counters set the observer's, and touch no plane. -/
theorem foldl_window (h : (obsOpcodes pd).Nodup) (e xs xe y0 y1 y2 y3 : Byte) :
    [ObsItem.command pd.opDataEntry [e], .command pd.opRamXWindow [xs, xe], .command pd.opRamYWindow [y0, y1, y2, y3],
      .command pd.opRamXCounter [xs], .command pd.opRamYCounter [y0, y1]].foldl (obsStep pd) o
      = { o with xs := some xs.toNat, xe := some xe.toNat, ys := some (twoBytes y0 y1), ye := some (twoBytes y2 y3),
                 xc := some xs.toNat, yc := some (twoBytes y0 y1), target := none } := by
  simp only [obsOpcodes, List.nodup_cons, List.mem_cons, List.not_mem_nil, or_false, not_or] at h
  obtain ⟨⟨hd1, hd2, hd3, hd4, hd5, hd6⟩, ⟨hx1, hx2, hx3, -, -⟩, ⟨hy1, hy2, -, -⟩, ⟨hxc, -, -⟩, -⟩ := h
  simp [obsStep, obsCommand, hd1, hd2, hd3, hd4, hd5, hd6, Ne.symm hx1, Ne.symm hx2, Ne.symm hx3, Ne.symm hy1, Ne.symm hy2, Ne.symm hxc]

end Commands

/-- A two-byte field holds its number (R44(b)). -/
theorem twoBytes_byteOf {n : Int} (h : 0 ≤ n) (h' : n < 65536) : twoBytes (byteOf (n % 256)) (byteOf (n / 256)) = n.toNat := by
  have hlo := toNat_byteOf (n := n % 256) (by omega) (by omega)
  have hhi := toNat_byteOf (n := n / 256) (by omega) (by omega)
  unfold twoBytes
  omega

/-! ## A region write (R62) -/

section Region
variable {s : State} {p : Plane} {g : Region}

/-- What a region write's bytes find: the window set, and the counters at its origin. -/
theorem exists_observeLog_regionEvents (before : List Event) (hc : cfgWf s.cfg = true) (hg : resolveRegion s.cfg p = some g)
    (hpd : (obsOpcodes s.cfg.pd).Nodup) :
    ∃ o, observeLog s.cfg.pd (before ++ regionEvents p s) = (planeBytes p g s).foldl (ramData p.sel) o ∧
      (∀ sel, planeOf sel o = planeOf sel (observeLog s.cfg.pd before)) ∧
      WindowIs (g.clip.x1 / 8).toNat g.clip.y1.toNat (g.clip.w1 / 8).toNat g.clip.h1.toNat o ∧
      CountersAt (g.clip.x1 / 8).toNat g.clip.y1.toNat (g.clip.w1 / 8).toNat 0 o := by
  obtain ⟨w, h, -, -, hclip, -⟩ := resolveRegion_some hg
  obtain ⟨hx, hw, hw8, hh1⟩ := alignClip_byteColumns hc hclip
  obtain ⟨hx0, hxw, hy0, hyh⟩ := alignClip_onPanel hclip
  obtain ⟨-, -, hwidth, -, hheight, -⟩ := cfgWf_iff.1 hc
  have hleft : (byteOf (g.clip.x1 / 8)).toNat = (g.clip.x1 / 8).toNat := by
    have := toNat_byteOf (n := g.clip.x1 / 8) (by omega) (by omega)
    omega
  have hright : (byteOf ((g.clip.x1 + g.clip.w1 - 1) / 8)).toNat = (g.clip.x1 / 8).toNat + (g.clip.w1 / 8).toNat - 1 := by
    have := toNat_byteOf (n := (g.clip.x1 + g.clip.w1 - 1) / 8) (by omega) (by omega)
    omega
  have htop := twoBytes_byteOf (n := g.clip.y1) (by omega) (by omega)
  have hbottom := twoBytes_byteOf (n := g.clip.y1 + g.clip.h1 - 1) (by omega) (by omega)
  have hitems : regionItems p g s = [.command s.cfg.pd.opDataEntry [s.cfg.pd.entryXyInc],
      .command s.cfg.pd.opRamXWindow [byteOf (g.clip.x1 / 8), byteOf ((g.clip.x1 + g.clip.w1 - 1) / 8)],
      .command s.cfg.pd.opRamYWindow [byteOf (g.clip.y1 % 256), byteOf (g.clip.y1 / 256),
        byteOf ((g.clip.y1 + g.clip.h1 - 1) % 256), byteOf ((g.clip.y1 + g.clip.h1 - 1) / 256)],
      .command s.cfg.pd.opRamXCounter [byteOf (g.clip.x1 / 8)],
      .command s.cfg.pd.opRamYCounter [byteOf (g.clip.y1 % 256), byteOf (g.clip.y1 / 256)]]
        ++ [.command (selectByte s.cfg.pd p.sel) (planeBytes p g s)] := rfl
  rw [observeLog_regionEvents before hg, hitems, List.foldl_append, foldl_window hpd]
  refine ⟨_, obsCommand_select hpd p.sel _, fun sel => by cases sel <;> rfl, ⟨congrArg some hleft, congrArg some hright, congrArg some htop, ?_⟩, ?_, ?_⟩
  · exact congrArg some (hbottom.trans (by omega))
  · rw [Nat.zero_mod]
    exact congrArg some hleft
  · rw [Nat.zero_div]
    exact congrArg some htop

/-- Settles O60: the window's k-th place takes the k-th byte streamed. -/
theorem observerHoldsRegion : Obligations.ObserverHoldsRegion := by
  unfold Obligations.ObserverHoldsRegion
  intro s p g before hc hg hpd
  obtain ⟨o, ho, hplane, hwin, hat⟩ := exists_observeLog_regionEvents before hc hg hpd
  obtain ⟨w, h, -, -, hclip, -⟩ := resolveRegion_some hg
  obtain ⟨hx, hw, hw8, hh1⟩ := alignClip_byteColumns hc hclip
  obtain ⟨hx0, -, hy0, -⟩ := alignClip_onPanel hclip
  have hlen := (length_planeBytes p g s).trans (Nat.mul_comm _ _)
  have hram (sel : Buffer) (col row : Nat) := ramAt_foldl_ramData (sel := p.sel) (k := 0) (by omega) (planeBytes p g s) hwin
    (fun _ => hat) (Nat.le_of_eq (by rw [hlen, Nat.zero_add])) sel col row
  simp only [ho, hram]
  refine ⟨fun i j hi hj => ?_, fun sel col row hout => ?_⟩
  · have hbyte := getElem?_planeBytes p s hi hj
    obtain ⟨hlt, -⟩ := List.getElem?_eq_some_iff.1 hbyte
    rw [Nat.add_sub_cancel_left, Nat.add_sub_cancel_left, if_pos ⟨trivial, by omega, by omega, by omega⟩, Nat.sub_zero, hbyte]
  · have hmiss : ¬ (sel = p.sel ∧ ((g.clip.x1 / 8).toNat ≤ col ∧ col < (g.clip.x1 / 8).toNat + (g.clip.w1 / 8).toNat ∧ g.clip.y1.toNat ≤ row)
        ∧ 0 ≤ col - (g.clip.x1 / 8).toNat + (row - g.clip.y1.toNat) * (g.clip.w1 / 8).toNat
        ∧ col - (g.clip.x1 / 8).toNat + (row - g.clip.y1.toNat) * (g.clip.w1 / 8).toNat < 0 + (planeBytes p g s).length) := by
      rintro ⟨hs, ⟨hcol, hcol', hrow⟩, -, hidx⟩
      have hrow' : g.clip.y1 + g.clip.h1 ≤ row → False := fun hr => by
        have hle : g.clip.h1.toNat * (g.clip.w1 / 8).toNat ≤ (row - g.clip.y1.toNat) * (g.clip.w1 / 8).toNat :=
          Nat.mul_le_mul_right _ (by omega)
        rw [hlen, Nat.mul_comm (g.clip.w1 / 8).toNat] at hidx
        omega
      obtain hne | hlo | hhi | hlo | hhi := hout
      · exact hne hs
      · omega
      · omega
      · omega
      · exact hrow' hhi
    rw [if_neg hmiss, ramAt, hplane, ramAt]

end Region

end Sys2Proof.Machine

/-!
INIT (R107, R189, R204), and transfers while the controller hibernates (R113, R174): the first byte ends the request.
-/
namespace Sys2Proof.Machine

/-- The host stays silent while its moves stay what they are. -/
theorem takeStep_stillSilent {a : Act} {now : State → Progress} {s u : State} (hsil : hostSilent s = true) (hu : u.inbox = s.inbox) :
    takeStep a now u = now u := takeStep_silent ((hostSilent_congr hu).trans hsil)

/-- A step of the engine that goes on as u does, then the rest. -/
theorem run_seq_act {a : Act} {now : State → Progress} {q : Prog} {s u v : State} (ha : runAct a = takeStep a now)
    (hsil : hostSilent s = true) (hi : u.inbox = s.inbox) (hu : now u = .going v) : (Prog.seq (.act a) q).run u = q.run v := by
  rw [run_seq, run_act, ha, takeStep_stillSilent hsil hi, hu, andThen_going]

/-- A delay while no wait is open appends its event and leaves everything else as it was. -/
theorem delay_silent {ms : Nat} {s : State} (hsil : hostSilent s = true) (htime : s.env.timeRuns = true) (hw : s.status.waiting = false) :
    (delay ms).run s = .going { s with log := s.log ++ delayEvents ms } := by
  unfold delay delayEvents
  by_cases hms : ms = 0
  · rw [if_pos hms, if_pos hms, run_skip, List.append_nil]
  · have hbegun : hostSilent (setWaiting true s) = true := hsil
    have hclosed : ({ s.status with waiting := false } : Status) = s.status := by rw [← hw]
    rw [if_neg hms, if_neg hms, steps_cons, run_seq, run_act, runAct, takeStep_silent hsil, andThen_going, steps_cons, run_seq, run_act,
      runAct, takeStep_silent hbegun, delayNow, waitMs_runs (s := setWaiting true s) htime, andThen_going]
    exact congrArg (fun st => Progress.going { s with status := st, log := s.log ++ [.delay ms] }) hclosed

/-! ## INIT -/

section Init
variable {style : ResetStyle} {s : State}

/-- The lines after INIT: each line that exists is driven, but a reset line that R91 releases (R91, R92). -/
def initLines (style : ResetStyle) (s : State) : Lines :=
  { configured := true
    cs := driveIf s.cfg.hasCs .high s.lines.cs
    dc := driveIf s.cfg.hasDc .high s.lines.dc
    rst := driveIf s.cfg.hasRst (rstAfter style) s.lines.rst }

/-- What INIT's steps leave: the sticky fields of STATUS cleared, the lines, the flags and the events. -/
def initLeft (style : ResetStyle) (s : State) : State :=
  { clearSticky s with
    flags := { flagsReset with initDone := true }, lines := initLines style s, log := s.log ++ initEvents s.cfg style }

/-- The reset of R91, whatever the reset line, once the lines are configured; hibernation ends. -/
theorem resetPulse_silent (hsil : hostSilent s = true) (htime : s.env.timeRuns = true) (hw : s.status.waiting = false) :
    (resetPulse style s.cfg).run s = .going { s with
      lines := { s.lines with rst := driveIf s.cfg.hasRst (rstAfter style) s.lines.rst }
      log := s.log ++ (if s.cfg.hasRst then .resetPulse style :: delayEvents s.cfg.tResetSettleMs else [])
      flags := { s.flags with hibernating := false } } := by
  cases hr : s.cfg.hasRst with
  | false => simp [resetPulse, hr, run_seq, runAct, takeStep_silent hsil, driveIf, setFlag, Flags.set]
  | true =>
    let u := emit (.resetPulse style) (setRst (rstAfter style) (setRst .low s))
    have hdelay := delay_silent (ms := s.cfg.tResetSettleMs) (s := u) hsil htime hw
    have hpulse : resetPulseNow style s.cfg.tResetPulseMs (setRst .low s) = .going u := waitMs_runs (s := setRst .low s) htime
    have hline : (steps [.act .resetLow, .act (.resetPulse style s.cfg.tResetPulseMs), delay s.cfg.tResetSettleMs]).run s
        = .going { u with log := u.log ++ delayEvents s.cfg.tResetSettleMs } := by
      refine Eq.trans (run_seq_act rfl hsil rfl rfl) (Eq.trans (run_seq_act rfl hsil rfl hpulse) ?_)
      rw [steps_cons, run_seq, hdelay, andThen_going]
      rfl
    rw [resetPulse, if_pos hr, steps_cons, run_seq, hline, andThen_going]
    refine Eq.trans (run_seq_act rfl hsil rfl rfl) ?_
    simp [u, setFlag, Flags.set, emit, setRst, driveIf, hr]

theorem initFlags_silent (hsil : hostSilent s = true) :
    initFlags.run s = .going { s with flags := { flagsReset with initDone := true } } := by
  iterate 6 refine Eq.trans (run_seq_act rfl hsil rfl rfl) ?_
  rfl

theorem initBody_silent (hsil : hostSilent s = true) (htime : s.env.timeRuns = true) (hw : s.status.waiting = false) :
    (initBody style s.cfg).run s = .going (initLeft style s) := by
  let u := configureLines (initBegin s)
  have hreset := resetPulse_silent (style := style) (s := u) hsil htime hw
  have hcfg : u.cfg = s.cfg := rfl
  rw [hcfg] at hreset
  refine Eq.trans (run_seq_act rfl hsil rfl rfl) (Eq.trans (run_seq_act rfl hsil rfl rfl) ?_)
  rw [steps_cons, run_seq, hreset, andThen_going, steps_cons, run_seq, initFlags_silent, andThen_going]
  · refine Eq.trans (run_seq_act rfl hsil rfl rfl) ?_
    simp [u, initLeft, initLines, initEvents, configureLines, initBegin, setFlag, clearSticky, emit]
  · exact hsil

/-- INIT ends, and leaves what its steps leave with READY 1. -/
theorem exec_init (hu : undisturbed s = true) : exec (.init style) s = .next (completed (initLeft style (began s))) := by
  obtain ⟨hsil, htime, hw, -⟩ := began_calm hu
  rw [exec_eq_request]
  exact request_completed (undisturbed_cfgWf hu) rfl (initBody_silent hsil htime hw) hsil

/-- The observer knows nothing after INIT's events (R60). -/
theorem observeLog_initEvents (pd : Pd) (c : Cfg) : observeLog pd (initEvents c style) = observerUnknown := by
  have hdelay := obsItems_delay c.tResetSettleMs [.busSetup] none
  unfold initEvents
  split
  · simp [observeLog, obsItems, hdelay, flushCommand, obsStep]
  · rfl

/-- The first launch form is the reset state, but for the host, its memory and the environment (R204). -/
theorem cleanEntry_iff {e : State} : cleanEntry e ↔ e.req = descZero ∧ e.shadow = descZero ∧ e.status = statusReset ∧ e.flags = flagsReset ∧
    e.todo = .skip ∧ e.t0 = 0 ∧ e.lines = linesReset ∧ e.log = [] ∧ e.wire = [] ∧ e.seen = [] ∧ e.faultRecord = [] ∧ e.replies = [] := by
  obtain ⟨cfg, req, shadow, status, flags, todo, t0, lines, log, wire, direct, readThrough, seen, faultRecord, inbox, replies, env⟩ := e
  simp [cleanEntry, State.resetOf]

/-- From a clean entry INIT leaves the second launch form. -/
theorem afterInit_of_cleanEntry {e : State} {d : Desc} (he : cleanEntry e) (hd : decode d = .ok (.init style)) :
    afterInit style (completed (initLeft style (began (started e.inbox (placeStart d e))))) := by
  refine ⟨hd, ?_⟩
  obtain ⟨hreq, hshadow, hst, hflags, htodo, ht0, hlines, hlog, hwire, hseen, hrec, hrep⟩ := cleanEntry_iff.1 he
  simp [completed, initLeft, initLines, began, beginRequest, started, latchStart, placeStart, clearSticky, State.resetOf, hst, hlines, hlog,
    hwire, hrec, statusReset, linesReset, driveIf, rstAfter]
  cases style <;> rfl

end Init

/-- Settles O30: with a silent host INIT's steps leave `initLeft`; held before its second step it has taken the first alone. -/
theorem initResult : Obligations.InitResult := by
  unfold Obligations.InitResult
  refine ⟨fun style s hu => ?_, fun style s rest hc hi => ?_, fun e d style he hu hd => ?_⟩
  · refine ⟨_, exec_init hu, ?_, rfl, ?_, ?_, rfl, rfl, ⟨rfl, rfl, rfl, rfl, rfl, fun _ _ => rfl⟩, rfl, rfl, rfl⟩
    · show s.log ++ initEvents s.cfg style = _
      rw [initEvents, ← List.append_assoc, ← List.append_assoc]
    · obtain ⟨-, -, hw, -⟩ := began_calm hu
      have hw' : s.status.waiting = false := hw
      simp [completed, initLeft, clearSticky, began, beginRequest, hw']
    · cases style <;> rfl
  · have hrun : (initBody style s.cfg).run (began s) = .held { initBegin { began s with inbox := rest } with
        todo := .seq (.act .lineSetup) (steps [resetPulse style s.cfg, initFlags, .act .busSetup]) } := by
      simp [initBody, run_seq, runAct, takeStep, hostTurn, landMoves, began, hi, initBegin, setFlag, clearSticky]
    rw [exec_eq_request]
    exact ⟨_, rfl, request_held hc rfl hrun⟩
  · obtain ⟨-, -, hst, -⟩ := cleanEntry_iff.1 he
    have hstart : startTaken 1 (placeStart d e) = true := by
      simp [startTaken, placeStart, hst, statusReset]
    have hc : cfgWf (placeStart d e).cfg = true := undisturbed_cfgWf (s := e) hu
    have hu' : undisturbed (started e.inbox (placeStart d e)) = true := hu
    have hstep := (step_of_start (s := placeStart d e) hc rfl rfl hstart hd).trans (exec_init hu')
    have hafter := afterInit_of_cleanEntry he hd
    refine ⟨_, hstep, hafter, ?_, fun hno => ?_⟩
    · have hlog : (completed (initLeft style (began (started e.inbox (placeStart d e))))).log = initEvents e.cfg style :=
        congrArg State.log hafter.2
      rw [observe, hlog]
      exact observeLog_initEvents _ _
    · have hstatus : (completed (initLeft style (began (started e.inbox (placeStart d e))))).status = statusReset :=
        congrArg State.status hafter.2
      have hinbox : (completed (initLeft style (began (started e.inbox (placeStart d e))))).inbox = e.inbox := rfl
      rw [runEnded, hstatus, hinbox, hno]
      rfl

end Sys2Proof.Machine

/-!
While the controller hibernates (R113, R174): the first byte of a request ends it before a line moves.
-/
namespace Sys2Proof.Machine

/-! ## Routines whose first step is a byte -/

/-- The first step, from these flags, is to send a byte. -/
def Prog.SendsFirst (f : Flags) (p : Prog) : Prop := ∃ b, p.first f = some (.send b)

section SendsFirst
variable {f : Flags} {p q : Prog}

theorem Prog.SendsFirst.seq (h : p.SendsFirst f) : (Prog.seq p q).SendsFirst f := by
  obtain ⟨b, h⟩ := h
  exact ⟨b, by rw [Prog.first, h]⟩

theorem Prog.SendsFirst.after (hp : p.first f = none) (h : q.SendsFirst f) : (Prog.seq p q).SendsFirst f := by
  obtain ⟨b, h⟩ := h
  exact ⟨b, by rw [Prog.first, hp, h]⟩

theorem Prog.SendsFirst.ifTrue {n : FlagName} (hn : f.get n = true) (h : p.SendsFirst f) : (Prog.ifFlag n p q).SendsFirst f := by
  obtain ⟨b, h⟩ := h
  exact ⟨b, by rw [Prog.first, if_pos hn, h]⟩

theorem Prog.SendsFirst.ifFalse {n : FlagName} (hn : f.get n = false) (h : q.SendsFirst f) : (Prog.ifFlag n p q).SendsFirst f := by
  obtain ⟨b, h⟩ := h
  exact ⟨b, by rw [Prog.first, if_neg (by simp [hn]), h]⟩

theorem sendBytes_sendsFirst {bs : List (ByteKind × Byte)} (h : bs ≠ []) : (sendBytes bs).SendsFirst f := by
  obtain ⟨b, rest, rfl⟩ := List.exists_cons_of_ne_nil h
  exact ⟨b, rfl⟩

theorem first_ifTrue {n : FlagName} (hn : f.get n = true) : (Prog.ifFlag n p q).first f = p.first f := by
  rw [Prog.first, if_pos hn]

theorem first_ifFalse {n : FlagName} (hn : f.get n = false) : (Prog.ifFlag n p q).first f = q.first f := by
  rw [Prog.first, if_neg (by simp [hn])]

/-- Bytes, after a step that the flags let pass or that sends bytes itself. -/
theorem sendsFirst_ifThen {n : FlagName} (hp : f.get n = true → p.SendsFirst f) (hq : q.SendsFirst f) :
    (Prog.seq (.ifFlag n p .skip) q).SendsFirst f := by
  cases hn : f.get n with
  | true => exact (Prog.SendsFirst.ifTrue hn (hp hn)).seq
  | false => exact hq.after (first_ifFalse hn)

theorem sendsFirst_unless {n : FlagName} (hp : f.get n = false → p.SendsFirst f) (hq : q.SendsFirst f) :
    (Prog.seq (.ifFlag n .skip p) q).SendsFirst f := by
  cases hn : f.get n with
  | true => exact hq.after (first_ifTrue hn)
  | false => exact (Prog.SendsFirst.ifFalse hn (hp hn)).seq

/-! ## The routines -/

variable {c : Cfg}

theorem initController_sendsFirst : (initController c).SendsFirst f :=
  sendBytes_sendsFirst (by simp [initControllerBytes, windowBytes])

theorem fillBuffer_sendsFirst {sel : Buffer} {v : Byte} : (fillBuffer sel v c).SendsFirst f :=
  sendBytes_sendsFirst (by simp [fillBytes])

/-- Once in Partial mode, or on entering it, bytes are sent if the rest sends them. -/
theorem ensurePartial_sendsFirst (hq : q.SendsFirst f) : (Prog.seq (ensurePartial c) q).SendsFirst f :=
  sendsFirst_unless (fun _ => initController_sendsFirst.seq) hq

theorem screenBufferFill_sendsFirst (v : Byte) : (screenBufferFill v c).SendsFirst f :=
  ensurePartial_sendsFirst (sendsFirst_ifThen (fun _ => fillBuffer_sendsFirst) fillBuffer_sendsFirst.seq)

theorem refreshFull_sendsFirst (h : fullTransfers c f = true) : (refreshFull c).SendsFirst f := by
  cases hm : f.usingPartialMode with
  | true => exact (Prog.SendsFirst.ifTrue (n := .usingPartialMode) hm initController_sendsFirst.seq).seq
  | false =>
    have hseq : seqBytes c.pd.seqFullUpdate ≠ [] := by simpa [fullTransfers, hm] using h
    exact (sendBytes_sendsFirst hseq).seq.after (first_ifFalse hm)

theorem refreshPartial_sendsFirst (r : Clipped) : (refreshPartial r c).SendsFirst f :=
  ensurePartial_sendsFirst (sendBytes_sendsFirst (List.cons_ne_nil _ _)).seq

theorem refreshClipped_of_window {r : Rect} {q : Clipped} (h : refreshWindow c r = some q) :
    refreshClipped r.x r.y r.w r.h c = refreshPartial q c := by
  unfold refreshWindow at h
  unfold refreshClipped
  split at h
  · cases h
  · next hn => rw [if_neg hn, h]

theorem refreshRect_sendsFirst {r : Rect} (h : refreshTransfers c f r = true) : (refreshRect r.x r.y r.w r.h c).SendsFirst f := by
  unfold refreshTransfers at h
  by_cases htf : takesFull c f = true
  · rw [if_pos htf] at h
    unfold refreshRect
    split
    · exact refreshFull_sendsFirst h
    · next hp => exact .ifTrue (by simpa [takesFull, hp] using htf) (refreshFull_sendsFirst h)
  · rw [if_neg htf] at h
    obtain ⟨hp, hi⟩ : c.hasPartial = true ∧ f.initialRefresh = false := by simpa [takesFull] using htf
    obtain ⟨q, hq⟩ := Option.isSome_iff_exists.1 h
    rw [refreshRect, if_neg (by simp [hp])]
    exact .ifFalse hi (by rw [refreshClipped_of_window hq]; exact refreshPartial_sendsFirst q)

/-- What a region write does after its first yield sends a byte first. -/
theorem writeRest_sendsFirst (p : Plane) (g : Region) :
    (steps [firstClear c, ensurePartial c, streamRect p g c, yieldHost c]).SendsFirst f :=
  sendsFirst_ifThen (fun _ => screenBufferFill_sendsFirst _)
    (ensurePartial_sendsFirst (Prog.SendsFirst.seq (Prog.SendsFirst.seq (sendBytes_sendsFirst (List.cons_ne_nil _ _)))))

end SendsFirst

/-! ## The first byte ends the request -/

section Asleep
variable {s : State}

/-- While the controller hibernates, a routine whose first step is a byte ends there, with nothing else done. -/
theorem run_asleep {p : Prog} (hsil : hostSilent s = true) (hh : s.flags.hibernating = true) (h : p.SendsFirst s.flags) :
    p.run s = .ended (raiseFault .hibernatingAccess s) := by
  obtain ⟨b, h⟩ := h
  exact run_of_first_ended h (transfer_hibernating hsil hh)

/-- A region write has logged its yield by then (R136(e)). -/
theorem writeRegion_asleep {p : Plane} {g : Region} {c : Cfg} (hg : resolveRegion c p = some g) (hc : Calm s) (hh : s.flags.hibernating = true) :
    (writeRegion p c).run s = .ended (raiseFault .hibernatingAccess { s with log := s.log ++ delayEvents c.tYieldMs }) := by
  rw [writeRegion, hg]
  show (writeResolved p g c).run s = _
  rw [writeResolved, steps_cons, run_seq, yieldHost, delay_silent hc.silent hc.time hc.waiting, andThen_going]
  exact run_asleep (s := { s with log := s.log ++ delayEvents c.tYieldMs }) hc.silent hh (writeRest_sendsFirst p g)

theorem writePlanes_asleep {i : Instr} {c : Cfg} (hi : readsBitmap i = true) (hw : writesSomething c (planesOf i) = true) (hc : Calm s)
    (hh : s.flags.hibernating = true) :
    (writePlanes (planesOf i) c).run s = .ended (raiseFault .hibernatingAccess { s with log := s.log ++ delayEvents c.tYieldMs }) := by
  obtain ⟨p, hp⟩ | ⟨p, q, hp, hform, hrect⟩ := planesOf_cases hi
  · rw [hp] at hw ⊢
    obtain ⟨g, hg⟩ := Option.isSome_iff_exists.1 (show (resolveRegion c p).isSome = true by simpa [writesSomething] using hw)
    exact writeRegion_asleep hg hc hh
  · rw [hp] at hw ⊢
    have hpq : resolveRegion c q = resolveRegion c p := resolveRegion_congr hform hrect
    obtain ⟨g, hg⟩ := Option.isSome_iff_exists.1 (show (resolveRegion c p).isSome = true by simpa [writesSomething, hpq] using hw)
    show (Prog.seq (writeRegion p c) (writeRegion q c)).run s = _
    rw [run_seq, writeRegion_asleep hg hc hh, andThen_ended]

theorem bodyOf_asleep {i : Instr} {c : Cfg} (hi : readsBitmap i = true) (hw : writesSomething c (planesOf i) = true) (hc : Calm s)
    (hh : s.flags.hibernating = true) :
    ((bodyOf i).2 c).run s = .ended (raiseFault .hibernatingAccess { s with log := s.log ++ delayEvents c.tYieldMs }) := by
  have hwrite := writePlanes_asleep hi hw hc hh
  cases himg : isImageWrite i with
  | true =>
    rw [bodyOf_imageWrite himg]
    exact hwrite
  | false =>
    obtain ⟨r, hr⟩ := Option.isSome_iff_exists.1 (show (drawRect i).isSome = true by simpa [readsBitmap, himg] using hi)
    rw [bodyOf_draw hr, drawThenRefresh, run_seq, hwrite, andThen_ended]

/-- A request that writes no plane sends its first byte first, in each of the cases that transfer (R112, R163). -/
theorem bodyOf_sendsFirst {i : Instr} {c : Cfg} {f : Flags}
    (h : (i = .powerOn ∧ f.powerOn = false ∧ seqBytes c.pd.seqPowerOn ≠ []) ∨ (i = .powerOff ∧ f.powerOn = true ∧ seqBytes c.pd.seqPowerOff ≠ []) ∨
      (i = .hibernate ∧ f.powerOn = true ∧ seqBytes c.pd.seqPowerOff ≠ []) ∨
      (i = .hibernate ∧ f.powerOn = false ∧ c.hasRst = true ∧ seqBytes c.pd.seqDeepSleep ≠ []) ∨
      isFill i = true ∨ (i = .refresh false ∧ fullTransfers c f = true) ∨ (i = .refresh true ∧ refreshTransfers c f (wholePanel c) = true) ∨
      (∃ r, i = .refreshRect r ∧ refreshTransfers c f r = true)) :
    ((bodyOf i).2 c).SendsFirst f ∧ writesSomething c (planesOf i) = false := by
  obtain ⟨rfl, hp, hseq⟩ | ⟨rfl, hp, hseq⟩ | ⟨rfl, hp, hseq⟩ | ⟨rfl, hp, hr, hseq⟩ | hfill | ⟨rfl, ht⟩ | ⟨rfl, ht⟩ | ⟨r, rfl, ht⟩ := h
  · exact ⟨.ifFalse hp (sendBytes_sendsFirst hseq).seq, rfl⟩
  · exact ⟨.ifTrue hp (sendBytes_sendsFirst hseq).seq, rfl⟩
  · exact ⟨(Prog.SendsFirst.ifTrue (n := .powerOn) hp (sendBytes_sendsFirst hseq).seq).seq, rfl⟩
  · have hsleep : (if c.hasRst then steps [sendSeq c.pd.seqDeepSleep, .act (.setFlag .hibernating true)] else .skip).SendsFirst f := by
      rw [if_pos hr]
      exact (sendBytes_sendsFirst hseq).seq
    exact ⟨hsleep.seq.after (first_ifFalse hp), rfl⟩
  · cases i with
    | writeScreenBuffer v => exact ⟨screenBufferFill_sendsFirst v, rfl⟩
    | _ => cases hfill
  · exact ⟨refreshFull_sendsFirst ht, rfl⟩
  · exact ⟨refreshRect_sendsFirst ht, rfl⟩
  · exact ⟨refreshRect_sendsFirst ht, rfl⟩

/-- A draw whose planes are rejected or empty sends its refresh's first byte first. -/
theorem bodyOf_draw_sendsFirst {i : Instr} {r : Rect} {c : Cfg} {f : Flags} (hr : drawRect i = some r)
    (hw : writesSomething c (planesOf i) = false) (ht : refreshTransfers c f r = true) : ((bodyOf i).2 c).SendsFirst f := by
  have hnone : (writePlanes (planesOf i) c).first f = none := by
    obtain ⟨p, hp⟩ | ⟨p, q, hp, -, -⟩ := planesOf_cases (readsBitmap_of_draw hr)
    · rw [hp] at hw ⊢
      simp only [writesSomething, List.any_cons, List.any_nil, Bool.or_false] at hw
      rw [writePlanes, writeRegion_idle hw]
      rfl
    · rw [hp] at hw ⊢
      simp only [writesSomething, List.any_cons, List.any_nil, Bool.or_false, Bool.or_eq_false_iff] at hw
      rw [writePlanes, writeDual, writeRegion_idle hw.1, writeRegion_idle hw.2]
      rfl
  rw [bodyOf_draw hr]
  exact (refreshRect_sendsFirst ht).after hnone

/-! ## A request in flight whose next step ends it -/

theorem nextRefusal_silent (h : hostSilent s = true) : nextRefusal s.inbox = none := by
  unfold hostSilent at h
  split at h
  · next e => rw [e]; rfl
  · next e => rw [e]; rfl
  all_goals cases h

/-- A step of a request in flight ends where its next step of the engine ends the request. -/
theorem step_of_first_ended {a : Act} {u : State} (hc : cfgWf s.cfg = true) (hsil : hostSilent s = true)
    (hf : s.todo.first s.flags = some a) (hu : runAct a { s with todo := .skip } = .ended u) (ht : u.todo = .skip) :
    step s = .next u := by
  have hne : s.todo ≠ .skip := fun e => by rw [e] at hf; cases hf
  have hreach : s.todo.reach s = u := by
    rw [Prog.reach, run_of_first_ended (s := { s with todo := .skip }) hf hu, state_ended]
  have hmoved : ¬ .skip = s.todo := fun e => hne e.symm
  simp [step, fetch, hc, hne, resume, nextRefusal_silent hsil, hreach, ht, hmoved]

/-- Settles O46: the first step of each request in the list is a byte, but for a region write's yield. -/
theorem hibernatingAccess : Obligations.HibernatingAccess := by
  unfold Obligations.HibernatingAccess
  refine ⟨fun i s hu hi hh hcolor hcases => ?_, fun s b hc hsil hh hf => ?_⟩
  · have hcalm := began_calm hu
    have hleft (evs : List Event) (hrun : ((bodyOf i).2 s.cfg).run (began s)
        = .ended (raiseFault .hibernatingAccess { began s with log := s.log ++ evs })) :
        ∃ t, exec i s = .next t ∧ faultTaken .hibernatingAccess s t ∧ t.flags = s.flags ∧ t.lines = s.lines ∧ t.wire = s.wire ∧
          hostSideKept s t ∧ t.log = s.log ++ evs := by
      rw [exec_eq_request]
      exact ⟨_, request_ended (undisturbed_cfgWf hu) (gateFault_none hi hcolor) hrun, ⟨rfl, rfl, rfl, rfl, rfl, rfl, rfl, rfl, rfl⟩, rfl, rfl,
        rfl, ⟨rfl, rfl, rfl, rfl, rfl, fun _ _ => rfl⟩, rfl⟩
    have hfirst (hsends : ((bodyOf i).2 s.cfg).SendsFirst s.flags) (hw : writesSomething s.cfg (planesOf i) = false) :
        ∃ t, exec i s = .next t ∧ faultTaken .hibernatingAccess s t ∧ t.flags = s.flags ∧ t.lines = s.lines ∧ t.wire = s.wire ∧
          hostSideKept s t ∧ t.log = s.log ++ (if writesSomething s.cfg (planesOf i) = true then delayEvents s.cfg.tYieldMs else []) := by
      rw [hw]
      refine hleft [] ?_
      rw [List.append_nil]
      exact run_asleep hcalm.silent hh hsends
    simp only [← or_assoc] at hcases
    obtain (hcases | ⟨hread, hw⟩) | ⟨r, hr, hw, ht⟩ := hcases
    · simp only [or_assoc] at hcases
      obtain ⟨hsends, hw⟩ := bodyOf_sendsFirst hcases
      exact hfirst hsends hw
    · rw [if_pos hw]
      exact hleft _ (bodyOf_asleep hread hw hcalm hh)
    · exact hfirst (bodyOf_draw_sendsFirst hr hw ht) hw
  · have hrun : runAct (.send b) { s with todo := .skip } = .ended (raiseFault .hibernatingAccess { s with todo := .skip }) :=
      transfer_hibernating (s := { s with todo := .skip }) hsil hh
    exact ⟨_, step_of_first_ended hc hsil hf hrun rfl, ⟨rfl, rfl, rfl, rfl, rfl, rfl, rfl, rfl, rfl⟩, rfl, rfl, rfl, rfl,
      ⟨rfl, rfl, rfl, rfl, rfl, fun _ _ => rfl⟩⟩

end Asleep

end Sys2Proof.Machine

/-!
Rules over a whole run: what the host's turns and the effects of the engine's steps keep, every program of those steps keeps,
wherever it goes on, ends or is held. Laws/Closure.lean gives the same for one property of all these states; here the state held has a
property of its own, the host may be restricted (silent, or short of a reset), and an effect may depend on the answer it drew.
-/
namespace Sys2Proof.Machine

/-- What holds of the state where steps go on, where they ended, and where they are held. -/
def Progress.Meets (P Q R : State → Prop) : Progress → Prop
  | .going s => P s
  | .ended s => Q s
  | .held s => R s

theorem Progress.Meets.mono {P P' Q Q' R : State → Prop} {p : Progress} (h : p.Meets P Q R) (hp : ∀ s, P s → P' s)
    (hq : ∀ s, Q s → Q' s := by exact fun _ h => h) : p.Meets P' Q' R := by
  cases p with
  | going s => exact hp s h
  | ended s => exact hq s h
  | held s => exact h

theorem Transfers.mono {A B : Act → Prop} (h : Transfers A) (hab : ∀ a, A a → B a) : Transfers B := by
  obtain ⟨b, h⟩ | ⟨space, inv, a, h⟩ := h
  · exact .inl ⟨b, hab _ h⟩
  · exact .inr ⟨space, inv, a, hab _ h⟩

/-! ## A transfer once the host's moves have landed (R86) -/

section Transfer
variable {b : ByteKind × Byte} {s : State}

theorem transferNow_asleep (hh : s.flags.hibernating = true) : transferNow b s = .ended (raiseFault .hibernatingAccess s) := by
  simp [transferNow, hh]

theorem transferNow_fails (hh : s.flags.hibernating = false) (hb : s.env.bus.peek Config.freeBusFailure 0 = true) :
    transferNow b s = .ended (raiseFault .busError (drawBus (driveByte b.1 b.2 s)).2) := by
  have hd : (drawBus (driveByte b.1 b.2 s)).1 = true := hb
  simp [transferNow, hh, hd]

theorem transferNow_ok (hh : s.flags.hibernating = false) (hb : s.env.bus.peek Config.freeBusFailure 0 = false) :
    transferNow b s = .going (emit (byteEvent b) (drawBus (driveByte b.1 b.2 s)).2) := by
  have hd : (drawBus (driveByte b.1 b.2 s)).1 = false := hb
  simp [transferNow, hh, hd]

end Transfer

/-! ## The host -/

/-- The host's turn keeps P, ends a request only with Q and holds it only with R; so does a time source that has stopped, and R does not
depend on the position. -/
structure HostKeeps (P Q R : State → Prop) : Prop where
  turn : ∀ s, P s → (hostTurn s).Meets P Q R
  stop : ∀ s, P s → s.env.timeRuns = false → R s
  place : ∀ s p, R s → R { s with todo := p }

section Host
variable {P P' Q R : State → Prop}

theorem Progress.Meets.andThen {p : Progress} {q : Prog} {k : State → Progress} (h : p.Meets P Q R)
    (hplace : ∀ s p, R s → R { s with todo := p }) (hk : ∀ s, P s → (k s).Meets P' Q R) : (p.andThen q k).Meets P' Q R := by
  cases p with
  | going s => exact hk s h
  | ended s => exact h
  | held s => exact hplace s _ h

theorem takeStep_meets (H : HostKeeps P Q R) {a : Act} {now : State → Progress} {s : State} (h : P s)
    (hn : ∀ u, P u → (now u).Meets P' Q R) : (takeStep a now s).Meets P' Q R := by
  have ht := H.turn s h
  unfold takeStep
  cases e : hostTurn s with
  | going u => rw [e] at ht; exact hn u ht
  | ended u => rw [e] at ht; exact ht
  | held u => rw [e] at ht; exact H.place u _ ht

theorem waitMs_meets (H : HostKeeps P Q R) {ms : Nat} {a : Act} {now : State → Progress} {s : State} (h : P s)
    (hn : (now s).Meets P' Q R) : (waitMs ms a now s).Meets P' Q R := by
  unfold waitMs
  split
  · exact hn
  · next hstop => exact H.place s _ (H.stop s h (by simpa using (not_or.1 hstop).2))

end Host

/-! ## The engine -/

/-- P is kept by every effect of the engine's steps among A, and the faults and READY <- 1 lead to Q. -/
structure KeptByEffects (A : Act → Prop) (P Q : State → Prop) : Prop where
  sent : ∀ (b : ByteKind × Byte) s, Transfers A → s.flags.hibernating = false → s.env.bus.peek Config.freeBusFailure 0 = false → P s →
    P (emit (byteEvent b) (drawBus (driveByte b.1 b.2 s)).2) := by intros; assumption
  busFault : ∀ (b : ByteKind × Byte) s, Transfers A → s.flags.hibernating = false → s.env.bus.peek Config.freeBusFailure 0 = true → P s →
    Q (raiseFault .busError (drawBus (driveByte b.1 b.2 s)).2) := by intros; assumption
  sleepFault : ∀ s, Transfers A → s.flags.hibernating = true → P s → Q (raiseFault .hibernatingAccess s) := by intros; assumption
  source : ∀ s, Streams A → s.env.source.peek Config.freeSourceError 0 = false → P s → P (drawSource s).2 := by intros; assumption
  sourceFault : ∀ s, Streams A → s.env.source.peek Config.freeSourceError 0 = true → P s →
    Q (raiseFault .sourceError (drawSource s).2) := by intros; assumption
  flag : ∀ n v s, A (.setFlag n v) → P s → P (setFlag n v s) := by intros; assumption
  initBegin : ∀ s, A .initBegin → P s → P (initBegin s) := by intros; assumption
  lastWait : ∀ s, A .clearLastWait → P s → P (clearLastWait s) := by intros; assumption
  lines : ∀ s, A .lineSetup → P s → P (configureLines s) := by intros; assumption
  bus : ∀ s, A .busSetup → P s → P (emit .busSetup s) := by intros; assumption
  rstLow : ∀ s, A .resetLow → P s → P (setRst .low s) := by intros; assumption
  pulse : ∀ style ms s, A (.resetPulse style ms) → P s → P (emit (.resetPulse style) (setRst (rstAfter style) s)) := by intros; assumption
  delayBegin : ∀ s, A .delayBegin → P s → P (setWaiting true s) := by intros; assumption
  delayEnd : ∀ ms s, A (.delayEnd ms) → P s → P (setWaiting false (emit (.delay ms) s)) := by intros; assumption
  waitBegin : ∀ s, A .waitBegin → P s → P (startTimer (setWaiting true s)) := by intros; assumption
  busy : ∀ s, Polls A → P s → P (readBusy s).2 := by intros; assumption
  clock : ∀ us s, Polls A → P s → P (advanceClock us s) := by intros; assumption
  waitEnd : ∀ label o s, Polls A → P s → P (endWait label o s) := by
    intro _ o _ _ h
    cases o <;> exact h
  raised : ∀ k s, A (.raise k) → P s → Q (raiseFault k s) := by intros; assumption
  done : ∀ s, A .complete → P s → Q (completed s) := by intros; assumption

section Engine
variable {A : Act → Prop} {P P' Q R W : State → Prop}

/-- A transfer that is logged leads from P to P'. -/
theorem transfer_meets_of (H : HostKeeps P Q R) {b : ByteKind × Byte} {s : State} (h : P s)
    (hsent : ∀ u, u.flags.hibernating = false → u.env.bus.peek Config.freeBusFailure 0 = false → P u →
      P' (emit (byteEvent b) (drawBus (driveByte b.1 b.2 u)).2))
    (hfail : ∀ u, u.flags.hibernating = false → u.env.bus.peek Config.freeBusFailure 0 = true → P u →
      Q (raiseFault .busError (drawBus (driveByte b.1 b.2 u)).2))
    (hasleep : ∀ u, u.flags.hibernating = true → P u → Q (raiseFault .hibernatingAccess u)) : (transfer b s).Meets P' Q R := by
  refine takeStep_meets H h fun u hu => ?_
  cases hh : u.flags.hibernating with
  | true =>
    rw [transferNow_asleep hh]
    exact hasleep u hh hu
  | false =>
    cases hb : u.env.bus.peek Config.freeBusFailure 0 with
    | true =>
      rw [transferNow_fails hh hb]
      exact hfail u hh hb hu
    | false =>
      rw [transferNow_ok hh hb]
      exact hsent u hh hb hu

theorem transfer_meets (H : HostKeeps P Q R) (K : KeptByEffects A P Q) (hA : Transfers A) {b : ByteKind × Byte} {s : State} (h : P s) :
    (transfer b s).Meets P Q R :=
  transfer_meets_of H h (fun u hh hb hu => K.sent b u hA hh hb hu) (fun u hh hb hu => K.busFault b u hA hh hb hu)
    fun u hh hu => K.sleepFault u hA hh hu

theorem streamNow_meets (H : HostKeeps P Q R) (K : KeptByEffects A P Q) {space : Space} {inv : Bool} {a : Word}
    (hA : A (.stream space inv a)) {s : State} (h : P s) : (streamNow space inv a s).Meets P Q R := by
  cases hs : s.env.source.peek Config.freeSourceError 0 with
  | true =>
    rw [streamNow_fails hs]
    exact K.sourceFault s ⟨_, _, _, hA⟩ hs h
  | false =>
    rw [streamNow_ok hs]
    exact transfer_meets H K (.inr ⟨_, _, _, hA⟩) (K.source s ⟨_, _, _, hA⟩ hs h)

/-- A poll interval in a wait during which W holds, and after which P does. -/
theorem pollInterval_meets (H : HostKeeps W Q R) (hclock : ∀ us u, W u → W (advanceClock us u))
    (hend : ∀ label o u, W u → P (endWait label o u)) {label : WaitLabel} {n : Nat} {next : State → Progress} {s : State} (h : W s)
    (hn : ∀ u, W u → (next u).Meets P Q R) : (pollInterval label n next s).Meets P Q R := by
  refine takeStep_meets H h fun u hu => waitMs_meets H hu ?_
  dsimp only
  split
  · exact hend _ _ _ (hclock _ u hu)
  · exact hn _ (hclock _ u hu)

theorem pollLoop_meets (H : HostKeeps W Q R) (hbusy : ∀ u, W u → W (readBusy u).2) (hclock : ∀ us u, W u → W (advanceClock us u))
    (hend : ∀ label o u, W u → P (endWait label o u)) (label : WaitLabel) (n : Nat) {s : State} (h : W s) :
    (pollLoop label n s).Meets P Q R := by
  induction n generalizing s with
  | zero => exact takeStep_meets H h fun u hu => hend _ _ u hu
  | succ n ih =>
    refine takeStep_meets H h fun u hu => ?_
    dsimp only
    split
    · exact hend _ _ _ (hbusy u hu)
    · exact pollInterval_meets H hclock hend (hbusy u hu) fun v hv => ih hv

theorem runAct_meets (H : HostKeeps P Q R) (K : KeptByEffects A P Q) {a : Act} (ha : A a) {s : State} (h : P s) :
    (runAct a s).Meets P Q R := by
  cases a with
  | send b => exact transfer_meets H K (.inl ⟨b, ha⟩) h
  | stream space inv a => exact takeStep_meets H h fun u hu => streamNow_meets H K ha hu
  | setFlag n v => exact takeStep_meets H h fun u hu => K.flag n v u ha hu
  | initBegin => exact takeStep_meets H h fun u hu => K.initBegin u ha hu
  | clearLastWait => exact takeStep_meets H h fun u hu => K.lastWait u ha hu
  | lineSetup => exact takeStep_meets H h fun u hu => K.lines u ha hu
  | busSetup => exact takeStep_meets H h fun u hu => K.bus u ha hu
  | resetLow => exact takeStep_meets H h fun u hu => K.rstLow u ha hu
  | resetPulse style ms => exact takeStep_meets H h fun u hu => waitMs_meets H hu (K.pulse style ms u ha hu)
  | delayBegin => exact takeStep_meets H h fun u hu => K.delayBegin u ha hu
  | delayEnd ms => exact takeStep_meets H h fun u hu => waitMs_meets H hu (K.delayEnd ms u ha hu)
  | waitBegin => exact takeStep_meets H h fun u hu => K.waitBegin u ha hu
  | sample label n =>
    have hA : Polls A := ⟨label, n, .inl ha⟩
    exact pollLoop_meets H (fun u => K.busy u hA) (fun us u => K.clock us u hA) (fun l o u => K.waitEnd l o u hA) label n h
  | interval label n =>
    have hA : Polls A := ⟨label, n, .inr ha⟩
    exact pollInterval_meets H (fun us u => K.clock us u hA) (fun l o u => K.waitEnd l o u hA) h fun u hu =>
      pollLoop_meets H (fun u => K.busy u hA) (fun us u => K.clock us u hA) (fun l o u => K.waitEnd l o u hA) label n hu
  | raise k => exact takeStep_meets H h fun u hu => K.raised k u ha hu
  | complete => exact takeStep_meets H h fun u hu => K.done u ha hu

/-- A program of steps among A keeps P, ends only with Q and is held only with R. -/
theorem run_meets (H : HostKeeps P Q R) (K : KeptByEffects A P Q) {p : Prog} (hp : p.All A) {s : State} (h : P s) :
    (p.run s).Meets P Q R := by
  induction p generalizing s with
  | skip => exact h
  | act a => exact runAct_meets H K hp h
  | seq p q ihp ihq => exact (ihp hp.1 h).andThen H.place fun u hu => ihq hp.2 hu
  | ifFlag n p q ihp ihq =>
    rw [run_ifFlag]
    split
    · exact ihp hp.1 h
    · exact ihq hp.2 h

end Engine

/-! ## Requests -/

/-- A request's next state is where its steps end, or where they are held. -/
theorem exec_of_run {Q R : State → Prop} {i : Instr} {s t : State}
    (h : ((dispatched (bodyOf i).1 (bodyOf i).2 s).run (began s)).Meets (fun _ => False) Q R) (he : exec i s = .next t) :
    (t.todo = .skip ∧ Q t) ∨ (t.todo ≠ .skip ∧ R t) := by
  rw [exec_eq_request] at he
  obtain ⟨-, ⟨e, ht⟩ | ⟨e, ht⟩⟩ := request_next he
  · exact .inl ⟨ht, by rw [show (dispatched _ _ s).run (began s) = _ from e] at h; exact h⟩
  · exact .inr ⟨ht, by rw [show (dispatched _ _ s).run (began s) = _ from e] at h; exact h⟩

/-- A routine, and READY <- 1 after it. -/
theorem completed_meets {P P' Q R : State → Prop} {p : Prog} {s : State} (H : HostKeeps P Q R) (h : (p.run s).Meets P Q R)
    (hdone : ∀ u, P u → Q (completed u)) : ((Prog.seq p (.act .complete)).run s).Meets P' Q R :=
  h.andThen H.place fun _ hu => takeStep_meets H hu fun v hv => hdone v hv

/-- A request whose dispatch fault leads to Q, and so do its routine's end and READY <- 1 after it. -/
theorem exec_meets {P P' Q R : State → Prop} {i : Instr} {s t : State} (H : HostKeeps P Q R) (H' : HostKeeps P' Q R) (h0 : P (began s))
    (hbody : (((bodyOf i).2 s.cfg).run (began s)).Meets P' Q R)
    (hraise : ∀ k u, gateFault (bodyOf i).1 s = some k → P u → Q (raiseFault k u)) (hdone : ∀ u, P' u → Q (completed u))
    (he : exec i s = .next t) : (t.todo = .skip ∧ Q t) ∨ (t.todo ≠ .skip ∧ R t) := by
  refine exec_of_run ?_ he
  unfold dispatched
  cases hg : gateFault (bodyOf i).1 s with
  | some k => exact takeStep_meets H h0 fun u hu => hraise k u hg hu
  | none => exact completed_meets H' hbody hdone

/-! ## The host short of an engine reset -/

/-- What the host's turns keep short of an engine reset (`KeptByHost`). -/
theorem hostKeeps_noReset {I Q R : State → Prop} (K : KeptByHost I fun _ => True) (hheld : ∀ s : State, I { s with todo := .skip } → R s)
    (hplace : ∀ s p, R s → R { s with todo := p }) : HostKeeps (fun s => I s ∧ hostNoReset s = true) Q R where
  turn s h := by
    have hkept := landMoves_kept K s.inbox h.1
    have hmoves := landMoves_noReset h.2 s
    unfold hostTurn
    cases e : landMoves s.inbox s with
    | going u => rw [e] at hkept hmoves; exact ⟨hkept, hmoves⟩
    | ended u => rw [e] at hmoves; exact hmoves.elim
    | held u => rw [e] at hkept; exact hheld u hkept
  stop s h _ := hheld s (K.held s h.1)
  place := hplace

/-- What one move of the host can have changed while READY is 0, short of an engine reset: the request registers, DROP, the bitmap
memories, what is raced, the host's moves and what it has read, and the position. -/
structure HostOnly (s u : State) : Prop where
  cfg : u.cfg = s.cfg
  shadow : u.shadow = s.shadow
  status : u.status = s.status ∨ u.status = { s.status with drop := true }
  flags : u.flags = s.flags
  t0 : u.t0 = s.t0
  lines : u.lines = s.lines
  log : u.log = s.log
  wire : u.wire = s.wire
  faultRecord : u.faultRecord = s.faultRecord
  timeRuns : u.env.timeRuns = s.env.timeRuns

theorem HostOnly.ready {s u : State} (h : HostOnly s u) : u.status.ready = s.status.ready := by
  obtain e | e := h.status <;> rw [e]

/-- A request is under way, and I holds. -/
def Underway (I : State → Prop) (s : State) : Prop := I s ∧ s.status.ready = false

theorem Underway.hostOnly {I : State → Prop} (hhost : ∀ s u, HostOnly s u → I s → I u) {s u : State} (h : Underway I s) (hu : HostOnly s u) :
    Underway I u := ⟨hhost s u hu h.1, hu.ready.trans h.2⟩

/-- What depends on nothing that a move of the host can change. -/
theorem underway_keptByHost {I : State → Prop} (hhost : ∀ s u, HostOnly s u → I s → I u) : KeptByHost (Underway I) fun _ => True where
  inbox _ _ h := h.hostOnly hhost ⟨rfl, rfl, .inl rfl, rfl, rfl, rfl, rfl, rfl, rfl, rfl⟩
  held _ h := h.hostOnly hhost ⟨rfl, rfl, .inl rfl, rfl, rfl, rfl, rfl, rfl, rfl, rfl⟩
  replies _ _ h := h.hostOnly hhost ⟨rfl, rfl, .inl rfl, rfl, rfl, rfl, rfl, rfl, rfl, rfl⟩
  poke space a b s h := by
    refine h.hostOnly hhost ?_
    unfold hostPoke
    rw [h.2]
    constructor <;> simp
  write offset v s _ h := by
    refine h.hostOnly hhost ?_
    obtain ⟨d, e⟩ | e | e := regWrite_of_notReady h.2 offset v
    · rw [e]
      exact ⟨rfl, rfl, .inl rfl, rfl, rfl, rfl, rfl, rfl, rfl, rfl⟩
    · rw [e]
      exact ⟨rfl, rfl, .inr rfl, rfl, rfl, rfl, rfl, rfl, rfl, rfl⟩
    · rw [e]
      exact ⟨rfl, rfl, .inl rfl, rfl, rfl, rfl, rfl, rfl, rfl, rfl⟩
  reset _ _ := trivial

/-- No effect of the engine's steps sets READY or touches the host's moves before the request ends. -/
theorem KeptByEffects.and {A : Act → Prop} {I J Q : State → Prop} (K : KeptByEffects A I Q)
    (hJ : ∀ s t : State, t.inbox = s.inbox → t.status.ready = s.status.ready → J s → J t) : KeptByEffects A (fun s => I s ∧ J s) Q where
  sent b s hA hh hb h := ⟨K.sent b s hA hh hb h.1, hJ s _ rfl rfl h.2⟩
  busFault b s hA hh hb h := K.busFault b s hA hh hb h.1
  sleepFault s hA hh h := K.sleepFault s hA hh h.1
  source s hA hs h := ⟨K.source s hA hs h.1, hJ s _ rfl rfl h.2⟩
  sourceFault s hA hs h := K.sourceFault s hA hs h.1
  flag n v s hA h := ⟨K.flag n v s hA h.1, hJ s _ rfl rfl h.2⟩
  initBegin s hA h := ⟨K.initBegin s hA h.1, hJ s _ rfl rfl h.2⟩
  lastWait s hA h := ⟨K.lastWait s hA h.1, hJ s _ rfl rfl h.2⟩
  lines s hA h := ⟨K.lines s hA h.1, hJ s _ rfl rfl h.2⟩
  bus s hA h := ⟨K.bus s hA h.1, hJ s _ rfl rfl h.2⟩
  rstLow s hA h := ⟨K.rstLow s hA h.1, hJ s _ rfl rfl h.2⟩
  pulse style ms s hA h := ⟨K.pulse style ms s hA h.1, hJ s _ rfl rfl h.2⟩
  delayBegin s hA h := ⟨K.delayBegin s hA h.1, hJ s _ rfl rfl h.2⟩
  delayEnd ms s hA h := ⟨K.delayEnd ms s hA h.1, hJ s _ rfl rfl h.2⟩
  waitBegin s hA h := ⟨K.waitBegin s hA h.1, hJ s _ rfl rfl h.2⟩
  busy s hA h := ⟨K.busy s hA h.1, hJ s _ rfl rfl h.2⟩
  clock us s hA h := ⟨K.clock us s hA h.1, hJ s _ rfl rfl h.2⟩
  waitEnd label o s hA h := ⟨K.waitEnd label o s hA h.1, hJ s _ (by cases o <;> rfl) (by cases o <;> rfl) h.2⟩
  raised k s hA h := K.raised k s hA h.1
  done s hA h := K.done s hA h.1

/-- A request is under way, I holds, and the host does not assert the engine's reset. -/
def Unreset (I : State → Prop) (s : State) : Prop := Underway I s ∧ hostNoReset s = true

/-- What a request keeps short of an engine reset, where Q and R hold of the states in which it has ended and is held. -/
structure KeptUnreset (A : Act → Prop) (I Q R : State → Prop) : Prop extends KeptByEffects A I Q where
  host : ∀ s u, HostOnly s u → I s → I u
  held : ∀ s, I s → s.status.ready = false → R s
  place : ∀ s p, R s → R { s with todo := p }

section Unreset
variable {A : Act → Prop} {I Q R : State → Prop}

theorem KeptUnreset.hostKeeps (K : KeptUnreset A I Q R) : HostKeeps (Unreset I) Q R :=
  hostKeeps_noReset (underway_keptByHost K.host) (fun s h => K.place { s with todo := .skip } s.todo (K.held _ h.1 h.2)) K.place

theorem KeptUnreset.effects (K : KeptUnreset A I Q R) : KeptByEffects A (Unreset I) Q :=
  (K.toKeptByEffects.and fun _ _ _ hr h => hr.trans h).and fun s t hi _ h => by
    unfold hostNoReset at h ⊢
    rw [hi]
    exact h

theorem KeptUnreset.run (K : KeptUnreset A I Q R) {p : Prog} (hp : p.All A) {s : State} (h : Unreset I s) : (p.run s).Meets (Unreset I) Q R :=
  run_meets K.hostKeeps K.effects hp h

/-- A request all of whose steps are among A, short of an engine reset. -/
theorem KeptUnreset.exec (K : KeptUnreset A I Q R) {i : Instr} {s t : State} (hp : ((bodyOf i).2 s.cfg).All A) (h0 : I (began s))
    (hn : hostNoReset s = true) (hraise : ∀ k u, gateFault (bodyOf i).1 s = some k → I u → Q (raiseFault k u))
    (hdone : ∀ u, I u → Q (completed u)) (he : exec i s = .next t) : (t.todo = .skip ∧ Q t) ∨ (t.todo ≠ .skip ∧ R t) :=
  have h : Unreset I (began s) := ⟨⟨h0, rfl⟩, hn⟩
  exec_meets K.hostKeeps K.hostKeeps h (K.run hp h) (fun k u hg hu => hraise k u hg hu.1.1) (fun u hu => hdone u hu.1.1) he

end Unreset

end Sys2Proof.Machine

/-!
Which steps a request takes, and what follows of every run short of an engine reset: the bus log, the flags, hibernation and the fault
record.
-/
namespace Sys2Proof.Machine

/-! ## The steps a request takes (R105) -/

/-- The flag writes of a request (R21 to R26). -/
def mayWrite (i : Instr) (c : Cfg) : FlagName → Bool → Prop
  | .powerOn, true => i = .powerOn ∨ writesPixels i = true ∨ refreshes i = true
  | .powerOn, false => i = .powerOff ∨ i = .hibernate ∨ isInit i = true
  | .usingPartialMode, true => writesPixels i = true ∨ refreshes i = true
  | .usingPartialMode, false => i = .powerOff ∨ i = .hibernate ∨ isInit i = true ∨ refreshes i = true
  | .initialWrite, true => isInit i = true
  | .initialWrite, false => writesPixels i = true
  | .initialRefresh, true => isInit i = true
  | .initialRefresh, false => refreshes i = true
  | .hibernating, true => i = .hibernate ∧ c.hasRst = true
  | .hibernating, false => isInit i = true
  | .initDone, true => isInit i = true
  | .initDone, false => False

/-- The steps of a request's routine. -/
def mayTake (i : Instr) (c : Cfg) : Act → Prop
  | .send _ => isInit i = false ∧ i ≠ .waitBusy
  | .stream _ _ _ => readsBitmap i = true
  | .setFlag n v => mayWrite i c n v
  | .initBegin => isInit i = true
  | .clearLastWait => isInit i = false
  | .lineSetup => isInit i = true
  | .busSetup => isInit i = true
  | .resetLow => isInit i = true
  | .resetPulse _ _ => isInit i = true
  | .delayBegin => True
  | .delayEnd _ => True
  | .waitBegin => isInit i = false
  | .sample _ _ => isInit i = false
  | .interval _ _ => isInit i = false
  | .raise _ => False
  | .complete => False

theorem hasSteps_mayTake {i : Instr} (c : Cfg) (hi : isInit i = false) (hw : i ≠ .waitBusy) : HasSteps (mayTake i c) i c where
  send _ := ⟨hi, hw⟩
  delayBegin := trivial
  delayEnd _ := trivial
  waitBegin := hi
  sample _ _ := hi
  lastWait := hi
  stream h _ _ _ := h
  on h := h
  off h := h.imp_right .inl
  mode h := h
  full h := h.imp_right (Or.imp_right .inr)
  cleared h := h
  refreshed h := h
  sleep h hr := ⟨h, hr⟩

theorem hasInit_mayTake {i : Instr} (c : Cfg) (hi : isInit i = true) : HasInit (mayTake i c) c where
  first := hi
  lines := hi
  rstLow _ := hi
  pulse _ _ _ := hi
  delayBegin _ := trivial
  delayEnd _ _ := trivial
  off := .inr (.inr hi)
  full := .inr (.inr (.inl hi))
  write := hi
  refresh := hi
  wake := hi
  done := hi
  bus := hi

/-- WAIT_BUSY waits and sends nothing (R111). -/
theorem waitBusyBody_mayTake (c : Cfg) : (waitBusyBody c).All (mayTake .waitBusy c) := by
  unfold waitBusyBody waitWhileBusy
  split
  · exact ⟨rfl, rfl, trivial⟩
  · exact ⟨delay_all trivial (fun _ => trivial) _, rfl, trivial⟩

theorem bodyOf_mayTake (i : Instr) (c : Cfg) : ((bodyOf i).2 c).All (mayTake i c) := by
  by_cases hw : i = .waitBusy
  · subst hw
    exact waitBusyBody_mayTake c
  · cases hi : isInit i with
    | false => exact bodyOf_all (hasSteps_mayTake c hi hw) hi
    | true =>
      cases i with
      | init style => exact initBody_all (hasInit_mayTake c hi) style
      | _ => cases hi

/-- Requests that read bitmap bytes are not INIT, and not WAIT_BUSY. -/
theorem not_init_of_readsBitmap {i : Instr} (h : readsBitmap i = true) : isInit i = false ∧ i ≠ .waitBusy := by
  cases i with
  | init style => cases h
  | waitBusy => cases h
  | _ => exact ⟨rfl, by rintro ⟨⟩⟩

/-- INIT sends no byte, and neither does WAIT_BUSY (R107, R111). -/
theorem not_init_of_transfers {i : Instr} {c : Cfg} (h : Transfers (mayTake i c)) : isInit i = false ∧ i ≠ .waitBusy := by
  obtain ⟨b, h⟩ | ⟨space, inv, a, h⟩ := h
  · exact h
  · exact not_init_of_readsBitmap h

/-! ## The bus log (R50) -/

/-- Events have been appended to a log. -/
def Appended (log : List Event) (u : State) : Prop := ∃ evs, u.log = log ++ evs

theorem Appended.append {log evs : List Event} {s u : State} (h : Appended log s) (hu : u.log = s.log ++ evs) : Appended log u := by
  obtain ⟨more, h⟩ := h
  exact ⟨more ++ evs, by rw [hu, h, List.append_assoc]⟩

theorem Appended.same {log : List Event} {s u : State} (h : Appended log s) (hu : u.log = s.log) : Appended log u := by
  rwa [Appended, hu]

theorem appended_keptByHost (log : List Event) : KeptByHost (Appended log) fun _ => True where
  inbox _ _ h := h
  held _ h := h
  replies _ _ h := h
  poke space a b s h := h.same (hostPoke_log space a b s)
  write offset v s _ h := h.same (regWrite_log offset v s)
  reset _ _ := trivial

theorem appended_keptByEffects (A : Act → Prop) (log : List Event) : KeptByEffects A (Appended log) (Appended log) where
  sent _ _ _ _ _ h := h.append rfl
  lines _ _ h := h.append rfl
  bus _ _ h := h.append rfl
  pulse _ _ _ _ h := h.append rfl
  delayEnd _ _ _ h := h.append rfl
  waitEnd label o s _ h := h.append (endWait_log label o s)

/-- Short of an engine reset, steps only append to the log. -/
theorem run_appended (p : Prog) {s : State} (hn : hostNoReset s = true) : (p.run s).Meets (Appended s.log) (Appended s.log) (Appended s.log) := by
  have hhost : HostKeeps (fun u => Appended s.log u ∧ hostNoReset u = true) (Appended s.log) (Appended s.log) :=
    hostKeeps_noReset (appended_keptByHost s.log) (fun _ h => h) fun _ _ h => h
  have heffects := (appended_keptByEffects (fun _ => True) s.log).and (J := fun u => hostNoReset u = true) fun s t hi _ h => by
    unfold hostNoReset at h ⊢
    rw [hi]
    exact h
  have h := run_meets hhost heffects p.all_true (s := s) ⟨⟨[], (List.append_nil _).symm⟩, hn⟩
  cases e : p.run s with
  | going u => rw [e] at h; exact h.1
  | ended u => rw [e] at h; exact h
  | held u => rw [e] at h; exact h

theorem reach_appended (p : Prog) {s : State} (hn : hostNoReset s = true) : Appended s.log (p.reach s) := by
  have h := run_appended p (s := { s with todo := .skip }) hn
  unfold Prog.reach
  cases e : p.run { s with todo := .skip } with
  | going u => rw [e] at h; exact h
  | ended u => rw [e] at h; exact h
  | held u => rw [e] at h; exact h

/-- The next state of a request is where its steps reach. -/
theorem exec_reach {i : Instr} {s t : State} (h : exec i s = .next t) :
    t = (dispatched (bodyOf i).1 (bodyOf i).2 s).reach (beginRequest s) := by
  rw [exec_eq_request, request] at h
  split at h
  · exact (Host.Outcome.next.inj h).symm
  · cases h

/-- A move of the host between two requests, short of an engine reset, leaves the log. -/
theorem moved_log {m : HostMove} {rest : List HostMove} {s t : State} (hm : m ≠ .engineReset) (h : Moved m rest s t) : t.log = s.log := by
  cases m with
  | pass => obtain rfl := h; rfl
  | hold => obtain rfl := h; rfl
  | awaitReady =>
    obtain rfl := h
    split <;> rfl
  | engineReset => exact absurd rfl hm
  | poke space a b => obtain rfl := h; exact hostPoke_log space a b _
  | write offset width v => obtain ⟨-, -, rfl⟩ := h; exact regWrite_log offset v _
  | read offset width => obtain ⟨-, rfl⟩ := h; rfl

/-! ## One step of the engine (R6) -/

/-- The log holds what it held, or one event more. -/
def OneMore (log : List Event) (u : State) : Prop := u.log = log ∨ ∃ e, u.log = log ++ [e]

section OneStep
variable {rest : List HostMove} {s : State}

/-- Where the host holds the machine before the next step of the engine, no step is taken. -/
theorem run_of_hold (p : Prog) (hi : s.inbox = .hold :: rest) : (p.run s).state.log = s.log := by
  have hturn : hostTurn s = .held { s with inbox := rest } := by rw [hostTurn, hi]; rfl
  cases hf : p.first s.flags with
  | none => rw [run_of_first_none hf]; rfl
  | some a =>
    obtain ⟨todo, hrun, -⟩ := run_of_first_held hf hturn
    rw [hrun]
    rfl

/-- What one step of the engine leads to where the host lets it take one: at most one event, and the host holds the machine next. -/
def Progress.OneStep (log : List Event) (rest : List HostMove) (p : Progress) : Prop :=
  OneMore log p.state ∧ ∀ u, p = .going u → u.inbox = .hold :: rest

theorem oneStep_going {log : List Event} {u : State} (h : OneMore log u) (hi : u.inbox = .hold :: rest) :
    (Progress.going u).OneStep log rest := ⟨h, fun v hv => by cases hv; exact hi⟩

theorem oneStep_ended {log : List Event} {u : State} (h : OneMore log u) : (Progress.ended u).OneStep log rest :=
  ⟨h, fun _ hv => by cases hv⟩

/-- A further step of the engine is held. -/
theorem takeStep_of_hold {log : List Event} {a : Act} {now : State → Progress} {u : State} (h : OneMore log u)
    (hi : u.inbox = .hold :: rest) : (takeStep a now u).OneStep log rest := by
  have hturn : hostTurn u = .held { u with inbox := rest } := by rw [hostTurn, hi]; rfl
  rw [takeStep, hturn]
  exact ⟨h, fun _ hv => by cases hv⟩

theorem pollLoop_of_hold {log : List Event} {label : WaitLabel} {n : Nat} {u : State} (h : OneMore log u)
    (hi : u.inbox = .hold :: rest) : (pollLoop label n u).OneStep log rest := by
  cases n with
  | zero => exact takeStep_of_hold h hi
  | succ n => exact takeStep_of_hold h hi

theorem waitMs_oneStep {log : List Event} {ms : Nat} {a : Act} {now : State → Progress} {u : State} (h : OneMore log u)
    (hn : (now u).OneStep log rest) : (waitMs ms a now u).OneStep log rest := by
  unfold waitMs
  split
  · exact hn
  · exact ⟨h, fun _ hv => by cases hv⟩

theorem endWait_oneStep (label : WaitLabel) (o : WaitOutcome) {u : State} (hi : u.inbox = .hold :: rest) :
    (Progress.going (endWait label o u)).OneStep u.log rest :=
  oneStep_going (.inr ⟨_, endWait_log label o u⟩) (by cases o <;> exact hi)

theorem pollInterval_oneStep {label : WaitLabel} {n m : Nat} {u : State} (hi : u.inbox = .hold :: rest) :
    (waitMs 1 (.interval label n) (fun s =>
      let s := advanceClock (pollMicros s.cfg.busyTimeoutUs) s
      if pollExpired s then .going (endWait label .timeout s) else pollLoop label m s) u).OneStep u.log rest := by
  refine waitMs_oneStep (.inl rfl) ?_
  dsimp only
  split
  · exact endWait_oneStep (u := advanceClock (pollMicros u.cfg.busyTimeoutUs) u) label .timeout hi
  · exact pollLoop_of_hold (.inl rfl) hi

theorem runAct_oneStep (a : Act) (hi : s.inbox = .pass :: .hold :: rest) : (runAct a s).OneStep s.log rest := by
  have hturn : hostTurn s = .going { s with inbox := .hold :: rest } := by rw [hostTurn, hi]; rfl
  have htake (a : Act) (now : State → Progress) : takeStep a now s = now { s with inbox := .hold :: rest } := by rw [takeStep, hturn]
  cases a with
  | send b =>
    rw [runAct, transfer, htake, transferNow]
    dsimp only
    split
    · exact oneStep_ended (.inl rfl)
    · split
      · exact oneStep_ended (.inl rfl)
      · exact oneStep_going (.inr ⟨_, rfl⟩) rfl
  | stream space inv a =>
    rw [runAct, htake, streamNow]
    dsimp only
    split
    · exact oneStep_ended (.inl rfl)
    · exact takeStep_of_hold (.inl rfl) rfl
  | resetPulse style ms =>
    rw [runAct, htake]
    exact waitMs_oneStep (.inl rfl) (oneStep_going (.inr ⟨_, rfl⟩) rfl)
  | delayEnd ms =>
    rw [runAct, htake]
    exact waitMs_oneStep (.inl rfl) (oneStep_going (.inr ⟨_, rfl⟩) rfl)
  | sample label n =>
    cases n with
    | zero =>
      rw [runAct, pollLoop, htake]
      exact endWait_oneStep (u := { s with inbox := .hold :: rest }) label .timeout rfl
    | succ n =>
      rw [runAct, pollLoop, htake]
      dsimp only
      split
      · exact endWait_oneStep (u := (readBusy { s with inbox := .hold :: rest }).2) label .released rfl
      · exact takeStep_of_hold (.inl rfl) rfl
  | interval label n =>
    rw [runAct, pollInterval, htake]
    exact pollInterval_oneStep (u := { s with inbox := .hold :: rest }) rfl
  | raise k => rw [runAct, htake]; exact oneStep_ended (.inl rfl)
  | complete => rw [runAct, htake]; exact oneStep_ended (.inl rfl)
  | setFlag n v => rw [runAct, htake]; exact oneStep_going (.inl rfl) rfl
  | initBegin => rw [runAct, htake]; exact oneStep_going (.inl rfl) rfl
  | clearLastWait => rw [runAct, htake]; exact oneStep_going (.inl rfl) rfl
  | lineSetup => rw [runAct, htake]; exact oneStep_going (.inr ⟨_, rfl⟩) rfl
  | busSetup => rw [runAct, htake]; exact oneStep_going (.inr ⟨_, rfl⟩) rfl
  | resetLow => rw [runAct, htake]; exact oneStep_going (.inl rfl) rfl
  | delayBegin => rw [runAct, htake]; exact oneStep_going (.inl rfl) rfl
  | waitBegin => rw [runAct, htake]; exact oneStep_going (.inl rfl) rfl

/-- A program that the host lets take one step takes its first, and is held before the next. -/
theorem run_oneStep (p : Prog) (hi : s.inbox = .pass :: .hold :: rest) :
    OneMore s.log (p.run s).state ∧ ∀ u, p.run s = .going u → u = s ∨ u.inbox = .hold :: rest := by
  induction p with
  | skip => exact ⟨.inl rfl, fun u hu => by cases hu; exact .inl rfl⟩
  | act a =>
    obtain ⟨hlog, hgoing⟩ := runAct_oneStep a hi
    exact ⟨hlog, fun u hu => .inr (hgoing u hu)⟩
  | seq p q ihp ihq =>
    obtain ⟨hlog, hgoing⟩ := ihp
    rw [run_seq]
    cases e : p.run s with
    | ended u =>
      rw [e] at hlog
      exact ⟨hlog, fun _ hv => by cases hv⟩
    | held u =>
      rw [e] at hlog
      exact ⟨hlog, fun _ hv => by cases hv⟩
    | going u =>
      rw [e] at hlog
      obtain rfl | hu := hgoing u e
      · exact ihq
      · rw [andThen_going]
        refine ⟨?_, fun v hv => .inr ?_⟩
        · have hsame := run_of_hold q hu
          unfold OneMore
          rwa [hsame]
        · cases hf : q.first u.flags with
          | none => rw [run_of_first_none hf] at hv; cases hv; exact hu
          | some a =>
            obtain ⟨todo, hrun, -⟩ := run_of_first_held hf (by rw [hostTurn, hu]; rfl)
            rw [hrun] at hv
            cases hv
  | ifFlag n p q ihp ihq =>
    rw [run_ifFlag]
    split
    · exact ihp
    · exact ihq

end OneStep

/-- Settles O20: every effect of a step appends or leaves the log, and where a hold follows one `pass` a program takes at most
one step. -/
theorem busLogOnlyGrows : Obligations.BusLogOnlyGrows := by
  unfold Obligations.BusLogOnlyGrows
  refine ⟨fun s t hn h => ?_, fun s t rest ht hi h => ?_⟩
  · have hstarted (rest : List HostMove) (hr : ∃ m, s.inbox = m :: rest) : hostNoReset (started rest s) = true := by
      obtain ⟨m, hi⟩ := hr
      unfold hostNoReset at hn
      rw [hi, List.all_cons, Bool.and_eq_true] at hn
      exact hn.2
    obtain ⟨-, ⟨-, -, rfl⟩ | ⟨-, m, rest, hi, hm⟩ | ⟨-, rest, e, -, rfl, width, v, hi, -⟩ | ⟨-, rest, i, -, he, width, v, hi, -⟩ |
      ⟨-, -, rfl⟩⟩ := step_next h
    · exact ⟨[], (List.append_nil _).symm⟩
    · have hm' : m ≠ .engineReset := by
        unfold hostNoReset at hn
        rw [hi, List.all_cons, Bool.and_eq_true, decide_eq_true_eq] at hn
        exact hn.1
      exact ⟨[], by rw [moved_log hm' hm, List.append_nil]⟩
    · exact reach_appended _ (hstarted rest ⟨_, hi⟩)
    · rw [exec_reach he]
      exact reach_appended _ (hstarted rest ⟨_, hi⟩)
    · exact reach_appended _ hn
  · obtain ⟨-, ⟨h0, -⟩ | ⟨h0, -⟩ | ⟨h0, -⟩ | ⟨h0, -⟩ | ⟨-, -, rfl⟩⟩ := step_next h
    · exact absurd h0 ht
    · exact absurd h0 ht
    · exact absurd h0 ht
    · exact absurd h0 ht
    · exact (run_oneStep s.todo (s := { s with todo := .skip }) hi).1

end Sys2Proof.Machine

/-!
What follows of every run of a request short of an engine reset: the flags, hibernation, the host's side and the fault record.
-/
namespace Sys2Proof.Machine

/-! ## The flags (R21 to R26) -/

theorem get_set (f : Flags) (n m : FlagName) (v : Bool) : (f.set n v).get m = if m = n then v else f.get m := by
  cases n <;> cases m <;> rfl

/-- Every flag that is no longer as it was before the request has a value that the request may write. -/
def FlagsByWriter (i : Instr) (s u : State) : Prop := ∀ n, u.flags.get n ≠ s.flags.get n → mayWrite i s.cfg n (u.flags.get n)

theorem flagsByWriter_setFlag {i : Instr} {s u : State} {n : FlagName} {v : Bool} (hA : mayWrite i s.cfg n v) (h : FlagsByWriter i s u) :
    FlagsByWriter i s (setFlag n v u) := by
  intro m hm
  have e : (setFlag n v u).flags.get m = if m = n then v else u.flags.get m := get_set _ _ _ _
  rw [e] at hm ⊢
  split at hm
  · next hmn => rw [if_pos hmn, hmn]; exact hA
  · next hmn => rw [if_neg hmn]; exact h m hm

theorem flagsByWriter_kept (i : Instr) (s : State) :
    KeptUnreset (mayTake i s.cfg) (FlagsByWriter i s) (FlagsByWriter i s) (FlagsByWriter i s) where
  flag n v u hA h := flagsByWriter_setFlag hA h
  initBegin u hA h := flagsByWriter_setFlag (u := clearSticky u) hA h
  host u v huv h n hn := by
    rw [huv.flags] at hn ⊢
    exact h n hn
  held _ h _ := h
  place _ _ h := h

theorem exec_flagsByWriter {i : Instr} {s t : State} (hn : hostNoReset s = true) (h : exec i s = .next t) : FlagsByWriter i s t := by
  obtain ⟨-, h⟩ | ⟨-, h⟩ := (flagsByWriter_kept i s).exec (bodyOf_mayTake i s.cfg) (fun _ hn => absurd rfl hn) hn (fun _ _ _ hu => hu)
    (fun _ hu => hu) h
  · exact h
  · exact h

/-- A flag that has changed was written with its new value. -/
theorem FlagsByWriter.changed {i : Instr} {s t : State} (h : FlagsByWriter i s t) (n : FlagName) {v : Bool} (hs : s.flags.get n = !v)
    (ht : t.flags.get n = v) : mayWrite i s.cfg n v := by
  have hw := h n (by rw [hs, ht]; cases v <;> exact Bool.noConfusion)
  rwa [ht] at hw

/-- INIT's steps after the first (R107). -/
def initTail (style : ResetStyle) (c : Cfg) : Prog := steps [.act .lineSetup, resetPulse style c, initFlags, .act .busSetup]

theorem initBody_eq (style : ResetStyle) (c : Cfg) : initBody style c = .seq (.act .initBegin) (initTail style c) := rfl

theorem initTail_mayTake (style : ResetStyle) (c : Cfg) : (initTail style c).All (mayTake (.init style) c) :=
  (initBody_all (hasInit_mayTake c rfl) style).2

/-- Past its first step INIT keeps initDone 1 (R26). -/
theorem initDone_kept (style : ResetStyle) (c : Cfg) :
    KeptUnreset (mayTake (.init style) c) (fun u => u.flags.initDone = true) (fun u => u.flags.initDone = true)
      (fun u => u.flags.initDone = true) where
  flag n v u hA h := by
    cases n with
    | initDone =>
      cases v with
      | true => rfl
      | false => exact hA.elim
    | _ => exact h
  initBegin _ _ _ := rfl
  host u v huv h := by rwa [huv.flags]
  held _ h _ := h
  place _ _ h := h

/-- Short of an engine reset, the host's turn at a request's start lets it take its first step, or holds it there; no flag has changed. -/
theorem hostTurn_began {s : State} (hn : hostNoReset s = true) :
    (∃ u, hostTurn (began s) = .going u ∧ Unreset (fun u => u.flags = s.flags) u) ∨ ∃ u, hostTurn (began s) = .held u ∧ u.flags = s.flags := by
  have H : HostKeeps (Unreset fun u => u.flags = s.flags) (fun _ => False) fun u => u.flags = s.flags :=
    hostKeeps_noReset (underway_keptByHost fun u v huv hu => huv.flags.trans hu) (fun _ hu => hu.1) fun _ _ hu => hu
  have ht := H.turn (began s) ⟨⟨rfl, rfl⟩, hn⟩
  cases e : hostTurn (began s) with
  | going u => rw [e] at ht; exact .inl ⟨u, rfl, ht⟩
  | ended u => rw [e] at ht; exact ht.elim
  | held u => rw [e] at ht; exact .inr ⟨u, rfl, ht⟩

/-- INIT has set initDone, or the host holds it before its first step (R26). -/
theorem init_initDone {style : ResetStyle} {s t : State} (hn : hostNoReset s = true) (h : exec (.init style) s = .next t) :
    t.flags.initDone = true ∨ t.todo.first t.flags = some .initBegin := by
  obtain ⟨u, hturn, hu⟩ | ⟨u, hturn, hflags⟩ := hostTurn_began hn
  · have K := initDone_kept style s.cfg
    have hbody : ((initBody style s.cfg).run (began s)).Meets (Unreset fun u => u.flags.initDone = true) (fun u => u.flags.initDone = true)
        fun u => u.flags.initDone = true := by
      rw [initBody_eq, run_seq, run_act, runAct, takeStep, hturn, andThen_going]
      exact K.run (initTail_mayTake style s.cfg) ⟨⟨rfl, hu.1.2⟩, hu.2⟩
    obtain ⟨-, ht⟩ | ⟨-, ht⟩ := exec_of_run (completed_meets K.hostKeeps hbody fun _ hu => hu.1.1) h
    · exact .inl ht
    · exact .inl ht
  · obtain ⟨todo, hrun, hfirst⟩ := run_of_first_held (p := dispatched gateInit (initBody style) s) (s := began s) rfl hturn
    have ht : t = { u with todo := todo } := (exec_reach h).trans (congrArg Progress.state hrun)
    right
    rw [ht, hflags]
    exact hfirst

/-- Settles O21: a flag that changed was written by a step of the request, and `mayWrite` lists those writes; INIT's first step
is its own case. -/
theorem flagWriters : Obligations.FlagWriters := by
  unfold Obligations.FlagWriters
  intro i s t hn h
  have hw := exec_flagsByWriter hn h
  refine ⟨hw.changed .powerOn (v := true), hw.changed .powerOn (v := false), hw.changed .usingPartialMode (v := true),
    hw.changed .usingPartialMode (v := false), hw.changed .initialWrite (v := false), hw.changed .initialWrite (v := true),
    hw.changed .initialRefresh (v := false), hw.changed .initialRefresh (v := true), hw.changed .hibernating (v := true),
    hw.changed .hibernating (v := false), hw.changed .initDone (v := true), fun hs => ?_, fun hi => ?_⟩
  · cases ht : t.flags.initDone with
    | true => rfl
    | false => exact (hw.changed .initDone (v := false) hs ht).elim
  · cases i with
    | init style => exact init_initDone hn h
    | _ => cases hi

/-! ## Hibernation (R113, R172) -/

/-- No byte has been sent, no line moved, and the controller still hibernates. -/
def Asleep (s u : State) : Prop :=
  busBytes u.log = busBytes s.log ∧ u.wire = s.wire ∧ u.lines = s.lines ∧ u.flags.hibernating = true

theorem Asleep.emit {s u : State} {e : Event} (he : isByteEvent e = false) (h : Asleep s u) : Asleep s (emit e u) := by
  obtain ⟨hbytes, hwire, hlines, hh⟩ := h
  refine ⟨?_, hwire, hlines, hh⟩
  rw [← hbytes]
  simp [busBytes, he]

theorem Asleep.again {s u : State} (h : Asleep s u) : Asleep s (setFlag .hibernating true u) := by
  obtain ⟨hbytes, hwire, hlines, -⟩ := h
  exact ⟨hbytes, hwire, hlines, rfl⟩

/-- While the controller hibernates every transfer is refused, and only INIT ends the hibernation. -/
theorem asleep_kept {i : Instr} (hi : isInit i = false) (s : State) :
    KeptUnreset (mayTake i s.cfg) (Asleep s) (Asleep s) (Asleep s) where
  sent b u _ hh _ h := by
    obtain ⟨-, -, -, hsleep⟩ := h
    exact absurd hsleep (by simp [hh])
  busFault b u _ hh _ h := by
    obtain ⟨-, -, -, hsleep⟩ := h
    exact absurd hsleep (by simp [hh])
  flag n v u hA h := by
    cases n with
    | hibernating =>
      cases v with
      | true => exact h.again
      | false => exact absurd hA (by simp [mayTake, mayWrite, hi])
    | _ => exact h
  lines u hA _ := absurd hA (by simp [mayTake, hi])
  bus u hA _ := absurd hA (by simp [mayTake, hi])
  rstLow u hA _ := absurd hA (by simp [mayTake, hi])
  pulse style ms u hA _ := absurd hA (by simp [mayTake, hi])
  delayEnd ms u _ h := h.emit rfl
  waitEnd label o u _ h := by
    have hb : Asleep s (emit (.busy label o) u) := h.emit rfl
    cases o <;> exact hb
  host u v huv h := by
    obtain ⟨hbytes, hwire, hlines, hh⟩ := h
    exact ⟨by rw [huv.log, hbytes], huv.wire.trans hwire, huv.lines.trans hlines, by rw [huv.flags, hh]⟩
  held _ h _ := h
  place _ _ h := h

/-- Settles O25: while the controller hibernates a transfer is refused before it moves a line, and only INIT clears the flag. -/
theorem noTransferWhileHibernating : Obligations.NoTransferWhileHibernating := by
  unfold Obligations.NoTransferWhileHibernating
  intro i s t hi hh hn h
  obtain ⟨-, h⟩ | ⟨-, h⟩ := (asleep_kept hi s).exec (bodyOf_mayTake i s.cfg) ⟨rfl, rfl, rfl, hh⟩ hn (fun _ _ _ hu => hu) (fun _ hu => hu) h
  · exact h
  · exact h

/-! ## The host's side (R35, R46, R166) -/

theorem hostKeeps_silent {I : State → Prop} (hplace : ∀ s p, I s → I { s with todo := p }) :
    HostKeeps (fun s => I s ∧ hostSilent s = true) I I where
  turn s h := by rw [hostTurn_silent h.2]; exact h
  stop _ h _ := h.1
  place := hplace

theorem hostSideKept_effects (s : State) : KeptByEffects (fun _ => True) (hostSideKept s) (hostSideKept s) where

/-- Settles O26: with a silent host no effect of the engine touches the host's side. -/
theorem hostSideFrame : Obligations.HostSideFrame := by
  unfold Obligations.HostSideFrame
  intro i s t hs h
  have H : HostKeeps (fun u => hostSideKept s u ∧ hostSilent u = true) (hostSideKept s) (hostSideKept s) := hostKeeps_silent fun _ _ h => h
  have K := (hostSideKept_effects s).and (J := fun u => hostSilent u = true) fun u v hi _ hu => by rwa [hostSilent_congr hi]
  have h0 : hostSideKept s (began s) ∧ hostSilent (began s) = true := ⟨⟨rfl, rfl, rfl, rfl, rfl, fun _ _ => rfl⟩, hs⟩
  obtain ⟨-, h⟩ | ⟨-, h⟩ := exec_meets H H h0 (run_meets H K (Prog.all_true _) h0) (fun _ _ _ hu => hu.1) (fun _ hu => hu.1) h
  · exact h
  · exact h

/-! ## The fault record (R168) -/

/-- No fault has been recorded since s, and the fault fields of STATUS are as given. -/
def Recorded (s : State) (fault : Bool) (code : BitVec 4) (op : Byte) (u : State) : Prop :=
  u.faultRecord = s.faultRecord ∧ u.shadow = s.shadow ∧ u.status.fault = fault ∧ u.status.faultCode = code ∧ u.status.faultOp = op

/-- While a request that began from s runs: INIT's first step has cleared the fault fields (R107, R168). -/
def RecordedIn (i : Instr) (s : State) : State → Prop :=
  Recorded s (!isInit i && s.status.fault) (if isInit i then 0 else s.status.faultCode) (if isInit i then 0 else s.status.faultOp)

/-- A request that began from s has ended, with a fault or without one. -/
def FaultOrNone (i : Instr) (s t : State) : Prop :=
  t.status.ready = true ∧ (RecordedIn i s t ∨
    ∃ k, t.faultRecord = s.faultRecord ++ [{ kind := k, op := s.shadow.op }] ∧ t.status.fault = true ∧ t.status.waiting = false ∧
      t.status.faultCode = faultCodeOf k ∧ t.status.faultOp = s.shadow.op)

/-- A request that began from s is held in flight. -/
def NoneYet (i : Instr) (s t : State) : Prop :=
  t.status.ready = false ∧ t.faultRecord = s.faultRecord ∧ (isInit i = false → t.status.fault = s.status.fault ∧
    t.status.faultCode = s.status.faultCode ∧ t.status.faultOp = s.status.faultOp)

section Record
variable {i : Instr} {s u v : State} {fault : Bool} {code : BitVec 4} {op : Byte}

theorem Recorded.hostOnly (h : Recorded s fault code op u) (huv : HostOnly u v) : Recorded s fault code op v := by
  obtain ⟨hrecord, hshadow, hfields⟩ := h
  refine ⟨huv.faultRecord.trans hrecord, huv.shadow.trans hshadow, ?_⟩
  obtain e | e := huv.status <;> rwa [e]

theorem Recorded.raised (h : Recorded s fault code op u) (k : FaultKind) : FaultOrNone i s (raiseFault k u) := by
  obtain ⟨hrecord, hshadow, -⟩ := h
  refine ⟨rfl, .inr ⟨k, ?_, rfl, rfl, rfl, ?_⟩⟩
  · rw [← hrecord, ← hshadow]
    rfl
  · rw [← hshadow]
    rfl

theorem recordedIn_began (hi : isInit i = false) : RecordedIn i s (began s) := by
  simp [RecordedIn, Recorded, hi, began, beginRequest]

theorem RecordedIn.initBegin (hi : isInit i = true) (h : Recorded s fault code op u) : RecordedIn i s (initBegin u) := by
  obtain ⟨hrecord, hshadow, -⟩ := h
  unfold RecordedIn
  rw [hi]
  exact ⟨hrecord, hshadow, rfl, rfl, rfl⟩

theorem RecordedIn.noneYet (h : RecordedIn i s u) (hr : u.status.ready = false) : NoneYet i s u := by
  refine ⟨hr, h.1, fun hi => ?_⟩
  unfold RecordedIn at h
  rw [hi] at h
  exact h.2.2

theorem recordedIn_kept (i : Instr) (s : State) : KeptUnreset (mayTake i s.cfg) (RecordedIn i s) (FaultOrNone i s) (NoneYet i s) where
  busFault b u _ _ _ h := Recorded.raised (u := (drawBus (driveByte b.1 b.2 u)).2) h _
  sleepFault u _ _ h := Recorded.raised h _
  sourceFault u _ _ h := Recorded.raised (u := (drawSource u).2) h _
  raised k _ _ h := Recorded.raised h k
  initBegin u hA h := RecordedIn.initBegin hA h
  done _ hA _ := hA.elim
  host _ _ huv h := Recorded.hostOnly h huv
  held _ h hr := h.noneYet hr
  place _ _ h := h

/-- Before a request's first step STATUS has its fault fields from s. -/
theorem recorded_hostKeeps (i : Instr) (s : State) :
    HostKeeps (Unreset (Recorded s s.status.fault s.status.faultCode s.status.faultOp)) (FaultOrNone i s) (NoneYet i s) :=
  hostKeeps_noReset (underway_keptByHost fun _ _ huv h => h.hostOnly huv) (fun _ hu => ⟨hu.2, hu.1.1, fun _ => hu.1.2.2⟩) fun _ _ h => h

/-- Where a request's next state stands (R168). -/
theorem exec_faultOrNone {t : State} (hn : hostNoReset s = true) (h : exec i s = .next t) :
    (t.todo = .skip ∧ FaultOrNone i s t) ∨ (t.todo ≠ .skip ∧ NoneYet i s t) := by
  have K := recordedIn_kept i s
  have H := recorded_hostKeeps i s
  have h0 : Unreset (Recorded s s.status.fault s.status.faultCode s.status.faultOp) (began s) := ⟨⟨⟨rfl, rfl, rfl, rfl, rfl⟩, rfl⟩, hn⟩
  have hbody : (((bodyOf i).2 s.cfg).run (began s)).Meets (Unreset (RecordedIn i s)) (FaultOrNone i s) (NoneYet i s) := by
    cases hi : isInit i with
    | false => exact K.run (bodyOf_mayTake i s.cfg) ⟨⟨recordedIn_began hi, rfl⟩, hn⟩
    | true =>
      cases i with
      | init style =>
        have hfirst : ((Prog.act .initBegin).run (began s)).Meets (Unreset (RecordedIn (.init style) s)) _ _ :=
          takeStep_meets H h0 fun u hu => ⟨⟨RecordedIn.initBegin rfl hu.1.1, hu.1.2⟩, hu.2⟩
        exact hfirst.andThen H.place fun u hu => K.run (initTail_mayTake style s.cfg) hu
      | _ => cases hi
  exact exec_meets H K.hostKeeps h0 hbody (fun k _ _ hu => hu.1.1.raised k) (fun _ hu => ⟨rfl, .inl hu.1.1⟩) h

end Record

/-- Settles O28: only a fault appends to the record, and only INIT's first step and a fault write the fault fields of STATUS. -/
theorem faultIsRecorded : Obligations.FaultIsRecorded := by
  unfold Obligations.FaultIsRecorded
  refine ⟨fun i s t hn h => ?_, by decide⟩
  obtain ⟨ht, hr, ⟨hrecord, -, hfields⟩ | ⟨k, hrecord, hfault, hwaiting, hcode, hop⟩⟩ | ⟨ht, hr, hrecord, hfields⟩ := exec_faultOrNone hn h
  · exact .inr (.inl ⟨ht, hr, hrecord, hfields⟩)
  · exact .inr (.inr ⟨k, ht, hrecord, hr, hfault, hwaiting, hcode, hop⟩)
  · exact .inl ⟨ht, hr, hrecord, hfields⟩

/-! ## Which faults (R178) -/

/-- The faults that a request which began from s can raise (R178). -/
def MayRaise (i : Instr) (s : State) : FaultKind → Prop
  | .illegalOpcode => False
  | .reservedBits => False
  | .notInitialized => isInit i = false ∧ s.flags.initDone = false
  | .unsupported => isDual i = true ∧ s.cfg.hasColor = false
  | .hibernatingAccess => s.flags.hibernating = true ∧ (isInit i = false ∧ i ≠ .waitBusy) ∧
      (i = .powerOff → s.flags.powerOn = true) ∧ (i = .hibernate → s.flags.powerOn = true ∨ s.cfg.hasRst = true)
  | .busError => isInit i = false ∧ i ≠ .waitBusy
  | .sourceError => readsBitmap i = true

/-- The faults of Dispatch's checks (R80, R172). -/
theorem mayRaise_of_gateFault {i : Instr} {s : State} {k : FaultKind} (h : gateFault (bodyOf i).1 s = some k) : MayRaise i s k := by
  rw [gateFault, bodyOf_needsInit, bodyOf_needsColor] at h
  split at h
  · next hd =>
    cases h
    simpa [MayRaise] using hd
  · split at h
    · next hd =>
      cases h
      simpa [MayRaise] using hd
    · cases h

/-- POWER_OFF with the controller off takes no step, nor does HIBERNATE without a reset line (R103, R110). -/
theorem first_of_off {i : Instr} {s : State} (hp : s.flags.powerOn = false) (hi : i = .powerOff ∨ (i = .hibernate ∧ s.cfg.hasRst = false)) :
    ((bodyOf i).2 s.cfg).first s.flags = none := by
  obtain rfl | ⟨rfl, hr⟩ := hi
  · show (powerOff s.cfg).first s.flags = none
    simp [powerOff, Prog.first, Flags.get, hp]
  · show (hibernateBody s.cfg).first s.flags = none
    simp [hibernateBody, powerOff, steps, Prog.first, Flags.get, hp, hr]

/-- Only faults that the request can raise have been recorded since s. -/
def OnlyMayRaise (i : Instr) (s t : State) : Prop :=
  ∀ k op, t.faultRecord = s.faultRecord ++ [{ kind := k, op := op }] → MayRaise i s k

/-- No fault has been recorded since s, and the controller hibernates only if it did. -/
def NotAsleepSince (s u : State) : Prop := u.faultRecord = s.faultRecord ∧ (u.flags.hibernating = true → s.flags.hibernating = true)

theorem NotAsleepSince.hostOnly {s u v : State} (h : NotAsleepSince s u) (huv : HostOnly u v) : NotAsleepSince s v :=
  ⟨huv.faultRecord.trans h.1, by rw [huv.flags]; exact h.2⟩

theorem onlyMayRaise_same {i : Instr} {s t : State} (h : t.faultRecord = s.faultRecord) : OnlyMayRaise i s t := by
  intro k op hk
  rw [h] at hk
  exact absurd hk (by simp)

theorem onlyMayRaise_raised {i : Instr} {s u : State} {k : FaultKind} (h : u.faultRecord = s.faultRecord) (hk : MayRaise i s k) :
    OnlyMayRaise i s (raiseFault k u) := by
  intro k' op e
  have e' : u.faultRecord ++ [{ kind := k, op := u.shadow.op }] = s.faultRecord ++ [{ kind := k', op := op }] := e
  rw [h, List.append_cancel_left_eq, List.cons.injEq, FaultEntry.mk.injEq] at e'
  obtain ⟨⟨rfl, -⟩, -⟩ := e'
  exact hk

/-- A request's steps short of HIBERNATE's last, which sets the flag (R110). -/
def mayTakeAwake (i : Instr) (c : Cfg) (a : Act) : Prop := mayTake i c a ∧ a ≠ .setFlag .hibernating true

section MayRaise
variable {i : Instr} {s : State}

theorem mayRaise_kept (hoff : i = .powerOff → s.flags.powerOn = true) (hsleep : i = .hibernate → s.flags.powerOn = true ∨ s.cfg.hasRst = true) :
    KeptUnreset (mayTakeAwake i s.cfg) (NotAsleepSince s) (OnlyMayRaise i s)
      (fun u => u.faultRecord = s.faultRecord) where
  busFault b u hA _ _ h := onlyMayRaise_raised h.1 (not_init_of_transfers (hA.mono fun _ ha => ha.1))
  sleepFault u hA hh h := onlyMayRaise_raised h.1 ⟨h.2 hh, not_init_of_transfers (hA.mono fun _ ha => ha.1), hoff, hsleep⟩
  sourceFault u hA _ h := by
    obtain ⟨space, inv, a, ha, -⟩ := hA
    exact onlyMayRaise_raised h.1 ha
  raised k u hA _ := hA.1.elim
  done u hA _ := hA.1.elim
  flag n v u hA h := by
    obtain ⟨hrecord, hh⟩ := h
    cases n with
    | hibernating =>
      cases v with
      | true => exact absurd rfl hA.2
      | false => exact ⟨hrecord, fun h => Bool.noConfusion h⟩
    | _ => exact ⟨hrecord, hh⟩
  host _ _ huv h := h.hostOnly huv
  held _ h _ := h.1
  place _ _ h := h

/-- Nothing has been recorded, whatever the flags. -/
theorem unrecorded_hostKeeps (i : Instr) (s : State) :
    HostKeeps (Unreset fun u => u.faultRecord = s.faultRecord) (OnlyMayRaise i s) (fun u => u.faultRecord = s.faultRecord) :=
  hostKeeps_noReset (underway_keptByHost fun _ _ huv h => huv.faultRecord.trans h) (fun _ hu => hu.1) fun _ _ h => h

theorem NotAsleepSince.unrecorded {u : State} (h : Unreset (NotAsleepSince s) u) : Unreset (fun u => u.faultRecord = s.faultRecord) u :=
  ⟨⟨h.1.1.1, h.1.2⟩, h.2⟩

/-- HIBERNATE sets its flag after its last byte (R110). -/
theorem hibernateBody_onlyMayRaise (hsleep : s.flags.powerOn = true ∨ s.cfg.hasRst = true) {u : State} (h : Unreset (NotAsleepSince s) u) :
    ((hibernateBody s.cfg).run u).Meets (Unreset fun u => u.faultRecord = s.faultRecord) (OnlyMayRaise .hibernate s)
      (fun u => u.faultRecord = s.faultRecord) := by
  have K := mayRaise_kept (i := .hibernate) (s := s) (by rintro ⟨⟩) fun _ => hsleep
  have hbasics : HasBasics (mayTakeAwake .hibernate s.cfg) :=
    ⟨fun _ => ⟨⟨rfl, by rintro ⟨⟩⟩, by rintro ⟨⟩⟩, ⟨trivial, by rintro ⟨⟩⟩, fun _ => ⟨trivial, by rintro ⟨⟩⟩, ⟨rfl, by rintro ⟨⟩⟩,
      fun _ _ => ⟨rfl, by rintro ⟨⟩⟩, ⟨rfl, by rintro ⟨⟩⟩⟩
  have hoff := powerOff_all hbasics ⟨.inr (.inl rfl), by rintro ⟨⟩⟩ ⟨.inr (.inl rfl), by rintro ⟨⟩⟩ s.cfg
  refine (K.run hoff h).andThen K.place fun v hv => ?_
  split
  · have hsend := sendBytes_all hbasics.send (seqBytes s.cfg.pd.seqDeepSleep)
    refine Progress.Meets.andThen (P := Unreset fun u => u.faultRecord = s.faultRecord) ?_ K.place fun w hw => hw
    refine (K.run hsend hv).andThen K.place fun w hw => ?_
    refine Progress.Meets.andThen (P := Unreset fun u => u.faultRecord = s.faultRecord) ?_ K.place fun w hw => hw
    exact takeStep_meets K.hostKeeps hw fun _ hx => ⟨⟨hx.1.1.1, hx.1.2⟩, hx.2⟩
  · exact NotAsleepSince.unrecorded hv

theorem exec_onlyMayRaise {t : State} (hn : hostNoReset s = true) (h : exec i s = .next t) : OnlyMayRaise i s t := by
  have h0 : Unreset (NotAsleepSince s) (began s) := ⟨⟨⟨rfl, id⟩, rfl⟩, hn⟩
  have H0 : HostKeeps (Unreset (NotAsleepSince s)) (OnlyMayRaise i s) (fun u => u.faultRecord = s.faultRecord) :=
    hostKeeps_noReset (underway_keptByHost fun _ _ huv h => h.hostOnly huv)
      (fun _ hu => hu.1.1) fun _ _ h => h
  have hbody : (((bodyOf i).2 s.cfg).run (began s)).Meets (Unreset fun u => u.faultRecord = s.faultRecord) (OnlyMayRaise i s)
      (fun u => u.faultRecord = s.faultRecord) := by
    by_cases hoff : s.flags.powerOn = false ∧ (i = .powerOff ∨ (i = .hibernate ∧ s.cfg.hasRst = false))
    · have hrun : ((bodyOf i).2 s.cfg).run (began s) = .going (began s) := run_of_first_none (first_of_off hoff.1 hoff.2)
      rw [hrun]
      exact NotAsleepSince.unrecorded h0
    · have hoff' : i = .powerOff → s.flags.powerOn = true := fun e => by
        cases hp : s.flags.powerOn with
        | true => rfl
        | false => exact absurd ⟨hp, .inl e⟩ hoff
      have hsleep : i = .hibernate → s.flags.powerOn = true ∨ s.cfg.hasRst = true := fun e => by
        cases hp : s.flags.powerOn with
        | true => exact .inl rfl
        | false =>
          cases hr : s.cfg.hasRst with
          | true => exact .inr rfl
          | false => exact absurd ⟨hp, .inr ⟨e, hr⟩⟩ hoff
      by_cases hi : i = .hibernate
      · subst hi
        exact hibernateBody_onlyMayRaise (hsleep rfl) h0
      · have hall : ((bodyOf i).2 s.cfg).All (mayTakeAwake i s.cfg) :=
          (bodyOf_mayTake i s.cfg).mono fun a ha => ⟨ha, by rintro rfl; exact hi ha.1⟩
        exact ((mayRaise_kept hoff' hsleep).run hall h0).mono fun _ => NotAsleepSince.unrecorded
  obtain ⟨-, h⟩ | ⟨-, h⟩ := exec_meets H0 (unrecorded_hostKeeps i s) h0 hbody
    (fun k _ hg hu => onlyMayRaise_raised hu.1.1.1 (mayRaise_of_gateFault hg)) (fun _ hu => onlyMayRaise_same hu.1.1) h
  · exact h
  · exact onlyMayRaise_same h

end MayRaise

/-- Settles O29: each fault is raised by one kind of step, and HIBERNATE sets its flag after its last byte. -/
theorem faultsOfEachRequest : Obligations.FaultsOfEachRequest := by
  unfold Obligations.FaultsOfEachRequest
  intro i s t k op hn h hk
  have hmay := exec_onlyMayRaise hn h k op hk
  refine ⟨?_, ?_, ?_, ?_, ?_, ?_, ?_⟩
  · rintro rfl; exact hmay
  · rintro rfl; exact hmay
  · rintro rfl; exact hmay
  · rintro rfl; exact hmay
  · rintro rfl
    obtain ⟨hh, ⟨hi, hw⟩, hoff, hsleep⟩ := hmay
    exact ⟨hh, hi, hw, hoff, hsleep⟩
  · rintro rfl; exact hmay
  · rintro rfl; exact hmay

/-! ## Dual-plane requests (R173) -/

theorem gateFault_unsupported {i : Instr} {s : State} (hi : s.flags.initDone = true) (hd : isDual i = true) (hc : s.cfg.hasColor = false) :
    gateFault (bodyOf i).1 s = some .unsupported := by
  rw [gateFault, bodyOf_needsInit, bodyOf_needsColor, hi, hd, hc]
  simp

/-- Settles O45: UNSUPPORTED is the second of Dispatch's checks, and no step of a routine raises it. -/
theorem dualNeedsColour : Obligations.DualNeedsColour := by
  unfold Obligations.DualNeedsColour
  refine ⟨fun i s hwf hi hd hc => ?_, fun i s t op hn hd h hk => ?_⟩
  · rw [exec_eq_request]
    have hg := gateFault_unsupported hi hd hc
    exact ⟨fun hs => request_faultTaken hwf hs hg, fun hr => request_dispatchFaults hwf hr hg⟩
  · have hmay : MayRaise i s .unsupported := exec_onlyMayRaise hn h _ op hk
    exact absurd hmay.1 (by simp [hd])

end Sys2Proof.Machine

/-!
What a routine leads to where no fault ends it, short of an engine reset and whatever else the host does: the mode after a write
(43_write.md R148), and the first refresh (44_refresh_draw.md R161).
-/
namespace Sys2Proof.Machine

/-! ## Routines that no fault ends -/

/-- No fault has been recorded since s, and A holds. -/
def Unfaulted (s : State) (A : State → Prop) (u : State) : Prop := u.faultRecord = s.faultRecord ∧ A u

/-- From A the steps lead to B, unless a fault ends them or the host holds them. -/
def Prog.Gets (s : State) (A B : State → Prop) (p : Prog) : Prop :=
  ∀ u, Unreset (Unfaulted s A) u → (p.run u).Meets (Unreset (Unfaulted s B)) (fun t => t.faultRecord ≠ s.faultRecord) fun _ => True

/-- A does not depend on what the host can change while a request runs. -/
def HostFree (A : State → Prop) : Prop := ∀ u v, HostOnly u v → A u → A v

section Gets
variable {s : State} {A B C : State → Prop} {X : Act → Prop} {p q : Prog}

theorem gets_skip (s : State) (A : State → Prop) : Prog.skip.Gets s A A := fun _ h => h

theorem Prog.Gets.seq (hp : p.Gets s A B) (hq : q.Gets s B C) : (Prog.seq p q).Gets s A C :=
  fun u hu => (hp u hu).andThen (fun _ _ h => h) hq

theorem Prog.Gets.mono {A' B' : State → Prop} (h : p.Gets s A B) (hA : ∀ u, A' u → A u) (hB : ∀ u, B u → B' u) : p.Gets s A' B' :=
  fun u hu => (h u ⟨⟨⟨hu.1.1.1, hA u hu.1.1.2⟩, hu.1.2⟩, hu.2⟩).mono fun v hv => ⟨⟨⟨hv.1.1.1, hB v hv.1.1.2⟩, hv.1.2⟩, hv.2⟩

theorem Prog.Gets.ifFlag {n : FlagName} (hp : p.Gets s (fun u => A u ∧ u.flags.get n = true) B)
    (hq : q.Gets s (fun u => A u ∧ u.flags.get n = false) B) : (Prog.ifFlag n p q).Gets s A B := by
  intro u hu
  rw [run_ifFlag]
  split
  · next hn => exact hp u ⟨⟨⟨hu.1.1.1, hu.1.1.2, hn⟩, hu.1.2⟩, hu.2⟩
  · next hn => exact hq u ⟨⟨⟨hu.1.1.1, hu.1.1.2, by simpa using hn⟩, hu.1.2⟩, hu.2⟩

theorem unfaulted_hostKeeps (hhost : HostFree A) (Q : State → Prop) : HostKeeps (Unreset (Unfaulted s A)) Q fun _ => True :=
  hostKeeps_noReset (underway_keptByHost fun u v huv h => ⟨huv.faultRecord.trans h.1, hhost u v huv h.2⟩) (fun _ _ => trivial) fun _ _ h => h

/-- A step that does something to the state once the host's moves have landed. -/
theorem takeStep_gets (hhost : HostFree A) {a : Act} {f : State → State} (hrun : runAct a = takeStep a fun u => .going (f u))
    (hsame : ∀ u, (f u).faultRecord = u.faultRecord ∧ (f u).status.ready = u.status.ready ∧ (f u).inbox = u.inbox) (h : ∀ u, A u → B (f u)) :
    (Prog.act a).Gets s A B := by
  intro u hu
  rw [run_act, hrun]
  refine takeStep_meets (unfaulted_hostKeeps hhost _) hu fun v hv => ?_
  obtain ⟨hrecord, hready, hinbox⟩ := hsame v
  refine ⟨⟨⟨hrecord.trans hv.1.1.1, h v hv.1.1.2⟩, hready.trans hv.1.2⟩, ?_⟩
  unfold hostNoReset
  rw [hinbox]
  exact hv.2

theorem setFlag_gets (hhost : HostFree A) {n : FlagName} {v : Bool} (h : ∀ u, A u → B (setFlag n v u)) :
    (Prog.act (.setFlag n v)).Gets s A B :=
  takeStep_gets hhost rfl (fun _ => ⟨rfl, rfl, rfl⟩) h

theorem unfaulted_raised {u : State} {k : FaultKind} (h : u.faultRecord = s.faultRecord) : (raiseFault k u).faultRecord ≠ s.faultRecord := by
  show u.faultRecord ++ [{ kind := k, op := u.shadow.op }] ≠ s.faultRecord
  rw [h]
  simp

/-- What every step of a program keeps, the program keeps. -/
theorem gets_of_kept (K : KeptByEffects X A fun _ => True) (hX : ¬ X .complete) (hhost : HostFree A) (hp : p.All X) : p.Gets s A A := by
  have K' : KeptUnreset X (Unfaulted s A) (fun t => t.faultRecord ≠ s.faultRecord) fun _ => True :=
    { sent := fun b u hA hh hb h => ⟨h.1, K.sent b u hA hh hb h.2⟩
      busFault := fun b u _ _ _ h => unfaulted_raised (u := (drawBus (driveByte b.1 b.2 u)).2) h.1
      sleepFault := fun u _ _ h => unfaulted_raised h.1
      source := fun u hA hs h => ⟨h.1, K.source u hA hs h.2⟩
      sourceFault := fun u _ _ h => unfaulted_raised (u := (drawSource u).2) h.1
      flag := fun n v u hA h => ⟨h.1, K.flag n v u hA h.2⟩
      initBegin := fun u hA h => ⟨h.1, K.initBegin u hA h.2⟩
      lastWait := fun u hA h => ⟨h.1, K.lastWait u hA h.2⟩
      lines := fun u hA h => ⟨h.1, K.lines u hA h.2⟩
      bus := fun u hA h => ⟨h.1, K.bus u hA h.2⟩
      rstLow := fun u hA h => ⟨h.1, K.rstLow u hA h.2⟩
      pulse := fun style ms u hA h => ⟨h.1, K.pulse style ms u hA h.2⟩
      delayBegin := fun u hA h => ⟨h.1, K.delayBegin u hA h.2⟩
      delayEnd := fun ms u hA h => ⟨h.1, K.delayEnd ms u hA h.2⟩
      waitBegin := fun u hA h => ⟨h.1, K.waitBegin u hA h.2⟩
      busy := fun u hA h => ⟨h.1, K.busy u hA h.2⟩
      clock := fun us u hA h => ⟨h.1, K.clock us u hA h.2⟩
      waitEnd := fun label o u hA h => ⟨(endWait_faultRecord label o u).trans h.1, K.waitEnd label o u hA h.2⟩
      raised := fun k u _ h => unfaulted_raised h.1
      done := fun u hA _ => absurd hA hX
      host := fun u v huv h => ⟨huv.faultRecord.trans h.1, hhost u v huv h.2⟩
      held := fun _ _ _ => trivial
      place := fun _ _ h => h }
  exact fun u hu => K'.run hp hu

end Gets

/-- A request that has ended without a fault ended where its routine leads. -/
theorem exec_gets {i : Instr} {s t : State} {A B : State → Prop} (hA : HostFree A) (hB : HostFree B) (h0 : A (began s))
    (hbody : ((bodyOf i).2 s.cfg).Gets s A B) (hdone : ∀ u, B u → B (completed u)) (hn : hostNoReset s = true) (h : exec i s = .next t)
    (ht : t.todo = .skip) (hrecord : t.faultRecord = s.faultRecord) : B t := by
  have h0' : Unreset (Unfaulted s A) (began s) := ⟨⟨⟨rfl, h0⟩, rfl⟩, hn⟩
  have hrun : (((bodyOf i).2 s.cfg).run (began s)).Meets (Unreset (Unfaulted s B)) (fun t => t.faultRecord = s.faultRecord → B t)
      fun _ => True := (hbody _ h0').mono (fun _ hu => hu) fun _ hne he => absurd he hne
  obtain ⟨-, hb⟩ | ⟨hne, -⟩ := exec_meets (unfaulted_hostKeeps hA _) (unfaulted_hostKeeps hB _) h0' hrun
    (fun k u _ hu he => absurd he (unfaulted_raised hu.1.1.1)) (fun u hu _ => hdone u hu.1.1.2) h
  · exact hb hrecord
  · exact absurd ht hne

/-! ## The mode after a write (R148) -/

/-- The steps that write no flag. -/
def writesNoFlag : Act → Prop
  | .setFlag _ _ => False
  | .initBegin => False
  | .complete => False
  | _ => True

theorem basics_writesNoFlag : HasBasics writesNoFlag := ⟨fun _ => trivial, trivial, fun _ => trivial, trivial, fun _ _ => trivial, trivial⟩

theorem flags_kept (F : Flags → Prop) : KeptByEffects writesNoFlag (fun u => F u.flags) fun _ => True where
  flag _ _ _ hA _ := hA.elim
  initBegin _ hA _ := hA.elim
  busFault _ _ _ _ _ _ := trivial
  sleepFault _ _ _ _ := trivial
  sourceFault _ _ _ _ := trivial
  raised _ _ _ _ := trivial
  done _ hA _ := hA.elim

theorem flags_hostFree (F : Flags → Prop) : HostFree fun u => F u.flags := fun _ v huv h => by
  show F v.flags
  rwa [huv.flags]

/-- The flags alone, from which and to which a routine leads. -/
def Prog.GetsFlags (s : State) (F G : Flags → Prop) (p : Prog) : Prop := p.Gets s (fun u => F u.flags) fun u => G u.flags

section Flags
variable {s : State} {c : Cfg} {E F G : Flags → Prop}

theorem keepsFlags {p : Prog} (F : Flags → Prop) (h : p.All writesNoFlag) : p.GetsFlags s F F :=
  gets_of_kept (flags_kept F) id (flags_hostFree F) h

theorem Prog.GetsFlags.seq {p q : Prog} (hp : p.GetsFlags s F G) (hq : q.GetsFlags s G E) : (Prog.seq p q).GetsFlags s F E :=
  Prog.Gets.seq hp hq

theorem Prog.GetsFlags.last {p : Prog} (hp : p.GetsFlags s F G) : (Prog.seq p .skip).GetsFlags s F G := Prog.Gets.seq hp (gets_skip s _)

theorem Prog.GetsFlags.mono {p : Prog} {F' G' : Flags → Prop} (h : p.GetsFlags s F G) (hF : ∀ f, F' f → F f) (hG : ∀ f, G f → G' f) :
    p.GetsFlags s F' G' := Prog.Gets.mono h (fun u => hF u.flags) fun u => hG u.flags

theorem skip_getsFlags (h : ∀ f, F f → G f) : Prog.skip.GetsFlags s F G :=
  Prog.Gets.mono (gets_skip s fun u => F u.flags) (fun _ h => h) fun u => h u.flags

theorem setFlag_getsFlags {n : FlagName} {v : Bool} (h : ∀ f, F f → G (f.set n v)) : (Prog.act (.setFlag n v)).GetsFlags s F G :=
  setFlag_gets (flags_hostFree F) fun u => h u.flags

/-- The flag a routine looks at. -/
theorem ifFlag_getsFlags {n : FlagName} {p q : Prog} (hp : p.GetsFlags s (fun f => F f ∧ f.get n = true) G)
    (hq : q.GetsFlags s (fun f => F f ∧ f.get n = false) G) : (Prog.ifFlag n p q).GetsFlags s F G := Prog.Gets.ifFlag hp hq

theorem sent_getsFlags (bs : List (ByteKind × Byte)) (F : Flags → Prop) : (sendBytes bs).GetsFlags s F F :=
  keepsFlags F (sendBytes_all basics_writesNoFlag.send bs)

theorem delay_getsFlags (ms : Nat) (F : Flags → Prop) : (delay ms).GetsFlags s F F :=
  keepsFlags F (delay_all trivial (fun _ => trivial) ms)

theorem wait_getsFlags (label : WaitLabel) (ms : Nat) (c : Cfg) (F : Flags → Prop) : (waitWhileBusy label ms c).GetsFlags s F F :=
  keepsFlags F (waitWhileBusy_all basics_writesNoFlag label ms c)

/-- Partial mode implies power (R27(a)). -/
def PartialPowered (f : Flags) : Prop := f.usingPartialMode = true → f.powerOn = true

/-- Partial mode with power on. -/
def InPartial (f : Flags) : Prop := f.usingPartialMode = true ∧ f.powerOn = true

/-- Partial mode with power on, and the panel cleared (R148). -/
def Written (f : Flags) : Prop := InPartial f ∧ f.initialWrite = false

theorem powerOn_getsFlags (c : Cfg) (hF : ∀ f, F f → F (f.set .powerOn true)) :
    (powerOn c).GetsFlags s F fun f => F f ∧ f.powerOn = true := by
  refine ifFlag_getsFlags (skip_getsFlags fun _ hf => hf) ?_
  exact (sent_getsFlags _ _).seq ((wait_getsFlags _ _ c _).seq (setFlag_getsFlags fun f hf => ⟨hF f hf.1, rfl⟩).last)

/-- EnsurePartial leads to Partial mode with power on, and does nothing to a flag that it does not write (R101, R106). -/
theorem ensurePartial_getsFlags (c : Cfg) (hF : ∀ f, F f → F (f.set .powerOn true)) (hG : ∀ f, F f → F (f.set .usingPartialMode true)) :
    (ensurePartial c).GetsFlags s (fun f => PartialPowered f ∧ F f) fun f => InPartial f ∧ F f := by
  refine ifFlag_getsFlags (skip_getsFlags fun f hf => ⟨⟨hf.2, hf.1.1 hf.2⟩, hf.1.2⟩) ?_
  refine ((sent_getsFlags _ F).seq ((powerOn_getsFlags c hF).seq (setFlag_getsFlags fun f hf => ?_).last)).mono (fun f hf => hf.1.2)
    fun _ hf => hf
  exact ⟨⟨rfl, hf.2⟩, hG f hf.1⟩

theorem screenBufferFill_getsFlags (v : Byte) (c : Cfg) : (screenBufferFill v c).GetsFlags s PartialPowered Written := by
  have hmode := (ensurePartial_getsFlags (s := s) (F := fun _ => True) c (fun _ h => h) fun _ h => h).mono (fun _ hf => ⟨hf, trivial⟩)
    fun _ hf => hf.1
  have hprev : (Prog.ifFlag .initialRefresh (fillBuffer .prev (~~~v) c) .skip).GetsFlags s InPartial InPartial :=
    keepsFlags InPartial ⟨sendBytes_all basics_writesNoFlag.send _, trivial⟩
  exact hmode.seq (hprev.seq ((sent_getsFlags _ InPartial).seq (setFlag_getsFlags fun f hf => ⟨hf, rfl⟩).last))

/-- A region write that is neither rejected nor empty. -/
theorem writeResolved_getsFlags (p : Plane) (g : Region) (c : Cfg) : (writeResolved p g c).GetsFlags s PartialPowered Written := by
  have hclear : (firstClear c).GetsFlags s PartialPowered fun f => PartialPowered f ∧ f.initialWrite = false :=
    ifFlag_getsFlags ((screenBufferFill_getsFlags _ c).mono (fun _ hf => hf.1) fun _ hf => ⟨fun _ => hf.1.2, hf.2⟩)
      (skip_getsFlags fun _ hf => hf)
  have hmode : (ensurePartial c).GetsFlags s (fun f => PartialPowered f ∧ f.initialWrite = false) Written :=
    ensurePartial_getsFlags c (fun _ h => h) fun _ h => h
  have hstream : (streamRect p g c).GetsFlags s Written Written :=
    keepsFlags Written ⟨sendBytes_all basics_writesNoFlag.send _, streamBytes_all (fun _ _ _ => trivial) _ _ _, trivial⟩
  exact (delay_getsFlags _ _).seq (hclear.seq (hmode.seq (hstream.seq (delay_getsFlags _ _).last)))

theorem writeRegion_getsFlags {p : Plane} (hp : (resolveRegion c p).isSome = true) : (writeRegion p c).GetsFlags s PartialPowered Written := by
  obtain ⟨g, hg⟩ := Option.isSome_iff_exists.1 hp
  rw [writeRegion, hg]
  exact writeResolved_getsFlags p g c

theorem writeDual_getsFlags {p q : Plane} (hp : (resolveRegion c p).isSome = true) (hq : (resolveRegion c q).isSome = true) :
    (writeDual p q c).GetsFlags s PartialPowered Written :=
  (writeRegion_getsFlags hp).seq ((writeRegion_getsFlags hq).mono (fun _ hf _ => hf.1.2) fun _ hf => hf)

end Flags

/-- A fill, or a write request of which at least one plane is neither rejected nor empty: its planes share their geometry (R139). -/
theorem body_getsWritten {i : Instr} {s : State}
    (hi : isFill i = true ∨ (isImageWrite i = true ∧ writesSomething s.cfg (planesOf i) = true)) :
    ((bodyOf i).2 s.cfg).GetsFlags s PartialPowered Written := by
  obtain hi | ⟨hi, hw⟩ := hi
  · cases i with
    | writeScreenBuffer v => exact screenBufferFill_getsFlags v s.cfg
    | _ => cases hi
  · rw [bodyOf_imageWrite hi]
    unfold writesSomething at hw
    obtain ⟨p, hp⟩ | ⟨p, q, hpq, hform, hrect⟩ := planesOf_cases (i := i) (by simp [readsBitmap, hi])
    · rw [hp] at hw ⊢
      exact writeRegion_getsFlags (by simpa using hw)
    · rw [hpq] at hw ⊢
      have hsame : resolveRegion s.cfg q = resolveRegion s.cfg p := resolveRegion_congr hform hrect
      rw [List.any_cons, List.any_cons, hsame] at hw
      have hp : (resolveRegion s.cfg p).isSome = true := by simpa using hw
      exact writeDual_getsFlags hp (hsame ▸ hp)

/-- Settles O39: the routine leads, where no fault ends it, through Partial mode to a cleared panel. -/
theorem modeAfterWrite : Obligations.ModeAfterWrite := by
  unfold Obligations.ModeAfterWrite
  intro i s t hn hinv hi h ht hrecord
  have hw : Written t.flags := exec_gets (flags_hostFree PartialPowered) (flags_hostFree Written) hinv (body_getsWritten hi) (fun _ hu => hu) hn
    h ht hrecord
  exact ⟨hw.1.1, hw.1.2, hw.2⟩

/-! ## The first refresh (R161) -/

/-- Events have been appended, and no full refresh has run since INIT. -/
def RefreshDue (s u : State) : Prop := Appended s.log u ∧ u.flags.initialRefresh = true

/-- These bytes have been sent, and nothing since. -/
def JustSent (s : State) (bs : List (ByteKind × Byte)) (u : State) : Prop := ∃ before, u.log = s.log ++ before ++ eventsOf bs

/-- These bytes have been sent, one after another. -/
def HasSent (s : State) (bs : List (ByteKind × Byte)) (u : State) : Prop := ∃ before after, u.log = s.log ++ before ++ eventsOf bs ++ after

theorem HasSent.append {s u v : State} {bs : List (ByteKind × Byte)} {evs : List Event} (h : HasSent s bs u) (hv : v.log = u.log ++ evs) :
    HasSent s bs v := by
  obtain ⟨before, after, h⟩ := h
  exact ⟨before, after ++ evs, by rw [hv, h, List.append_assoc (_ ++ _)]⟩

theorem refreshDue_hostFree (s : State) : HostFree (RefreshDue s) := fun _ _ huv h => ⟨h.1.same huv.log, by rw [huv.flags, h.2]⟩

theorem justSent_hostFree (s : State) (bs : List (ByteKind × Byte)) : HostFree (JustSent s bs) := fun _ _ huv h => by
  unfold JustSent
  rwa [huv.log]

theorem hasSent_hostFree (s : State) (bs : List (ByteKind × Byte)) : HostFree (HasSent s bs) := fun _ _ huv h => by
  unfold HasSent
  rwa [huv.log]

/-- The steps before RefreshFull's flag write. -/
def beforeRefreshed : Act → Prop
  | .setFlag .initialRefresh false => False
  | .complete => False
  | _ => True

theorem basics_beforeRefreshed : HasBasics beforeRefreshed := ⟨fun _ => trivial, trivial, fun _ => trivial, trivial, fun _ _ => trivial, trivial⟩

theorem refreshDue_kept (s : State) : KeptByEffects beforeRefreshed (RefreshDue s) fun _ => True where
  sent _ _ _ _ _ h := ⟨h.1.append rfl, h.2⟩
  lines _ _ h := ⟨h.1.append rfl, h.2⟩
  bus _ _ h := ⟨h.1.append rfl, h.2⟩
  pulse _ _ _ _ h := ⟨h.1.append rfl, h.2⟩
  delayEnd _ _ _ h := ⟨h.1.append rfl, h.2⟩
  waitEnd label o u _ h := ⟨h.1.append (endWait_log label o u), by rw [endWait_flags, h.2]⟩
  flag n v u hA h := by
    refine ⟨h.1, ?_⟩
    cases n with
    | initialRefresh =>
      cases v with
      | true => rfl
      | false => exact hA.elim
    | _ => exact h.2
  busFault _ _ _ _ _ _ := trivial
  sleepFault _ _ _ _ := trivial
  sourceFault _ _ _ _ := trivial
  raised _ _ _ _ := trivial
  done _ _ _ := trivial

theorem hasSent_kept (s : State) (bs : List (ByteKind × Byte)) : KeptByEffects (fun a => a ≠ .complete) (HasSent s bs) fun _ => True where
  sent _ _ _ _ _ h := h.append rfl
  lines _ _ h := h.append rfl
  bus _ _ h := h.append rfl
  pulse _ _ _ _ h := h.append rfl
  delayEnd _ _ _ h := h.append rfl
  waitEnd label o u _ h := h.append (endWait_log label o u)
  busFault _ _ _ _ _ _ := trivial
  sleepFault _ _ _ _ := trivial
  sourceFault _ _ _ _ := trivial
  raised _ _ _ _ := trivial
  done _ _ _ := trivial

section FirstRefresh
variable {s : State} {c : Cfg}

theorem keepsRefreshDue {p : Prog} (h : p.All beforeRefreshed) : p.Gets s (RefreshDue s) (RefreshDue s) :=
  gets_of_kept (refreshDue_kept s) id (refreshDue_hostFree s) h

/-- One byte more. -/
theorem send_justSent (bs : List (ByteKind × Byte)) (b : ByteKind × Byte) :
    (Prog.act (.send b)).Gets s (JustSent s bs) (JustSent s (bs ++ [b])) := by
  intro u hu
  refine transfer_meets_of (unfaulted_hostKeeps (justSent_hostFree s bs) _) hu (fun v _ _ hv => ?_)
    (fun v _ _ hv => unfaulted_raised (u := (drawBus (driveByte b.1 b.2 v)).2) hv.1.1.1) fun v _ hv => unfaulted_raised hv.1.1.1
  obtain ⟨⟨⟨hrecord, before, hlog⟩, hready⟩, hreset⟩ := hv
  refine ⟨⟨⟨hrecord, before, ?_⟩, hready⟩, hreset⟩
  show v.log ++ [byteEvent b] = _
  rw [hlog]
  simp [eventsOf]

theorem sendBytes_justSent (bs done : List (ByteKind × Byte)) : (sendBytes bs).Gets s (JustSent s done) (JustSent s (done ++ bs)) := by
  induction bs generalizing done with
  | nil => rw [List.append_nil]; exact gets_skip s _
  | cons b bs ih =>
    have h := (send_justSent (s := s) done b).seq (ih (done ++ [b]))
    rwa [List.append_assoc] at h

/-- RefreshFull sends the full update and marks it (R151). -/
theorem refreshFull_gets (c : Cfg) : (refreshFull c).Gets s (RefreshDue s)
    fun u => u.flags.initialRefresh = false ∧ HasSent s (seqBytes c.pd.seqFullUpdate) u := by
  have henter : (Prog.ifFlag .usingPartialMode (enterFull c) .skip).Gets s (RefreshDue s) (JustSent s []) := by
    have hall : (Prog.ifFlag .usingPartialMode (enterFull c) .skip).All beforeRefreshed :=
      ⟨⟨sendBytes_all basics_beforeRefreshed.send _, powerOn_all basics_beforeRefreshed trivial c, trivial, trivial⟩, trivial⟩
    refine (keepsRefreshDue hall).mono (fun _ hu => hu) fun u hu => ?_
    obtain ⟨⟨evs, hlog⟩, -⟩ := hu
    exact ⟨evs, by rw [hlog]; simp [eventsOf]⟩
  have hwait : (waitWhileBusy .fullUpdate c.tFullRefreshMs c).Gets s (HasSent s (seqBytes c.pd.seqFullUpdate)) (HasSent s (seqBytes c.pd.seqFullUpdate)) :=
    gets_of_kept (hasSent_kept s _) (fun h => h rfl) (hasSent_hostFree s _)
      ((waitWhileBusy_all basics_beforeRefreshed _ _ c).mono fun _ ha => by rintro rfl; exact ha)
  have hsent := (sendBytes_justSent (s := s) (seqBytes c.pd.seqFullUpdate) []).mono (B' := HasSent s (seqBytes c.pd.seqFullUpdate))
    (fun _ hu => hu) fun u ⟨before, hlog⟩ => ⟨before, [], by rw [hlog]; simp⟩
  exact henter.seq (hsent.seq (hwait.seq ((setFlag_gets (hasSent_hostFree s _) fun u hu => ⟨rfl, hu⟩).seq (gets_skip s _))))

/-- While no full refresh has run RefreshRect takes the full path, whatever its rectangle (R152). -/
theorem refreshRect_gets (x y w h : Int) (c : Cfg) : (refreshRect x y w h c).Gets s (RefreshDue s)
    fun u => u.flags.initialRefresh = false ∧ HasSent s (seqBytes c.pd.seqFullUpdate) u := by
  unfold refreshRect
  split
  · exact refreshFull_gets c
  · refine Prog.Gets.ifFlag ((refreshFull_gets c).mono (fun _ hu => hu.1) fun _ hu => hu) fun u hu => ?_
    obtain ⟨⟨⟨-, ⟨-, hdue⟩, hclear⟩, -⟩, -⟩ := hu
    exact absurd hdue (by simpa [Flags.get] using hclear)

end FirstRefresh

/-- A write leaves the first refresh due. -/
theorem writePlanes_refreshDue {s : State} (ps : List Plane) (c : Cfg) : (writePlanes ps c).Gets s (RefreshDue s) (RefreshDue s) := by
  have hsteps : HasWrite beforeRefreshed :=
    { basics_beforeRefreshed with on := trivial, mode := trivial, cleared := trivial, stream := fun _ _ _ => trivial }
  refine keepsRefreshDue ?_
  unfold writePlanes
  split
  · exact writeRegion_all hsteps _ c
  · exact writeDual_all hsteps _ _ c
  · trivial

theorem body_getsRefreshed {i : Instr} {s : State} (hi : refreshes i = true) : ((bodyOf i).2 s.cfg).Gets s (RefreshDue s)
    fun u => u.flags.initialRefresh = false ∧ HasSent s (seqBytes s.cfg.pd.seqFullUpdate) u := by
  cases hr : drawRect i with
  | some r =>
    rw [bodyOf_draw hr]
    exact (writePlanes_refreshDue _ _).seq (refreshRect_gets _ _ _ _ _)
  | none =>
    cases i with
    | refresh v =>
      show (refreshWhole v s.cfg).Gets _ _ _
      unfold refreshWhole
      split
      · exact refreshRect_gets _ _ _ _ _
      · exact refreshFull_gets _
    | refreshRect r => exact refreshRect_gets _ _ _ _ _
    | _ => simp [refreshes, isRefresh, hr] at hi

/-- Settles O43: while the first refresh is due every such request takes the full path, whose bytes are in the log from then on. -/
theorem firstRefreshIsFull : Obligations.FirstRefreshIsFull := by
  unfold Obligations.FirstRefreshIsFull
  intro i s t hi hn hdue h ht hrecord
  exact exec_gets (refreshDue_hostFree s) (fun u v huv hu => ⟨by rw [huv.flags, hu.1], hasSent_hostFree s _ u v huv hu.2⟩)
    ⟨⟨[], (List.append_nil _).symm⟩, hdue⟩ (body_getsRefreshed hi) (fun _ hu => hu) hn h ht hrecord

end Sys2Proof.Machine

/-!
Delays and busy waits as wholes: between them WAITING is 0, and the timer T0 is what it was (10_state.md R19, R34; 40_transport.md
R93, R95).
-/
namespace Sys2Proof.Machine

/-! ## What routines are built from -/

/-- The steps that belong to no delay, no busy wait and no end of the request. -/
def plain : Act → Prop
  | .delayBegin => False
  | .delayEnd _ => False
  | .waitBegin => False
  | .sample _ _ => False
  | .interval _ _ => False
  | .raise _ => False
  | .complete => False
  | _ => True

/-- T holds of plain steps, of delays and busy waits, and of what is built from those. Only INIT does without busy waits (R107). -/
structure Builds (T : Prog → Prop) (i : Instr) (c : Cfg) : Prop where
  skip : T .skip
  seq : ∀ {p q}, T p → T q → T (.seq p q)
  ifFlag : ∀ {n p q}, T p → T q → T (.ifFlag n p q)
  step : ∀ a, plain a → T (.act a)
  delay : ∀ ms, T (delay ms)
  wait : isInit i = false → ∀ label ms, T (waitWhileBusy label ms c)

section Builds
variable {T : Prog → Prop} {i : Instr} {c : Cfg}

theorem Builds.ofPlain (H : Builds T i c) {p : Prog} (h : p.All plain) : T p := by
  induction p with
  | skip => exact H.skip
  | act a => exact H.step a h
  | seq p q ihp ihq => exact H.seq (ihp h.1) (ihq h.2)
  | ifFlag n p q ihp ihq => exact H.ifFlag (ihp h.1) (ihq h.2)

theorem Builds.send (H : Builds T i c) (bs : List (ByteKind × Byte)) : T (sendBytes bs) := H.ofPlain (sendBytes_all (fun _ => trivial) bs)

theorem Builds.setFlag (H : Builds T i c) (n : FlagName) (v : Bool) : T (.seq (.act (.setFlag n v)) .skip) := H.seq (H.step _ trivial) H.skip

theorem Builds.init (H : Builds T i c) (style : ResetStyle) : T (initBody style c) := by
  refine H.seq (H.step _ trivial) (H.seq (H.step _ trivial) (H.seq (H.seq ?_ (H.setFlag _ _)) (H.seq ?_ (H.seq (H.step _ trivial) H.skip))))
  · split
    · exact H.seq (H.step _ trivial) (H.seq (H.step _ trivial) (H.seq (H.delay _) H.skip))
    · exact H.skip
  · exact H.ofPlain ⟨trivial, trivial, trivial, trivial, trivial, trivial, trivial⟩

section NotInit
variable (H : Builds T i c) (hi : isInit i = false)
include H hi

/-- A sequence, a wait and what follows it. -/
theorem Builds.sendThenWait (seq : List SeqStep) (label : WaitLabel) (ms : Nat) {p : Prog} (hp : T p) :
    T (.seq (sendSeq seq) (.seq (waitWhileBusy label ms c) p)) := H.seq (H.send _) (H.seq (H.wait hi label ms) hp)

theorem Builds.powerOn : T (powerOn c) := H.ifFlag H.skip (H.sendThenWait hi _ _ _ (H.setFlag _ _))

theorem Builds.powerOff : T (powerOff c) := H.ifFlag (H.sendThenWait hi _ _ _ (H.seq (H.step _ trivial) (H.setFlag _ _))) H.skip

theorem Builds.enter (v : Bool) : T (steps [initController c, Machine.powerOn c, .act (.setFlag .usingPartialMode v)]) :=
  H.seq (H.send _) (H.seq (H.powerOn hi) (H.setFlag _ _))

theorem Builds.ensurePartial : T (ensurePartial c) := H.ifFlag H.skip (H.enter hi true)

theorem Builds.hibernate : T (hibernateBody c) := by
  refine H.seq (H.powerOff hi) (H.seq ?_ H.skip)
  split
  · exact H.seq (H.send _) (H.setFlag _ _)
  · exact H.skip

theorem Builds.screenBufferFill (v : Byte) : T (screenBufferFill v c) :=
  H.seq (H.ensurePartial hi) (H.seq (H.ifFlag (H.send _) H.skip) (H.seq (H.send _) (H.setFlag _ _)))

theorem Builds.writeRegion (p : Plane) : T (writeRegion p c) := by
  unfold Machine.writeRegion
  split
  · exact H.skip
  · exact H.seq (H.delay _) (H.seq (H.ifFlag (H.screenBufferFill hi _) H.skip) (H.seq (H.ensurePartial hi)
      (H.seq (H.seq (H.send _) (H.seq (H.ofPlain (streamBytes_all (fun _ _ _ => trivial) _ _ _)) H.skip)) (H.seq (H.delay _) H.skip))))

theorem Builds.writePlanes (ps : List Plane) : T (writePlanes ps c) := by
  unfold Machine.writePlanes
  split
  · exact H.writeRegion hi _
  · exact H.seq (H.writeRegion hi _) (H.writeRegion hi _)
  · exact H.skip

theorem Builds.refreshFull : T (refreshFull c) :=
  H.seq (H.ifFlag (H.enter hi false) H.skip) (H.sendThenWait hi _ _ _ (H.setFlag _ _))

theorem Builds.refreshPartial (r : Clipped) : T (refreshPartial r c) := by
  refine H.seq (H.ensurePartial hi) (H.seq (H.send _) (H.seq (H.send _) (H.seq ?_ H.skip)))
  split
  · exact H.wait hi _ _
  · exact H.skip

theorem Builds.refreshRect (x y w h : Int) : T (refreshRect x y w h c) := by
  unfold Machine.refreshRect
  split
  · exact H.refreshFull hi
  · refine H.ifFlag (H.refreshFull hi) ?_
    unfold refreshClipped
    split
    · exact H.skip
    · split
      · exact H.skip
      · exact H.refreshPartial hi _

end NotInit

/-- Every routine is built from plain steps, delays and busy waits. -/
theorem Builds.body (H : Builds T i c) : T ((bodyOf i).2 c) := by
  cases hw : isImageWrite i with
  | true =>
    rw [bodyOf_imageWrite hw]
    exact H.writePlanes (not_init_of_readsBitmap (readsBitmap_of_imageWrite hw)).1 _
  | false =>
    cases hr : drawRect i with
    | some r =>
      rw [bodyOf_draw hr]
      have hi := (not_init_of_readsBitmap (readsBitmap_of_draw hr)).1
      exact H.seq (H.writePlanes hi _) (H.refreshRect hi _ _ _ _)
    | none =>
      cases i with
      | init style => exact H.init style
      | powerOn => exact H.powerOn rfl
      | powerOff => exact H.powerOff rfl
      | hibernate => exact H.hibernate rfl
      | waitBusy => exact H.wait rfl _ _
      | writeScreenBuffer v => exact H.screenBufferFill rfl v
      | refresh v =>
        show T (refreshWhole v c)
        unfold refreshWhole
        split
        · exact H.refreshRect rfl _ _ _ _
        · exact H.refreshFull rfl
      | refreshRect r => exact H.refreshRect rfl _ _ _ _
      | _ => simp [isImageWrite, drawRect] at hw hr

end Builds

/-! ## Waits as wholes -/

/-- A property of the host's turns alone, whatever the host does (`KeptByHost`). -/
theorem hostKeeps_of_keptByHost {P Q R : State → Prop} (K : KeptByHost P Q) (hheld : ∀ s : State, P { s with todo := .skip } → R s)
    (hplace : ∀ s p, R s → R { s with todo := p }) : HostKeeps P Q R where
  turn s h := by
    have hkept := landMoves_kept K s.inbox h
    unfold hostTurn
    cases e : landMoves s.inbox s with
    | going u => rw [e] at hkept; exact hkept
    | ended u => rw [e] at hkept; exact hkept
    | held u => rw [e] at hkept; exact hheld u hkept
  stop s h _ := hheld s (K.held s h)
  place := hplace

section Waits
variable {P D W Q R : State → Prop}

/-- D holds inside a delay, and P before and after it. -/
theorem delay_meets (HP : HostKeeps P Q R) (HD : HostKeeps D Q R) (hbegin : ∀ s, P s → D (setWaiting true s))
    (hend : ∀ ms s, D s → P (setWaiting false (emit (.delay ms) s))) (ms : Nat) {s : State} (h : P s) : ((delay ms).run s).Meets P Q R := by
  unfold delay
  split
  · exact h
  · refine Progress.Meets.andThen (P := D) (takeStep_meets HP h hbegin) HP.place fun u hu => ?_
    refine Progress.Meets.andThen (P := P) ?_ HP.place fun v hv => hv
    exact takeStep_meets HD hu fun v hv => waitMs_meets HD hv (hend ms v hv)

/-- W holds inside a busy wait, and P before and after it; without a busy line it is a delay (R95). -/
theorem waitWhileBusy_meets (HP : HostKeeps P Q R) (HD : HostKeeps D Q R) (HW : HostKeeps W Q R)
    (hbegin : ∀ s, P s → D (setWaiting true s)) (hend : ∀ ms s, D s → P (setWaiting false (emit (.delay ms) s)))
    (hlast : ∀ s, P s → P (clearLastWait s)) (hstart : ∀ s, P s → W (startTimer (setWaiting true s)))
    (hbusy : ∀ s, W s → W (readBusy s).2) (hclock : ∀ us s, W s → W (advanceClock us s)) (hdone : ∀ label o s, W s → P (endWait label o s))
    (label : WaitLabel) (ms : Nat) (c : Cfg) {s : State} (h : P s) : ((waitWhileBusy label ms c).run s).Meets P Q R := by
  unfold waitWhileBusy
  split
  · refine Progress.Meets.andThen (P := W) (takeStep_meets HP h hstart) HP.place fun u hu => ?_
    exact Progress.Meets.andThen (P := P) (pollLoop_meets HW hbusy hclock hdone label _ hu) HP.place fun v hv => hv
  · refine (delay_meets HP HD hbegin hend ms h).andThen HP.place fun u hu => ?_
    exact Progress.Meets.andThen (P := P) (takeStep_meets HP hu hlast) HP.place fun v hv => hv

end Waits

/-! ## READY and WAITING (R19, R31) -/

/-- A request is under way, and no wait is open. -/
def NotWaiting (s : State) : Prop := s.status.ready = false ∧ s.status.waiting = false

/-- A request has ended. -/
def Over (s : State) : Prop := s.status.ready = true ∧ s.status.waiting = false ∧ s.seen = []

theorem inFlight_keptByHost : KeptByHost (fun s => s.status.ready = false) Over where
  inbox _ _ h := h
  held _ h := h
  replies _ _ h := h
  poke space a b s h := by
    unfold hostPoke
    rw [h]
    simp [h]
  write offset v s _ h := by
    obtain ⟨d, e⟩ | e | e := regWrite_of_notReady h offset v <;> rw [e] <;> exact h
  reset s h := ⟨rfl, rfl, rfl⟩

theorem notWaiting_keptByHost : KeptByHost NotWaiting Over where
  inbox _ _ h := h
  held _ h := h
  replies _ _ h := h
  poke space a b s h := by
    unfold NotWaiting hostPoke at *
    rw [h.1]
    simp [h]
  write offset v s _ h := by
    obtain ⟨d, e⟩ | e | e := regWrite_of_notReady h.1 offset v <;> rw [e] <;> exact h
  reset s h := ⟨rfl, rfl, rfl⟩

theorem inFlight_hostKeeps : HostKeeps (fun s => s.status.ready = false) Over fun s => s.status.ready = false :=
  hostKeeps_of_keptByHost inFlight_keptByHost (fun _ h => h) fun _ _ h => h

theorem notWaiting_hostKeeps : HostKeeps NotWaiting Over fun s => s.status.ready = false :=
  hostKeeps_of_keptByHost notWaiting_keptByHost (fun _ h => h.1) fun _ _ h => h

theorem not_polls_plain : ¬ Polls plain := by
  rintro ⟨label, n, h | h⟩
  · exact h
  · exact h

theorem notWaiting_effects : KeptByEffects plain NotWaiting Over where
  busFault _ _ _ _ _ _ := ⟨rfl, rfl, rfl⟩
  sleepFault _ _ _ _ := ⟨rfl, rfl, rfl⟩
  sourceFault _ _ _ _ := ⟨rfl, rfl, rfl⟩
  delayBegin _ hA _ := hA.elim
  delayEnd _ _ hA _ := hA.elim
  waitBegin _ hA _ := hA.elim
  waitEnd _ _ _ hA _ := absurd hA not_polls_plain
  raised _ _ hA _ := hA.elim
  done _ hA _ := hA.elim

/-- A routine runs with no wait open but inside its delays and busy waits. -/
theorem body_notWaiting (i : Instr) (c : Cfg) {s : State} (h : NotWaiting s) :
    (((bodyOf i).2 c).run s).Meets NotWaiting Over fun s => s.status.ready = false := by
  have H : Builds (fun p => ∀ s, NotWaiting s → (p.run s).Meets NotWaiting Over fun s => s.status.ready = false) i c :=
    { skip := fun _ h => h
      seq := fun hp hq s h => (hp s h).andThen notWaiting_hostKeeps.place hq
      ifFlag := fun hp hq s h => by
        rw [run_ifFlag]
        split
        · exact hp s h
        · exact hq s h
      step := fun a ha s h => runAct_meets notWaiting_hostKeeps notWaiting_effects ha h
      delay := fun ms s h => delay_meets notWaiting_hostKeeps inFlight_hostKeeps (fun _ h => h.1) (fun _ _ h => ⟨h, rfl⟩) ms h
      wait := fun _ label ms s h => waitWhileBusy_meets notWaiting_hostKeeps inFlight_hostKeeps inFlight_hostKeeps (fun _ h => h.1)
        (fun _ _ h => ⟨h, rfl⟩) (fun _ h => h) (fun _ h => h.1) (fun _ h => h) (fun _ _ h => h)
        (fun _ o _ h => ⟨by rw [← h]; cases o <;> rfl, rfl⟩) label ms c h }
  exact H.body s h

theorem exec_over {i : Instr} {s t : State} (hw : s.status.waiting = false) (h : exec i s = .next t) :
    (t.todo = .skip ∧ Over t) ∨ (t.todo ≠ .skip ∧ t.status.ready = false) := by
  have h0 : NotWaiting (began s) := ⟨rfl, hw⟩
  exact exec_meets notWaiting_hostKeeps notWaiting_hostKeeps h0 (body_notWaiting i s.cfg h0) (fun _ _ _ _ => ⟨rfl, rfl, rfl⟩)
    (fun _ hu => ⟨rfl, hu.2, rfl⟩) h

/-! ## The timer T0 (R34, R95) -/

/-- A busy wait has been logged since s. -/
def BusyLogged (s u : State) : Prop := ∃ label o, Event.busy label o ∈ u.log.drop s.log.length

/-- T0 is what it was, or a busy wait has been logged since. -/
def TimerKept (s u : State) : Prop := Appended s.log u ∧ (u.t0 = s.t0 ∨ BusyLogged s u)

/-- Events have been appended, and a wait is open. -/
def InWait (s u : State) : Prop := Appended s.log u ∧ u.status.waiting = true

section Timer
variable {s u v : State}

theorem drop_appended {evs : List Event} (h : u.log = s.log ++ evs) : u.log.drop s.log.length = evs := by
  rw [h, List.drop_left]

theorem BusyLogged.append {evs : List Event} (ha : Appended s.log u) (h : BusyLogged s u) (hv : v.log = u.log ++ evs) : BusyLogged s v := by
  obtain ⟨label, o, h⟩ := h
  obtain ⟨more, hu⟩ := ha
  rw [drop_appended hu] at h
  refine ⟨label, o, ?_⟩
  rw [drop_appended (evs := more ++ evs) (by rw [hv, hu, List.append_assoc])]
  exact List.mem_append_left _ h

theorem TimerKept.append {evs : List Event} (h : TimerKept s u) (hv : v.log = u.log ++ evs) (ht : v.t0 = u.t0) : TimerKept s v :=
  ⟨h.1.append hv, h.2.imp (ht.trans ·) fun hb => hb.append h.1 hv⟩

/-- A busy wait is logged as it ends (R95). -/
theorem TimerKept.waited (label : WaitLabel) (o : WaitOutcome) (h : Appended s.log u) : TimerKept s (endWait label o u) := by
  refine ⟨h.append (endWait_log label o u), .inr ⟨label, o, ?_⟩⟩
  obtain ⟨evs, hu⟩ := h
  rw [drop_appended (evs := evs ++ [.busy label o]) (by rw [endWait_log, hu, List.append_assoc])]
  simp

theorem TimerKept.hostOnly (h : TimerKept s u) (huv : HostOnly u v) : TimerKept s v :=
  h.append (evs := []) (by rw [huv.log, List.append_nil]) huv.t0

end Timer

/-- T0 is what it was, or a wait is open, or a busy wait has been logged. -/
def TimerSeen (s u : State) : Prop := u.t0 = s.t0 ∨ u.status.waiting = true ∨ BusyLogged s u

theorem TimerKept.seen {s u : State} (h : TimerKept s u) : TimerSeen s u := h.2.imp_right .inr

theorem timerKept_plain (s : State) : KeptUnreset plain (TimerKept s) (TimerSeen s) (TimerSeen s) where
  sent _ _ _ _ _ h := h.append rfl rfl
  busFault _ _ _ _ _ h := TimerKept.seen h
  sleepFault _ _ _ h := TimerKept.seen h
  sourceFault _ _ _ h := TimerKept.seen h
  lines _ _ h := h.append rfl rfl
  bus _ _ h := h.append rfl rfl
  pulse _ _ _ _ h := h.append rfl rfl
  delayEnd _ _ hA _ := hA.elim
  waitBegin _ hA _ := hA.elim
  waitEnd _ _ _ hA _ := absurd hA not_polls_plain
  raised _ _ hA _ := hA.elim
  done _ hA _ := hA.elim
  host _ _ huv h := h.hostOnly huv
  held _ h _ := h.seen
  place _ _ h := h

theorem inWait_hostKeeps (s : State) : HostKeeps (Unreset (InWait s)) (TimerSeen s) (TimerSeen s) := by
  refine hostKeeps_noReset (underway_keptByHost fun u v huv h => ⟨h.1.same huv.log, ?_⟩) (fun _ h => .inr (.inl h.1.2)) fun _ _ h => h
  obtain e | e := huv.status
  · rw [e, h.2]
  · rw [e]
    exact h.2

/-- T0 is written by a busy wait alone, and its end is logged (R95). -/
theorem body_timerKept (i : Instr) (c : Cfg) {s u : State} (h : Unreset (TimerKept s) u) :
    (((bodyOf i).2 c).run u).Meets (Unreset (TimerKept s)) (TimerSeen s) (TimerSeen s) := by
  have K := timerKept_plain s
  have hend (ms : Nat) (v : State) (h : Unreset (TimerKept s) v) : Unreset (TimerKept s) (setWaiting false (emit (.delay ms) v)) :=
    ⟨⟨h.1.1.append rfl rfl, h.1.2⟩, h.2⟩
  have hdone (label : WaitLabel) (o : WaitOutcome) (v : State) (h : Unreset (InWait s) v) : Unreset (TimerKept s) (endWait label o v) := by
    obtain ⟨⟨⟨hlog, -⟩, hready⟩, hreset⟩ := h
    refine ⟨⟨.waited label o hlog, ?_⟩, ?_⟩
    · rw [← hready]
      cases o <;> rfl
    · unfold hostNoReset at hreset ⊢
      rwa [endWait_inbox]
  have H : Builds (fun p => ∀ u, Unreset (TimerKept s) u → (p.run u).Meets (Unreset (TimerKept s)) (TimerSeen s) (TimerSeen s)) i c :=
    { skip := fun _ h => h
      seq := fun hp hq u h => (hp u h).andThen K.place hq
      ifFlag := fun hp hq u h => by
        rw [run_ifFlag]
        split
        · exact hp u h
        · exact hq u h
      step := fun a ha u h => K.run (p := .act a) ha h
      delay := fun ms u h => delay_meets K.hostKeeps K.hostKeeps (fun _ h => h) hend ms h
      wait := fun _ label ms u h => waitWhileBusy_meets K.hostKeeps K.hostKeeps (inWait_hostKeeps s) (fun _ h => h) hend (fun _ h => h)
        (fun _ h => ⟨⟨⟨h.1.1.1, rfl⟩, h.1.2⟩, h.2⟩) (fun _ h => h) (fun _ _ h => h) hdone label ms c h }
  exact H.body u h

theorem exec_timerSeen {i : Instr} {s t : State} (hn : hostNoReset s = true) (h : exec i s = .next t) : TimerSeen s t := by
  have K := timerKept_plain s
  have h0 : Unreset (TimerKept s) (began s) := ⟨⟨⟨⟨[], (List.append_nil _).symm⟩, .inl rfl⟩, rfl⟩, hn⟩
  obtain ⟨-, h⟩ | ⟨-, h⟩ := exec_meets K.hostKeeps K.hostKeeps h0 (body_timerKept i s.cfg h0) (fun _ _ _ hu => TimerKept.seen hu.1.1)
    (fun _ hu => TimerKept.seen hu.1.1) h
  · exact h
  · exact h

/-- Without a busy line, and in INIT, no step starts the timer. -/
theorem body_noTimer {i : Instr} {c : Cfg} (h : c.hasBusy = false ∨ isInit i = true) : ((bodyOf i).2 c).All fun a => a ≠ .waitBegin := by
  have hdelay (ms : Nat) : (delay ms).All fun a => a ≠ .waitBegin := delay_all (by rintro ⟨⟩) (fun _ => by rintro ⟨⟩) ms
  have H : Builds (fun p => p.All fun a => a ≠ .waitBegin) i c :=
    { skip := trivial
      seq := fun hp hq => ⟨hp, hq⟩
      ifFlag := fun hp hq => ⟨hp, hq⟩
      step := fun a ha => by rintro rfl; exact ha
      delay := hdelay
      wait := fun hi label ms => by
        obtain hb | hinit := h
        · unfold waitWhileBusy
          rw [hb]
          exact ⟨hdelay ms, by rintro ⟨⟩, trivial⟩
        · rw [hinit] at hi
          cases hi }
  exact H.body

theorem timer_kept (s : State) : KeptUnreset (fun a => a ≠ .waitBegin) (fun u => u.t0 = s.t0) (fun u => u.t0 = s.t0) (fun u => u.t0 = s.t0) where
  waitBegin _ hA _ := absurd rfl hA
  host _ _ huv h := huv.t0.trans h
  held _ h _ := h
  place _ _ h := h

/-- Settles O27: only the start of a busy wait writes T0, and the wait's end is logged while WAITING is 1 up to it. -/
theorem timerFrame : Obligations.TimerFrame := by
  unfold Obligations.TimerFrame
  intro i s t hn h
  refine ⟨exec_timerSeen hn h, fun hi => ?_⟩
  obtain ⟨-, h⟩ | ⟨-, h⟩ := (timer_kept s).exec (body_noTimer hi) rfl hn (fun _ _ _ hu => hu) (fun _ hu => hu) h
  · exact h
  · exact h

end Sys2Proof.Machine

/-!
Requests end (70_reset_and_hazards.md R202, R203): while the time source runs nothing but the host holds one in flight, and where it has
stopped a delay or a poll interval does.
-/
namespace Sys2Proof.Machine

/-! ## While the time source runs -/

theorem hostPoke_timeRuns (space : Space) (a : Word) (b : Byte) (s : State) : (hostPoke space a b s).env.timeRuns = s.env.timeRuns := by
  unfold hostPoke
  split <;> simp [raceByte]

theorem regWrite_timeRuns (offset : Nat) (v : Word) (s : State) : (regWrite offset v s).env.timeRuns = s.env.timeRuns := by
  obtain ⟨d, sh, st, hw⟩ := regWrite_eq offset v s
  have hs : regWrite offset v s = { s with req := d, shadow := sh, status := st } := hw s.inbox s.todo
  rw [hs]

theorem timeRuns_keptByHost : KeptByHost (fun s => s.env.timeRuns = true) fun _ => True where
  inbox _ _ h := h
  held _ h := h
  replies _ _ h := h
  poke space a b s h := (hostPoke_timeRuns space a b s).trans h
  write offset v s _ h := (regWrite_timeRuns offset v s).trans h
  reset _ _ := trivial

/-- The time source runs on in a request in flight. -/
theorem exec_timeRuns {i : Instr} {s t : State} (ht : s.env.timeRuns = true) (h : exec i s = .next t) (hf : t.todo ≠ .skip) :
    t.env.timeRuns = true := by
  have H : HostKeeps (fun s => s.env.timeRuns = true) (fun _ => True) fun s => s.env.timeRuns = true :=
    hostKeeps_of_keptByHost timeRuns_keptByHost (fun _ h => h) fun _ _ h => h
  have K : KeptByEffects (fun _ => True) (fun s => s.env.timeRuns = true) fun _ => True :=
    { busFault := fun _ _ _ _ _ _ => trivial
      sleepFault := fun _ _ _ _ => trivial
      sourceFault := fun _ _ _ _ => trivial
      raised := fun _ _ _ _ => trivial
      done := fun _ _ _ => trivial }
  have h0 : (began s).env.timeRuns = true := ht
  obtain ⟨hs, -⟩ | ⟨-, h⟩ := exec_meets H H h0 (run_meets H K (Prog.all_true _) h0) (fun _ _ _ _ => trivial) (fun _ _ => trivial) h
  · exact absurd hs hf
  · exact h

/-- The host makes no access that R30 refuses and holds nothing, and the time source runs. -/
def Unhindered (s : State) : Prop := (hostLegal s = true ∧ hostNoHold s = true) ∧ s.env.timeRuns = true

/-- Moves that R30 does not refuse, without a hold, leave the request running or end it with READY 1, at the engine's reset. -/
theorem landMoves_unhindered {ms : List HostMove} (hl : ms.all moveLegal = true) (hh : (ms.all fun m => decide (m ≠ .hold)) = true) {s : State}
    (ht : s.env.timeRuns = true) : (landMoves ms s).Meets Unhindered (fun u => u.status.ready = true) fun _ => False := by
  induction ms generalizing s with
  | nil => exact ⟨⟨rfl, rfl⟩, ht⟩
  | cons m rest ih =>
    obtain ⟨hm, hrest⟩ : moveLegal m = true ∧ rest.all moveLegal = true := by simpa only [List.all_cons, Bool.and_eq_true] using hl
    obtain ⟨hm', hrest'⟩ : m ≠ .hold ∧ (rest.all fun m => decide (m ≠ .hold)) = true := by
      simpa only [List.all_cons, Bool.and_eq_true, decide_eq_true_eq] using hh
    cases m with
    | pass => exact ⟨⟨hrest, hrest'⟩, ht⟩
    | awaitReady => exact ⟨⟨hl, hh⟩, ht⟩
    | hold => exact absurd rfl hm'
    | engineReset => exact rfl
    | poke space a b => exact ih hrest hrest' ((hostPoke_timeRuns space a b s).trans ht)
    | write offset width v =>
      have hok : accessRefusal offset width = none := of_decide_eq_true hm
      unfold landMoves
      rw [hok]
      exact ih hrest hrest' ((regWrite_timeRuns offset v s).trans ht)
    | read offset width =>
      have hok : accessRefusal offset width = none := of_decide_eq_true hm
      unfold landMoves
      rw [hok]
      exact ih hrest hrest' ht

theorem unhindered_hostKeeps : HostKeeps Unhindered (fun u => u.status.ready = true) fun _ => False where
  turn s h := landMoves_unhindered h.1.1 h.1.2 h.2
  stop s h hstop := by
    rw [h.2] at hstop
    cases hstop
  place _ _ h := h

theorem unhindered_effects : KeptByEffects (fun _ => True) Unhindered fun u => u.status.ready = true where
  waitEnd label o s _ h := by cases o <;> exact h
  busFault _ _ _ _ _ _ := rfl
  sleepFault _ _ _ _ := rfl
  sourceFault _ _ _ _ := rfl
  raised _ _ _ _ := rfl
  done _ _ _ := rfl

/-- A request ends where nothing hinders it (R202). -/
theorem exec_ends {i : Instr} {s : State} (hc : cfgWf s.cfg = true) (h : Unhindered s) :
    ∃ t, exec i s = .next t ∧ t.todo = .skip ∧ t.status.ready = true := by
  have h0 : Unhindered (began s) := h
  have hnext : exec i s = .next ((dispatched (bodyOf i).1 (bodyOf i).2 s).reach (beginRequest s)) := by
    rw [exec_eq_request, request, if_pos hc]
  refine ⟨_, hnext, ?_⟩
  obtain ⟨hs, hr⟩ | ⟨-, hf⟩ := exec_meets unhindered_hostKeeps unhindered_hostKeeps h0
    (run_meets unhindered_hostKeeps unhindered_effects (Prog.all_true _) h0) (fun _ _ _ _ => rfl) (fun _ _ => rfl) hnext
  · exact ⟨hs, hr⟩
  · exact hf.elim

/-! ## What is left of a request in flight -/

/-- The last step of these steps ends a request. -/
def Prog.Closes : Prog → Prop
  | .skip => False
  | .act a => (∃ k, a = .raise k) ∨ a = .complete
  | .seq p q => p.Closes ∨ q.Closes
  | .ifFlag _ p q => p.Closes ∧ q.Closes

/-- Steps that end a request never go on past it, and what is left of them where they are held ends it too. -/
theorem run_closes {p : Prog} (h : p.Closes) (s : State) : (p.run s).Meets (fun _ => False) (fun _ => True) fun u => u.todo.Closes := by
  induction p generalizing s with
  | skip => exact h.elim
  | act a =>
    have hstep {a : Act} {f : State → State} (ha : (Prog.act a).Closes) : (takeStep a (fun s => .ended (f s)) s).Meets (fun _ => False)
        (fun _ => True) fun u => u.todo.Closes := by
      unfold takeStep
      split
      · trivial
      · trivial
      · exact ha
    obtain ⟨k, rfl⟩ | rfl := h
    · exact hstep (.inl ⟨k, rfl⟩)
    · exact hstep (.inr rfl)
  | seq p q ihp ihq =>
    rw [run_seq]
    obtain h | h := h
    · have hp := ihp h s
      cases e : p.run s with
      | going u => rw [e] at hp; exact hp.elim
      | ended u => trivial
      | held u => rw [e] at hp; exact .inl hp
    · cases e : p.run s with
      | going u => exact ihq h u
      | ended u => trivial
      | held u => exact .inr h
  | ifFlag n p q ihp ihq =>
    rw [run_ifFlag]
    split
    · exact ihp h.1 s
    · exact ihq h.2 s

theorem dispatched_closes (g : Gate) (body : Cfg → Prog) (s : State) : (dispatched g body s).Closes := by
  unfold dispatched
  split
  · exact .inl ⟨_, rfl⟩
  · exact .inr (.inr rfl)

theorem exec_closes {i : Instr} {s t : State} (h : exec i s = .next t) (ht : t.todo ≠ .skip) : t.todo.Closes := by
  have hrun := run_closes (dispatched_closes (bodyOf i).1 (bodyOf i).2 s) (began s)
  obtain ⟨hs, -⟩ | ⟨-, h⟩ := exec_of_run hrun h
  · exact absurd hs ht
  · exact h

theorem nextRefusal_legal {s : State} (h : hostLegal s = true) : nextRefusal s.inbox = none := by
  unfold hostLegal at h
  cases hi : s.inbox with
  | nil => rfl
  | cons m rest =>
    rw [hi, List.all_cons, Bool.and_eq_true] at h
    cases m with
    | write offset width v => exact of_decide_eq_true h.1
    | read offset width => exact of_decide_eq_true h.1
    | _ => rfl

/-- A request in flight ends once nothing hinders it (R202). -/
theorem step_ends {s : State} (hc : cfgWf s.cfg = true) (h : Unhindered s) (hclose : s.todo.Closes) :
    ∃ t, step s = .next t ∧ t.todo = .skip ∧ t.status.ready = true := by
  have hne : s.todo ≠ .skip := fun e => by
    rw [e] at hclose
    exact hclose
  refine ⟨_, step_of_inFlight hc hne h.2 (nextRefusal_legal h.1.1), ?_⟩
  have hrun := run_meets unhindered_hostKeeps unhindered_effects s.todo.all_true (s := { s with todo := .skip }) h
  have hends := run_closes hclose { s with todo := .skip }
  have hplaced := run_placed s.todo (s := { s with todo := .skip }) rfl
  unfold Prog.reach
  cases e : s.todo.run { s with todo := .skip } with
  | going u => rw [e] at hends; exact hends.elim
  | ended u => rw [e] at hrun hplaced; exact ⟨hplaced, hrun⟩
  | held u => rw [e] at hrun; exact hrun.elim

/-! ## The end of a run -/

theorem endOfRun_of_ended (k : Nat) {s : State} (h : runEnded s = true) : endOfRun k s = some s := by
  cases k <;> simp [endOfRun, h]

/-! ## Where the time source has stopped -/

/-- What is left of WAIT_BUSY's wait at the step that needs the time source (R93, R95). -/
def hungTodo (c : Cfg) : Prog :=
  if c.hasBusy then .seq (.act (.interval .explicit (c.busyTimeoutUs.toNat / 1000))) .skip
  else .seq (.seq (.act (.delayEnd c.tPartialRefreshMs)) .skip) (.seq (.act .clearLastWait) .skip)

/-- A step that waits is held before it does anything. -/
theorem waitMs_stopped {s : State} {ms : Nat} (hstop : s.env.timeRuns = false) (hms : ms ≠ 0) (a : Act) (now : State → Progress) :
    waitMs ms a now s = .held { s with todo := .act a } := by
  rw [waitMs, if_neg (by simp [hms, hstop])]

section Hung
variable {s : State} (hsil : hostSilent s = true) (hstop : s.env.timeRuns = false)
include hsil hstop

theorem interval_stopped (label : WaitLabel) (n : Nat) (next : State → Progress) :
    pollInterval label n next s = .held { s with todo := .act (.interval label n) } := by
  rw [pollInterval, takeStep_silent hsil]
  exact waitMs_stopped hstop Nat.one_ne_zero _ _

theorem delayEnd_stopped {ms : Nat} (hms : ms ≠ 0) : runAct (.delayEnd ms) s = .held { s with todo := .act (.delayEnd ms) } := by
  rw [runAct, takeStep_silent hsil, delayNow]
  exact waitMs_stopped hstop hms _ _

/-- It is still to do after any number of steps. -/
theorem hungTodo_stays {c : Cfg} (hms : c.hasBusy = true ∨ c.tPartialRefreshMs ≠ 0) :
    (hungTodo c).run s = .held { s with todo := hungTodo c } := by
  unfold hungTodo
  split
  · rw [run_seq, run_act, runAct, interval_stopped hsil hstop, andThen_held]
  · next hb => rw [run_seq, run_seq, run_act, delayEnd_stopped hsil hstop (hms.resolve_left hb), andThen_held, andThen_held]

/-- WAIT_BUSY's wait reaches it with WAITING 1 and nothing logged. -/
theorem waitBusyBody_hangs (hcase : (s.cfg.hasBusy = false ∧ s.cfg.tPartialRefreshMs ≠ 0) ∨
      (s.cfg.hasBusy = true ∧ s.env.busy.peek Config.freeBusyLevel 0 = s.cfg.busyLevel)) :
    ∃ u, (waitBusyBody s.cfg).run s = .held { u with todo := hungTodo s.cfg } ∧ hostSilent u = true ∧ u.env.timeRuns = false ∧
      u.cfg = s.cfg ∧ u.status = { s.status with waiting := true } ∧ u.log = s.log := by
  unfold waitBusyBody waitWhileBusy hungTodo
  obtain ⟨hb, hms⟩ | ⟨hb, hlevel⟩ := hcase
  · refine ⟨setWaiting true s, ?_, hsil, hstop, rfl, rfl, rfl⟩
    rw [hb, if_neg Bool.false_ne_true, if_neg Bool.false_ne_true, steps_cons, run_seq, delay, if_neg hms, steps_cons, run_seq, run_act, runAct,
      takeStep_silent hsil, andThen_going, steps_cons, run_seq, run_act, delayEnd_stopped (s := setWaiting true s) hsil hstop hms, andThen_held,
      andThen_held]
    rfl
  · refine ⟨(readBusy (startTimer (setWaiting true s))).2, ?_, hsil, hstop, rfl, rfl, rfl⟩
    have hactive : ¬ (readBusy (startTimer (setWaiting true s))).1 ≠ s.cfg.busyLevel := fun h => h hlevel
    have hsample : pollLoop .explicit (s.cfg.busyTimeoutUs.toNat / 1000 + 1) (startTimer (setWaiting true s)) =
        pollInterval .explicit (s.cfg.busyTimeoutUs.toNat / 1000) (pollLoop .explicit (s.cfg.busyTimeoutUs.toNat / 1000))
          (readBusy (startTimer (setWaiting true s))).2 := by
      rw [pollLoop, takeStep_silent (s := startTimer (setWaiting true s)) hsil]
      exact if_neg hactive
    rw [if_pos hb, if_pos hb, steps_cons, run_seq, run_act, runAct, takeStep_silent hsil, andThen_going, steps_cons, run_seq, run_act, runAct,
      pollBound, hsample, interval_stopped (s := (readBusy (startTimer (setWaiting true s))).2) hsil hstop, andThen_held]
    rfl

end Hung

/-- A request in flight that the time source holds where it stands hangs (R203). -/
theorem step_hangs {s : State} (hc : cfgWf s.cfg = true) (hsil : hostSilent s = true) (hstop : s.env.timeRuns = false) (ht : s.todo ≠ .skip)
    (hrun : s.todo.run { s with todo := .skip } = .held s) : step s = .fault .timeSourceStopped := by
  have hreach : s.todo.reach s = s := by rw [Prog.reach, hrun, state_held]
  simp [step, fetch, hc, ht, resume, nextRefusal_silent hsil, hreach, hstop]

/-- WAIT_BUSY where the time source has stopped: its wait hangs, and the next step with it. -/
theorem waitBusy_hangs {s : State} (hc : cfgWf s.cfg = true) (hstop : s.env.timeRuns = false) (hsil : hostSilent s = true)
    (hi : s.flags.initDone = true)
    (hcase : (s.cfg.hasBusy = false ∧ s.cfg.tPartialRefreshMs ≠ 0) ∨
      (s.cfg.hasBusy = true ∧ s.env.busy.peek Config.freeBusyLevel 0 = s.cfg.busyLevel)) :
    ∃ t, exec .waitBusy s = .next t ∧ t.status.ready = false ∧ t.status.waiting = true ∧ t.log = s.log ∧
      step t = .fault .timeSourceStopped := by
  obtain ⟨u, hrun, husil, hustop, hcfg, hstatus, hlog⟩ := waitBusyBody_hangs (s := began s) hsil hstop hcase
  have hms : s.cfg.hasBusy = true ∨ s.cfg.tPartialRefreshMs ≠ 0 := hcase.symm.imp And.left And.right
  refine ⟨_, request_held hc (gateFault_plain hi) hrun, by rw [hstatus]; rfl, by rw [hstatus], hlog, ?_⟩
  refine step_hangs (by rw [hcfg]; exact hc) husil hustop (by rintro ⟨⟩) ?_
  exact congrArg (fun p => p.andThen (.act .complete) (Prog.act .complete).run)
    (hungTodo_stays (s := { u with todo := .skip }) husil hustop hms)

/-- Settles O22: while time runs only a hold or a refused access leaves a request in flight; where it has stopped a wait is held
before it does anything. -/
theorem everyRequestEnds : Obligations.EveryRequestEnds := by
  unfold Obligations.EveryRequestEnds
  refine ⟨fun i s hc ht hl hh => exec_ends hc ⟨⟨hl, hh⟩, ht⟩, fun i s t ms htime h ht hl hh => ?_, fun s t k hs h ht => ?_,
    fun s hc hstop hsil hi hcase => waitBusy_hangs hc hstop hsil hi hcase⟩
  · have hc : cfgWf t.cfg = true := by
      rw [exec_cfg h]
      exact (request_next ((exec_eq_request i s).symm.trans h)).1
    have htime' := exec_timeRuns htime h ht
    have hclose := exec_closes h ht
    exact step_ends (s := { t with inbox := ms }) hc ⟨⟨hl, hh⟩, htime'⟩ hclose
  · rw [endOfRun, hs, if_neg Bool.false_ne_true, h]
    exact endOfRun_of_ended k ht

end Sys2Proof.Machine

/-!
Two runs of the same steps from states that differ only in what the host and the bus and source oracles will do: they take the same
steps, each doing the same to both states, until those answers or the host's moves tell them apart.
-/
namespace Sys2Proof.Machine

/-! ## What drives a run -/

/-- What the host and the two fault oracles give to a run: the request registers, the moves to come, the answers to come. -/
structure Drive where
  req : Desc
  inbox : List HostMove
  bus : Oracle Bool
  source : Oracle Bool

def State.drive (s : State) : Drive := { req := s.req, inbox := s.inbox, bus := s.env.bus, source := s.env.source }

/-- The state with another drive. -/
def State.withDrive (d : Drive) (s : State) : State :=
  { s with req := d.req, inbox := d.inbox, env := { s.env with bus := d.bus, source := d.source } }

/-- What two runs lead to: both go on, end or are held, with related states; or they have come apart. -/
inductive Progress.Rel (S E H : State → State → Prop) (X : Progress → Progress → Prop) : Progress → Progress → Prop
  | going {u v : State} (h : S u v) : Rel S E H X (.going u) (.going v)
  | ended {u v : State} (h : E u v) : Rel S E H X (.ended u) (.ended v)
  | held {u v : State} (h : H u v) : Rel S E H X (.held u) (.held v)
  | apart {p q : Progress} (h : X p q) : Rel S E H X p q

/-- The second state is the first with another drive, related to the first's by J; and P holds of the first. -/
def Together (P : State → Prop) (J : Drive → Drive → Prop) (u v : State) : Prop := ∃ d, v = u.withDrive d ∧ P u ∧ J u.drive d

/-- What keeps two runs together until they come apart, for steps among A. -/
structure Lockstep (A : Act → Prop) (P : State → Prop) (J : Drive → Drive → Prop) (E H : State → State → Prop)
    (X : Progress → Progress → Prop) : Prop where
  kept : KeptByEffects A P fun _ => True
  /-- The host's turn before a step. -/
  turn : ∀ {a now u v}, runAct a = takeStep a now → Together P J u v →
    (∀ u v, Together P J u v → (now u).Rel (Together P J) E H X (now v)) → (takeStep a now u).Rel (Together P J) E H X (takeStep a now v)
  /-- The bus answers both alike, or the transfer tells them apart. -/
  bus : ∀ {u d}, Transfers A → u.flags.hibernating = false → P u → J u.drive d →
    (d.bus.peek Config.freeBusFailure 0 = u.env.bus.peek Config.freeBusFailure 0 ∧
      J { u.drive with bus := u.env.bus.skip 1 } { d with bus := d.bus.skip 1 }) ∨
    ∀ b, X (transferNow b u) (transferNow b (u.withDrive d))
  /-- The source answers both alike, or the read tells them apart. -/
  source : ∀ {u d}, Streams A → P u → J u.drive d →
    (d.source.peek Config.freeSourceError 0 = u.env.source.peek Config.freeSourceError 0 ∧
      J { u.drive with source := u.env.source.skip 1 } { d with source := d.source.skip 1 }) ∨
    ∀ space inv a, X (streamNow space inv a u) (streamNow space inv a (u.withDrive d))
  busFault : ∀ {b : ByteKind × Byte} {u d}, Transfers A → u.flags.hibernating = false → u.env.bus.peek Config.freeBusFailure 0 = true → P u →
    J u.drive d →
    E (raiseFault .busError (drawBus (driveByte b.1 b.2 u)).2) (raiseFault .busError (drawBus (driveByte b.1 b.2 (u.withDrive d))).2)
  sourceFault : ∀ {u d}, Streams A → u.env.source.peek Config.freeSourceError 0 = true → P u → J u.drive d →
    E (raiseFault .sourceError (drawSource u).2) (raiseFault .sourceError (drawSource (u.withDrive d)).2)
  raised : ∀ {k u v}, Together P J u v → E (raiseFault k u) (raiseFault k v)
  done : ∀ {u v}, Together P J u v → E (completed u) (completed v)
  stop : ∀ {u v} p, Together P J u v → u.env.timeRuns = false → H { u with todo := p } { v with todo := p }
  place : ∀ {u v} r, H u v → H { u with todo := .seq u.todo r } { v with todo := .seq v.todo r }
  apart : ∀ {p q : Progress} (r : Prog), X p q → X (p.andThen r r.run) (q.andThen r r.run)

section Lockstep
variable {A : Act → Prop} {P : State → Prop} {J : Drive → Drive → Prop} {E H : State → State → Prop} {X : Progress → Progress → Prop}

/-- An effect of the engine that neither reads nor writes what drives the run. -/
theorem Together.effect {f : State → State} {u v : State} (hf : ∀ d s, f (State.withDrive d s) = (f s).withDrive d)
    (hd : ∀ s, (f s).drive = s.drive) (hP : P u → P (f u)) (h : Together P J u v) : Together P J (f u) (f v) := by
  obtain ⟨d, rfl, hu, hj⟩ := h
  exact ⟨d, hf d u, hP hu, by rw [hd]; exact hj⟩

variable (L : Lockstep A P J E H X)
include L

/-- A step that only has such an effect. -/
theorem Lockstep.step {a : Act} {f : State → State} (ha : runAct a = takeStep a fun s => .going (f s))
    (hf : ∀ d s, f (State.withDrive d s) = (f s).withDrive d) (hd : ∀ s, (f s).drive = s.drive) (hP : ∀ u, P u → P (f u)) {u v : State}
    (h : Together P J u v) : (runAct a u).Rel (Together P J) E H X (runAct a v) := by
  rw [ha]
  exact L.turn ha h fun u v h => .going (h.effect hf hd (hP u))

theorem Lockstep.waitMs {ms : Nat} {a : Act} {now : State → Progress} {u v : State} (h : Together P J u v)
    (hn : (now u).Rel (Together P J) E H X (now v)) : (Machine.waitMs ms a now u).Rel (Together P J) E H X (Machine.waitMs ms a now v) := by
  have htime : v.env.timeRuns = u.env.timeRuns := by
    obtain ⟨d, rfl, -⟩ := h
    rfl
  unfold Machine.waitMs
  rw [htime]
  split
  · exact hn
  · next hstop => exact .held (L.stop _ h (by simpa using (not_or.1 hstop).2))

theorem Lockstep.transfer (hA : Transfers A) (b : ByteKind × Byte) {u v : State} (h : Together P J u v) :
    (Machine.transfer b u).Rel (Together P J) E H X (Machine.transfer b v) := by
  refine L.turn (a := .send b) rfl h fun u v h => ?_
  obtain ⟨d, rfl, hu, hj⟩ := h
  cases hh : u.flags.hibernating with
  | true =>
    rw [transferNow_asleep hh, transferNow_asleep (s := u.withDrive d) hh]
    exact .ended (L.raised ⟨d, rfl, hu, hj⟩)
  | false =>
    obtain ⟨hsame, hj'⟩ | hapart := L.bus hA hh hu hj
    · cases hb : u.env.bus.peek Config.freeBusFailure 0 with
      | true =>
        rw [transferNow_fails hh hb, transferNow_fails (s := u.withDrive d) hh (hsame.trans hb)]
        exact .ended (L.busFault hA hh hb hu hj)
      | false =>
        rw [transferNow_ok hh hb, transferNow_ok (s := u.withDrive d) hh (hsame.trans hb)]
        exact .going ⟨{ d with bus := d.bus.skip 1 }, rfl, L.kept.sent b u hA hh hb hu, hj'⟩
    · exact .apart (hapart b)

theorem Lockstep.stream {space : Space} {inv : Bool} {a : Word} (hA : A (.stream space inv a)) {u v : State} (h : Together P J u v) :
    (streamNow space inv a u).Rel (Together P J) E H X (streamNow space inv a v) := by
  obtain ⟨d, rfl, hu, hj⟩ := h
  have hA' : Streams A := ⟨_, _, _, hA⟩
  obtain ⟨hsame, hj'⟩ | hapart := L.source hA' hu hj
  · cases hs : u.env.source.peek Config.freeSourceError 0 with
    | true =>
      rw [streamNow_fails hs, streamNow_fails (s := u.withDrive d) (hsame.trans hs)]
      exact .ended (L.sourceFault hA' hs hu hj)
    | false =>
      rw [streamNow_ok hs, streamNow_ok (s := u.withDrive d) (hsame.trans hs)]
      have hbyte : engineByte space a (u.withDrive d) = engineByte space a u := by
        cases space <;> rfl
      rw [hbyte]
      exact L.transfer (.inr ⟨_, _, _, hA⟩) _ ⟨{ d with source := d.source.skip 1 }, rfl, L.kept.source u hA' hs hu, hj'⟩
  · exact .apart (hapart space inv a)

theorem Together.endWait (hA : Polls A) (label : WaitLabel) (o : WaitOutcome) {u v : State} (h : Together P J u v) :
    Together P J (endWait label o u) (endWait label o v) :=
  h.effect (fun d s => by cases o <;> rfl) (fun s => by cases o <;> rfl) (L.kept.waitEnd label o u hA)

theorem Lockstep.pollInterval (hA : Polls A) (label : WaitLabel) (n : Nat) {next : State → Progress}
    (ha : runAct (.interval label n) = Machine.pollInterval label n next)
    (hn : ∀ u v, Together P J u v → (next u).Rel (Together P J) E H X (next v)) {u v : State} (h : Together P J u v) :
    (Machine.pollInterval label n next u).Rel (Together P J) E H X (Machine.pollInterval label n next v) := by
  refine L.turn ha h fun u v h => L.waitMs h ?_
  have hcfg : v.cfg = u.cfg := by
    obtain ⟨d, rfl, -⟩ := h
    rfl
  dsimp only
  rw [hcfg]
  have h' : Together P J (advanceClock (pollMicros u.cfg.busyTimeoutUs) u) (advanceClock (pollMicros u.cfg.busyTimeoutUs) v) :=
    h.effect (fun _ _ => rfl) (fun _ => rfl) (L.kept.clock _ u hA)
  have hexpired : pollExpired (advanceClock (pollMicros u.cfg.busyTimeoutUs) v) = pollExpired (advanceClock (pollMicros u.cfg.busyTimeoutUs) u) := by
    obtain ⟨d, rfl, -⟩ := h
    rfl
  rw [hexpired]
  split
  · exact .going (Together.endWait L hA label .timeout h')
  · exact hn _ _ h'

theorem Lockstep.pollLoop (hA : Polls A) (label : WaitLabel) (n : Nat) {u v : State} (h : Together P J u v) :
    (Machine.pollLoop label n u).Rel (Together P J) E H X (Machine.pollLoop label n v) := by
  induction n generalizing u v with
  | zero => exact L.turn (a := .sample label 0) rfl h fun u v h => .going (Together.endWait L hA label .timeout h)
  | succ n ih =>
    refine L.turn (a := .sample label (n + 1)) rfl h fun u v h => ?_
    have h' : Together P J (readBusy u).2 (readBusy v).2 := h.effect (f := fun s => (readBusy s).2) (fun _ _ => rfl) (fun _ => rfl) (L.kept.busy u hA)
    have hlevel : (readBusy v).1 = (readBusy u).1 ∧ (readBusy v).2.cfg = (readBusy u).2.cfg := by
      obtain ⟨d, rfl, -⟩ := h
      exact ⟨rfl, rfl⟩
    dsimp only
    rw [hlevel.1, hlevel.2]
    split
    · exact .going (Together.endWait L hA label .released h')
    · exact L.pollInterval hA label n rfl (fun u v h => ih h) h'

theorem Lockstep.runAct {a : Act} (ha : A a) {u v : State} (h : Together P J u v) :
    (Machine.runAct a u).Rel (Together P J) E H X (Machine.runAct a v) := by
  cases a with
  | send b => exact L.transfer (.inl ⟨b, ha⟩) b h
  | stream space inv a => exact L.turn (a := .stream space inv a) rfl h fun u v h => L.stream ha h
  | setFlag n v => exact L.step (f := setFlag n v) rfl (fun _ _ => rfl) (fun _ => rfl) (fun u => L.kept.flag n v u ha) h
  | initBegin => exact L.step (f := Machine.initBegin) rfl (fun _ _ => rfl) (fun _ => rfl) (fun u => L.kept.initBegin u ha) h
  | clearLastWait => exact L.step (f := Machine.clearLastWait) rfl (fun _ _ => rfl) (fun _ => rfl) (fun u => L.kept.lastWait u ha) h
  | lineSetup => exact L.step (f := configureLines) rfl (fun _ _ => rfl) (fun _ => rfl) (fun u => L.kept.lines u ha) h
  | busSetup => exact L.step (f := emit .busSetup) rfl (fun _ _ => rfl) (fun _ => rfl) (fun u => L.kept.bus u ha) h
  | resetLow => exact L.step (f := setRst .low) rfl (fun _ _ => rfl) (fun _ => rfl) (fun u => L.kept.rstLow u ha) h
  | resetPulse style ms =>
    exact L.turn (a := .resetPulse style ms) rfl h fun u v h =>
      L.waitMs h (.going (h.effect (f := fun s => emit (.resetPulse style) (setRst (rstAfter style) s)) (fun _ _ => rfl) (fun _ => rfl)
        (L.kept.pulse style ms u ha)))
  | delayBegin => exact L.step (f := setWaiting true) rfl (fun _ _ => rfl) (fun _ => rfl) (fun u => L.kept.delayBegin u ha) h
  | delayEnd ms =>
    exact L.turn (a := .delayEnd ms) rfl h fun u v h =>
      L.waitMs h (.going (h.effect (f := fun s => setWaiting false (emit (.delay ms) s)) (fun _ _ => rfl) (fun _ => rfl)
        (L.kept.delayEnd ms u ha)))
  | waitBegin => exact L.step (f := fun s => startTimer (setWaiting true s)) rfl (fun _ _ => rfl) (fun _ => rfl) (fun u => L.kept.waitBegin u ha) h
  | sample label n => exact L.pollLoop ⟨label, n, .inl ha⟩ label n h
  | interval label n =>
    have hA : Polls A := ⟨label, n, .inr ha⟩
    exact L.pollInterval hA label n rfl (fun u v h => L.pollLoop hA label n h) h
  | raise k => exact L.turn (a := .raise k) rfl h fun u v h => .ended (L.raised h)
  | complete => exact L.turn (a := .complete) rfl h fun u v h => .ended (L.done h)

theorem Lockstep.andThen {p q : Progress} {r : Prog} (h : p.Rel (Together P J) E H X q)
    (hr : ∀ u v, Together P J u v → (r.run u).Rel (Together P J) E H X (r.run v)) :
    (p.andThen r r.run).Rel (Together P J) E H X (q.andThen r r.run) := by
  cases h with
  | going h => exact hr _ _ h
  | ended h => exact .ended h
  | held h => exact .held (L.place r h)
  | apart h => exact .apart (L.apart r h)

/-- A program of steps among A keeps two runs together until they come apart. -/
theorem Lockstep.run {p : Prog} (hp : p.All A) {u v : State} (h : Together P J u v) :
    (p.run u).Rel (Together P J) E H X (p.run v) := by
  induction p generalizing u v with
  | skip => exact .going h
  | act a => exact L.runAct hp h
  | seq p q ihp ihq => exact L.andThen (ihp hp.1 h) fun u v h => ihq hp.2 h
  | ifFlag n p q ihp ihq =>
    have hflags : v.flags = u.flags := by
      obtain ⟨d, rfl, -⟩ := h
      rfl
    rw [run_ifFlag, run_ifFlag, hflags]
    split
    · exact ihp hp.1 h
    · exact ihq hp.2 h

/-- A request's routine, and READY <- 1 after it, or the fault of its dispatch. -/
theorem Lockstep.dispatched {i : Instr} {s : State} {d : Drive} (hp : ((bodyOf i).2 s.cfg).All A) (h0 : P (began s)) (hj : J (began s).drive d) :
    ((Machine.dispatched (bodyOf i).1 (bodyOf i).2 s).run (began s)).Rel (Together P J) E H X
      ((Machine.dispatched (bodyOf i).1 (bodyOf i).2 s).run ((began s).withDrive d)) := by
  have h : Together P J (began s) ((began s).withDrive d) := ⟨d, rfl, h0, hj⟩
  unfold Machine.dispatched
  split
  · exact L.turn (a := .raise _) rfl h fun u v h => .ended (L.raised h)
  · exact L.andThen (L.run hp h) fun u v h => L.turn (a := .complete) rfl h fun u v h => .ended (L.done h)

omit L in
theorem Progress.Rel.notGoing {S : State → State → Prop} {p q : Progress} (h : p.Rel S E H X q) (hp : ∀ u, p ≠ .going u) :
    p.Rel (fun _ _ => False) E H X q := by
  cases h with
  | going _ => exact absurd rfl (hp _)
  | ended h => exact .ended h
  | held h => exact .held h
  | apart h => exact .apart h

omit L in
theorem dispatched_congr {g : Gate} {body : Cfg → Prog} {s s' : State} (hcfg : s'.cfg = s.cfg) (hflags : s'.flags = s.flags) :
    Machine.dispatched g body s' = Machine.dispatched g body s := by
  simp [Machine.dispatched, gateFault, hcfg, hflags]

/-- A request from two states that differ in what drives it. -/
theorem Lockstep.exec {i : Instr} {s s' t : State} {d : Drive} (hp : ((bodyOf i).2 s.cfg).All A) (h0 : P (began s))
    (hj : J (began s).drive d) (hs : began s' = (began s).withDrive d) (h : exec i s = .next t) :
    ∃ p q : Progress, p.state = t ∧ Machine.exec i s' = .next q.state ∧ p.Placed ∧ q.Placed ∧ p.Rel (fun _ _ => False) E H X q := by
  have hcfg : s'.cfg = s.cfg := by
    have e := congrArg State.cfg hs
    exact e
  have hflags : s'.flags = s.flags := by
    have e := congrArg State.flags hs
    exact e
  have hwf : cfgWf s'.cfg = true := by
    rw [hcfg]
    exact (request_next ((exec_eq_request i s).symm.trans h)).1
  have hrel := L.dispatched hp h0 hj
  rw [← hs] at hrel
  refine ⟨_, _, (exec_reach h).symm, ?_, run_placed _ rfl, run_placed _ rfl, hrel.notGoing (dispatched_not_going _ _ s (began s))⟩
  rw [exec_eq_request, request, if_pos hwf, dispatched_congr hcfg hflags]
  rfl

end Lockstep

/-! ## Writes to the request registers (R16, R18) -/

/-- The same moves with the values written to REQ0 to REQ7 blotted out; the registers may differ. -/
def Masked (d e : Drive) : Prop :=
  d.inbox.any readsRequest = false ∧ e.inbox = d.inbox.map maskRequest ∧ e.bus = d.bus ∧ e.source = d.source

/-- The second state is the first with the moves to come blotted out, but for the request registers. -/
def MaskedState (u v : State) : Prop := ∃ r, v = { u.maskRequests with req := r }

/-- A request is under way, and no move to come reads the request registers. -/
def MaskedTogether : State → State → Prop := Together (fun u => u.status.ready = false) Masked

theorem MaskedTogether.state {u v : State} (h : MaskedTogether u v) : MaskedState u v := by
  obtain ⟨d, rfl, -, -, hinbox, hbus, hsource⟩ := h
  refine ⟨d.req, ?_⟩
  unfold State.maskRequests State.withDrive
  rw [hinbox, hbus, hsource]
  rfl

theorem MaskedState.placed {u v : State} (p : Prog) (h : MaskedState u v) : MaskedState { u with todo := p } { v with todo := p } := by
  obtain ⟨r, rfl⟩ := h
  exact ⟨r, rfl⟩

theorem MaskedState.raised {u v : State} (k : FaultKind) (h : MaskedState u v) : MaskedState (raiseFault k u) (raiseFault k v) := by
  obtain ⟨r, rfl⟩ := h
  exact ⟨r, rfl⟩

theorem MaskedState.completed {u v : State} (h : MaskedState u v) : MaskedState (completed u) (completed v) := by
  obtain ⟨r, rfl⟩ := h
  exact ⟨r, rfl⟩

theorem hostPoke_withDrive (space : Space) (a : Word) (b : Byte) (d : Drive) (s : State) :
    hostPoke space a b (s.withDrive d) = (hostPoke space a b s).withDrive d := by
  unfold hostPoke
  rw [show (s.withDrive d).status = s.status from rfl]
  split <;> cases space <;> rfl

/-- With READY 0 a register write changes the request registers alone, or does not depend on them. -/
theorem regWrite_withDrive {offset : Nat} {v v' : Word} (hv : offset < 0x20 ∨ v' = v) (d : Drive) {s : State} (hr : s.status.ready = false) :
    ∃ r, regWrite offset v' (s.withDrive d) = (regWrite offset v s).withDrive { d with req := r } := by
  unfold regWrite
  split
  · exact ⟨_, rfl⟩
  · next ho =>
    rw [hv.resolve_left ho]
    refine ⟨d.req, ?_⟩
    split
    · have hstart (w : State) (hw : w.status.ready = false) : onGoWrite v w = if v.getLsbD 0 then setDrop w else w := by
        simp [onGoWrite, startTaken, hw]
      rw [hstart s hr, hstart (s.withDrive d) hr]
      split <;> rfl
    · rfl

theorem hostPoke_drive (space : Space) (a : Word) (b : Byte) (s : State) : (hostPoke space a b s).drive = s.drive := by
  unfold hostPoke State.drive
  split <;> simp [raceByte]

theorem regWrite_env (offset : Nat) (v : Word) (s : State) : (regWrite offset v s).env = s.env := by
  obtain ⟨d, sh, st, hw⟩ := regWrite_eq offset v s
  have hs : regWrite offset v s = { s with req := d, shadow := sh, status := st } := hw s.inbox s.todo
  rw [hs]

theorem regRead_withDrive {offset : Nat} (h : ¬ offset < 0x20) (d : Drive) (s : State) : regRead offset (s.withDrive d) = regRead offset s := by
  unfold regRead
  rw [if_neg h, if_neg h]
  rfl

/-- The host's turn keeps two such runs together: neither sees what it writes to the request registers. -/
theorem landMoves_masked {ms : List HostMove} (hms : ms.any readsRequest = false) {u : State} (hr : u.status.ready = false) {d : Drive}
    (hbus : d.bus = u.env.bus) (hsource : d.source = u.env.source) :
    (landMoves ms u).Rel MaskedTogether MaskedState MaskedState (fun _ _ => False) (landMoves (ms.map maskRequest) (u.withDrive d)) := by
  have hleft {rest : List HostMove} (hrest : rest.any readsRequest = false) {u : State} (hr : u.status.ready = false) {d : Drive}
      (hbus : d.bus = u.env.bus) (hsource : d.source = u.env.source) :
      MaskedTogether { u with inbox := rest } { u.withDrive d with inbox := rest.map maskRequest } :=
    ⟨{ d with inbox := rest.map maskRequest }, rfl, hr, hrest, rfl, hbus, hsource⟩
  induction ms generalizing u d with
  | nil => exact .going (hleft rfl hr hbus hsource)
  | cons m rest ih =>
    have hrest : rest.any readsRequest = false := by
      rw [List.any_cons, Bool.or_eq_false_iff] at hms
      exact hms.2
    cases m with
    | pass => exact .going (hleft hrest hr hbus hsource)
    | awaitReady => exact .going (hleft hms hr hbus hsource)
    | hold => exact .held (hleft hrest hr hbus hsource).state
    | engineReset =>
      refine .ended ⟨descZero, ?_⟩
      show engineReset { u.withDrive d with inbox := rest.map maskRequest } = _
      simp [engineReset, State.resetOf, State.withDrive, State.maskRequests, hbus, hsource]
    | poke space a b =>
      have hdrive := hostPoke_drive space a b u
      show (landMoves rest (hostPoke space a b u)).Rel _ _ _ _ (landMoves (rest.map maskRequest) (hostPoke space a b (u.withDrive d)))
      rw [hostPoke_withDrive]
      exact ih hrest (inFlight_keptByHost.poke space a b u hr) (hbus.trans (congrArg Drive.bus hdrive).symm)
        (hsource.trans (congrArg Drive.source hdrive).symm)
    | write offset width v =>
      show (landMoves (.write offset width v :: rest) u).Rel _ _ _ _
        (landMoves (.write offset width (if offset < 0x20 then 0 else v) :: rest.map maskRequest) (u.withDrive d))
      unfold landMoves
      cases hok : accessRefusal offset width with
      | some r => exact .held (hleft hms hr hbus hsource).state
      | none =>
        obtain ⟨q, hq⟩ := regWrite_withDrive (v := v) (v' := if offset < 0x20 then 0 else v) (offset := offset)
          (by by_cases h : offset < 0x20 <;> simp [h]) d hr
        have henv := regWrite_env offset v u
        dsimp only
        rw [hq]
        exact ih hrest (inFlight_keptByHost.write offset v u (accessRefusal_width hok) hr) (by rw [henv]; exact hbus) (by rw [henv]; exact hsource)
    | read offset width =>
      have ho : ¬ offset < 0x20 := by
        rw [List.any_cons, Bool.or_eq_false_iff] at hms
        exact of_decide_eq_false hms.1
      show (landMoves (.read offset width :: rest) u).Rel _ _ _ _ (landMoves (.read offset width :: rest.map maskRequest) (u.withDrive d))
      unfold landMoves
      cases accessRefusal offset width with
      | some r => exact .held (hleft hms hr hbus hsource).state
      | none =>
        dsimp only
        rw [regRead_withDrive ho]
        exact ih (u := { u with replies := u.replies ++ [regRead offset u] }) hrest hr hbus hsource

theorem masked_lockstep : Lockstep (fun _ => True) (fun s => s.status.ready = false) Masked MaskedState MaskedState fun _ _ => False where
  kept :=
    { busFault := fun _ _ _ _ _ _ => trivial
      sleepFault := fun _ _ _ _ => trivial
      sourceFault := fun _ _ _ _ => trivial
      waitEnd := fun _ o _ _ h => by cases o <;> exact h
      raised := fun _ _ _ _ => trivial
      done := fun _ _ _ => trivial }
  turn {a now u v} _ h hn := by
    obtain ⟨d, rfl, hr, hms, hinbox, hbus, hsource⟩ := h
    have hturn := landMoves_masked hms hr hbus hsource
    unfold takeStep hostTurn
    rw [show (u.withDrive d).inbox = u.inbox.map maskRequest from hinbox]
    rw [show u.drive.inbox = u.inbox from rfl] at hturn
    revert hturn
    generalize landMoves u.inbox u = p
    generalize landMoves (u.inbox.map maskRequest) (u.withDrive d) = q
    intro hturn
    cases hturn with
    | going h => exact hn _ _ h
    | ended h => exact .ended h
    | held h => exact .held (h.placed _)
    | apart h => exact h.elim
  bus _ _ _ h := by
    obtain ⟨hms, hinbox, hbus, hsource⟩ := h
    exact .inl ⟨congrArg (fun o => Oracle.peek Config.freeBusFailure o 0) hbus, hms, hinbox, congrArg (·.skip 1) hbus, hsource⟩
  source _ _ h := by
    obtain ⟨hms, hinbox, hbus, hsource⟩ := h
    exact .inl ⟨congrArg (fun o => Oracle.peek Config.freeSourceError o 0) hsource, hms, hinbox, hbus, congrArg (·.skip 1) hsource⟩
  busFault {b u d} _ _ _ hr h := by
    obtain ⟨hms, hinbox, hbus, hsource⟩ := h
    have hdrawn : MaskedTogether (drawBus (driveByte b.1 b.2 u)).2 (drawBus (driveByte b.1 b.2 (u.withDrive d))).2 :=
      ⟨{ d with bus := d.bus.skip 1 }, rfl, hr, hms, hinbox, congrArg (·.skip 1) hbus, hsource⟩
    exact hdrawn.state.raised _
  sourceFault {u d} _ _ hr h := by
    obtain ⟨hms, hinbox, hbus, hsource⟩ := h
    have hdrawn : MaskedTogether (drawSource u).2 (drawSource (u.withDrive d)).2 :=
      ⟨{ d with source := d.source.skip 1 }, rfl, hr, hms, hinbox, hbus, congrArg (·.skip 1) hsource⟩
    exact hdrawn.state.raised _
  raised h := (MaskedTogether.state h).raised _
  done h := (MaskedTogether.state h).completed
  stop p h _ := (MaskedTogether.state h).placed p
  place r h := by
    obtain ⟨q, rfl⟩ := h
    exact ⟨q, rfl⟩
  apart _ h := h

/-- Settles O24: a run and the run with the written values blotted out stay together, for no step reads the request registers. -/
theorem requestRegistersNotSeen : Obligations.RequestRegistersNotSeen := by
  unfold Obligations.RequestRegistersNotSeen
  intro i s t hms h
  obtain ⟨p, q, rfl, hnext, -, -, hrel⟩ := masked_lockstep.exec (d := { s.drive with inbox := s.inbox.map maskRequest })
    (s' := s.maskRequests) (Prog.all_true _) rfl ⟨hms, rfl, rfl, rfl⟩ rfl h
  refine ⟨_, hnext, ?_⟩
  have hstate {u v : State} (h : MaskedState u v) : v = { u.maskRequests with req := v.req } := by
    obtain ⟨r, rfl⟩ := h
    rfl
  cases hrel with
  | going hr => exact hr.elim
  | ended hr => exact hstate hr
  | held hr => exact hstate hr
  | apart hr => exact hr.elim

end Sys2Proof.Machine

/-!
A hold of the host changes nothing of a request (log 5): the run with the hold and the run without it are the same up to the hold, and
from there the next step goes on as the other run does.
-/
namespace Sys2Proof.Machine

/-! ## A hold among the host's moves -/

theorem hostPoke_inbox (space : Space) (a : Word) (b : Byte) (l : List HostMove) (s : State) :
    hostPoke space a b { s with inbox := l } = { hostPoke space a b s with inbox := l } := by
  unfold hostPoke
  dsimp only
  split <;> cases space <;> rfl

theorem regWrite_inbox (offset : Nat) (v : Word) (l : List HostMove) (s : State) :
    regWrite offset v { s with inbox := l } = { regWrite offset v s with inbox := l } := by
  obtain ⟨d, sh, st, hw⟩ := regWrite_eq offset v s
  have hs : regWrite offset v s = { s with req := d, shadow := sh, status := st } := hw s.inbox s.todo
  have hl : regWrite offset v { s with inbox := l } = { s with req := d, shadow := sh, status := st, inbox := l } := hw l s.todo
  rw [hl, hs]

/-- The moves that land do not depend on those that the state holds. -/
theorem landMoves_inbox (ms l : List HostMove) (s : State) : landMoves ms { s with inbox := l } = landMoves ms s := by
  induction ms generalizing s with
  | nil => rfl
  | cons m rest ih =>
    cases m with
    | poke space a b =>
      show landMoves rest (hostPoke space a b { s with inbox := l }) = landMoves rest (hostPoke space a b s)
      rw [hostPoke_inbox, ih]
    | write offset width v =>
      unfold landMoves
      cases accessRefusal offset width with
      | some r => rfl
      | none =>
        dsimp only
        rw [regWrite_inbox, ih]
    | read offset width =>
      unfold landMoves
      cases accessRefusal offset width with
      | some r => rfl
      | none => exact ih { s with replies := s.replies ++ [regRead offset s] }
    | _ => rfl

/-- Moves that R30 does not refuse, without a hold. -/
def FreeMoves (ms : List HostMove) : Prop := ms.all moveLegal = true ∧ (ms.all fun m => decide (m ≠ .hold)) = true

theorem freeMoves_cons {m : HostMove} {ms : List HostMove} : FreeMoves (m :: ms) ↔ (moveLegal m = true ∧ m ≠ .hold) ∧ FreeMoves ms := by
  simp only [FreeMoves, List.all_cons, Bool.and_eq_true, decide_eq_true_eq]
  exact ⟨fun ⟨⟨hl, hls⟩, hh, hhs⟩ => ⟨⟨hl, hh⟩, hls, hhs⟩, fun ⟨⟨hl, hh⟩, hls, hhs⟩ => ⟨⟨hl, hls⟩, hh, hhs⟩⟩

/-- What the host's turn leads to where a hold is ahead: on, with the hold still ahead; to the request's end, at the engine's reset; or
to the hold, after which the moves behind it land as they do without it. -/
theorem landMoves_hold {ms : List HostMove} (hms : FreeMoves ms) (rest : List HostMove) (s : State) :
    (∃ (u : State) (ms' : List HostMove), FreeMoves ms' ∧ u.todo = s.todo ∧ u.env.timeRuns = s.env.timeRuns ∧
      landMoves (ms ++ .hold :: rest) s = .going { u with inbox := ms' ++ .hold :: rest } ∧
      landMoves (ms ++ rest) s = .going { u with inbox := ms' ++ rest }) ∨
    (∃ u v, landMoves (ms ++ .hold :: rest) s = .ended u ∧ landMoves (ms ++ rest) s = .ended v) ∨
    ∃ u : State, u.todo = s.todo ∧ u.env.timeRuns = s.env.timeRuns ∧ u.inbox = rest ∧ landMoves (ms ++ .hold :: rest) s = .held u ∧
      landMoves (ms ++ rest) s = landMoves rest u := by
  induction ms generalizing s with
  | nil => exact .inr (.inr ⟨{ s with inbox := rest }, rfl, rfl, rfl, rfl, (landMoves_inbox rest rest s).symm⟩)
  | cons m more ih =>
    obtain ⟨⟨hm, hne⟩, hmore⟩ := freeMoves_cons.1 hms
    cases m with
    | pass => exact .inl ⟨s, more, hmore, rfl, rfl, rfl, rfl⟩
    | awaitReady => exact .inl ⟨s, _, hms, rfl, rfl, rfl, rfl⟩
    | hold => exact absurd rfl hne
    | engineReset => exact .inr (.inl ⟨_, _, rfl, rfl⟩)
    | poke space a b =>
      have h := ih hmore (hostPoke space a b s)
      rw [hostPoke_todo, hostPoke_timeRuns] at h
      exact h
    | write offset width v =>
      have hok : accessRefusal offset width = none := of_decide_eq_true hm
      have h := ih hmore (regWrite offset v s)
      rw [regWrite_todo, regWrite_timeRuns] at h
      simp only [List.cons_append, landMoves, hok]
      exact h
    | read offset width =>
      have hok : accessRefusal offset width = none := of_decide_eq_true hm
      simp only [List.cons_append, landMoves, hok]
      exact ih hmore { s with replies := s.replies ++ [regRead offset s] }

/-! ## The two runs -/

/-- The first run has a hold ahead, the second has the same moves without it. -/
def HoldAhead (rest : List HostMove) (d e : Drive) : Prop :=
  ∃ ms, FreeMoves ms ∧ d.inbox = ms ++ .hold :: rest ∧ e = { d with inbox := ms ++ rest }

/-- The first run is held, and from there what is left of it leads to what the second leads to. -/
def HeldFirst (rest : List HostMove) (p q : Progress) : Prop :=
  ∃ t, p = .held t ∧ t.inbox = rest ∧ t.env.timeRuns = true ∧ q = t.todo.run { t with todo := .skip }

theorem hold_lockstep (rest : List HostMove) : Lockstep (fun _ => True) (fun s => s.todo = .skip ∧ s.env.timeRuns = true) (HoldAhead rest)
    (fun _ _ => True) (fun _ _ => False) (HeldFirst rest) where
  kept :=
    { busFault := fun _ _ _ _ _ _ => trivial
      sleepFault := fun _ _ _ _ => trivial
      sourceFault := fun _ _ _ _ => trivial
      waitEnd := fun _ o _ _ h => by cases o <;> exact h
      raised := fun _ _ _ _ => trivial
      done := fun _ _ _ => trivial }
  turn {a now u v} ha h hn := by
    obtain ⟨d, rfl, ⟨htodo, htime⟩, ms, hms, hinbox, rfl⟩ := h
    have hu : hostTurn u = landMoves (ms ++ .hold :: rest) u := by
      unfold hostTurn
      rw [show u.inbox = _ from hinbox]
    have hv : hostTurn (u.withDrive { u.drive with inbox := ms ++ rest }) = landMoves (ms ++ rest) u :=
      landMoves_inbox (ms ++ rest) (ms ++ rest) u
    obtain ⟨w, ms', hms', htodo', htime', hgu, hgv⟩ | ⟨w, w', heu, hev⟩ | ⟨w, htodo', htime', hwin, hheld, hland⟩ := landMoves_hold hms rest u
    · unfold takeStep
      rw [hu, hv, hgu, hgv]
      exact hn _ _ ⟨_, rfl, ⟨htodo'.trans htodo, htime'.trans htime⟩, ms', hms', rfl, rfl⟩
    · unfold takeStep
      rw [hu, hv, heu, hev]
      exact .ended trivial
    · refine .apart ⟨{ w with todo := .act a }, ?_, hwin, htime'.trans htime, ?_⟩
      · unfold takeStep
        rw [hu, hheld]
      · have hw : ({ w with todo := .skip } : State) = w := by rw [← htodo'.trans htodo]
        show takeStep a now _ = runAct a { w with todo := .skip }
        rw [hw, ha, takeStep, takeStep, hv, hland, hostTurn, hwin]
  bus _ _ _ h := by
    obtain ⟨ms, hms, hinbox, rfl⟩ := h
    exact .inl ⟨rfl, ms, hms, hinbox, rfl⟩
  source _ _ h := by
    obtain ⟨ms, hms, hinbox, rfl⟩ := h
    exact .inl ⟨rfl, ms, hms, hinbox, rfl⟩
  busFault _ _ _ _ _ := trivial
  sourceFault _ _ _ _ := trivial
  raised _ := trivial
  done _ := trivial
  stop _ h hstop := by
    obtain ⟨d, -, ⟨-, htime⟩, -⟩ := h
    rw [htime] at hstop
    cases hstop
  place _ h := h
  apart r h := by
    obtain ⟨t, rfl, hin, htime, rfl⟩ := h
    exact ⟨{ t with todo := .seq t.todo r }, rfl, hin, htime, rfl⟩

/-- Settles O23: no wait is open outside delays and busy waits, and up to a hold the run is the run without it. -/
theorem readyAfterRequest : Obligations.ReadyAfterRequest := by
  unfold Obligations.ReadyAfterRequest
  refine ⟨fun i s t hw h => ?_, fun i s t ms rest htime hlegal hhold h ht => ?_⟩
  · obtain ⟨hs, hover⟩ | ⟨hf, hready⟩ := exec_over hw h
    · exact ⟨fun _ => hover, fun hf => absurd hs hf⟩
    · exact ⟨fun hs => absurd hs hf, fun _ => hready⟩
  · have hall : ms.all moveLegal = true ∧ rest.all moveLegal = true := by
      unfold hostLegal at hlegal
      rwa [List.all_append, Bool.and_eq_true] at hlegal
    have hc : cfgWf t.cfg = true := by
      rw [exec_cfg h]
      exact (request_next ((exec_eq_request i _).symm.trans h)).1
    obtain ⟨p, q, rfl, hnext, hplaced, -, hrel⟩ := (hold_lockstep rest).exec (s := { s with inbox := ms ++ .hold :: rest }) (d := { s.drive with inbox := ms ++ rest })
      (s' := { s with inbox := ms ++ rest }) (Prog.all_true _) ⟨rfl, htime⟩ ⟨ms, ⟨hall.1, hhold⟩, rfl, rfl⟩ rfl h
    rw [hnext]
    cases hrel with
    | going hr => exact hr.elim
    | ended _ => exact absurd hplaced ht
    | held hr => exact hr.elim
    | apart hr =>
      obtain ⟨t, rfl, hin, htime', rfl⟩ := hr
      have hlegal' : hostLegal t = true := by
        unfold hostLegal
        rw [hin]
        exact hall.2
      exact step_of_inFlight hc ht htime' (nextRefusal_legal hlegal')

end Sys2Proof.Machine

/-!
A failed transfer (40_transport.md R89, 60_exceptions.md R166, R175): the run of a request whose bus fails against the run of the same
request whose bus does not.
-/
namespace Sys2Proof.Machine

/-! ## What a request other than INIT has left so far, with a silent host -/

/-- Events, the bytes driven for them and the transfers drawn since s; the host's side and the fault record are as in s. -/
def SoFar (s u : State) : Prop :=
  (hostSideKept s u ∧ LinesStill s u ∧ u.faultRecord = s.faultRecord ∧ u.status.drop = s.status.drop) ∧
    (hostSilent u = true ∧ u.env.timeRuns = true) ∧
    ∃ evs, u.log = s.log ++ evs ∧ u.wire = s.wire ++ wireOf evs s ∧ u.env.bus.drawn = s.env.bus.drawn + (busBytes evs).length

section SoFar
variable {s u : State}

theorem soFar_began (h : undisturbed s = true) : SoFar s (began s) := by
  have hc := began_calm h
  refine ⟨⟨⟨rfl, rfl, rfl, rfl, rfl, fun _ _ => rfl⟩, .inl rfl, rfl, rfl⟩, ⟨hc.silent, hc.time⟩, [], ?_, ?_, rfl⟩
  · exact (List.append_nil _).symm
  · exact (List.append_nil _).symm

theorem SoFar.silent (h : SoFar s u) : hostSilent u = true := by
  obtain ⟨-, ⟨hsil, -⟩, -⟩ := h
  exact hsil

/-- An event that is not a byte. -/
theorem SoFar.event {e : Event} (he : ∀ s, isByteEvent e = false ∧ wireOf [e] s = []) (h : SoFar s u) : SoFar s (emit e u) := by
  obtain ⟨hkept, hhost, evs, hlog, hwire, hbus⟩ := h
  obtain ⟨hbyte, hframe⟩ := he s
  refine ⟨hkept, hhost, evs ++ [e], ?_, ?_, ?_⟩
  · show u.log ++ [e] = _
    rw [hlog, List.append_assoc]
  · rw [wireOf_append, hframe, List.append_nil]
    exact hwire
  · have hnone : busBytes [e] = [] := by simp [busBytes, hbyte]
    rw [busBytes_append, hnone, List.append_nil]
    exact hbus

/-- The frame of a byte, as the statements compute it. -/
theorem SoFar.frame (h : SoFar s u) (b : ByteKind × Byte) : [wireFrame b.1 b.2 u] = wireOf [byteEvent b] s := by
  obtain ⟨⟨⟨hcfg, -⟩, hlines, -⟩, -⟩ := h
  rw [wireOf_byteEvent, wireFrame_still hcfg hlines]

/-- A byte, sent. -/
theorem SoFar.sent (b : ByteKind × Byte) (h : SoFar s u) : SoFar s (emit (byteEvent b) (drawBus (driveByte b.1 b.2 u)).2) := by
  have hframe := h.frame b
  obtain ⟨⟨hkept, hlines, hrecord, hdrop⟩, hhost, evs, hlog, hwire, hbus⟩ := h
  refine ⟨⟨hkept, hlines.trans hkept.1 (.inr rfl), hrecord, hdrop⟩, hhost, evs ++ [byteEvent b], ?_, ?_, ?_⟩
  · show u.log ++ [byteEvent b] = _
    rw [hlog, List.append_assoc]
  · show u.wire ++ [wireFrame b.1 b.2 u] = _
    rw [hwire, hframe, wireOf_append, List.append_assoc]
  · rw [busBytes_append, busBytes_byteEvent, List.length_append, ← Nat.add_assoc, ← hbus]
    rfl

theorem soFar_kept {i : Instr} (hi : isInit i = false) (c : Cfg) (s : State) : KeptByEffects (mayTake i c) (SoFar s) fun _ => True where
  sent b _ _ _ _ h := h.sent b
  busFault _ _ _ _ _ _ := trivial
  sleepFault _ _ _ _ := trivial
  sourceFault _ _ _ _ := trivial
  initBegin _ hA _ := absurd hA (by simp [mayTake, hi])
  lines _ hA _ := absurd hA (by simp [mayTake, hi])
  bus _ hA _ := absurd hA (by simp [mayTake, hi])
  rstLow _ hA _ := absurd hA (by simp [mayTake, hi])
  pulse _ _ _ hA _ := absurd hA (by simp [mayTake, hi])
  delayEnd ms _ _ h := h.event (e := .delay ms) fun _ => ⟨rfl, rfl⟩
  waitEnd label o _ _ h := by
    have hb := h.event (e := .busy label o) fun _ => ⟨rfl, rfl⟩
    cases o <;> exact hb
  raised _ _ _ _ := trivial
  done _ _ _ := trivial

/-- A fault, where nothing has touched what it records. -/
theorem faultEnds_raised {k : FaultKind} (hshadow : u.shadow = s.shadow) (hrecord : u.faultRecord = s.faultRecord)
    (hdrop : u.status.drop = s.status.drop) : faultEnds k s (raiseFault k u) := by
  refine ⟨rfl, rfl, rfl, rfl, rfl, hshadow ▸ rfl, hdrop, ?_⟩
  rw [← hrecord, ← hshadow]
  rfl

end SoFar

/-! ## A log that has grown past a point -/

/-- With a silent host, steps only append to the log. -/
theorem run_appended_silent (p : Prog) (log : List Event) {s : State} (h : Appended log s) (hsil : hostSilent s = true) :
    (p.run s).Meets (fun u => Appended log u ∧ hostSilent u = true) (Appended log) (Appended log) :=
  run_meets (hostKeeps_silent fun _ _ h => h)
    ((appended_keptByEffects (fun _ => True) log).and (J := fun u => hostSilent u = true) fun u v hi _ hu => by rwa [hostSilent_congr hi])
    p.all_true ⟨h, hsil⟩

theorem Progress.Meets.state {P Q R S : State → Prop} {p : Progress} (h : p.Meets P Q R) (hp : ∀ s, P s → S s) (hq : ∀ s, Q s → S s)
    (hr : ∀ s, R s → S s) : S p.state := by
  cases p with
  | going s => exact hp s h
  | ended s => exact hq s h
  | held s => exact hr s h

/-! ## The two runs -/

/-- The first run's bus has n - c good answers of its m left and the second's is the one given; both have drawn c, at most n. -/
def Spared (o : Oracle Bool) (n m : Nat) (d e : Drive) : Prop :=
  ∃ c, c ≤ n ∧ d.bus = { script := List.replicate (m - c) false, drawn := o.drawn + c } ∧ e = { d with bus := o.skip c }

/-- The first run has sent a byte at which the second has ended with BUS_ERROR. -/
def BusApart (s : State) (n : Nat) (p q : Progress) : Prop :=
  ∃ t evs b, q = .ended t ∧ faultEnds .busError s t ∧ t.log = s.log ++ evs ∧ (busBytes evs).length = n ∧
    t.wire = s.wire ++ wireOf (evs ++ [byteEvent b]) s ∧ hostSideKept s t ∧
    p.Meets (fun u => Appended (s.log ++ evs ++ [byteEvent b]) u ∧ hostSilent u = true) (Appended (s.log ++ evs ++ [byteEvent b]))
      (Appended (s.log ++ evs ++ [byteEvent b]))

/-- At most n bytes have been logged since s. -/
def AtMost (s : State) (n : Nat) (u _v : State) : Prop := (busBytes (u.log.drop s.log.length)).length ≤ n

section Spared
variable {s u : State} {n m : Nat} {d : Drive}

/-- The answers left to the first run are good. -/
theorem Spared.good {o : Oracle Bool} {e : Drive} (hm : n < m) (h : Spared o n m d e) : d.bus.peek Config.freeBusFailure 0 = false := by
  obtain ⟨c, hc, hbus, -⟩ := h
  obtain ⟨k, hk⟩ : ∃ k, m - c = k + 1 := ⟨m - c - 1, by omega⟩
  rw [hbus, hk]
  rfl

theorem Spared.atMost {o : Oracle Bool} (ho : o.drawn = s.env.bus.drawn) (hu : SoFar s u) (h : Spared o n m u.drive d) :
    AtMost s n u (u.withDrive d) := by
  obtain ⟨c, hc, hbus, -⟩ := h
  obtain ⟨-, -, evs, hlog, -, hdrawn⟩ := hu
  have hcount : u.env.bus.drawn = o.drawn + c := congrArg Oracle.drawn hbus
  unfold AtMost
  rw [drop_appended hlog]
  omega

/-- The transfer that tells the two runs apart. -/
theorem busApart_now {b : ByteKind × Byte} {c : Nat} (hh : u.flags.hibernating = false) (hu : SoFar s u)
    (hgood : u.env.bus.peek Config.freeBusFailure 0 = false) (hfail : (s.env.bus.skip c).peek Config.freeBusFailure 0 = true)
    (hbus : u.drive.bus = { script := List.replicate (m - c) false, drawn := s.env.bus.drawn + c }) :
    BusApart s c (transferNow b u) (transferNow b (u.withDrive { u.drive with bus := s.env.bus.skip c })) := by
  have hframe := hu.frame b
  obtain ⟨⟨hkept, -, hrecord, hdrop⟩, ⟨hsil, -⟩, evs, hlog, hwire, hdrawn⟩ := hu
  have hcount : u.env.bus.drawn = s.env.bus.drawn + c := congrArg Oracle.drawn hbus
  obtain ⟨-, -, hshadow, -⟩ := id hkept
  refine ⟨_, evs, b, transferNow_fails (s := u.withDrive { u.drive with bus := s.env.bus.skip c }) hh hfail,
    faultEnds_raised (u := (drawBus (driveByte b.1 b.2 (u.withDrive { u.drive with bus := s.env.bus.skip c }))).2) hshadow hrecord hdrop,
    hlog, by omega, ?_, hkept, ?_⟩
  · show u.wire ++ [wireFrame b.1 b.2 u] = _
    rw [hwire, hframe, wireOf_append, List.append_assoc]
  · rw [transferNow_ok hh hgood]
    refine ⟨⟨[], ?_⟩, hsil⟩
    show u.log ++ [byteEvent b] = _
    rw [hlog, List.append_nil]

theorem spared_lockstep {i : Instr} (hi : isInit i = false) (c : Cfg) (s : State) (hm : n < m) (hok : busOk n s)
    (hfail : s.env.bus.peek Config.freeBusFailure n = true) :
    Lockstep (mayTake i c) (SoFar s) (Spared s.env.bus n m) (AtMost s n) (fun _ _ => False) (BusApart s n) where
  kept := soFar_kept hi c s
  turn {a now u v} _ h hn := by
    obtain ⟨d, rfl, hu, hj⟩ := h
    have hsil := hu.silent
    have hinbox : (u.withDrive d).inbox = u.inbox := by
      obtain ⟨c, -, -, rfl⟩ := hj
      rfl
    rw [takeStep_silent hsil, takeStep_silent ((hostSilent_congr hinbox).trans hsil)]
    exact hn _ _ ⟨d, rfl, hu, hj⟩
  bus {u d} _ hh hu h := by
    have hgood := Spared.good hm h
    obtain ⟨c, hc, hbus, rfl⟩ := h
    have hanswer : (s.env.bus.skip c).peek Config.freeBusFailure 0 = s.env.bus.peek Config.freeBusFailure c := by rw [peek_skip, Nat.add_zero]
    obtain hlt | rfl := Nat.lt_or_eq_of_le hc
    · refine .inl ⟨(hanswer.trans (hok c hlt)).trans hgood.symm, c + 1, hlt, ?_, by rw [skip_skip]⟩
      show u.drive.bus.skip 1 = _
      rw [hbus]
      simp [Oracle.skip, Nat.sub_sub, Nat.add_assoc]
    · exact .inr fun b => busApart_now hh hu hgood (hanswer.trans hfail) hbus
  source _ _ h := by
    obtain ⟨c, hc, hbus, rfl⟩ := h
    exact .inl ⟨rfl, c, hc, hbus, rfl⟩
  busFault _ _ hb _ h := by
    have hgood := Spared.good hm h
    exact Bool.noConfusion (hb.symm.trans hgood)
  sourceFault {u d} _ _ hu h := by
    have hmost : AtMost s n u (u.withDrive d) := Spared.atMost rfl hu h
    exact hmost
  raised {k u v} h := by
    obtain ⟨d, rfl, hu, hj⟩ := h
    have hmost : AtMost s n u (u.withDrive d) := Spared.atMost rfl hu hj
    exact hmost
  done {u v} h := by
    obtain ⟨d, rfl, hu, hj⟩ := h
    have hmost : AtMost s n u (u.withDrive d) := Spared.atMost rfl hu hj
    exact hmost
  stop p h hstop := by
    obtain ⟨d, -, ⟨-, ⟨-, htime⟩, -⟩, -⟩ := h
    rw [htime] at hstop
    cases hstop
  place _ h := h
  apart r h := by
    obtain ⟨t, evs, b, rfl, hends, hlog, hcount, hwire, hkept, happ⟩ := h
    exact ⟨t, evs, b, rfl, hends, hlog, hcount, hwire, hkept,
      happ.andThen (fun _ _ h => h) fun u hu => run_appended_silent r _ hu.1 hu.2⟩

end Spared

/-! ## INIT sends nothing (R107) -/

/-- No byte has been logged since s. -/
def NoBytes (s u : State) : Prop := ∃ evs, u.log = s.log ++ evs ∧ busBytes evs = []

theorem NoBytes.event {s u : State} {e : Event} (he : isByteEvent e = false) (h : NoBytes s u) : NoBytes s (emit e u) := by
  obtain ⟨evs, hlog, hnone⟩ := h
  refine ⟨evs ++ [e], ?_, ?_⟩
  · show u.log ++ [e] = _
    rw [hlog, List.append_assoc]
  · rw [busBytes_append, hnone]
    simp [busBytes, he]

theorem noBytes_init {i : Instr} (hi : isInit i = true) (c : Cfg) (s : State) : KeptByEffects (mayTake i c) (NoBytes s) (NoBytes s) where
  sent _ _ hA _ _ _ := by
    have h := (not_init_of_transfers hA).1
    rw [hi] at h
    cases h
  busFault _ _ _ _ _ h := h
  lines u _ h := NoBytes.event (u := { u with lines := (configureLines u).lines }) rfl h
  bus _ _ h := h.event rfl
  pulse style _ u _ h := NoBytes.event (u := setRst (rstAfter style) u) rfl h
  delayEnd _ _ _ h := h.event rfl
  waitEnd label o _ _ h := by
    have hb := h.event (e := .busy label o) rfl
    cases o <;> exact hb

/-- With a silent host, an INIT logs no byte. -/
theorem init_noBytes {i : Instr} (hi : isInit i = true) {s t : State} (hsil : hostSilent s = true) (h : exec i s = .next t) :
    busBytes (t.log.drop s.log.length) = [] := by
  have H : HostKeeps (fun u => NoBytes s u ∧ hostSilent u = true) (NoBytes s) (NoBytes s) := hostKeeps_silent fun _ _ h => h
  have K := (noBytes_init hi s.cfg s).and (J := fun u => hostSilent u = true) fun u v hi _ hu => by rwa [hostSilent_congr hi]
  have h0 : NoBytes s (began s) ∧ hostSilent (began s) = true := ⟨⟨[], (List.append_nil _).symm, rfl⟩, hsil⟩
  have ht : NoBytes s t := by
    obtain ⟨-, h⟩ | ⟨-, h⟩ := exec_meets H H h0 (run_meets H K (bodyOf_mayTake i s.cfg) h0) (fun _ _ _ hu => hu.1) (fun _ hu => hu.1) h
    · exact h
    · exact h
  obtain ⟨evs, hlog, hnone⟩ := ht
  rw [drop_appended hlog, hnone]

/-! ## The obligation (R89, R166, R175) -/

/-- The run of a request whose bus fails, against the run of the same request whose bus does not. -/
theorem exec_busApart {i : Instr} {n m : Nat} {s u : State} (hu : undisturbed s = true) (hok : busOk n s)
    (hfail : s.env.bus.peek Config.freeBusFailure n = true) (h : exec i (s.spareBus m) = .next u)
    (hn : n < (busBytes (u.log.drop s.log.length)).length) (hm : (busBytes (u.log.drop s.log.length)).length ≤ m) :
    ∃ t evs e tail, exec i s = .next t ∧ faultEnds .busError s t ∧ t.log = s.log ++ evs ∧
      u.log = s.log ++ evs ++ e :: tail ∧ isByteEvent e = true ∧ (busBytes evs).length = n ∧ t.wire = s.wire ++ wireOf (evs ++ [e]) s ∧
      hostSideKept s t := by
  have hi : isInit i = false := by
    cases hi : isInit i with
    | false => rfl
    | true =>
      have hnone : busBytes (u.log.drop s.log.length) = [] := init_noBytes hi (s := s.spareBus m) (soFar_began hu).silent h
      rw [hnone] at hn
      exact absurd hn (Nat.not_lt_zero n)
  have h0 : SoFar s (began (s.spareBus m)) := soFar_began hu
  obtain ⟨p, q, rfl, hnext, -, -, hrel⟩ := (spared_lockstep hi s.cfg s (Nat.lt_of_lt_of_le hn hm) hok hfail).exec (s := s.spareBus m) (d := s.drive)
    (s' := s) (bodyOf_mayTake i s.cfg) h0 ⟨0, Nat.zero_le _, rfl, rfl⟩ rfl h
  cases hrel with
  | going hr => exact hr.elim
  | ended hr => exact absurd hn (Nat.not_lt.2 hr)
  | held hr => exact hr.elim
  | apart hr =>
    obtain ⟨t, evs, b, rfl, hends, hlog, hcount, hwire, hkept, happ⟩ := hr
    have hlater : Appended (s.log ++ evs ++ [byteEvent b]) p.state := happ.state (fun _ h => h.1) (fun _ h => h) fun _ h => h
    obtain ⟨tail, htail⟩ := hlater
    exact ⟨t, evs, byteEvent b, tail, hnext, hends, hlog, by rw [htail]; simp, by cases b with | mk k b => cases k <;> rfl, hcount, hwire,
      hkept⟩

/-- A program after one that takes no step. -/
theorem Falls.afterIdle {k : FaultKind} {evs driven : List Event} {f : Flags} {st : Status} {p q : Prog} {s : State}
    (hp : p.first s.flags = none) (h : Falls k evs driven f st q s) : Falls k evs driven f st (.seq p q) s := by
  obtain ⟨t, ht, hfell⟩ := h
  exact ⟨t, by rw [run_seq, run_of_first_none hp, andThen_going, ht], hfell⟩

/-- The first transfer of a routine's first sequence that fails (R89). -/
theorem body_falls {i : Instr} {bs : List (ByteKind × Byte)} {n : Nat} {s u : State} (hc : Calm u) (hflags : u.flags = s.flags)
    (hh : s.flags.hibernating = false)
    (hi : (i = .powerOn ∧ s.flags.powerOn = false ∧ bs = seqBytes s.cfg.pd.seqPowerOn) ∨
      (i = .powerOff ∧ s.flags.powerOn = true ∧ bs = seqBytes s.cfg.pd.seqPowerOff) ∨
      (i = .refresh false ∧ s.flags.usingPartialMode = false ∧ bs = seqBytes s.cfg.pd.seqFullUpdate) ∨
      (∃ v, i = .writeScreenBuffer v ∧ s.flags.usingPartialMode = true ∧ s.flags.initialRefresh = false ∧ bs = fillBytes s.cfg .cur v))
    (hn : n < bs.length) (hb : busOk n u) (hf : u.env.bus.peek Config.freeBusFailure n = true) :
    Falls .busError (eventsOf (bs.take n)) (eventsOf (bs.take (n + 1))) u.flags u.status ((bodyOf i).2 s.cfg) u := by
  have hsend := sendBytes_falls hc (by rw [hflags, hh]) hn hb hf
  obtain ⟨rfl, hp, rfl⟩ | ⟨rfl, hp, rfl⟩ | ⟨rfl, hp, rfl⟩ | ⟨v, rfl, hp, hr, rfl⟩ := hi
  · exact Falls.ifFalse .powerOn (by rw [hflags]; exact hp) (Falls.first hsend)
  · exact Falls.ifTrue .powerOn (by rw [hflags]; exact hp) (Falls.first hsend)
  · exact Falls.afterIdle (first_ifFalse (by rw [hflags]; exact hp)) (Falls.first hsend)
  · exact Falls.afterIdle (first_ifTrue (by rw [hflags]; exact hp)) (Falls.afterIdle (first_ifFalse (by rw [hflags]; exact hr)) (Falls.first hsend))

/-- Settles O47: the run whose bus fails and the run whose bus does not stay together up to the byte at which they come apart. -/
theorem busErrorKeepsPrefix : Obligations.BusErrorKeepsPrefix := by
  unfold Obligations.BusErrorKeepsPrefix
  refine ⟨fun i n m s u hu hok hfail h hn hm => exec_busApart hu hok hfail h hn hm, fun s b hc hsil hh hf hfail => ?_,
    fun i bs n s hu hmay hi hn hok hfail => ?_⟩
  · have hrun : runAct (.send b) { s with todo := .skip } =
        .ended (raiseFault .busError (drawBus (driveByte b.1 b.2 { s with todo := .skip })).2) :=
      transfer_bus_fails (s := { s with todo := .skip }) hsil hh hfail
    exact ⟨_, step_of_first_ended hc hsil hf hrun rfl, ⟨rfl, rfl, rfl, rfl, rfl, rfl, rfl, rfl, rfl⟩, rfl,
      ⟨rfl, rfl, rfl, rfl, rfl, fun _ _ => rfl⟩, rfl, rfl, rfl⟩
  · obtain ⟨hinit, hh⟩ := mayTransfer_iff.1 hmay
    have hgate : gateFault (bodyOf i).1 s = none := by
      refine gateFault_none hinit fun hd => ?_
      obtain ⟨rfl, -⟩ | ⟨rfl, -⟩ | ⟨rfl, -⟩ | ⟨v, rfl, -⟩ := hi <;> cases hd
    obtain ⟨t, ht, hfell⟩ := request_falls (body := (bodyOf i).2) hu hgate (body_falls (began_calm hu) rfl hh hi hn hok hfail)
    rw [exec_eq_request]
    exact ⟨t, ht, hfell.faultTaken, hfell.flags, hfell.hostSideKept, hfell.log, hfell.wire⟩

end Sys2Proof.Machine

/-!
A failed bitmap read (20_memory.md R41, 43_write.md R135, 60_exceptions.md R166, R176): the run of a request whose reads fail against the
run of the same request whose reads do not.
-/
namespace Sys2Proof.Machine

/-! ## The two runs -/

/-- The first run's source has n - c good answers of its m left and the second's is the one given; both have drawn c, at most n. -/
def SparedReads (o : Oracle Bool) (n m : Nat) (d e : Drive) : Prop :=
  ∃ c, c ≤ n ∧ d.source = { script := List.replicate (m - c) false, drawn := o.drawn + c } ∧ e = { d with source := o.skip c }

/-- The first run has read a byte, at which the second has ended with SOURCE_ERROR, and sends it next, unless a fault ends it there. -/
def ReadApart (s : State) (n : Nat) (p q : Progress) : Prop :=
  ∃ t evs b, q = .ended t ∧ faultEnds .sourceError s t ∧ t.log = s.log ++ evs ∧ t.env.source.drawn = s.env.source.drawn + n + 1 ∧
    t.wire = s.wire ++ wireOf evs s ∧ hostSideKept s t ∧
    p.Meets (fun u => Appended (s.log ++ evs ++ [.data b]) u ∧ hostSilent u = true)
      (fun u => u.faultRecord ≠ s.faultRecord ∨ Appended (s.log ++ evs ++ [.data b]) u) (Appended (s.log ++ evs ++ [.data b]))

/-- At most n reads have been drawn since s. -/
def ReadAtMost (s : State) (n : Nat) (u _v : State) : Prop := u.env.source.drawn ≤ n + s.env.source.drawn

section Spared
variable {s u : State} {n m : Nat} {d e : Drive}

/-- The answers left to the first run are good. -/
theorem SparedReads.good {o : Oracle Bool} (hm : n < m) (h : SparedReads o n m d e) : d.source.peek Config.freeSourceError 0 = false := by
  obtain ⟨c, hc, hsource, -⟩ := h
  obtain ⟨k, hk⟩ : ∃ k, m - c = k + 1 := ⟨m - c - 1, by omega⟩
  rw [hsource, hk]
  rfl

theorem SparedReads.atMost (h : SparedReads s.env.source n m u.drive d) : ReadAtMost s n u (u.withDrive d) := by
  obtain ⟨c, hc, hsource, -⟩ := h
  have hcount : u.env.source.drawn = s.env.source.drawn + c := congrArg Oracle.drawn hsource
  unfold ReadAtMost
  omega

/-- The read that tells the two runs apart. -/
theorem readApart_now {space : Space} {inv : Bool} {a : Word} {c : Nat} (hu : SoFar s u)
    (hgood : u.env.source.peek Config.freeSourceError 0 = false) (hfail : (s.env.source.skip c).peek Config.freeSourceError 0 = true) :
    ReadApart s c (streamNow space inv a u) (streamNow space inv a (u.withDrive { u.drive with source := s.env.source.skip c })) := by
  obtain ⟨⟨hkept, -, hrecord, hdrop⟩, ⟨hsil, -⟩, evs, hlog, hwire, -⟩ := hu
  obtain ⟨-, -, hshadow, -⟩ := id hkept
  refine ⟨_, evs, applyInvert inv (engineByte space a u), streamNow_fails (s := u.withDrive { u.drive with source := s.env.source.skip c }) hfail,
    faultEnds_raised (u := (drawSource (u.withDrive { u.drive with source := s.env.source.skip c })).2) hshadow hrecord hdrop,
    hlog, rfl, hwire, hkept, ?_⟩
  rw [streamNow_ok hgood, transfer, takeStep_silent (s := (drawSource u).2) hsil]
  cases hh : u.flags.hibernating with
  | true =>
    rw [transferNow_asleep (s := (drawSource u).2) hh]
    exact .inl (unfaulted_raised (u := (drawSource u).2) hrecord)
  | false =>
    cases hb : u.env.bus.peek Config.freeBusFailure 0 with
    | true =>
      rw [transferNow_fails (s := (drawSource u).2) hh hb]
      exact .inl (unfaulted_raised (u := (drawBus (driveByte .data _ (drawSource u).2)).2) hrecord)
    | false =>
      rw [transferNow_ok (s := (drawSource u).2) hh hb]
      refine ⟨⟨[], ?_⟩, hsil⟩
      show u.log ++ [.data _] = _
      rw [hlog, List.append_nil]

theorem sparedReads_lockstep {i : Instr} (hi : isInit i = false) (c : Cfg) (s : State) (hm : n < m) (hok : sourceOk n s)
    (hfail : s.env.source.peek Config.freeSourceError n = true) :
    Lockstep (mayTake i c) (SoFar s) (SparedReads s.env.source n m) (ReadAtMost s n) (fun _ _ => False) (ReadApart s n) where
  kept := soFar_kept hi c s
  turn {a now u v} _ h hn := by
    obtain ⟨d, rfl, hu, hj⟩ := h
    have hsil := hu.silent
    have hinbox : (u.withDrive d).inbox = u.inbox := by
      obtain ⟨c, -, -, rfl⟩ := hj
      rfl
    rw [takeStep_silent hsil, takeStep_silent ((hostSilent_congr hinbox).trans hsil)]
    exact hn _ _ ⟨d, rfl, hu, hj⟩
  bus _ _ _ h := by
    obtain ⟨c, hc, hsource, rfl⟩ := h
    exact .inl ⟨rfl, c, hc, hsource, rfl⟩
  source {u d} _ hu h := by
    have hgood := SparedReads.good hm h
    obtain ⟨c, hc, hsource, rfl⟩ := h
    have hanswer : (s.env.source.skip c).peek Config.freeSourceError 0 = s.env.source.peek Config.freeSourceError c := by
      rw [peek_skip, Nat.add_zero]
    obtain hlt | rfl := Nat.lt_or_eq_of_le hc
    · refine .inl ⟨(hanswer.trans (hok c hlt)).trans hgood.symm, c + 1, hlt, ?_, by rw [skip_skip]⟩
      show u.drive.source.skip 1 = _
      rw [hsource]
      simp [Oracle.skip, Nat.sub_sub, Nat.add_assoc]
    · exact .inr fun space inv a => readApart_now hu hgood (hanswer.trans hfail)
  busFault {_ u d} _ _ _ _ h := by
    have hmost : ReadAtMost s n u (u.withDrive d) := SparedReads.atMost h
    exact hmost
  sourceFault _ hs _ h := Bool.noConfusion (hs.symm.trans (SparedReads.good hm h))
  raised h := by
    obtain ⟨d, rfl, -, hj⟩ := h
    exact SparedReads.atMost hj
  done h := by
    obtain ⟨d, rfl, -, hj⟩ := h
    exact SparedReads.atMost hj
  stop p h hstop := by
    obtain ⟨d, -, ⟨-, ⟨-, htime⟩, -⟩, -⟩ := h
    rw [htime] at hstop
    cases hstop
  place _ h := h
  apart r h := by
    obtain ⟨t, evs, b, rfl, hends, hlog, hcount, hwire, hkept, happ⟩ := h
    exact ⟨t, evs, b, rfl, hends, hlog, hcount, hwire, hkept, happ.andThen (fun _ _ h => h) fun u hu =>
      (run_appended_silent r _ hu.1 hu.2).mono (fun _ h => h) fun _ h => .inr h⟩

end Spared

/-! ## INIT reads nothing (R107) -/

theorem noReads_init {i : Instr} (hi : isInit i = true) (c : Cfg) (s : State) :
    KeptByEffects (mayTake i c) (fun u => u.env.source.drawn = s.env.source.drawn) fun u => u.env.source.drawn = s.env.source.drawn where
  source _ hA _ _ := by
    obtain ⟨space, inv, a, hA⟩ := hA
    have h := (not_init_of_readsBitmap hA).1
    rw [hi] at h
    cases h
  sourceFault _ hA _ _ := by
    obtain ⟨space, inv, a, hA⟩ := hA
    have h := (not_init_of_readsBitmap hA).1
    rw [hi] at h
    cases h

/-- With a silent host, an INIT draws no answer of the source. -/
theorem init_noReads {i : Instr} (hi : isInit i = true) {s t : State} (hsil : hostSilent s = true) (h : exec i s = .next t) :
    t.env.source.drawn = s.env.source.drawn := by
  have H : HostKeeps (fun u => u.env.source.drawn = s.env.source.drawn ∧ hostSilent u = true)
      (fun u => u.env.source.drawn = s.env.source.drawn) (fun u => u.env.source.drawn = s.env.source.drawn) := hostKeeps_silent fun _ _ h => h
  have K := (noReads_init hi s.cfg s).and (J := fun u => hostSilent u = true) fun u v hi _ hu => by rwa [hostSilent_congr hi]
  have h0 : (began s).env.source.drawn = s.env.source.drawn ∧ hostSilent (began s) = true := ⟨rfl, hsil⟩
  obtain ⟨-, h⟩ | ⟨-, h⟩ := exec_meets H H h0 (run_meets H K (bodyOf_mayTake i s.cfg) h0) (fun _ _ _ hu => hu.1) (fun _ hu => hu.1) h
  · exact h
  · exact h

/-! ## The obligation (R135, R166, R176) -/

/-- The run of a request whose reads fail, against the run of the same request whose reads do not. -/
theorem exec_readApart {i : Instr} {n m : Nat} {s u : State} (hu : undisturbed s = true) (hok : sourceOk n s)
    (hfail : s.env.source.peek Config.freeSourceError n = true) (h : exec i (s.spareSource m) = .next u) (hrecord : u.faultRecord = s.faultRecord)
    (hn : n + s.env.source.drawn < u.env.source.drawn) (hm : u.env.source.drawn ≤ m + s.env.source.drawn) :
    ∃ t evs b tail, exec i s = .next t ∧ faultEnds .sourceError s t ∧ t.log = s.log ++ evs ∧
      u.log = s.log ++ evs ++ .data b :: tail ∧ t.env.source.drawn = s.env.source.drawn + n + 1 ∧
      t.wire = s.wire ++ wireOf evs s ∧ hostSideKept s t := by
  have hi : isInit i = false := by
    cases hi : isInit i with
    | false => rfl
    | true =>
      have hnone : u.env.source.drawn = s.env.source.drawn := init_noReads hi (s := s.spareSource m) (soFar_began hu).silent h
      omega
  have h0 : SoFar s (began (s.spareSource m)) := soFar_began hu
  obtain ⟨p, q, rfl, hnext, -, -, hrel⟩ := (sparedReads_lockstep (n := n) (m := m) hi s.cfg s (by omega) hok hfail).exec (s := s.spareSource m)
    (d := s.drive) (s' := s) (bodyOf_mayTake i s.cfg) h0 ⟨0, Nat.zero_le _, rfl, rfl⟩ rfl h
  cases hrel with
  | going hr => exact hr.elim
  | ended hr => exact absurd hn (Nat.not_lt.2 hr)
  | held hr => exact hr.elim
  | apart hr =>
    obtain ⟨t, evs, b, rfl, hends, hlog, hcount, hwire, hkept, happ⟩ := hr
    have hlater : p.state.faultRecord ≠ s.faultRecord ∨ Appended (s.log ++ evs ++ [.data b]) p.state :=
      happ.state (fun _ h => .inr h.1) (fun _ h => h) fun _ h => .inr h
    obtain ⟨tail, htail⟩ := hlater.resolve_left fun h => h hrecord
    exact ⟨t, evs, b, tail, hnext, hends, hlog, by rw [htail]; simp, hcount, hwire, hkept⟩

section Write
variable {p : Plane} {g : Region} {n : Nat} {c : Cfg} {s : State}

/-- The first read of a stream that fails: the window, the select and the bytes read before it have been sent (R135). -/
theorem streamRect_falls (hc : Calm s) (hh : s.flags.hibernating = false) (hn : n < (planeAddrs p g).length) (hb : busOk (16 + n) s)
    (hs : sourceOk n s) (hf : s.env.source.peek Config.freeSourceError n = true) :
    let evs := eventsOf (targetBytes c.pd g.clip p.sel) ++ ((planeBytes p g s).take n).map Event.data
    Falls .sourceError evs evs s.flags s.status (streamRect p g c) s := by
  have hcount : (busBytes (eventsOf (targetBytes c.pd g.clip p.sel))).length = 16 := busBytes_eventsOf_length _
  have hsend := sendBytes_runs (bs := targetBytes c.pd g.clip p.sel) hc hh fun k hk => hb k (by omega)
  refine Falls.second hsend fun t ht => Falls.first ?_
  have hfell := streamBytes_falls (space := p.space) (inv := p.inv) (ht.calm hc hc.waiting) (by rw [ht.flags]; exact hh) hn
    (fun k hk => by rw [ht.source, skip_zero]; exact hs k hk) (fun k hk => by rw [ht.bus, peek_skip]; exact hb _ (by omega))
    (by rw [ht.source, skip_zero]; exact hf)
  simp only [ht.byteAt] at hfell
  rw [ht.flags, ht.status, List.map_take] at hfell
  exact hfell

/-- In Partial mode with the panel cleared a region write's stream is all that can fail (R136). -/
theorem writeRegion_falls (hg : resolveRegion c p = some g) (hc : Calm s) (hm : s.flags.usingPartialMode = true)
    (hw : s.flags.initialWrite = false) (hh : s.flags.hibernating = false) (hn : n < (planeAddrs p g).length) (hb : busOk (16 + n) s)
    (hs : sourceOk n s) (hf : s.env.source.peek Config.freeSourceError n = true) :
    let evs := delayEvents c.tYieldMs ++ (eventsOf (targetBytes c.pd g.clip p.sel) ++ ((planeBytes p g s).take n).map Event.data)
    Falls .sourceError evs evs s.flags s.status (writeRegion p c) s := by
  have hnone : (busBytes (delayEvents c.tYieldMs)).length = 0 := by rw [busBytes_delay]; rfl
  rw [writeRegion, hg]
  refine Falls.second (delay_runs hc) fun t ht => ?_
  have hbus : t.env.bus = s.env.bus := by rw [ht.bus, hnone, skip_zero]
  have hsource : t.env.source = s.env.source := by rw [ht.source, skip_zero]
  have hfell := streamRect_falls (p := p) (g := g) (c := c) (ht.calm hc hc.waiting) (by rw [ht.flags]; exact hh) hn
    (fun k hk => by rw [hbus]; exact hb k hk) (fun k hk => by rw [hsource]; exact hs k hk) (by rw [hsource]; exact hf)
  have hbytes : planeBytes p g t = planeBytes p g s := by simp only [planeBytes, ht.byteAt]
  rw [hbytes, ht.flags, ht.status] at hfell
  exact Falls.afterIdle (first_ifFalse (by rw [ht.flags]; exact hw)) (Falls.afterIdle (first_ifTrue (by rw [ht.flags]; exact hm))
    (Falls.first hfell))

end Write

/-- A dual-plane request writes two planes (R139). -/
theorem not_dual_of_onePlane {i : Instr} {p : Plane} (h : planesOf i = [p]) : isDual i = false := by
  cases i
  case writeImageDual | writeImagePartDual | drawImageDual | drawImagePartDual => simp [planesOf] at h
  all_goals rfl

/-- Settles O48: the run whose reads fail and the run whose reads do not stay together up to the read at which they come apart. -/
theorem sourceErrorKeepsPrefix : Obligations.SourceErrorKeepsPrefix := by
  unfold Obligations.SourceErrorKeepsPrefix
  refine ⟨fun i n m s u hu hok hfail h hrecord hn hm => exec_readApart hu hok hfail h hrecord hn hm, fun s space inv a hc hsil hf hfail => ?_,
    fun i p g n s hu hmay hi hp hg hm hw hn hb hs hfail => ?_⟩
  · have hrun : runAct (.stream space inv a) { s with todo := .skip } =
        .ended (raiseFault .sourceError (drawSource { s with todo := .skip }).2) := by
      rw [runAct, takeStep_silent (s := { s with todo := .skip }) hsil, streamNow_fails (s := { s with todo := .skip }) hfail]
    exact ⟨_, step_of_first_ended hc hsil hf hrun rfl, ⟨rfl, rfl, rfl, rfl, rfl, rfl, rfl, rfl, rfl⟩, rfl,
      ⟨rfl, rfl, rfl, rfl, rfl, fun _ _ => rfl⟩, rfl, rfl, rfl⟩
  · obtain ⟨hinit, hh⟩ := mayTransfer_iff.1 hmay
    have hgate : gateFault (bodyOf i).1 s = none := gateFault_none hinit fun hd => by
      rw [not_dual_of_onePlane hp] at hd
      cases hd
    have hfell := writeRegion_falls hg (began_calm hu) hm hw hh hn hb hs hfail
    have hbody : (bodyOf i).2 s.cfg = writeRegion p s.cfg := by rw [bodyOf_imageWrite hi, hp]; rfl
    obtain ⟨t, ht, hfell⟩ := request_falls (body := (bodyOf i).2) hu hgate (by rw [hbody]; exact hfell)
    rw [exec_eq_request]
    refine ⟨t, ht, hfell.faultTaken, hfell.flags, hfell.hostSideKept, ?_⟩
    rw [hfell.log, ← List.append_assoc, ← List.append_assoc]
    rfl

end Sys2Proof.Machine
